-- ==== Sys2Proof/Word.lean ====
section
/-! DEFINITION. Words and bytes (00_scope.md R9, R10): a register is 32 bits, a byte 8; every other quantity of a rule is a
natural number, truncated only where a rule writes a register or a byte. -/

namespace Sys2Proof

/-- One byte (R9: bit 7 is its most significant bit). -/
abbrev Byte := BitVec 8

/-- The value of a 32-bit register. -/
abbrev Word := BitVec 32

/-- `trunc_32(v)` of R10: what storing the natural number `v` in a register leaves there. -/
abbrev trunc32 (v : Nat) : Word := BitVec.ofNat 32 v

end Sys2Proof
end

