-- ==== Sys2Proof/Config.lean ====
section
/-! DEFINITION. What an implementation or a platform fixes: the free values (constants without a body, so that no proof can use a
value of theirs) and the platform parameters 00_scope.md R7 leaves OPEN. -/

namespace Sys2Proof

/-- The byte the bus holds at an address nothing has written (95_test_vectors.md section 8 "Memory not listed is arbitrary",
R602). A free value of the address. Log 1. -/
opaque Config.ramByte : Nat → Byte

/-- The byte an output region holds after ERR, an abort or a reset during a run (R115, U1), and the byte a host memory read
returns where it "returns any value" (R114, U2). Applied to the draw counter. Logs 6 and 7. -/
opaque Config.freeByte : Nat → Byte

/-- What a host read of a result register returns while BUSY = 1 (R46, U2). Applied to the draw counter. Log 7. -/
opaque Config.freeWord : Nat → Word

/-- Whether the engine, with an abort pending, honours it at this step (R204, U5: "a draw"). Applied to the draw counter.
Log 5. -/
opaque Config.abortNow : Nat → Bool

/-- How many register updates of the engine step an abort cuts short have been made (R203, R204: "at some later step", U11). Applied to
the draw counter. Log 5. -/
opaque Config.abortPoint : Nat → Nat

/-- What the engine reads at an address whose host write a non-coherent platform has not made visible (R113, R119). Applied to
the draw counter and the address. Log 9. -/
opaque Config.uncleanByte : Nat → Nat → Byte

/-- The direction of an engine access (R567: ERR_AUX 0 for a read, 1 for a write). -/
inductive Dir where
  | read
  | write
deriving DecidableEq, Repr

/-- A range of bus addresses and a direction: the platform's predicate of R583 is a list of these. -/
structure BusRange where
  lo  : Nat
  len : Nat
  dir : Dir
deriving DecidableEq, Repr

/-- The OPEN parameters of R7 and what R100 and U16 leave to the platform, as plain data that no step changes. Log 8. -/
structure Platform where
  /-- `REG_BASE` (R7, R110). -/
  regBase : Word
  /-- Whether the register window lies inside the system bus space (R100). -/
  windowOnBus : Bool
  /-- `P_COHERENT` (R119). -/
  coherent : Bool
  /-- `P_BUS_ERROR` (R583). -/
  busError : Bool
  /-- Which engine accesses fail when `P_BUS_ERROR` is true (R583 "a predicate on address and direction"). -/
  failing : List BusRange
  /-- Base and length of each range of the bus the platform does not implement (U16). -/
  unmapped : List (Nat × Nat)
deriving DecidableEq, Repr

/-- The platform the reset state stands on: no bus error, coherent, the window off the bus. DESIGN CHOICE, log 8: no step and no
statement rests on these values. -/
def Platform.default : Platform :=
  { regBase := 0#32, windowOnBus := false, coherent := true, busError := false, failing := [], unmapped := [] }

end Sys2Proof
end

