-- ==== Sys2Proof/Syntax.lean ====
section
/-! DEFINITION. The instructions: one constructor per row of `opcode_table.json`, in the table's order. A constructor holds the
operand fields the row's encoding carries (30_encoding.md); the fields of a CTRL word are those of R141. -/

namespace Sys2Proof

/-- The decoded units of every layer of 30_encoding.md R140. `rsv` is the ignored field 31:7 of a CTRL word, kept so that encoding
loses no bit. -/
inductive Instr where
  /-- R200, a CTRL write with START = ABORT = 0. -/
  | wrCtrl (mode : BitVec 3) (irqEn fcheckEn : Bool) (rsv : BitVec 25)
  /-- R202, MODE 0. The ABORT bit is don't-care while idle. -/
  | startFull (abort irqEn fcheckEn : Bool) (rsv : BitVec 25)
  /-- R202, MODE 1. -/
  | startInflate (abort irqEn fcheckEn : Bool) (rsv : BitVec 25)
  /-- R202, MODE 2. -/
  | startUnfilter (abort irqEn fcheckEn : Bool) (rsv : BitVec 25)
  /-- R202, MODE 3. -/
  | startCrc32 (abort irqEn fcheckEn : Bool) (rsv : BitVec 25)
  /-- R202, R206, MODE 4 to 7. -/
  | startReserved (mode : BitVec 3) (abort irqEn fcheckEn : Bool) (rsv : BitVec 25)
  /-- R204. The START bit is don't-care while busy. -/
  | abort (start : Bool) (mode : BitVec 3) (irqEn fcheckEn : Bool) (rsv : BitVec 25)
  /-- R205. -/
  | wrStatus (v : Word)
  /-- R201. -/
  | wrReg (off : BitVec 8) (v : Word)
  /-- R212. -/
  | rdReg (off : BitVec 8)
  /-- R252. -/
  | sig
  /-- R143, R144, R261: the length field of an IHDR chunk. -/
  | chunkIhdr (len : Word)
  /-- R268. -/
  | chunkPlte (len : Word)
  /-- R273. -/
  | chunkIdat (len : Word)
  /-- R256. -/
  | chunkIend (len : Word)
  /-- R257: length and type. -/
  | chunkUnknownCritical (len typ : Word)
  /-- R258. -/
  | chunkAncillary (len typ : Word)
  /-- R331: the two header bytes. -/
  | zlibCm (cmf flg : Byte)
  /-- R332. -/
  | zlibFdict (cmf flg : Byte)
  /-- R333. -/
  | zlibFcheck (cmf flg : Byte)
  /-- R339, BTYPE 00. -/
  | blockStored (bfinal : Bool)
  /-- R342, BTYPE 01. -/
  | blockFixed (bfinal : Bool)
  /-- R343, BTYPE 10. -/
  | blockDynamic (bfinal : Bool)
  /-- R338, BTYPE 11. -/
  | blockReserved (bfinal : Bool)
  /-- R432, fixed 8-bit codewords (literals 0 to 143). -/
  | litFixed8 (lit : Byte)
  /-- R432, fixed 9-bit codewords (literals 144 to 255). -/
  | litFixed9 (lit : Byte)
  /-- R432, a codeword of a dynamic block. -/
  | litDyn (lit : Byte)
  /-- R433. -/
  | eob
  /-- R434: length 3. -/
  | len257
  /-- R434: length 4. -/
  | len258
  /-- R434: length 5. -/
  | len259
  /-- R434: length 6. -/
  | len260
  /-- R434: length 7. -/
  | len261
  /-- R434: length 8. -/
  | len262
  /-- R434: length 9. -/
  | len263
  /-- R434: length 10. -/
  | len264
  /-- R434: length 11 to 12. -/
  | len265 (e : BitVec 1)
  /-- R434: length 13 to 14. -/
  | len266 (e : BitVec 1)
  /-- R434: length 15 to 16. -/
  | len267 (e : BitVec 1)
  /-- R434: length 17 to 18. -/
  | len268 (e : BitVec 1)
  /-- R434: length 19 to 22. -/
  | len269 (e : BitVec 2)
  /-- R434: length 23 to 26. -/
  | len270 (e : BitVec 2)
  /-- R434: length 27 to 30. -/
  | len271 (e : BitVec 2)
  /-- R434: length 31 to 34. -/
  | len272 (e : BitVec 2)
  /-- R434: length 35 to 42. -/
  | len273 (e : BitVec 3)
  /-- R434: length 43 to 50. -/
  | len274 (e : BitVec 3)
  /-- R434: length 51 to 58. -/
  | len275 (e : BitVec 3)
  /-- R434: length 59 to 66. -/
  | len276 (e : BitVec 3)
  /-- R434: length 67 to 82. -/
  | len277 (e : BitVec 4)
  /-- R434: length 83 to 98. -/
  | len278 (e : BitVec 4)
  /-- R434: length 99 to 114. -/
  | len279 (e : BitVec 4)
  /-- R434: length 115 to 130. -/
  | len280 (e : BitVec 4)
  /-- R434: length 131 to 162. -/
  | len281 (e : BitVec 5)
  /-- R434: length 163 to 194. -/
  | len282 (e : BitVec 5)
  /-- R434: length 195 to 226. -/
  | len283 (e : BitVec 5)
  /-- R434: length 227 to 258. -/
  | len284 (e : BitVec 5)
  /-- R434: length 258. -/
  | len285
  /-- R435: symbol 286 (low 0) or 287 (low 1). -/
  | litlenInvalid (low : BitVec 1)
  /-- R436: distance 1. -/
  | dist0
  /-- R436: distance 2. -/
  | dist1
  /-- R436: distance 3. -/
  | dist2
  /-- R436: distance 4. -/
  | dist3
  /-- R436: distance 5 to 6. -/
  | dist4 (e : BitVec 1)
  /-- R436: distance 7 to 8. -/
  | dist5 (e : BitVec 1)
  /-- R436: distance 9 to 12. -/
  | dist6 (e : BitVec 2)
  /-- R436: distance 13 to 16. -/
  | dist7 (e : BitVec 2)
  /-- R436: distance 17 to 24. -/
  | dist8 (e : BitVec 3)
  /-- R436: distance 25 to 32. -/
  | dist9 (e : BitVec 3)
  /-- R436: distance 33 to 48. -/
  | dist10 (e : BitVec 4)
  /-- R436: distance 49 to 64. -/
  | dist11 (e : BitVec 4)
  /-- R436: distance 65 to 96. -/
  | dist12 (e : BitVec 5)
  /-- R436: distance 97 to 128. -/
  | dist13 (e : BitVec 5)
  /-- R436: distance 129 to 192. -/
  | dist14 (e : BitVec 6)
  /-- R436: distance 193 to 256. -/
  | dist15 (e : BitVec 6)
  /-- R436: distance 257 to 384. -/
  | dist16 (e : BitVec 7)
  /-- R436: distance 385 to 512. -/
  | dist17 (e : BitVec 7)
  /-- R436: distance 513 to 768. -/
  | dist18 (e : BitVec 8)
  /-- R436: distance 769 to 1024. -/
  | dist19 (e : BitVec 8)
  /-- R436: distance 1025 to 1536. -/
  | dist20 (e : BitVec 9)
  /-- R436: distance 1537 to 2048. -/
  | dist21 (e : BitVec 9)
  /-- R436: distance 2049 to 3072. -/
  | dist22 (e : BitVec 10)
  /-- R436: distance 3073 to 4096. -/
  | dist23 (e : BitVec 10)
  /-- R436: distance 4097 to 6144. -/
  | dist24 (e : BitVec 11)
  /-- R436: distance 6145 to 8192. -/
  | dist25 (e : BitVec 11)
  /-- R436: distance 8193 to 12288. -/
  | dist26 (e : BitVec 12)
  /-- R436: distance 12289 to 16384. -/
  | dist27 (e : BitVec 12)
  /-- R436: distance 16385 to 24576. -/
  | dist28 (e : BitVec 13)
  /-- R436: distance 24577 to 32768. -/
  | dist29 (e : BitVec 13)
  /-- R437: symbol 30 (low 0) or 31 (low 1). -/
  | distInvalid (low : BitVec 1)
  /-- R350: the next code length. -/
  | clLen (sym : BitVec 4)
  /-- R351. -/
  | cl16 (e : BitVec 2)
  /-- R352. -/
  | cl17 (e : BitVec 3)
  /-- R353. -/
  | cl18 (e : BitVec 7)
  /-- R498. -/
  | filtNone
  /-- R499. -/
  | filtSub
  /-- R500. -/
  | filtUp
  /-- R501. -/
  | filtAvg
  /-- R502. -/
  | filtPaeth
  /-- R496: filter bytes 5 to 255. -/
  | filtInvalid (ft : Byte)
deriving DecidableEq, Repr

end Sys2Proof
end

