-- ==== Sys2Proof/WellFormed.lean ====
section
/-! DEFINITION. Which terms of `Instr` stand for an encoding of their row (30_encoding.md R141, R144, R159, R164, R165). Every
constructor not listed with a check has an encoding for every value of its fields. -/

namespace Sys2Proof

/-- The chunk types of R144, as numbers. -/
def typIHDR : Word := 0x49484452#32
def typPLTE : Word := 0x504C5445#32
def typIDAT : Word := 0x49444154#32
def typIEND : Word := 0x49454E44#32

/-- The first byte of a chunk type is in 0x41..0x5A (R257, D24). -/
def isCritical (typ : Word) : Bool :=
  0x41 ≤ (typ.toNat >>> 24) && (typ.toNat >>> 24) ≤ 0x5A

/-- T is one of the four recognised critical types (R144). -/
def isKnownType (typ : Word) : Bool :=
  typ == typIHDR || typ == typPLTE || typ == typIDAT || typ == typIEND

/-- A register access is aligned (R106: address ≡ 0 mod 4). The model tests the offset alone: it takes REG_BASE, which R7 and R110 leave OPEN
with no alignment stated, to be a multiple of 4. PRESUMED, unsafe, log 26. -/
def offAligned (off : BitVec 8) : Bool := off.toNat % 4 == 0

/-- The checks, row by row. -/
def Instr.wf : Instr → Bool
  | .startReserved mode _ _ _ _ => 4 ≤ mode.toNat
  | .wrReg off _ => offAligned off && off != 0x04#8 && off != 0x08#8
  | .rdReg off => offAligned off
  | .chunkUnknownCritical _ typ => isCritical typ && !isKnownType typ
  | .chunkAncillary _ typ => !isCritical typ
  | .litFixed8 lit => lit.toNat < 144
  | .litFixed9 lit => 144 ≤ lit.toNat
  | .filtInvalid ft => 4 < ft.toNat
  | .wrCtrl _ _ _ _ | .startFull _ _ _ _ | .startInflate _ _ _ _ | .startUnfilter _ _ _ _ | .startCrc32 _ _ _ _
  | .abort _ _ _ _ _ | .wrStatus _ | .sig | .chunkIhdr _ | .chunkPlte _ | .chunkIdat _ | .chunkIend _ | .zlibCm _ _
  | .zlibFdict _ _ | .zlibFcheck _ _ | .blockStored _ | .blockFixed _ | .blockDynamic _ | .blockReserved _ | .litDyn _ | .eob
  | .len257 | .len258 | .len259 | .len260 | .len261 | .len262 | .len263 | .len264 | .len265 _ | .len266 _ | .len267 _ | .len268 _
  | .len269 _ | .len270 _ | .len271 _ | .len272 _ | .len273 _ | .len274 _ | .len275 _ | .len276 _ | .len277 _ | .len278 _
  | .len279 _ | .len280 _ | .len281 _ | .len282 _ | .len283 _ | .len284 _ | .len285 | .litlenInvalid _ | .dist0 | .dist1 | .dist2
  | .dist3 | .dist4 _ | .dist5 _ | .dist6 _ | .dist7 _ | .dist8 _ | .dist9 _ | .dist10 _ | .dist11 _ | .dist12 _ | .dist13 _
  | .dist14 _ | .dist15 _ | .dist16 _ | .dist17 _ | .dist18 _ | .dist19 _ | .dist20 _ | .dist21 _ | .dist22 _ | .dist23 _
  | .dist24 _ | .dist25 _ | .dist26 _ | .dist27 _ | .dist28 _ | .dist29 _ | .distInvalid _ | .clLen _ | .cl16 _ | .cl17 _
  | .cl18 _ | .filtNone | .filtSub | .filtUp | .filtAvg | .filtPaeth => true

end Sys2Proof
end

