-- ==== Sys2Proof/Decode.lean ====
section
/-! DEFINITION. The decoder of every layer of 30_encoding.md R140, total on any bits and rejecting by name, and after it the
encoder. A decoder takes its bits from a source: `rd k` is bit `k` of the unit's stream, or the reason it cannot be read. The engine
gives it the bits of memory (Machine/Operands.lean); `decode` gives it a list. Both run the same decoder. -/

namespace Sys2Proof

/-! ## Bits -/

/-- R151: the `n`-bit field at `pos`, the first bit read least significant. A bit that cannot be read ends it there (R335). -/
def readBits {ε : Type} (rd : Nat → Except ε Bool) (pos : Nat) : Nat → Except ε Nat
  | 0 => .ok 0
  | n + 1 =>
    match readBits rd pos n with
    | .error e => .error e
    | .ok v =>
      match rd (pos + n) with
      | .error e => .error e
      | .ok b => .ok (v + b.toNat * 2 ^ n)

/-- The byte whose first bit is at `pos` (R105, R150: least significant bit first). -/
def readByte {ε : Type} (rd : Nat → Except ε Bool) (pos : Nat) : Except ε Byte :=
  match readBits rd pos 8 with
  | .error e => .error e
  | .ok v => .ok (BitVec.ofNat 8 v)

/-- R104, R11: the 32-bit value of four bytes, most significant first. -/
def be32Of (a b c d : Byte) : Nat := a.toNat * 2 ^ 24 + b.toNat * 2 ^ 16 + c.toNat * 2 ^ 8 + d.toNat

/-- `be32` of the four bytes whose bits begin at `pos`. -/
def readBe32 {ε : Type} (rd : Nat → Except ε Bool) (pos : Nat) : Except ε Nat :=
  match readByte rd pos with
  | .error e => .error e
  | .ok a =>
    match readByte rd (pos + 8) with
    | .error e => .error e
    | .ok b =>
      match readByte rd (pos + 16) with
      | .error e => .error e
      | .ok c =>
        match readByte rd (pos + 24) with
        | .error e => .error e
        | .ok d => .ok (be32Of a b c d)

/-! ## Canonical Huffman codes (R162, R347, R360) -/

/-- `next[l]` of R162 as the loop first sets it: the smallest codeword of length `l` (`count[0]` taken as 0). -/
def firstCode (lens : List Nat) : Nat → Nat
  | 0 => 0
  | l + 1 => 2 * (firstCode lens l + if l = 0 then 0 else lens.count l)

/-- `codeword[s]` of R162: `next[len[s]]` after the lower symbols of the same length took theirs. -/
def codeword (lens : List Nat) (s : Nat) : Nat :=
  firstCode lens (lens.getD s 0) + (lens.take s).count (lens.getD s 0)

/-- `K` of R162: code-space occupancy in units of 2^-15. -/
def occupancy (lens : List Nat) : Nat :=
  (lens.map fun l => if l = 0 then 0 else 2 ^ (15 - l)).sum

/-- R347: over-subscribed iff K > 2^15. -/
def overSubscribed (lens : List Nat) : Bool := 2 ^ 15 < occupancy lens

/-- The symbol that holds the `r`-th codeword of length `l`, counting symbols from `i`. -/
def symOfRank : List Nat → Nat → Nat → Nat → Nat
  | [], _, _, i => i
  | x :: xs, l, r, i =>
    if x = l then
      match r with
      | 0 => i
      | r' + 1 => symOfRank xs l r' (i + 1)
    else symOfRank xs l r (i + 1)

/-- The loop of R360: `len` bits read so far with value `v`, `first` the smallest codeword of that length. `none` is the bit pattern
no codeword matches, found at the first bit that decides it; `some (s, n)` is symbol `s`, read in `n` bits. -/
def symLoop {ε : Type} (rd : Nat → Except ε Bool) (lens : List Nat) (k pos : Nat) :
    Nat → Nat → Nat → Nat → Except ε (Option (Nat × Nat))
  | 0, _, _, _ => .ok none
  | fuel + 1, len, v, first =>
    match rd (pos + len) with
    | .error e => .error e
    | .ok b =>
      let v' := 2 * v + b.toNat
      let first' := 2 * (first + if len = 0 then 0 else lens.count len)
      if first' ≤ v' ∧ v' < first' + lens.count (len + 1) then
        .ok (some (symOfRank lens (len + 1) (v' - first') 0, len + 1))
      else if k ≤ v' <<< (15 - (len + 1)) then .ok none
      else symLoop rd lens k pos fuel (len + 1) v' first'

/-- `DecodeSym` of R360, with the empty code of R361 (`none` before any bit is read). -/
def decodeSym {ε : Type} (rd : Nat → Except ε Bool) (lens : List Nat) (pos : Nat) : Except ε (Option (Nat × Nat)) :=
  if occupancy lens = 0 then .ok none else symLoop rd lens (occupancy lens) pos 15 0 0 0

/-- R159, R342: the fixed literal/length code lengths. -/
def fixedLitLen : List Nat :=
  List.replicate 144 8 ++ List.replicate 112 9 ++ List.replicate 24 7 ++ List.replicate 8 8

/-- R160, R342: the fixed distance code lengths. -/
def fixedDist : List Nat := List.replicate 32 5

/-! ## From fields to instructions -/

/-- R141, R200, R202, R204: the row a CTRL word stands for, given STATUS.BUSY. -/
def instrOfCtrl (busy : Bool) (v : Word) : Instr :=
  let start := v.getLsbD 0
  let abort := v.getLsbD 1
  let mode := v.extractLsb' 2 3
  let irqEn := v.getLsbD 5
  let fcheckEn := v.getLsbD 6
  let rsv := v.extractLsb' 7 25
  if abort && (busy || !start) then .abort start mode irqEn fcheckEn rsv
  else if start then
    match mode.toNat with
    | 0 => .startFull abort irqEn fcheckEn rsv
    | 1 => .startInflate abort irqEn fcheckEn rsv
    | 2 => .startUnfilter abort irqEn fcheckEn rsv
    | 3 => .startCrc32 abort irqEn fcheckEn rsv
    | _ => .startReserved mode abort irqEn fcheckEn rsv
  else .wrCtrl mode irqEn fcheckEn rsv

/-- R200, R201, R205: the row of an aligned 32-bit write. -/
def instrOfWrite (busy : Bool) (off : BitVec 8) (v : Word) : Instr :=
  if off = 0x04#8 then instrOfCtrl busy v
  else if off = 0x08#8 then .wrStatus v
  else .wrReg off v

/-- R144, R256 to R258: the row of a chunk, by its type bytes. -/
def instrOfChunk (len typ : Word) : Instr :=
  if typ = typIHDR then .chunkIhdr len
  else if typ = typPLTE then .chunkPlte len
  else if typ = typIDAT then .chunkIdat len
  else if typ = typIEND then .chunkIend len
  else if isCritical typ then .chunkUnknownCritical len typ
  else .chunkAncillary len typ

/-- R153: the row of the 3-bit value h = BFINAL + 2·BTYPE. -/
def instrOfBlock (h : Nat) : Instr :=
  match h / 2 % 4 with
  | 0 => .blockStored (h.testBit 0)
  | 1 => .blockFixed (h.testBit 0)
  | 2 => .blockDynamic (h.testBit 0)
  | _ => .blockReserved (h.testBit 0)

/-- R157: extra bits of the length codes 257 to 285. -/
def lenExtraTable : List Nat :=
  [0, 0, 0, 0, 0, 0, 0, 0, 1, 1, 1, 1, 2, 2, 2, 2, 3, 3, 3, 3, 4, 4, 4, 4, 5, 5, 5, 5, 0]

/-- R157: extra bits after literal/length symbol `sym` (none after a literal, 256, 286 and 287). -/
def lenExtra (sym : Nat) : Nat := if sym < 257 then 0 else lenExtraTable.getD (sym - 257) 0

/-- R158: extra bits of the distance codes 0 to 29. -/
def distExtraTable : List Nat :=
  [0, 0, 0, 0, 1, 1, 2, 2, 3, 3, 4, 4, 5, 5, 6, 6, 7, 7, 8, 8, 9, 9, 10, 10, 11, 11, 12, 12, 13, 13]

/-- R158: extra bits after distance symbol `sym` (none after 30 and 31). -/
def distExtra (sym : Nat) : Nat := distExtraTable.getD sym 0

/-- R161: extra bits after code-length symbol `sym`. -/
def clExtra (sym : Nat) : Nat :=
  match sym with
  | 16 => 2
  | 17 => 3
  | 18 => 7
  | _ => 0

/-- R156, R157: the row of literal/length symbol 257 and up, with its extra-bits value `x`. -/
def instrOfLength (sym x : Nat) : Instr :=
  match sym with
  | 257 => .len257
  | 258 => .len258
  | 259 => .len259
  | 260 => .len260
  | 261 => .len261
  | 262 => .len262
  | 263 => .len263
  | 264 => .len264
  | 265 => .len265 (BitVec.ofNat 1 x)
  | 266 => .len266 (BitVec.ofNat 1 x)
  | 267 => .len267 (BitVec.ofNat 1 x)
  | 268 => .len268 (BitVec.ofNat 1 x)
  | 269 => .len269 (BitVec.ofNat 2 x)
  | 270 => .len270 (BitVec.ofNat 2 x)
  | 271 => .len271 (BitVec.ofNat 2 x)
  | 272 => .len272 (BitVec.ofNat 2 x)
  | 273 => .len273 (BitVec.ofNat 3 x)
  | 274 => .len274 (BitVec.ofNat 3 x)
  | 275 => .len275 (BitVec.ofNat 3 x)
  | 276 => .len276 (BitVec.ofNat 3 x)
  | 277 => .len277 (BitVec.ofNat 4 x)
  | 278 => .len278 (BitVec.ofNat 4 x)
  | 279 => .len279 (BitVec.ofNat 4 x)
  | 280 => .len280 (BitVec.ofNat 4 x)
  | 281 => .len281 (BitVec.ofNat 5 x)
  | 282 => .len282 (BitVec.ofNat 5 x)
  | 283 => .len283 (BitVec.ofNat 5 x)
  | 284 => .len284 (BitVec.ofNat 5 x)
  | 285 => .len285
  | 286 => .litlenInvalid 0#1
  | _ => .litlenInvalid 1#1

/-- R156, R159, R432: the row of a literal/length symbol in a fixed (`dyn = false`) or dynamic block. -/
def instrOfLitLen (dyn : Bool) (sym x : Nat) : Instr :=
  if sym < 256 then
    if dyn then .litDyn (BitVec.ofNat 8 sym)
    else if sym < 144 then .litFixed8 (BitVec.ofNat 8 sym)
    else .litFixed9 (BitVec.ofNat 8 sym)
  else if sym = 256 then .eob
  else instrOfLength sym x

/-- R158, R160: the row of a distance symbol with its extra-bits value `x`. -/
def instrOfDist (sym x : Nat) : Instr :=
  match sym with
  | 0 => .dist0
  | 1 => .dist1
  | 2 => .dist2
  | 3 => .dist3
  | 4 => .dist4 (BitVec.ofNat 1 x)
  | 5 => .dist5 (BitVec.ofNat 1 x)
  | 6 => .dist6 (BitVec.ofNat 2 x)
  | 7 => .dist7 (BitVec.ofNat 2 x)
  | 8 => .dist8 (BitVec.ofNat 3 x)
  | 9 => .dist9 (BitVec.ofNat 3 x)
  | 10 => .dist10 (BitVec.ofNat 4 x)
  | 11 => .dist11 (BitVec.ofNat 4 x)
  | 12 => .dist12 (BitVec.ofNat 5 x)
  | 13 => .dist13 (BitVec.ofNat 5 x)
  | 14 => .dist14 (BitVec.ofNat 6 x)
  | 15 => .dist15 (BitVec.ofNat 6 x)
  | 16 => .dist16 (BitVec.ofNat 7 x)
  | 17 => .dist17 (BitVec.ofNat 7 x)
  | 18 => .dist18 (BitVec.ofNat 8 x)
  | 19 => .dist19 (BitVec.ofNat 8 x)
  | 20 => .dist20 (BitVec.ofNat 9 x)
  | 21 => .dist21 (BitVec.ofNat 9 x)
  | 22 => .dist22 (BitVec.ofNat 10 x)
  | 23 => .dist23 (BitVec.ofNat 10 x)
  | 24 => .dist24 (BitVec.ofNat 11 x)
  | 25 => .dist25 (BitVec.ofNat 11 x)
  | 26 => .dist26 (BitVec.ofNat 12 x)
  | 27 => .dist27 (BitVec.ofNat 12 x)
  | 28 => .dist28 (BitVec.ofNat 13 x)
  | 29 => .dist29 (BitVec.ofNat 13 x)
  | 30 => .distInvalid 0#1
  | _ => .distInvalid 1#1

/-- R161: the row of a code-length symbol with its extra-bits value `x`. -/
def instrOfCl (sym x : Nat) : Instr :=
  match sym with
  | 16 => .cl16 (BitVec.ofNat 2 x)
  | 17 => .cl17 (BitVec.ofNat 3 x)
  | 18 => .cl18 (BitVec.ofNat 7 x)
  | _ => .clLen (BitVec.ofNat 4 sym)

/-- R164: the row of a filter byte. -/
def instrOfFilter (ft : Byte) : Instr :=
  match ft.toNat with
  | 0 => .filtNone
  | 1 => .filtSub
  | 2 => .filtUp
  | 3 => .filtAvg
  | 4 => .filtPaeth
  | _ => .filtInvalid ft

/-! ## The coded symbols, from a bit source -/

/-- A symbol and its extra bits (R157, R158, R161, R163): the row, and the bits it takes. `extra` says how many extra bits follow
a symbol; `mk` gives the row. -/
def decodeCoded {ε : Type} (rd : Nat → Except ε Bool) (lens : List Nat) (extra : Nat → Nat) (mk : Nat → Nat → Instr) (pos : Nat) :
    Except ε (Option (Instr × Nat)) :=
  match decodeSym rd lens pos with
  | .error e => .error e
  | .ok none => .ok none
  | .ok (some (sym, n)) =>
    match readBits rd (pos + n) (extra sym) with
    | .error e => .error e
    | .ok x => .ok (some (mk sym x, n + extra sym))

/-- R430, R434: a literal/length symbol with its extra bits. -/
def decodeLitLen {ε : Type} (rd : Nat → Except ε Bool) (dyn : Bool) (lens : List Nat) (pos : Nat) :
    Except ε (Option (Instr × Nat)) :=
  decodeCoded rd lens lenExtra (instrOfLitLen dyn) pos

/-- R434, R436: a distance symbol with its extra bits. -/
def decodeDist {ε : Type} (rd : Nat → Except ε Bool) (lens : List Nat) (pos : Nat) : Except ε (Option (Instr × Nat)) :=
  decodeCoded rd lens distExtra instrOfDist pos

/-- R349: a code-length symbol with its extra bits. With no previous length (`noPrev`) symbol 16 is rejected "before the extra
bits" (R351), so none are read for it; log 22. -/
def decodeCl {ε : Type} (rd : Nat → Except ε Bool) (noPrev : Bool) (lens : List Nat) (pos : Nat) :
    Except ε (Option (Instr × Nat)) :=
  decodeCoded rd lens (fun s => if noPrev && s == 16 then 0 else clExtra s) instrOfCl pos

/-! ## The decoder of one unit from a list of bits -/

/-- What decides how the next bits are read (R140, R163: BTYPE and MODE select the layers, the host's offset the register). -/
inductive Layer where
  | hostWrite (off : BitVec 8) (busy : Bool)
  | hostRead (off : BitVec 8)
  | signature
  | chunk
  | zlibCm
  | zlibFdict
  | zlibFcheck
  | block
  | litLen (dyn : Bool) (lens : List Nat)
  | dist (lens : List Nat)
  | cl (noPrev : Bool) (lens : List Nat)
  | filter
deriving DecidableEq, Repr

/-- Why bits stand for no instruction. -/
inductive DecodeError where
  /-- The bits end inside the unit. -/
  | tooShort
  /-- A register offset that is no multiple of 4 (R107). -/
  | notAligned
  /-- The eight bytes are not the PNG signature (R142). -/
  | notSignature
  /-- The bits are no codeword's beginning, or the code is empty (R360, R361). -/
  | undecodable
deriving DecidableEq, Repr

/-- Bit `k` of a list of bits. -/
def listBits (bits : List Bool) (k : Nat) : Except DecodeError Bool :=
  match bits[k]? with
  | some b => .ok b
  | none => .error .tooShort

/-- R142. -/
def sigBytes : List Byte := [0x89#8, 0x50#8, 0x4E#8, 0x47#8, 0x0D#8, 0x0A#8, 0x1A#8, 0x0A#8]

/-- The bytes of the bits from `pos` on equal `bs`. -/
def matchBytes (rd : Nat → Except DecodeError Bool) (pos : Nat) : List Byte → Except DecodeError Bool
  | [] => .ok true
  | b :: bs =>
    match readByte rd pos with
    | .error e => .error e
    | .ok x => if x = b then matchBytes rd (pos + 8) bs else .ok false

/-- A zlib header row from its two bytes (R148). -/
def decodeZlib (rd : Nat → Except DecodeError Bool) (mk : Byte → Byte → Instr) : Except DecodeError (Instr × Nat) :=
  match readByte rd 0 with
  | .error e => .error e
  | .ok cmf =>
    match readByte rd 8 with
    | .error e => .error e
    | .ok flg => .ok (mk cmf flg, 16)

/-- The answer of a coded layer, the undecodable pattern by its name. -/
def namedOr (r : Except DecodeError (Option (Instr × Nat))) : Except DecodeError (Instr × Nat) :=
  match r with
  | .error e => .error e
  | .ok none => .error .undecodable
  | .ok (some x) => .ok x

/-- The instruction at the head of `bits` in layer `l`, and how many bits it takes. Total; it rejects by name. -/
def decode (l : Layer) (bits : List Bool) : Except DecodeError (Instr × Nat) :=
  let rd := listBits bits
  match l with
  | .hostWrite off busy =>
    if offAligned off then
      match readBits rd 0 32 with
      | .error e => .error e
      | .ok v => .ok (instrOfWrite busy off (trunc32 v), 32)
    else .error .notAligned
  | .hostRead off => if offAligned off then .ok (.rdReg off, 0) else .error .notAligned
  | .signature =>
    match matchBytes rd 0 sigBytes with
    | .error e => .error e
    | .ok true => .ok (.sig, 64)
    | .ok false => .error .notSignature
  | .chunk =>
    match readBe32 rd 0 with
    | .error e => .error e
    | .ok len =>
      match readBe32 rd 32 with
      | .error e => .error e
      | .ok typ => .ok (instrOfChunk (trunc32 len) (trunc32 typ), 64)
  | .zlibCm => decodeZlib rd .zlibCm
  | .zlibFdict => decodeZlib rd .zlibFdict
  | .zlibFcheck => decodeZlib rd .zlibFcheck
  | .block =>
    match readBits rd 0 3 with
    | .error e => .error e
    | .ok h => .ok (instrOfBlock h, 3)
  | .litLen dyn lens => namedOr (decodeLitLen rd dyn lens 0)
  | .dist lens => namedOr (decodeDist rd lens 0)
  | .cl noPrev lens => namedOr (decodeCl rd noPrev lens 0)
  | .filter =>
    match readByte rd 0 with
    | .error e => .error e
    | .ok ft => .ok (instrOfFilter ft, 8)

/-! ## The encoder -/

/-- The `n` low bits of `v`, least significant first (R151). -/
def fieldBits (n v : Nat) : List Bool := (List.range n).map v.testBit

/-- A codeword of length `n`, most significant bit first (R152). -/
def codeBits (n c : Nat) : List Bool := (fieldBits n c).reverse

/-- The bytes' bits in stream order. -/
def byteBits (bs : List Byte) : List Bool := bs.flatMap fun b => fieldBits 8 b.toNat

/-- R11, R104: the four bytes of a big-endian 32-bit number. -/
def be32Bytes (w : Word) : List Byte :=
  [w.extractLsb' 24 8, w.extractLsb' 16 8, w.extractLsb' 8 8, w.extractLsb' 0 8]

/-- R141: the CTRL word of its fields. -/
def ctrlWord (start abort : Bool) (mode : BitVec 3) (irqEn fcheckEn : Bool) (rsv : BitVec 25) : Word :=
  trunc32 (start.toNat + abort.toNat * 2 + mode.toNat * 4 + irqEn.toNat * 32 + fcheckEn.toNat * 64 + rsv.toNat * 128)

/-- R159: length and codeword of a symbol of the fixed literal/length code, as the table gives them. -/
def fixedLitLenWord (sym : Nat) : Nat × Nat :=
  if sym < 144 then (8, 0x30 + sym)
  else if sym < 256 then (9, 0x190 + (sym - 144))
  else if sym < 280 then (7, sym - 256)
  else (8, 0xC0 + (sym - 280))

/-- The code-length code the encoder writes code-length symbols in: 19 lengths of 5, so the codeword of a symbol is the symbol (R162). -/
def encoderCl : List Nat := List.replicate 19 5

/-- Symbol, number of extra bits and their value, of a literal/length row (R156, R157). -/
def litLenParts : Instr → Option (Nat × Nat × Nat)
  | .litFixed8 lit => some (lit.toNat, 0, 0)
  | .litFixed9 lit => some (lit.toNat, 0, 0)
  | .litDyn lit => some (lit.toNat, 0, 0)
  | .eob => some (256, 0, 0)
  | .len257 => some (257, 0, 0)
  | .len258 => some (258, 0, 0)
  | .len259 => some (259, 0, 0)
  | .len260 => some (260, 0, 0)
  | .len261 => some (261, 0, 0)
  | .len262 => some (262, 0, 0)
  | .len263 => some (263, 0, 0)
  | .len264 => some (264, 0, 0)
  | .len265 e => some (265, 1, e.toNat)
  | .len266 e => some (266, 1, e.toNat)
  | .len267 e => some (267, 1, e.toNat)
  | .len268 e => some (268, 1, e.toNat)
  | .len269 e => some (269, 2, e.toNat)
  | .len270 e => some (270, 2, e.toNat)
  | .len271 e => some (271, 2, e.toNat)
  | .len272 e => some (272, 2, e.toNat)
  | .len273 e => some (273, 3, e.toNat)
  | .len274 e => some (274, 3, e.toNat)
  | .len275 e => some (275, 3, e.toNat)
  | .len276 e => some (276, 3, e.toNat)
  | .len277 e => some (277, 4, e.toNat)
  | .len278 e => some (278, 4, e.toNat)
  | .len279 e => some (279, 4, e.toNat)
  | .len280 e => some (280, 4, e.toNat)
  | .len281 e => some (281, 5, e.toNat)
  | .len282 e => some (282, 5, e.toNat)
  | .len283 e => some (283, 5, e.toNat)
  | .len284 e => some (284, 5, e.toNat)
  | .len285 => some (285, 0, 0)
  | .litlenInvalid low => some (286 + low.toNat, 0, 0)
  | .wrCtrl _ _ _ _ | .startFull _ _ _ _ | .startInflate _ _ _ _ | .startUnfilter _ _ _ _ | .startCrc32 _ _ _ _
  | .startReserved _ _ _ _ _ | .abort _ _ _ _ _ | .wrStatus _ | .wrReg _ _ | .rdReg _ | .sig | .chunkIhdr _ | .chunkPlte _
  | .chunkIdat _ | .chunkIend _ | .chunkUnknownCritical _ _ | .chunkAncillary _ _ | .zlibCm _ _ | .zlibFdict _ _
  | .zlibFcheck _ _ | .blockStored _ | .blockFixed _ | .blockDynamic _ | .blockReserved _ => none
  | .dist0 | .dist1 | .dist2 | .dist3 | .dist4 _ | .dist5 _ | .dist6 _ | .dist7 _ | .dist8 _ | .dist9 _ | .dist10 _ | .dist11 _
  | .dist12 _ | .dist13 _ | .dist14 _ | .dist15 _ | .dist16 _ | .dist17 _ | .dist18 _ | .dist19 _ | .dist20 _ | .dist21 _
  | .dist22 _ | .dist23 _ | .dist24 _ | .dist25 _ | .dist26 _ | .dist27 _ | .dist28 _ | .dist29 _ | .distInvalid _ | .clLen _
  | .cl16 _ | .cl17 _ | .cl18 _ | .filtNone | .filtSub | .filtUp | .filtAvg | .filtPaeth | .filtInvalid _ => none

/-- Symbol, number of extra bits and their value, of a distance row (R158). -/
def distParts : Instr → Option (Nat × Nat × Nat)
  | .dist0 => some (0, 0, 0)
  | .dist1 => some (1, 0, 0)
  | .dist2 => some (2, 0, 0)
  | .dist3 => some (3, 0, 0)
  | .dist4 e => some (4, 1, e.toNat)
  | .dist5 e => some (5, 1, e.toNat)
  | .dist6 e => some (6, 2, e.toNat)
  | .dist7 e => some (7, 2, e.toNat)
  | .dist8 e => some (8, 3, e.toNat)
  | .dist9 e => some (9, 3, e.toNat)
  | .dist10 e => some (10, 4, e.toNat)
  | .dist11 e => some (11, 4, e.toNat)
  | .dist12 e => some (12, 5, e.toNat)
  | .dist13 e => some (13, 5, e.toNat)
  | .dist14 e => some (14, 6, e.toNat)
  | .dist15 e => some (15, 6, e.toNat)
  | .dist16 e => some (16, 7, e.toNat)
  | .dist17 e => some (17, 7, e.toNat)
  | .dist18 e => some (18, 8, e.toNat)
  | .dist19 e => some (19, 8, e.toNat)
  | .dist20 e => some (20, 9, e.toNat)
  | .dist21 e => some (21, 9, e.toNat)
  | .dist22 e => some (22, 10, e.toNat)
  | .dist23 e => some (23, 10, e.toNat)
  | .dist24 e => some (24, 11, e.toNat)
  | .dist25 e => some (25, 11, e.toNat)
  | .dist26 e => some (26, 12, e.toNat)
  | .dist27 e => some (27, 12, e.toNat)
  | .dist28 e => some (28, 13, e.toNat)
  | .dist29 e => some (29, 13, e.toNat)
  | .distInvalid low => some (30 + low.toNat, 0, 0)
  | .wrCtrl _ _ _ _ | .startFull _ _ _ _ | .startInflate _ _ _ _ | .startUnfilter _ _ _ _ | .startCrc32 _ _ _ _
  | .startReserved _ _ _ _ _ | .abort _ _ _ _ _ | .wrStatus _ | .wrReg _ _ | .rdReg _ | .sig | .chunkIhdr _ | .chunkPlte _
  | .chunkIdat _ | .chunkIend _ | .chunkUnknownCritical _ _ | .chunkAncillary _ _ | .zlibCm _ _ | .zlibFdict _ _
  | .zlibFcheck _ _ | .blockStored _ | .blockFixed _ | .blockDynamic _ | .blockReserved _ => none
  | .litFixed8 _ | .litFixed9 _ | .litDyn _ | .eob | .len257 | .len258 | .len259 | .len260 | .len261 | .len262 | .len263
  | .len264 | .len265 _ | .len266 _ | .len267 _ | .len268 _ | .len269 _ | .len270 _ | .len271 _ | .len272 _ | .len273 _
  | .len274 _ | .len275 _ | .len276 _ | .len277 _ | .len278 _ | .len279 _ | .len280 _ | .len281 _ | .len282 _ | .len283 _
  | .len284 _ | .len285 | .litlenInvalid _ | .clLen _ | .cl16 _ | .cl17 _ | .cl18 _ | .filtNone | .filtSub | .filtUp | .filtAvg
  | .filtPaeth | .filtInvalid _ => none

/-- The bits of a literal/length row in the fixed code (a dynamic literal is written in the same code). -/
def litLenBits (i : Instr) : List Bool :=
  match litLenParts i with
  | some (sym, n, x) => codeBits (fixedLitLenWord sym).1 (fixedLitLenWord sym).2 ++ fieldBits n x
  | none => []

/-- The bits of a distance row in the fixed code (R160). -/
def distBits (i : Instr) : List Bool :=
  match distParts i with
  | some (sym, n, x) => codeBits 5 sym ++ fieldBits n x
  | none => []

/-- The layer an instruction is encoded in. Coded symbols stand in the fixed codes of R159 and R160, a dynamic literal in a dynamic
block whose literal/length lengths are those of R159, code-length symbols in `encoderCl`. -/
def layerOf (i : Instr) : Layer :=
  match i with
  | .wrCtrl _ _ _ _ | .startFull _ _ _ _ | .startInflate _ _ _ _ | .startUnfilter _ _ _ _ | .startCrc32 _ _ _ _
  | .startReserved _ _ _ _ _ => .hostWrite 0x04#8 false
  | .abort _ _ _ _ _ => .hostWrite 0x04#8 true
  | .wrStatus _ => .hostWrite 0x08#8 false
  | .wrReg off _ => .hostWrite off false
  | .rdReg off => .hostRead off
  | .sig => .signature
  | .chunkIhdr _ | .chunkPlte _ | .chunkIdat _ | .chunkIend _ | .chunkUnknownCritical _ _ | .chunkAncillary _ _ => .chunk
  | .zlibCm _ _ => .zlibCm
  | .zlibFdict _ _ => .zlibFdict
  | .zlibFcheck _ _ => .zlibFcheck
  | .blockStored _ | .blockFixed _ | .blockDynamic _ | .blockReserved _ => .block
  | .litDyn _ => .litLen true fixedLitLen
  | .litFixed8 _ | .litFixed9 _ | .eob | .len257 | .len258 | .len259 | .len260 | .len261 | .len262 | .len263 | .len264
  | .len265 _ | .len266 _ | .len267 _ | .len268 _ | .len269 _ | .len270 _ | .len271 _ | .len272 _ | .len273 _ | .len274 _
  | .len275 _ | .len276 _ | .len277 _ | .len278 _ | .len279 _ | .len280 _ | .len281 _ | .len282 _ | .len283 _ | .len284 _
  | .len285 | .litlenInvalid _ => .litLen false fixedLitLen
  | .dist0 | .dist1 | .dist2 | .dist3 | .dist4 _ | .dist5 _ | .dist6 _ | .dist7 _ | .dist8 _ | .dist9 _ | .dist10 _ | .dist11 _
  | .dist12 _ | .dist13 _ | .dist14 _ | .dist15 _ | .dist16 _ | .dist17 _ | .dist18 _ | .dist19 _ | .dist20 _ | .dist21 _
  | .dist22 _ | .dist23 _ | .dist24 _ | .dist25 _ | .dist26 _ | .dist27 _ | .dist28 _ | .dist29 _ | .distInvalid _ => .dist fixedDist
  | .clLen _ | .cl16 _ | .cl17 _ | .cl18 _ => .cl false encoderCl
  | .filtNone | .filtSub | .filtUp | .filtAvg | .filtPaeth | .filtInvalid _ => .filter

/-- The bits of an instruction in its layer, in the order the hardware reads them (a register word least significant bit first). -/
def encode (i : Instr) : List Bool :=
  match i with
  | .wrCtrl mode q f r => fieldBits 32 (ctrlWord false false mode q f r).toNat
  | .startFull a q f r => fieldBits 32 (ctrlWord true a 0#3 q f r).toNat
  | .startInflate a q f r => fieldBits 32 (ctrlWord true a 1#3 q f r).toNat
  | .startUnfilter a q f r => fieldBits 32 (ctrlWord true a 2#3 q f r).toNat
  | .startCrc32 a q f r => fieldBits 32 (ctrlWord true a 3#3 q f r).toNat
  | .startReserved mode a q f r => fieldBits 32 (ctrlWord true a mode q f r).toNat
  | .abort st mode q f r => fieldBits 32 (ctrlWord st true mode q f r).toNat
  | .wrStatus v => fieldBits 32 v.toNat
  | .wrReg _ v => fieldBits 32 v.toNat
  | .rdReg _ => []
  | .sig => byteBits sigBytes
  | .chunkIhdr len => byteBits (be32Bytes len ++ be32Bytes typIHDR)
  | .chunkPlte len => byteBits (be32Bytes len ++ be32Bytes typPLTE)
  | .chunkIdat len => byteBits (be32Bytes len ++ be32Bytes typIDAT)
  | .chunkIend len => byteBits (be32Bytes len ++ be32Bytes typIEND)
  | .chunkUnknownCritical len typ => byteBits (be32Bytes len ++ be32Bytes typ)
  | .chunkAncillary len typ => byteBits (be32Bytes len ++ be32Bytes typ)
  | .zlibCm cmf flg => byteBits [cmf, flg]
  | .zlibFdict cmf flg => byteBits [cmf, flg]
  | .zlibFcheck cmf flg => byteBits [cmf, flg]
  | .blockStored f => [f, false, false]
  | .blockFixed f => [f, true, false]
  | .blockDynamic f => [f, false, true]
  | .blockReserved f => [f, true, true]
  | .litFixed8 _ | .litFixed9 _ | .litDyn _ | .eob | .len257 | .len258 | .len259 | .len260 | .len261 | .len262 | .len263
  | .len264 | .len265 _ | .len266 _ | .len267 _ | .len268 _ | .len269 _ | .len270 _ | .len271 _ | .len272 _ | .len273 _
  | .len274 _ | .len275 _ | .len276 _ | .len277 _ | .len278 _ | .len279 _ | .len280 _ | .len281 _ | .len282 _ | .len283 _
  | .len284 _ | .len285 | .litlenInvalid _ => litLenBits i
  | .dist0 | .dist1 | .dist2 | .dist3 | .dist4 _ | .dist5 _ | .dist6 _ | .dist7 _ | .dist8 _ | .dist9 _ | .dist10 _ | .dist11 _
  | .dist12 _ | .dist13 _ | .dist14 _ | .dist15 _ | .dist16 _ | .dist17 _ | .dist18 _ | .dist19 _ | .dist20 _ | .dist21 _
  | .dist22 _ | .dist23 _ | .dist24 _ | .dist25 _ | .dist26 _ | .dist27 _ | .dist28 _ | .dist29 _ | .distInvalid _ => distBits i
  | .clLen sym => codeBits 5 sym.toNat
  | .cl16 e => codeBits 5 16 ++ fieldBits 2 e.toNat
  | .cl17 e => codeBits 5 17 ++ fieldBits 3 e.toNat
  | .cl18 e => codeBits 5 18 ++ fieldBits 7 e.toNat
  | .filtNone => byteBits [0#8]
  | .filtSub => byteBits [1#8]
  | .filtUp => byteBits [2#8]
  | .filtAvg => byteBits [3#8]
  | .filtPaeth => byteBits [4#8]
  | .filtInvalid ft => byteBits [ft]

/-! ## A word of the opcode table on its own -/

/-- The layer a bare word of the opcode table is read in, with the bits the hardware stores for it. The table's rows stand at
different layers whose words overlap, and a bare word names no layer: the row with the most fixed bits wins, then the host
command, and a word of the layer's full width is read as that layer's. Log 14. -/
def tableLayer (nbits w : Nat) : Option (Layer × List Bool) :=
  if nbits = 8 then
    if w ≤ 4 then some (.filter, fieldBits 8 w)
    else if w = 6 ∨ w = 7 then some (.block, fieldBits 3 w)
    else if w = 0x1E ∨ w = 0x1F then some (.dist fixedDist, codeBits 5 w)
    else if (0x12 ≤ w ∧ w ≤ 0x19) ∨ (0xC5 ≤ w ∧ w ≤ 0xC7) then some (.litLen false fixedLitLen, codeBits 8 w)
    else if 0x40 ≤ w ∧ w ≤ 0x4F then some (.dist fixedDist, codeBits 8 w)
    else some (.hostWrite 0x04#8 false, fieldBits 32 w)
  else if nbits = 16 then
    if 0xC000 ≤ w ∧ w < 0xD000 then some (.dist fixedDist, codeBits 16 w)
    else if w / 256 % 16 = 8 then some (.zlibCm, fieldBits 8 (w / 256) ++ fieldBits 8 w)
    else some (.zlibFdict, fieldBits 8 (w / 256) ++ fieldBits 8 w)
  else if nbits = 32 then
    if isKnownType (trunc32 w) then some (.chunk, byteBits (be32Bytes 0#32 ++ be32Bytes (trunc32 w)))
    else some (.hostWrite 0x04#8 false, fieldBits 32 w)
  else if nbits = 64 then
    some (.signature, byteBits (be32Bytes (trunc32 (w / 2 ^ 32)) ++ be32Bytes (trunc32 w)))
  else none

/-- The instruction the decoder reads from a bare word of the opcode table (the host's probe; the machine itself always decodes in the
layer its state gives). -/
def decodeTableWord (nbits w : Nat) : Option Instr :=
  match tableLayer nbits w with
  | none => none
  | some (l, bits) =>
    match decode l bits with
    | .ok (i, _) => some i
    | .error _ => none

end Sys2Proof
end

