-- ==== Sys2Proof/Machine/State.lean ====
section
/-! DEFINITION. The machine's state as plain data: the register window (10_state.md section 2), the internal engine state
(section 3), memory (20_memory.md R100), the platform parameters (00_scope.md R7), and the accesses the host still makes. -/

namespace Sys2Proof.Machine

/-- STATUS.STAGE (R35). Values 11 to 15 are never written, so they have no name. -/
inductive Stage where
  | idle
  | config
  | signature
  | chunks
  | header
  | palette
  | zlibHeader
  | blocks
  | trailer
  | unfilter
  | crc
deriving DecidableEq, Repr

/-- The numbers of R35. -/
def Stage.code : Stage → Nat
  | .idle => 0
  | .config => 1
  | .signature => 2
  | .chunks => 3
  | .header => 4
  | .palette => 5
  | .zlibHeader => 6
  | .blocks => 7
  | .trailer => 8
  | .unfilter => 9
  | .crc => 10

/-- The register window. ID is hard-wired and the reserved offsets hold nothing, so neither is stored; CTRL and STATUS are their
stored fields. -/
structure Regs where
  /-- CTRL.MODE, IRQ_EN, FCHECK_EN (R33). -/
  mode : BitVec 3
  irqEn : Bool
  fcheckEn : Bool
  /-- STATUS.BUSY, DONE, ERR, STAGE (R34, R35). -/
  busy : Bool
  done : Bool
  err : Bool
  stage : Stage
  /-- R36 to R38. -/
  errCode : Word
  errPos : Word
  errAux : Word
  /-- R39. -/
  inBase : Word
  inLen : Word
  inflBase : Word
  inflCap : Word
  reconBase : Word
  reconCap : Word
  /-- R40. -/
  ufWidth : Word
  ufHeight : Word
  ufFormat : Word
  /-- R41. -/
  imgWidth : Word
  imgHeight : Word
  imgFormat : Word
  imgInterlace : Word
  /-- R42. -/
  plteOffset : Word
  plteCount : Word
  /-- R44, R45, R43. -/
  inflLen : Word
  rowBytes : Word
  bpp : Word
  reconLen : Word
  crcResult : Word
  adlerResult : Word
  chunkCount : Word
  idatCount : Word
  blockCount : Word
  idatLen : Word
deriving DecidableEq, Repr

/-- A byte range of the bus (R101): base and length. -/
structure Region where
  base : Nat
  len : Nat
deriving DecidableEq, Repr

/-- A record of `st.chunks` (R50): offset, length and type of a chunk the walk accepted. -/
structure ChunkRec where
  off : Nat
  len : Nat
  typ : Word
deriving DecidableEq, Repr

/-- Where in a run the engine stands: the rule its next step performs (R203, R207 to R211), with the rule's locals that live
across steps. -/
inductive Phase where
  /-- No run (R600, R582). -/
  | idle
  /-- The entry of a stage: STATUS.STAGE is written and the stage's locals begin (R206, R252, R253, R260, R268, R330, R336, R441, R209 and
  R490, R210). -/
  | enter (g : Stage)
  /-- R206. -/
  | config
  /-- R252. -/
  | sig
  /-- R253: the chunk at `st.p`. -/
  | chunk
  /-- R260. -/
  | header
  /-- R268. -/
  | palette
  /-- R330. -/
  | inflate
  /-- R332, R333: the header bytes already read. -/
  | zlibFdict (cmf flg : Byte)
  | zlibFcheck (cmf flg : Byte)
  /-- R336: the next block header. -/
  | block
  /-- R341: `n` bytes of the stored block are left. -/
  | stored (n : Nat)
  /-- R349: the next code-length symbol. -/
  | clSym
  /-- R430: the next literal/length symbol. -/
  | litLen
  /-- R434: a match of this length needs its distance symbol. -/
  | dist (length : Nat)
  /-- R439: `n` bytes of a copy at distance `d` are left. -/
  | copy (n d : Nat)
  /-- R441. -/
  | trailer
  /-- R491. -/
  | ufParams
  /-- R490, R493, R494. -/
  | geometry
  /-- R495: the start of row `st.row`. -/
  | row
  /-- R497 to R503: byte `i` of row `st.row`, whose filter byte is `ft`. -/
  | rowByte (ft : Byte) (i : Nat)
  /-- R210. -/
  | crc
deriving DecidableEq, Repr

/-- The internal engine state of R47 to R52 and the locals of its rules. -/
structure Engine where
  phase : Phase
  /-- `st.abort_req` (R202, R204). -/
  abortReq : Bool
  /-- `st.p`, `st.bitpos`, `st.row` (R48). -/
  p : Nat
  bitpos : Nat
  row : Nat
  /-- R49. -/
  block : Nat
  bfinal : Bool
  out : Nat
  s1 : Nat
  s2 : Nat
  litlen : List Nat
  dist : List Nat
  cl : List Nat
  /-- The current Huffman block is a dynamic one (R342, R343). -/
  dyn : Bool
  /-- R50. -/
  chunks : List ChunkRec
  /-- `st.crc` (R52), before the final exclusive or. -/
  crc : Word
  /-- The bit position of the current block's BFINAL (R336). -/
  hpos : Nat
  /-- The bit position of the current symbol's first bit (`sp`, `dp` of R349, R430, R434). -/
  sp : Nat
  /-- `lens`, `nlit`, `ndist` of R343 and R349. -/
  lens : List Nat
  nlit : Nat
  ndist : Nat
deriving DecidableEq, Repr

/-- The width of a host access (R106, R107). -/
inductive AccessSize where
  | byte
  | half
  | word
deriving DecidableEq, Repr

/-- One thing the outside world does next (R30, R31, R167), or a turn of the engine between two of them. Log 3. -/
inductive HostOp where
  /-- A write of `v` at a window offset. -/
  | write (size : AccessSize) (off : BitVec 8) (v : Word)
  /-- A read at a window offset. -/
  | read (size : AccessSize) (off : BitVec 8)
  /-- `poll NAME, mask, v` of R167: read until the masked value equals `value`. -/
  | poll (off : BitVec 8) (mask value : Word)
  /-- The host stores a byte in memory (R100, R114). -/
  | memWrite (addr : Word) (b : Byte)
  /-- The host reads a byte of memory (R114). -/
  | memRead (addr : Word)
  /-- Cache maintenance on a non-coherent platform (R119): make the host's writes in the range visible. -/
  | clean (addr : Word) (n : Nat)
  /-- Cache maintenance (R119): drop what the host holds of the range. -/
  | invalidate (addr : Word) (n : Nat)
  /-- The engine takes one step before the host's next access (R203, D60). -/
  | engine
  /-- The platform asserts reset (R600, R601). -/
  | reset
deriving DecidableEq, Repr

/-- Memory as address and byte pairs, addresses rising (Machine/Ops.lean `Memory.wf`). An address not listed has no value of its own:
nothing has written it. -/
abbrev Memory := List Host.Cell

/-- Why a step stops with a fault. -/
inductive Fault where
  /-- An engine access at an address of 2^32 or more. Raised by the bus operations of Machine/Ops.lean. R120 rules it out in every run
  that passed the configuration check, so it is safe. Log 11. -/
  | outsideAddressSpace
deriving DecidableEq, Repr

/-- Why a step has no meaning. -/
inductive Refusal where
  /-- The instruction has no meaning yet. Raised by no arm of `exec` in this model. Safe. -/
  | notModelled (mnemonic : String)
  /-- A narrow or misaligned host access of the register window: "A model refuses such an access" (R107, U4). Raised by the host's
  move, before any instruction is decoded, for a register access and for a byte access of memory that falls into the window. Safe. -/
  | narrowOrMisalignedAccess
  /-- A host memory access where the platform implements no memory (what U16 refuses for the engine; log 10). Raised by the host's move.
  Safe. -/
  | hostHitsNoMemory
  /-- A host write to a byte of a region the running mode uses: "A model gives the host no such move" (R114, R607, U3). Raised by the
  host's move. Safe. -/
  | hostWriteToBusyRegion
  /-- An engine access inside the register window: "the result of that is the platform's (a model: refuse)" (R100, U16). Raised by the
  bus operations. Safe. -/
  | engineHitsWindow
  /-- An engine access to memory the platform does not implement: "refuse unless P_BUS_ERROR admits a BusError at that address" (U16).
  Raised by the bus operations. Safe. -/
  | engineHitsNoMemory
deriving DecidableEq, Repr

/-- The whole state. -/
structure State where
  regs : Regs
  eng : Engine
  mem : Memory
  /-- What the host does next, in order (log 3). -/
  host : List HostOp
  /-- The OPEN parameters (log 8); no step changes them. -/
  plat : Platform
  /-- How many free values have been drawn (log 7). -/
  draws : Nat
  /-- The value the last register read returned (R212), and the byte the last host memory read returned. Log 16. -/
  rdata : Word
  memData : Byte
  /-- On a non-coherent platform: addresses the host wrote and has not cleaned, and addresses the engine wrote and the host has not
  invalidated (R119). No repeats. Log 9. -/
  uncleaned : List Nat
  stale : List Nat
  /-- The bytes that were uncleaned when the current run began: a later clean does not help that run (R113 item 1, R119). Log 9. -/
  hidden : List Nat
  /-- The output regions of every run whose DONE or ERR no host read of STATUS has returned yet, without the bytes the host has written
  since: R113 item 3 promises the host nothing of them. Log 25. -/
  unseen : List Region
deriving DecidableEq, Repr

/-- What a step or an instruction answers. -/
abbrev Result := Host.Outcome State Fault Refusal

/-- The table of section 2 and R56. -/
def Regs.reset : Regs :=
  { mode := 0#3, irqEn := false, fcheckEn := true
    busy := false, done := false, err := false, stage := .idle
    errCode := 0#32, errPos := 0#32, errAux := 0#32
    inBase := 0#32, inLen := 0#32, inflBase := 0#32, inflCap := 0#32, reconBase := 0#32, reconCap := 0#32
    ufWidth := 0#32, ufHeight := 0#32, ufFormat := 0#32
    imgWidth := 0#32, imgHeight := 0#32, imgFormat := 0#32, imgInterlace := 0#32
    plteOffset := 0#32, plteCount := 0#32
    inflLen := 0#32, rowBytes := 0#32, bpp := 0#32, reconLen := 0#32
    crcResult := 0#32, adlerResult := 0#32
    chunkCount := 0#32, idatCount := 0#32, blockCount := 0#32, idatLen := 0#32 }

/-- R56, R600: no run and no abort pending. The other fields have "no defined value after reset": DESIGN CHOICE zero and empty,
log 2. -/
def Engine.reset : Engine :=
  { phase := .idle, abortReq := false
    p := 0, bitpos := 0, row := 0
    block := 0, bfinal := false, out := 0, s1 := 0, s2 := 0
    litlen := [], dist := [], cl := [], dyn := false
    chunks := [], crc := 0#32
    hpos := 0, sp := 0, lens := [], nlit := 0, ndist := 0 }

/-- The machine right after reset (R56, R600, R602), on the default platform, with nothing in memory and nothing the host does. -/
def State.reset : State :=
  { regs := Regs.reset, eng := Engine.reset, mem := [], host := [], plat := Platform.default
    draws := 0, rdata := 0#32, memData := 0#8, uncleaned := [], stale := [], hidden := [], unseen := [] }

end Sys2Proof.Machine
end

