-- ==== Sys2Proof/Machine/Flags.lean ====
section
/-! DEFINITION. Everything computed as a flag, a packed register or a checksum: the CTRL and STATUS words (R33, R34), the interrupt
line (R575), CRC-32 (R250, R251) and Adler-32 (R440). -/

namespace Sys2Proof.Machine

/-- CTRL as it reads (R33): START and ABORT read 0, bits 31:7 read 0. -/
def ctrlValue (r : Regs) : Word :=
  trunc32 (r.mode.toNat * 4 + r.irqEn.toNat * 32 + r.fcheckEn.toNat * 64)

/-- STATUS as it reads (R34, R35). -/
def statusValue (r : Regs) : Word :=
  trunc32 (r.busy.toNat + r.done.toNat * 2 + r.err.toNat * 4 + r.stage.code * 16)

/-- R575: `irq = CTRL.IRQ_EN AND (STATUS.DONE OR STATUS.ERR)`. -/
def irqLine (s : State) : Bool := s.regs.irqEn && (s.regs.done || s.regs.err)

/-! ## CRC-32 -/

/-- One of the eight inner steps of R250. -/
def crcBit (c : Word) : Word :=
  if c.getLsbD 0 then (c >>> 1) ^^^ 0xEDB88320#32 else c >>> 1

/-- The inner loop of R250: `n` steps. -/
def crcBits : Nat → Word → Word
  | 0, c => c
  | n + 1, c => crcBits n (crcBit c)

/-- One byte of R250. -/
def crcByte (c : Word) (b : Byte) : Word := crcBits 8 (c ^^^ b.setWidth 32)

/-- The accumulator before the first byte, and the final exclusive or (R250). -/
def crcInit : Word := 0xFFFFFFFF#32
def crcFinal (c : Word) : Word := c ^^^ 0xFFFFFFFF#32

/-- CRC32(s) of R250. -/
def crc32 (s : List Byte) : Word := crcFinal (s.foldl crcByte crcInit)

/-- T[n] of R251. -/
def crcTable (n : Byte) : Word := crcBits 8 (n.setWidth 32)

/-- The byte step of R251's table form. -/
def crcByteTable (c : Word) (b : Byte) : Word :=
  crcTable ((c ^^^ b.setWidth 32).setWidth 8) ^^^ (c >>> 8)

/-! ## Adler-32 -/

/-- One byte of R440 and R431, on the pair (s1, s2). -/
def adlerStep (a : Nat × Nat) (b : Byte) : Nat × Nat :=
  ((a.1 + b.toNat) % 65521, (a.2 + (a.1 + b.toNat) % 65521) % 65521)

/-- `(s2 << 16) | s1` of R440 and R441. -/
def adlerWord (s1 s2 : Nat) : Word := trunc32 (s2 * 65536 + s1)

/-- Adler32(b) of R440. -/
def adler32 (bs : List Byte) : Word :=
  adlerWord (bs.foldl adlerStep (1, 0)).1 (bs.foldl adlerStep (1, 0)).2

end Sys2Proof.Machine
end

