-- ==== Sys2Proof/Machine/Ops.lean ====
section
/-! DEFINITION. The operations every meaning is written over: memory, the register window, the bus, the error that ends a run (the
block's exception entry, R14, R542, R572) and the successful end of a run (R211). -/

namespace Sys2Proof.Machine

/-! ## Memory -/

/-- The byte written at `a`, if any was. -/
def Memory.read : Memory → Nat → Option Byte
  | [], _ => none
  | (k, v) :: m, a => if k = a then some v else Memory.read m a

/-- Write one byte, keeping the addresses rising. -/
def Memory.write : Memory → Nat → Byte → Memory
  | [], a, b => [(a, b)]
  | (k, v) :: m, a, b =>
    if a < k then (a, b) :: (k, v) :: m
    else if a = k then (a, b) :: m
    else (k, v) :: Memory.write m a b

/-- Write `n` bytes from `base` on, byte `i` being `f i`. -/
def Memory.setRange (m : Memory) (base n : Nat) (f : Nat → Byte) : Memory :=
  m.filter (fun c => c.1 < base) ++ (List.range n).map (fun i => (base + i, f i)) ++
    m.filter (fun c => base + n ≤ c.1)

/-- The canonical form: addresses strictly rising, inside the bus space (R100). An unlisted address reads as no value, so no entry
can equal it. -/
abbrev Memory.wf (m : Memory) : Prop :=
  m.Pairwise (fun x y => x.1 < y.1) ∧ ∀ c ∈ m, c.1 < 2 ^ 32

/-- The byte the bus holds at `a`: what was last written there, else the free value of the address (log 1). -/
def State.byteAt (s : State) (a : Nat) : Byte := (s.mem.read a).getD (Config.ramByte a)

/-! ## Regions (R101) -/

def Region.contains (r : Region) (a : Nat) : Bool := r.base ≤ a && a < r.base + r.len

/-- The range without the byte at `a`: what lies below it and what lies above it. -/
def Region.without (a : Nat) (r : Region) : List Region :=
  if r.contains a then [⟨r.base, a - r.base⟩, ⟨a + 1, r.base + r.len - (a + 1)⟩] else [r]

def Regs.inRegion (r : Regs) : Region := ⟨r.inBase.toNat, r.inLen.toNat⟩
def Regs.inflRegion (r : Regs) : Region := ⟨r.inflBase.toNat, r.inflCap.toNat⟩
def Regs.reconRegion (r : Regs) : Region := ⟨r.reconBase.toNat, r.reconCap.toNat⟩

/-- The regions the mode writes and reads back (the right column of R101's table). -/
def Regs.outputs (r : Regs) : List Region :=
  match r.mode.toNat with
  | 0 => [r.inflRegion, r.reconRegion]
  | 1 => [r.inflRegion]
  | 2 => [r.reconRegion]
  | _ => []

/-- The regions the mode uses (R101), IN first. A reserved mode uses none. -/
def Regs.used (r : Regs) : List Region :=
  if r.mode.toNat ≤ 3 then r.inRegion :: r.outputs else []

/-! ## Errors (R541 to R543) -/

/-- The names of R541. The last two before OutputOverflow are never raised (R570). -/
inductive ErrorKind where
  | signatureMismatch
  | truncatedStream
  | badCrc
  | missingHeader
  | malformedHeader
  | malformedPalette
  | unsupportedCriticalChunk
  | unsupportedFeature
  | unsupportedCompression
  | invalidBlockType
  | blockLengthMismatch
  | invalidHuffmanCode
  | invalidBackReference
  | checksumMismatch
  | streamExhausted
  | invalidFilterType
  | truncatedScanline
  | missingPalette
  | paletteIndexOutOfRange
  | outputOverflow
  | badConfig
  | aborted
  | busError
deriving DecidableEq, Repr

/-- The code column of R541. -/
def ErrorKind.code : ErrorKind → Nat
  | .signatureMismatch => 1
  | .truncatedStream => 2
  | .badCrc => 3
  | .missingHeader => 4
  | .malformedHeader => 5
  | .malformedPalette => 6
  | .unsupportedCriticalChunk => 7
  | .unsupportedFeature => 8
  | .unsupportedCompression => 9
  | .invalidBlockType => 10
  | .blockLengthMismatch => 11
  | .invalidHuffmanCode => 12
  | .invalidBackReference => 13
  | .checksumMismatch => 14
  | .streamExhausted => 15
  | .invalidFilterType => 16
  | .truncatedScanline => 17
  | .missingPalette => 18
  | .paletteIndexOutOfRange => 19
  | .outputOverflow => 20
  | .badConfig => 21
  | .aborted => 22
  | .busError => 23

/-- The classes of R543, by code. -/
def classOfCode (code : Nat) : Nat :=
  if code = 0 then 0
  else if code ≤ 6 then 1
  else if code ≤ 9 then 2
  else if code ≤ 15 then 3
  else if code ≤ 17 then 4
  else if code ≤ 19 then 5
  else 6

/-- `raise E(sub, pos, aux)` of R14, as data. -/
structure RunError where
  kind : ErrorKind
  sub : Nat
  pos : Nat
  aux : Nat
deriving DecidableEq, Repr

/-- ERR_CODE of R542: code | class << 8 | sub << 16. -/
def RunError.codeWord (e : RunError) : Word :=
  trunc32 (e.kind.code + classOfCode e.kind.code * 256 + e.sub * 65536)

/-- Why a piece of engine work does not go on. -/
inductive Stop where
  /-- The run ends with an error (a next state). -/
  | raise (e : RunError)
  | fault (f : Fault)
  | refuse (r : Refusal)
deriving DecidableEq, Repr

/-- Every byte of `r` becomes a free value, one draw each. Bytes at 2^32 and above do not exist (R100). On a non-coherent platform a byte
freed here that no engine step wrote is not stale: once STATUS has shown an end the host reads it as the one value drawn here, with or
without an invalidate. DESIGN CHOICE, unsafe there, log 9: the spec does not say whether such a byte needs one. -/
def havocRegion (s : State) (r : Region) : State :=
  { s with
    mem := s.mem.setRange r.base (min r.len (2 ^ 32 - r.base)) (fun i => Config.freeByte (s.draws + i))
    draws := s.draws + min r.len (2 ^ 32 - r.base) }

/-- R115: after ERR, an abort or a reset during a run, every byte of the regions the mode writes holds any value. -/
def havocOutputs (s : State) : State := s.regs.outputs.foldl havocRegion s

/-- The registers an error writes (R542): ERR_CODE, ERR_POS, ERR_AUX, then ERR = 1 and BUSY = 0. Everything else, STAGE and the
result registers among it, keeps its value (R572, R573). -/
def Regs.withError (r : Regs) (e : RunError) : Regs :=
  { r with
    errCode := e.codeWord, errPos := trunc32 e.pos, errAux := trunc32 e.aux
    err := true, busy := false }

/-- Error entry (R14, R540, R542, R572): the run ends; the output regions hold any value (R115, log 6). -/
def raise (e : RunError) (s : State) : State :=
  let s1 := havocOutputs s
  { s1 with
    regs := s1.regs.withError e
    eng := { s1.eng with phase := .idle } }

/-- What a stop answers, from the state at the point it was found. -/
def stopAt (e : Stop) (s : State) : Result :=
  match e with
  | .raise e => .next (raise e s)
  | .fault f => .fault f
  | .refuse r => .refused r

/-- Go on with a value, or stop from `s`. -/
def withVal {α : Type} (r : Except Stop α) (s : State) (k : α → Result) : Result :=
  match r with
  | .error e => stopAt e s
  | .ok a => k a

/-- `raise` as the answer of a step. -/
def raiseAt (kind : ErrorKind) (sub pos aux : Nat) (s : State) : Result := .next (raise ⟨kind, sub, pos, aux⟩ s)

/-- `FinishRun` (R211): DONE = 1, BUSY = 0, everything else kept. -/
def finishRun (s : State) : State :=
  { s with
    regs := { s.regs with done := true, busy := false }
    eng := { s.eng with phase := .idle } }

/-! ## The bus (R13, R100, R103, R583) -/

def hitsRange (r : BusRange) (d : Dir) (a : Nat) : Bool := r.dir == d && r.lo ≤ a && a < r.lo + r.len

/-- R583: whether the platform fails this engine access. -/
def platFails (p : Platform) (d : Dir) (a : Nat) : Bool := p.busError && p.failing.any fun r => hitsRange r d a

/-- R100: the address lies in the register window, where the window is on the bus. -/
def inWindow (p : Platform) (a : Nat) : Bool :=
  p.windowOnBus && p.regBase.toNat ≤ a && a < p.regBase.toNat + 256

/-- U16: the platform implements no memory there. -/
def noMemory (p : Platform) (a : Nat) : Bool := p.unmapped.any fun r => r.1 ≤ a && a < r.1 + r.2

/-- ERR_AUX of a BusError (R567). -/
def dirAux : Dir → Nat
  | .read => 0
  | .write => 1

/-- Whether an engine access goes through: R120 (addresses below 2^32), R583, then what R100 and U16 leave to the platform. -/
def busCheck (s : State) (d : Dir) (a : Nat) : Except Stop Unit :=
  if 2 ^ 32 ≤ a then .error (.fault .outsideAddressSpace)
  else if platFails s.plat d a then .error (.raise ⟨.busError, 0, a, dirAux d⟩)
  else if inWindow s.plat a then .error (.refuse .engineHitsWindow)
  else if noMemory s.plat a then .error (.refuse .engineHitsNoMemory)
  else .ok ()

/-- The byte the engine sees: the bus's, unless a non-coherent platform held the host's write back when the run began (R113 item 1,
R119; log 9). -/
def engineByte (s : State) (a : Nat) : Byte :=
  if !s.plat.coherent && s.hidden.contains a then Config.uncleanByte s.draws a else s.byteAt a

/-- `MemRead(a, 1)` (R13). -/
def busRead (s : State) (a : Nat) : Except Stop Byte :=
  match busCheck s .read a with
  | .error e => .error e
  | .ok _ => .ok (engineByte s a)

/-- A set of addresses, as a list without repeats. -/
def addAddr (l : List Nat) (a : Nat) : List Nat := if l.contains a then l else a :: l

/-- The state after the engine's byte landed. On a non-coherent platform the engine sees its own write (R112) and the host does not
until it invalidates (R113, R119). -/
def putByte (s : State) (a : Nat) (b : Byte) : State :=
  if s.plat.coherent then { s with mem := s.mem.write a b }
  else
    { s with
      mem := s.mem.write a b
      uncleaned := s.uncleaned.filter (· != a)
      hidden := s.hidden.filter (· != a)
      stale := addAddr s.stale a }

/-- `MemWrite(a, 1, b)` (R13). A failed write changes no byte (R583). -/
def busWrite (s : State) (a : Nat) (b : Byte) : Except Stop State :=
  match busCheck s .write a with
  | .error e => .error e
  | .ok _ => .ok (putByte s a b)

/-! ## The register window -/

/-- `x[NAME]` by offset (R32 to R46, R212): ID is hard-wired, reserved offsets read 0. -/
def readReg (r : Regs) (off : BitVec 8) : Word :=
  match off.toNat with
  | 0x00 => 0x504E4731#32
  | 0x04 => ctrlValue r
  | 0x08 => statusValue r
  | 0x0C => r.errCode
  | 0x10 => r.errPos
  | 0x14 => r.errAux
  | 0x18 => r.inBase
  | 0x1C => r.inLen
  | 0x20 => r.inflBase
  | 0x24 => r.inflCap
  | 0x28 => r.reconBase
  | 0x2C => r.reconCap
  | 0x30 => r.ufWidth
  | 0x34 => r.ufHeight
  | 0x38 => r.ufFormat
  | 0x40 => r.imgWidth
  | 0x44 => r.imgHeight
  | 0x48 => r.imgFormat
  | 0x4C => r.imgInterlace
  | 0x50 => r.plteOffset
  | 0x54 => r.plteCount
  | 0x58 => r.inflLen
  | 0x5C => r.rowBytes
  | 0x60 => r.bpp
  | 0x64 => r.reconLen
  | 0x68 => r.crcResult
  | 0x6C => r.adlerResult
  | 0x70 => r.chunkCount
  | 0x74 => r.idatCount
  | 0x78 => r.blockCount
  | 0x7C => r.idatLen
  | _ => 0#32

/-- The result registers, offsets 0x40 to 0x7C (R46). -/
def isResult (off : BitVec 8) : Bool := 0x40 ≤ off.toNat && off.toNat ≤ 0x7C

/-- The registers of R201's list: the RW registers other than CTRL and STATUS. Any other offset keeps everything. -/
def writeRegs (r : Regs) (off : BitVec 8) (v : Word) : Regs :=
  match off.toNat with
  | 0x18 => { r with inBase := v }
  | 0x1C => { r with inLen := v }
  | 0x20 => { r with inflBase := v }
  | 0x24 => { r with inflCap := v }
  | 0x28 => { r with reconBase := v }
  | 0x2C => { r with reconCap := v }
  | 0x30 => { r with ufWidth := v }
  | 0x34 => { r with ufHeight := v }
  | 0x38 => { r with ufFormat := v }
  | _ => r

/-- R202: what a START clears: the ERR registers, every result register, DONE and ERR; BUSY is set and STAGE is CONFIG (R206; log 24). -/
def Regs.started (r : Regs) : Regs :=
  { r with
    errCode := 0#32, errPos := 0#32, errAux := 0#32
    imgWidth := 0#32, imgHeight := 0#32, imgFormat := 0#32, imgInterlace := 0#32
    plteOffset := 0#32, plteCount := 0#32
    inflLen := 0#32, rowBytes := 0#32, bpp := 0#32, reconLen := 0#32
    crcResult := 0#32, adlerResult := 0#32
    chunkCount := 0#32, idatCount := 0#32, blockCount := 0#32, idatLen := 0#32
    done := false, err := false, busy := true, stage := .config }

/-- `StartRun` (R202) up to the first engine step, which is `CheckConfig` (R206). The START write is the point of R113: what the host has
not cleaned by then stays hidden from this run, and the regions the run writes are unseen until STATUS shows its end (logs 9, 25). -/
def startRun (s : State) : State :=
  { s with
    regs := s.regs.started
    eng := { s.eng with phase := .config, abortReq := false }
    hidden := s.uncleaned
    unseen := s.unseen ++ s.regs.outputs }

end Sys2Proof.Machine
end

