-- ==== Sys2Proof/Machine/Operands.lean ====
section
/-! DEFINITION. What the engine reads: bytes of IN (R103), chunk records (R50), the compressed stream S (R273, R208) and its bits
(R335), the unfilterer's input, geometry and neighbours (R490 to R497). -/

namespace Sys2Proof.Machine

/-! ## IN -/

/-- `IN[i]` (R103). -/
def inByte (s : State) (i : Nat) : Except Stop Byte := busRead s (s.regs.inBase.toNat + i)

/-- `be32(x, i)` of R11 over a byte source, first byte first. -/
def be32From (rd : Nat → Except Stop Byte) (i : Nat) : Except Stop Nat :=
  match rd i with
  | .error e => .error e
  | .ok a =>
    match rd (i + 1) with
    | .error e => .error e
    | .ok b =>
      match rd (i + 2) with
      | .error e => .error e
      | .ok c =>
        match rd (i + 3) with
        | .error e => .error e
        | .ok d => .ok (be32Of a b c d)

/-- `be32(IN, i)`. -/
def inBe32 (s : State) (i : Nat) : Except Stop Nat := be32From (inByte s) i

/-- The CRC accumulator after `n` bytes of IN from offset `i` on (R250, R251), from `c`. -/
def crcOver (s : State) : Nat → Nat → Word → Except Stop Word
  | 0, _, c => .ok c
  | n + 1, i, c =>
    match inByte s i with
    | .error e => .error e
    | .ok b => crcOver s n (i + 1) (crcByte c b)

/-! ## Chunk records (R50, R260, R268, R273) -/

def ChunkRec.isIdat (c : ChunkRec) : Bool := c.typ == typIDAT

/-- R260: IHDR, PLTE or IDAT. -/
def ChunkRec.isKey (c : ChunkRec) : Bool := c.typ == typIHDR || c.typ == typPLTE || c.typ == typIDAT

/-- `f` of R260: the first IHDR, PLTE or IDAT record. -/
def firstKey (cs : List ChunkRec) : Option ChunkRec := cs.find? ChunkRec.isKey

/-- `q` of R268: the first PLTE record. -/
def firstPlte (cs : List ChunkRec) : Option ChunkRec := cs.find? fun c => c.typ == typPLTE

/-- The sum of the IDAT lengths (R259, R273). -/
def idatTotal (cs : List ChunkRec) : Nat := ((cs.filter ChunkRec.isIdat).map ChunkRec.len).sum

/-- The offset in IN of byte `j` of the concatenated IDAT bodies (R273). -/
def idatOffset : List ChunkRec → Nat → Nat
  | [], j => j
  | c :: cs, j =>
    if c.isIdat then
      if j < c.len then c.off + 8 + j else idatOffset cs (j - c.len)
    else idatOffset cs j

/-! ## The compressed stream S -/

/-- FULL mode: S comes from the IDAT chunks (R207) and the unfilterer reads INFL. -/
def isFull (s : State) : Bool := s.regs.mode.toNat == 0

/-- N = |S| (R273, R208). -/
def streamLen (s : State) : Nat := if isFull s then idatTotal s.eng.chunks else s.regs.inLen.toNat

/-- `S[j]`, read from IN. -/
def streamByte (s : State) (j : Nat) : Except Stop Byte :=
  inByte s (if isFull s then idatOffset s.eng.chunks j else j)

/-- Bit `k` of S, or StreamExhausted SUB 2 (`ReadBit` of R335). -/
def streamBit (s : State) (k : Nat) : Except Stop Bool :=
  if 8 * streamLen s ≤ k then .error (.raise ⟨.streamExhausted, 2, 8 * streamLen s, s.eng.block⟩)
  else
    match streamByte s (k / 8) with
    | .error e => .error e
    | .ok b => .ok (b.getLsbD (k % 8))

/-- `AlignToByte` of R335. -/
def alignBit (k : Nat) : Nat := 8 * ((k + 7) / 8)

/-! ## The unfilterer's operands -/

/-- R492. A color type outside the table has no channels; R263 and R491 reject it before any use. -/
def channels (ct : Nat) : Nat :=
  match ct with
  | 0 => 1
  | 2 => 3
  | 3 => 1
  | 4 => 2
  | 6 => 4
  | _ => 0

/-- The pairing table of R263. -/
def permitted (bd ct : Nat) : Bool :=
  match ct with
  | 0 => bd == 1 || bd == 2 || bd == 4 || bd == 8 || bd == 16
  | 2 => bd == 8 || bd == 16
  | 3 => bd == 1 || bd == 2 || bd == 4 || bd == 8
  | 4 => bd == 8 || bd == 16
  | 6 => bd == 8 || bd == 16
  | _ => false

/-- The width, height, bit depth and color type of the run (R207, R209). -/
def geomWidth (s : State) : Nat := if isFull s then s.regs.imgWidth.toNat else s.regs.ufWidth.toNat
def geomHeight (s : State) : Nat := if isFull s then s.regs.imgHeight.toNat else s.regs.ufHeight.toNat
def geomFormat (s : State) : Word := if isFull s then s.regs.imgFormat else s.regs.ufFormat
def formatDepth (f : Word) : Nat := (f.extractLsb' 0 8).toNat
def formatColor (f : Word) : Nat := (f.extractLsb' 8 8).toNat

/-- Row bytes of R493. -/
def rowBytesOf (w bd ct : Nat) : Nat := (w * (channels ct * bd) + 7) / 8

/-- `bpp` of R493. -/
def bppOf (bd ct : Nat) : Nat := max 1 (channels ct * bd / 8)

/-- rb, stride and bpp of the current run (R493). -/
def rb (s : State) : Nat := rowBytesOf (geomWidth s) (formatDepth (geomFormat s)) (formatColor (geomFormat s))
def stride (s : State) : Nat := rb s + 1
def bpp (s : State) : Nat := bppOf (formatDepth (geomFormat s)) (formatColor (geomFormat s))

/-- |D| (R207, R209): the inflated output in FULL mode, IN in UNFILTER mode. -/
def filteredLen (s : State) : Nat := if isFull s then s.regs.inflLen.toNat else s.regs.inLen.toNat

/-- `D[j]`. -/
def filteredByte (s : State) (j : Nat) : Except Stop Byte :=
  busRead s ((if isFull s then s.regs.inflBase.toNat else s.regs.inBase.toNat) + j)

/-- `RECON[k]` (R103, R497). R497 lets the neighbours be read back from memory or from an equivalent internal row buffer (R51); the model
always reads them back over the bus, where a platform can fail the access (R583). DESIGN CHOICE, unsafe, log 27. -/
def reconByte (s : State) (k : Nat) : Except Stop Byte := busRead s (s.regs.reconBase.toNat + k)

/-- The index in its row of the byte being reconstructed. -/
def rowIndex (s : State) : Nat :=
  match s.eng.phase with
  | .rowByte _ i => i
  | _ => 0

/-- x: the filtered byte (section 3 of 44_unfilter.md). -/
def filtX (s : State) : Except Stop Byte := filteredByte s (s.eng.row * stride s + 1 + rowIndex s)

/-- a, b and c of R497. -/
def filtA (s : State) : Except Stop Byte :=
  if bpp s ≤ rowIndex s then reconByte s (s.eng.row * rb s + rowIndex s - bpp s) else .ok 0#8
def filtB (s : State) : Except Stop Byte :=
  if 1 ≤ s.eng.row then reconByte s ((s.eng.row - 1) * rb s + rowIndex s) else .ok 0#8
def filtC (s : State) : Except Stop Byte :=
  if 1 ≤ s.eng.row ∧ bpp s ≤ rowIndex s then reconByte s ((s.eng.row - 1) * rb s + rowIndex s - bpp s) else .ok 0#8

/-- `Paeth(a, b, c)` of R502, on mathematical integers. -/
def paeth (a b c : Byte) : Byte :=
  let p : Int := (a.toNat : Int) + b.toNat - c.toNat
  let pa := (p - a.toNat).natAbs
  let pb := (p - b.toNat).natAbs
  let pc := (p - c.toNat).natAbs
  if pa ≤ pb ∧ pa ≤ pc then a else if pb ≤ pc then b else c

/-- `⌊(a + b) / 2⌋` of R501, formed without wrap. -/
def average (a b : Byte) : Byte := BitVec.ofNat 8 ((a.toNat + b.toNat) / 2)

end Sys2Proof.Machine
end

