-- ==== Sys2Proof/Machine/Chunks.lean ====
section
/-! DEFINITION. Signature, chunk walk, header and palette (41_chunks_crc.md): the rows SIG and CHUNK_*. -/

namespace Sys2Proof.Machine

/-! ## Signature (R252) -/

/-- The loop of R252 from index `i` on, over the bytes of the signature that are left. -/
def checkSignature (s : State) : List Byte → Nat → Except Stop Unit
  | [], _ => .ok ()
  | b :: bs, i =>
    if s.regs.inLen.toNat ≤ i then .error (.raise ⟨.signatureMismatch, 0, s.regs.inLen.toNat, 0⟩)
    else
      match inByte s i with
      | .error e => .error e
      | .ok x =>
        if x = b then checkSignature s bs (i + 1)
        else .error (.raise ⟨.signatureMismatch, 0, i, x.toNat⟩)

/-- SIG (R252); the chunk walk follows (R207). -/
def execSig (s : State) : Result :=
  let s1 := { s with regs := { s.regs with stage := .signature } }
  withVal (checkSignature s1 sigBytes 0) s1 fun _ => .next { s1 with eng := { s1.eng with phase := .enter .chunks } }

/-! ## The chunk walk (R253 to R259) -/

/-- The second length check of R254, the CRC check of R255, then `k`. `len` and `typ` are L and T of the chunk at `st.p`. -/
def readChunk (len typ : Word) (k : State → Result) (s : State) : Result :=
  let p := s.eng.p
  if s.regs.inLen.toNat - p < 12 + len.toNat then raiseAt .truncatedStream 2 p typ.toNat s
  else
    withVal (crcOver s (4 + len.toNat) (p + 4) crcInit) s fun c =>
      let s1 := { s with regs := { s.regs with crcResult := crcFinal c }, eng := { s.eng with crc := c } }
      withVal (inBe32 s1 (p + 8 + len.toNat)) s1 fun stored =>
        if (crcFinal c).toNat = stored then k s1 else raiseAt .badCrc 0 p typ.toNat s1

/-- The record of the chunk at `st.p`. -/
def recordChunk (len typ : Word) (s : State) : State :=
  { s with eng := { s.eng with chunks := s.eng.chunks ++ [⟨s.eng.p, len.toNat, typ⟩] } }

/-- R258: the chunk is accepted and the walk goes on behind it. -/
def acceptChunk (len typ : Word) (s : State) : Result :=
  let s1 := recordChunk len typ s
  .next { s1 with eng := { s1.eng with p := s.eng.p + 12 + len.toNat, phase := .chunk } }

/-- `RecordCounts` (R259), at the end of the walk; the header stage follows (R207). -/
def endWalk (s : State) : State :=
  { s with
    regs := { s.regs with
      chunkCount := trunc32 s.eng.chunks.length
      idatCount := trunc32 (s.eng.chunks.filter ChunkRec.isIdat).length
      idatLen := trunc32 (idatTotal s.eng.chunks) }
    eng := { s.eng with phase := .enter .header } }

/-! ## The header (R260 to R267) -/

/-- The offset of the header record (R260). The default stands for no record, which the header stage rules out. -/
def headerOff (s : State) : Nat := ((firstKey s.eng.chunks).map ChunkRec.off).getD 0

/-- The checks of R262 to R266 in their order, for a header at chunk offset `p`: the first that fails. -/
def headerError (p w h bd ct cm fm im : Nat) : Option RunError :=
  if w = 0 then some ⟨.malformedHeader, 2, p, 0⟩
  else if h = 0 then some ⟨.malformedHeader, 3, p, 0⟩
  else if permitted bd ct = false then some ⟨.unsupportedFeature, 1, p, bd + ct * 256⟩
  else if cm ≠ 0 then some ⟨.unsupportedFeature, 2, p, cm⟩
  else if fm ≠ 0 then some ⟨.unsupportedFeature, 3, p, fm⟩
  else if im ≠ 0 then some ⟨.unsupportedFeature, 4, p, im⟩
  else none

/-- `WriteHeaderResults` (R267); the palette stage follows (R207). -/
def writeHeader (w h bd ct cm fm im : Nat) (s : State) : State :=
  { s with
    regs := { s.regs with
      imgWidth := trunc32 w
      imgHeight := trunc32 h
      imgFormat := trunc32 (bd + ct * 256 + cm * 65536 + fm * 16777216)
      imgInterlace := trunc32 im }
    eng := { s.eng with phase := .enter .palette } }

/-- `CheckHeader` (R261 to R267) on the header record, whose length is `len`. -/
def checkHeader (len : Word) (s : State) : Result :=
  let p := headerOff s
  if len ≠ 13#32 then raiseAt .malformedHeader 1 p len.toNat s
  else
    withVal (inBe32 s (p + 8)) s fun w =>
    withVal (inBe32 s (p + 12)) s fun h =>
    withVal (inByte s (p + 16)) s fun bd =>
    withVal (inByte s (p + 17)) s fun ct =>
    withVal (inByte s (p + 18)) s fun cm =>
    withVal (inByte s (p + 19)) s fun fm =>
    withVal (inByte s (p + 20)) s fun im =>
      match headerError p w h bd.toNat ct.toNat cm.toNat fm.toNat im.toNat with
      | some e => .next (raise e s)
      | none => .next (writeHeader w h bd.toNat ct.toNat cm.toNat fm.toNat im.toNat s)

/-! ## The palette (R268 to R272) -/

/-- The checks of R269 to R271 in their order, for a palette record at offset `p` with length `len`. -/
def paletteError (cs : List ChunkRec) (p len : Nat) : Option RunError :=
  if len % 3 ≠ 0 then some ⟨.malformedPalette, 1, p, len⟩
  else if 768 < len then some ⟨.malformedPalette, 2, p, len⟩
  else if cs.any (fun c => c.isIdat && c.off < p) then some ⟨.malformedPalette, 3, p, len⟩
  else none

/-- The offset of the palette record (R268). -/
def paletteOff (s : State) : Nat := ((firstPlte s.eng.chunks).map ChunkRec.off).getD 0

/-- `WritePaletteResults` (R272); inflation follows (R207). -/
def writePalette (p len : Nat) (s : State) : State :=
  { s with
    regs := { s.regs with
      plteOffset := trunc32 (p + 8)
      plteCount := trunc32 (2 ^ 31 + len / 3) }
    eng := { s.eng with phase := .enter .zlibHeader } }

/-- `CheckPaletteLength`, `CheckPalettePosition` and R272 on the first PLTE record. -/
def checkPalette (len : Word) (s : State) : Result :=
  match paletteError s.eng.chunks (paletteOff s) len.toNat with
  | some e => .next (raise e s)
  | none => .next (writePalette (paletteOff s) len.toNat s)

/-! ## The rows -/

/-- CHUNK_IHDR: in the walk an accepted chunk (R254, R255, R258); in the header stage the header itself (R261 to R267). -/
def execChunkIhdr (len : Word) (s : State) : Result :=
  match s.eng.phase with
  | .header => checkHeader len s
  | _ => readChunk len typIHDR (acceptChunk len typIHDR) s

/-- CHUNK_PLTE: in the walk an accepted chunk (R258); in the palette stage the palette itself (R268 to R272). -/
def execChunkPlte (len : Word) (s : State) : Result :=
  match s.eng.phase with
  | .palette => checkPalette len s
  | _ => readChunk len typPLTE (acceptChunk len typPLTE) s

/-- CHUNK_IDAT: an accepted chunk (R258), whose body is part of S from then on (R273; S is a view of IN, nothing is copied). -/
def execChunkIdat (len : Word) (s : State) : Result :=
  readChunk len typIDAT (acceptChunk len typIDAT) s

/-- CHUNK_IEND (R256): the last record; the walk ends. -/
def execChunkIend (len : Word) (s : State) : Result :=
  readChunk len typIEND (fun s1 => .next (endWalk (recordChunk len typIEND s1))) s

/-- CHUNK_UNKNOWN_CRITICAL (R257): rejected, after its CRC was checked. -/
def execChunkUnknownCritical (len typ : Word) (s : State) : Result :=
  readChunk len typ (fun s1 => raiseAt .unsupportedCriticalChunk 0 s.eng.p typ.toNat s1) s

/-- CHUNK_ANCILLARY (R258): CRC-checked, recorded, skipped. -/
def execChunkAncillary (len typ : Word) (s : State) : Result :=
  readChunk len typ (acceptChunk len typ) s

end Sys2Proof.Machine
end

