-- ==== Sys2Proof/Machine/Host.lean ====
section
/-! DEFINITION. The host commands (40_host_commands.md sections 1 and 2) and the host's other moves: memory accesses (R114), cache
maintenance (R119) and the platform's reset (R600, R601). -/

namespace Sys2Proof.Machine

/-! ## CTRL writes (R200, R202, R204) -/

/-- R200, whole: idle, the fields are stored and START begins a run; busy, only IRQ_EN is stored and ABORT is requested. -/
def ctrlWrite (start abort : Bool) (mode : BitVec 3) (irqEn fcheckEn : Bool) (s : State) : State :=
  if s.regs.busy then
    { s with
      regs := { s.regs with irqEn := irqEn }
      eng := { s.eng with abortReq := s.eng.abortReq || abort } }
  else
    let s1 := { s with regs := { s.regs with mode := mode, irqEn := irqEn, fcheckEn := fcheckEn } }
    if start then startRun s1 else s1

/-- WR_CTRL (R200): START = ABORT = 0. -/
def execWrCtrl (mode : BitVec 3) (irqEn fcheckEn : Bool) (s : State) : Result :=
  .next (ctrlWrite false false mode irqEn fcheckEn s)

/-- START_FULL (R202): MODE 0. -/
def execStartFull (abort irqEn fcheckEn : Bool) (s : State) : Result :=
  .next (ctrlWrite true abort 0#3 irqEn fcheckEn s)

/-- START_INFLATE (R202): MODE 1. -/
def execStartInflate (abort irqEn fcheckEn : Bool) (s : State) : Result :=
  .next (ctrlWrite true abort 1#3 irqEn fcheckEn s)

/-- START_UNFILTER (R202): MODE 2. -/
def execStartUnfilter (abort irqEn fcheckEn : Bool) (s : State) : Result :=
  .next (ctrlWrite true abort 2#3 irqEn fcheckEn s)

/-- START_CRC32 (R202): MODE 3. -/
def execStartCrc32 (abort irqEn fcheckEn : Bool) (s : State) : Result :=
  .next (ctrlWrite true abort 3#3 irqEn fcheckEn s)

/-- START_RESERVED (R202, R206): MODE 4 to 7. The run's first engine step, the configuration check, ends it with BadConfig SUB 1. -/
def execStartReserved (mode : BitVec 3) (abort irqEn fcheckEn : Bool) (s : State) : Result :=
  .next (ctrlWrite true abort mode irqEn fcheckEn s)

/-- ABORT (R204, R200): requested while busy; while idle a CTRL write whose ABORT bit is ignored. -/
def execAbort (start : Bool) (mode : BitVec 3) (irqEn fcheckEn : Bool) (s : State) : Result :=
  .next (ctrlWrite start true mode irqEn fcheckEn s)

/-! ## The other register accesses -/

/-- WR_STATUS (R205): write 1 to clear DONE (bit 1) and ERR (bit 2). -/
def execWrStatus (v : Word) (s : State) : Result :=
  .next { s with
    regs := { s.regs with
      done := s.regs.done && !v.getLsbD 1
      err := s.regs.err && !v.getLsbD 2 } }

/-- WR_REG (R201): stores to the RW registers while idle; every other offset, and every write while busy, has no effect. -/
def execWrReg (off : BitVec 8) (v : Word) (s : State) : Result :=
  .next (if s.regs.busy then s else { s with regs := writeRegs s.regs off v })

/-- What a read at `off` returns now: any value for a result register while BUSY = 1 (R46), else the register. -/
def readValue (s : State) (off : BitVec 8) : Word :=
  if s.regs.busy && isResult off then Config.freeWord s.draws else readReg s.regs off

/-- R113 item 3: this read of STATUS returns DONE = 1 or ERR = 1. -/
def showsEnd (s : State) (off : BitVec 8) : Bool := off == 0x08#8 && (s.regs.done || s.regs.err)

/-- RD_REG (R212). The value is the line's result; a value left open is a new draw each time. A read of STATUS that shows the end of a run
makes its output visible to the host (R113 item 3, log 25). -/
def execRdReg (off : BitVec 8) (s : State) : Result :=
  .next { s with
    rdata := readValue s off
    draws := if s.regs.busy && isResult off then s.draws + 1 else s.draws
    unseen := if showsEnd s off then [] else s.unseen }

/-! ## The host's moves that are no register access -/

/-- Whether a host access of the byte at `a` reaches memory: a byte access that falls into the register window is the narrow access R107
has a model refuse, and where the platform implements no memory there is nothing to access (log 10). -/
def hostCheck (s : State) (a : Nat) : Option Refusal :=
  if inWindow s.plat a then some .narrowOrMisalignedAccess
  else if noMemory s.plat a then some .hostHitsNoMemory
  else none

/-- Go on where the host's access of the byte at `a` reaches memory. -/
def withHostByte (s : State) (a : Nat) (r : Result) : Result :=
  match hostCheck s a with
  | some e => .refused e
  | none => r

/-- R114, R607: a byte of a region the running mode uses. -/
def usedByRun (s : State) (a : Nat) : Bool := s.regs.busy && s.regs.used.any fun r => r.contains a

/-- The state after the host's byte landed. The host reads its own byte from here on (R114), also where an earlier run's output stood that
it has not observed (log 25). On a non-coherent platform the engine does not see the byte until the host cleans it (R119, log 9). -/
def hostPut (a : Nat) (b : Byte) (s : State) : State :=
  let s1 := { s with mem := s.mem.write a b, unseen := s.unseen.flatMap (Region.without a) }
  if s.plat.coherent then s1
  else
    { s1 with
      uncleaned := addAddr s.uncleaned a
      stale := s.stale.filter (· != a) }

/-- `mem addr, b` of R167. While BUSY = 1 a byte of the running mode's regions is refused (R114, U3). -/
def hostMemWrite (addr : Word) (b : Byte) (s : State) : Result :=
  withHostByte s addr.toNat
    (if usedByRun s addr.toNat then .refused .hostWriteToBusyRegion else .next (hostPut addr.toNat b s))

/-- R114: while BUSY = 1 a byte of INFL or RECON reads as any value, in whichever mode; a byte of IN that the mode does not write reads as
the host wrote it. -/
def openWhileBusy (s : State) (a : Nat) : Bool :=
  s.regs.busy && (s.regs.outputs.any (fun r => r.contains a) ||
    !s.regs.inRegion.contains a && (s.regs.inflRegion.contains a || s.regs.reconRegion.contains a))

/-- An output byte of a run whose end the host has not read from STATUS (R113 item 3), and which the host has not written since. -/
def isUnseen (s : State) (a : Nat) : Bool := s.unseen.any fun r => r.contains a

/-- The host cannot rely on the byte: INFL or RECON during a run (R114, R606); output of a run whose end no STATUS read has returned and
that the host has not overwritten, for which R113 item 3 promises nothing (log 25); or, on a non-coherent platform, written by the
engine and not invalidated since (R119). -/
def hostReadOpen (s : State) (a : Nat) : Bool :=
  openWhileBusy s a || isUnseen s a || !s.plat.coherent && s.stale.contains a

/-- A host read of one byte of memory. -/
def hostMemRead (addr : Word) (s : State) : Result :=
  withHostByte s addr.toNat
    (.next (if hostReadOpen s addr.toNat then { s with memData := Config.freeByte s.draws, draws := s.draws + 1 }
      else { s with memData := s.byteAt addr.toNat }))

/-- A range of cache maintenance. -/
def inSpan (addr : Word) (n a : Nat) : Bool := addr.toNat ≤ a && a < addr.toNat + n

/-- R119: the host's writes in the range become visible to the engine, for the runs that start from here on: a running engine goes on
with what was clean at its START. DESIGN CHOICE where a clean falls into a run, safe, log 9. -/
def hostClean (addr : Word) (n : Nat) (s : State) : Result :=
  .next { s with uncleaned := s.uncleaned.filter fun a => !inSpan addr n a }

/-- R119: the host's next reads in the range see memory. It counts only for bytes of runs whose end the host has observed. DESIGN CHOICE
where an invalidate comes before that, safe, log 9. A byte the host wrote and has not cleaned outlives an invalidate: memory keeps it, the
host goes on reading it and can still clean it. DESIGN CHOICE, unsafe, log 9: the spec does not say what an invalidate does to such a
byte, and a cache may lose it. -/
def hostInvalidate (addr : Word) (n : Nat) (s : State) : Result :=
  .next { s with stale := s.stale.filter fun a => !inSpan addr n a || isUnseen s a }

/-- R600, R601, R602: every register takes its reset value and the engine is idle. Memory is kept, except that a reset during a run
leaves any value in the regions the mode writes. The host, the platform and the draws go on (log 19). -/
def resetMachine (s : State) : Result :=
  let s1 := if s.regs.busy then havocOutputs s else s
  .next { s1 with regs := Regs.reset, eng := Engine.reset }

end Sys2Proof.Machine
end

