-- ==== Sys2Proof/Machine/Inflate.lean ====
section
/-! DEFINITION. The zlib header, the blocks and the code lengths (42_inflate_blocks.md): the rows ZLIB_*, BLOCK_* and CL_*, the
inflated output (R431) and the end of a block (R362). -/

namespace Sys2Proof.Machine

/-! ## Output and block end -/

/-- `Emit(b)` (R431), then `k`. The capacity test is "no room left", which equals R431's "= INFL_CAP" in every state a run reaches
(log 12). -/
def emit (b : Byte) (s : State) (k : State → Result) : Result :=
  if s.regs.inflCap.toNat ≤ s.eng.out then raiseAt .outputOverflow 1 s.eng.out s.eng.block s
  else
    withVal (busWrite s (s.regs.inflBase.toNat + s.eng.out) b) s fun s1 =>
      k { s1 with
        regs := { s1.regs with inflLen := trunc32 (s.eng.out + 1) }
        eng := { s1.eng with
          out := s.eng.out + 1
          s1 := (adlerStep (s.eng.s1, s.eng.s2) b).1
          s2 := (adlerStep (s.eng.s1, s.eng.s2) b).2 } }

/-- R362: after the final block the trailer, else the next block header. -/
def afterBlock (bfinal : Bool) : Phase := if bfinal then .enter .trailer else .block

/-- `EndBlock` (R362): the block is counted; after the final one the trailer follows (R441), else the next block header (R336). -/
def endBlock (s : State) : State :=
  { s with
    regs := { s.regs with blockCount := trunc32 (s.eng.block + 1) }
    eng := { s.eng with
      block := s.eng.block + 1
      phase := afterBlock s.eng.bfinal } }

/-! ## The zlib header (R330 to R334) -/

/-- ERR_AUX of R331 to R333: CMF | FLG << 8. -/
def zlibAux (cmf flg : Byte) : Nat := cmf.toNat + flg.toNat * 256

/-- ZLIB_CM (R331). -/
def execZlibCm (cmf flg : Byte) (s : State) : Result :=
  if cmf.toNat % 16 ≠ 8 then raiseAt .unsupportedCompression 1 0 (zlibAux cmf flg) s
  else .next { s with eng := { s.eng with phase := .zlibFdict cmf flg } }

/-- ZLIB_FDICT (R332). -/
def execZlibFdict (cmf flg : Byte) (s : State) : Result :=
  if flg.getLsbD 5 then raiseAt .unsupportedCompression 2 0 (zlibAux cmf flg) s
  else .next { s with eng := { s.eng with phase := .zlibFcheck cmf flg } }

/-- ZLIB_FCHECK (R333); the blocks follow (R330, R336). -/
def execZlibFcheck (cmf flg : Byte) (s : State) : Result :=
  if s.regs.fcheckEn && (cmf.toNat * 256 + flg.toNat) % 31 != 0 then
    raiseAt .unsupportedCompression 3 0 (zlibAux cmf flg) s
  else .next { s with eng := { s.eng with phase := .enter .blocks } }

/-! ## The blocks (R336 to R348) -/

/-- Go on at bit `pos` of S. -/
def atBit (pos : Nat) (s : State) : State := { s with eng := { s.eng with bitpos := pos } }

/-- BLOCK_STORED (R339, R340): LEN and NLEN from the next byte boundary; the copy (R341) follows byte by byte. -/
def execBlockStored (bfinal : Bool) (s : State) : Result :=
  let s1 := { s with eng := { s.eng with bfinal := bfinal, bitpos := alignBit s.eng.bitpos } }
  withVal (readBits (streamBit s1) s1.eng.bitpos 16) s1 fun len =>
  withVal (readBits (streamBit s1) (s1.eng.bitpos + 16) 16) s1 fun nlen =>
    if nlen = len ^^^ 0xFFFF then
      .next { s1 with eng := { s1.eng with bitpos := s1.eng.bitpos + 32, phase := .stored len } }
    else raiseAt .blockLengthMismatch 0 s1.eng.hpos s1.eng.block s1

/-- BLOCK_FIXED (R342). -/
def execBlockFixed (bfinal : Bool) (s : State) : Result :=
  .next { s with
    eng := { s.eng with
      bfinal := bfinal, dyn := false, litlen := fixedLitLen, dist := fixedDist, phase := .litLen } }

/-- The order of R346. -/
def clOrder : List Nat := [16, 17, 18, 0, 8, 7, 9, 6, 10, 5, 11, 4, 12, 3, 13, 2, 14, 1, 15]

/-- `ReadCodeLengthCode` (R346): the 3-bit lengths of the symbols in `order`, from bit `pos` on, into `cl`. -/
def readClLens (s : State) : List Nat → Nat → List Nat → Except Stop (List Nat)
  | [], _, cl => .ok cl
  | sym :: order, pos, cl =>
    match readBits (streamBit s) pos 3 with
    | .error e => .error e
    | .ok l => readClLens s order (pos + 3) (cl.set sym l)

/-- InvalidHuffmanCode (R556) in the current block. -/
def raiseCode (sub pos : Nat) (s : State) : Result := raiseAt .invalidHuffmanCode sub pos s.eng.block s

/-- BLOCK_DYNAMIC (R343 to R348): the counts, the code-length code and its check; the code lengths follow symbol by symbol
(R349). -/
def execBlockDynamic (bfinal : Bool) (s : State) : Result :=
  let s1 := { s with eng := { s.eng with bfinal := bfinal, dyn := true } }
  let pos := s1.eng.bitpos
  withVal (readBits (streamBit s1) pos 5) s1 fun hlit =>
  withVal (readBits (streamBit s1) (pos + 5) 5) s1 fun hdist =>
  withVal (readBits (streamBit s1) (pos + 10) 4) s1 fun hclen =>
    if 29 < hlit then raiseCode 9 (s1.eng.hpos + 3) s1
    else if 29 < hdist then raiseCode 10 (s1.eng.hpos + 8) s1
    else
      withVal (readClLens s1 (clOrder.take (hclen + 4)) (pos + 14) (List.replicate 19 0)) s1 fun cl =>
        let s2 := { s1 with
          eng := { s1.eng with
            cl := cl, lens := [], nlit := hlit + 257, ndist := hdist + 1
            bitpos := pos + 14 + 3 * (hclen + 4), phase := .clSym } }
        if overSubscribed cl then raiseCode 6 (s1.eng.hpos + 17) s2 else .next s2

/-- BLOCK_RESERVED (R338). -/
def execBlockReserved (bfinal : Bool) (s : State) : Result :=
  let s1 := { s with eng := { s.eng with bfinal := bfinal } }
  raiseAt .invalidBlockType 0 s1.eng.hpos s1.eng.block s1

/-- One byte of `StoredCopy` (R341): read, then emitted; at none left the block ends (R362). -/
def storedStep (n : Nat) (s : State) : Result :=
  match n with
  | 0 => .next (endBlock s)
  | n' + 1 =>
    withVal (readBits (streamBit s) s.eng.bitpos 8) s fun v =>
      emit (BitVec.ofNat 8 v) (atBit (s.eng.bitpos + 8) s) fun s1 =>
        .next { s1 with eng := { s1.eng with phase := .stored n' } }

/-! ## The code lengths (R349 to R358) -/

/-- `SplitAndCheck` (R355 to R358); the symbol loop follows (R343, R430). -/
def splitAndCheck (s : State) : Result :=
  let litlen := s.eng.lens.take s.eng.nlit ++ List.replicate (288 - s.eng.nlit) 0
  let dist := (s.eng.lens.drop s.eng.nlit).take s.eng.ndist ++ List.replicate (32 - s.eng.ndist) 0
  let s1 := { s with eng := { s.eng with litlen := litlen, dist := dist, phase := .litLen } }
  if overSubscribed litlen then raiseCode 7 s.eng.hpos s1
  else if litlen.getD 256 0 = 0 then raiseCode 13 s.eng.hpos s1
  else if overSubscribed dist then raiseCode 8 s.eng.hpos s1
  else .next s1

/-- The loop of R349 after lengths were appended: the next symbol, or with all n lengths the split. -/
def appendLens (ls : List Nat) (s : State) : Result :=
  let s1 := { s with eng := { s.eng with lens := s.eng.lens ++ ls, phase := .clSym } }
  if s1.eng.lens.length < s1.eng.nlit + s1.eng.ndist then .next s1 else splitAndCheck s1

/-- `RepeatCheck` (R354), then `r` copies of `v`. -/
def repeatLens (r v : Nat) (s : State) : Result :=
  if s.eng.nlit + s.eng.ndist < s.eng.lens.length + r then raiseCode 12 s.eng.sp s
  else appendLens (List.replicate r v) s

/-- CL_LEN (R350). -/
def execClLen (sym : BitVec 4) (s : State) : Result := appendLens [sym.toNat] s

/-- CL_16 (R351): repeat the previous length. -/
def execCl16 (e : BitVec 2) (s : State) : Result :=
  match s.eng.lens.getLast? with
  | none => raiseCode 11 s.eng.sp s
  | some v => repeatLens (3 + e.toNat) v s

/-- CL_17 (R352): a short run of zeros. -/
def execCl17 (e : BitVec 3) (s : State) : Result := repeatLens (3 + e.toNat) 0 s

/-- CL_18 (R353): a long run of zeros. -/
def execCl18 (e : BitVec 7) (s : State) : Result := repeatLens (11 + e.toNat) 0 s

end Sys2Proof.Machine
end

