-- ==== Sys2Proof/Machine/Symbols.lean ====
section
/-! DEFINITION. Literal/length and distance symbols and the back-reference copy (43_inflate_symbols.md): the rows LIT_*, EOB, LEN_*,
LITLEN_INVALID, DIST_* and DIST_INVALID. The codeword and the extra bits have been read; `st.bitpos` stands behind them. -/

namespace Sys2Proof.Machine

/-- `Literal(sym)` (R432): one byte of output; the symbol loop goes on (R430). -/
def literal (b : Byte) (s : State) : Result :=
  emit b s fun s1 => .next { s1 with eng := { s1.eng with phase := .litLen } }

/-- LIT_FIXED_8 (R432). -/
def execLitFixed8 (lit : Byte) (s : State) : Result := literal lit s

/-- LIT_FIXED_9 (R432). -/
def execLitFixed9 (lit : Byte) (s : State) : Result := literal lit s

/-- LIT_DYN (R432). -/
def execLitDyn (lit : Byte) (s : State) : Result := literal lit s

/-- EOB (R433, R362). -/
def execEob (s : State) : Result := .next (endBlock s)

/-- The length half of `Match` (R434): the distance symbol comes next. -/
def startMatch (length : Nat) (s : State) : Result := .next { s with eng := { s.eng with phase := .dist length } }

/-- LEN_257 (R434, R157). -/
def execLen257 (s : State) : Result := startMatch 3 s

/-- LEN_258 (R434, R157). -/
def execLen258 (s : State) : Result := startMatch 4 s

/-- LEN_259 (R434, R157). -/
def execLen259 (s : State) : Result := startMatch 5 s

/-- LEN_260 (R434, R157). -/
def execLen260 (s : State) : Result := startMatch 6 s

/-- LEN_261 (R434, R157). -/
def execLen261 (s : State) : Result := startMatch 7 s

/-- LEN_262 (R434, R157). -/
def execLen262 (s : State) : Result := startMatch 8 s

/-- LEN_263 (R434, R157). -/
def execLen263 (s : State) : Result := startMatch 9 s

/-- LEN_264 (R434, R157). -/
def execLen264 (s : State) : Result := startMatch 10 s

/-- LEN_265 (R434, R157). -/
def execLen265 (e : BitVec 1) (s : State) : Result := startMatch (11 + e.toNat) s

/-- LEN_266 (R434, R157). -/
def execLen266 (e : BitVec 1) (s : State) : Result := startMatch (13 + e.toNat) s

/-- LEN_267 (R434, R157). -/
def execLen267 (e : BitVec 1) (s : State) : Result := startMatch (15 + e.toNat) s

/-- LEN_268 (R434, R157). -/
def execLen268 (e : BitVec 1) (s : State) : Result := startMatch (17 + e.toNat) s

/-- LEN_269 (R434, R157). -/
def execLen269 (e : BitVec 2) (s : State) : Result := startMatch (19 + e.toNat) s

/-- LEN_270 (R434, R157). -/
def execLen270 (e : BitVec 2) (s : State) : Result := startMatch (23 + e.toNat) s

/-- LEN_271 (R434, R157). -/
def execLen271 (e : BitVec 2) (s : State) : Result := startMatch (27 + e.toNat) s

/-- LEN_272 (R434, R157). -/
def execLen272 (e : BitVec 2) (s : State) : Result := startMatch (31 + e.toNat) s

/-- LEN_273 (R434, R157). -/
def execLen273 (e : BitVec 3) (s : State) : Result := startMatch (35 + e.toNat) s

/-- LEN_274 (R434, R157). -/
def execLen274 (e : BitVec 3) (s : State) : Result := startMatch (43 + e.toNat) s

/-- LEN_275 (R434, R157). -/
def execLen275 (e : BitVec 3) (s : State) : Result := startMatch (51 + e.toNat) s

/-- LEN_276 (R434, R157). -/
def execLen276 (e : BitVec 3) (s : State) : Result := startMatch (59 + e.toNat) s

/-- LEN_277 (R434, R157). -/
def execLen277 (e : BitVec 4) (s : State) : Result := startMatch (67 + e.toNat) s

/-- LEN_278 (R434, R157). -/
def execLen278 (e : BitVec 4) (s : State) : Result := startMatch (83 + e.toNat) s

/-- LEN_279 (R434, R157). -/
def execLen279 (e : BitVec 4) (s : State) : Result := startMatch (99 + e.toNat) s

/-- LEN_280 (R434, R157). -/
def execLen280 (e : BitVec 4) (s : State) : Result := startMatch (115 + e.toNat) s

/-- LEN_281 (R434, R157). -/
def execLen281 (e : BitVec 5) (s : State) : Result := startMatch (131 + e.toNat) s

/-- LEN_282 (R434, R157). -/
def execLen282 (e : BitVec 5) (s : State) : Result := startMatch (163 + e.toNat) s

/-- LEN_283 (R434, R157). -/
def execLen283 (e : BitVec 5) (s : State) : Result := startMatch (195 + e.toNat) s

/-- LEN_284 (R434, R157). -/
def execLen284 (e : BitVec 5) (s : State) : Result := startMatch (227 + e.toNat) s

/-- LEN_285 (R434, R157). -/
def execLen285 (s : State) : Result := startMatch 258 s

/-- LITLEN_INVALID (R435): symbols 286 and 287. -/
def execLitlenInvalid (s : State) : Result := raiseCode 4 s.eng.sp s

/-- The length of the match whose distance is being read. -/
def matchLength (s : State) : Nat :=
  match s.eng.phase with
  | .dist length => length
  | _ => 0

/-- The distance half of `Match` (R434, R436): `CheckDistance` (R438), then the copy (R439) byte by byte. -/
def startCopy (dist : Nat) (s : State) : Result :=
  if s.eng.out < dist then raiseAt .invalidBackReference 0 s.eng.sp s.eng.block s
  else .next { s with eng := { s.eng with phase := .copy (matchLength s) dist } }

/-- DIST_0 (R436, R158). -/
def execDist0 (s : State) : Result := startCopy 1 s

/-- DIST_1 (R436, R158). -/
def execDist1 (s : State) : Result := startCopy 2 s

/-- DIST_2 (R436, R158). -/
def execDist2 (s : State) : Result := startCopy 3 s

/-- DIST_3 (R436, R158). -/
def execDist3 (s : State) : Result := startCopy 4 s

/-- DIST_4 (R436, R158). -/
def execDist4 (e : BitVec 1) (s : State) : Result := startCopy (5 + e.toNat) s

/-- DIST_5 (R436, R158). -/
def execDist5 (e : BitVec 1) (s : State) : Result := startCopy (7 + e.toNat) s

/-- DIST_6 (R436, R158). -/
def execDist6 (e : BitVec 2) (s : State) : Result := startCopy (9 + e.toNat) s

/-- DIST_7 (R436, R158). -/
def execDist7 (e : BitVec 2) (s : State) : Result := startCopy (13 + e.toNat) s

/-- DIST_8 (R436, R158). -/
def execDist8 (e : BitVec 3) (s : State) : Result := startCopy (17 + e.toNat) s

/-- DIST_9 (R436, R158). -/
def execDist9 (e : BitVec 3) (s : State) : Result := startCopy (25 + e.toNat) s

/-- DIST_10 (R436, R158). -/
def execDist10 (e : BitVec 4) (s : State) : Result := startCopy (33 + e.toNat) s

/-- DIST_11 (R436, R158). -/
def execDist11 (e : BitVec 4) (s : State) : Result := startCopy (49 + e.toNat) s

/-- DIST_12 (R436, R158). -/
def execDist12 (e : BitVec 5) (s : State) : Result := startCopy (65 + e.toNat) s

/-- DIST_13 (R436, R158). -/
def execDist13 (e : BitVec 5) (s : State) : Result := startCopy (97 + e.toNat) s

/-- DIST_14 (R436, R158). -/
def execDist14 (e : BitVec 6) (s : State) : Result := startCopy (129 + e.toNat) s

/-- DIST_15 (R436, R158). -/
def execDist15 (e : BitVec 6) (s : State) : Result := startCopy (193 + e.toNat) s

/-- DIST_16 (R436, R158). -/
def execDist16 (e : BitVec 7) (s : State) : Result := startCopy (257 + e.toNat) s

/-- DIST_17 (R436, R158). -/
def execDist17 (e : BitVec 7) (s : State) : Result := startCopy (385 + e.toNat) s

/-- DIST_18 (R436, R158). -/
def execDist18 (e : BitVec 8) (s : State) : Result := startCopy (513 + e.toNat) s

/-- DIST_19 (R436, R158). -/
def execDist19 (e : BitVec 8) (s : State) : Result := startCopy (769 + e.toNat) s

/-- DIST_20 (R436, R158). -/
def execDist20 (e : BitVec 9) (s : State) : Result := startCopy (1025 + e.toNat) s

/-- DIST_21 (R436, R158). -/
def execDist21 (e : BitVec 9) (s : State) : Result := startCopy (1537 + e.toNat) s

/-- DIST_22 (R436, R158). -/
def execDist22 (e : BitVec 10) (s : State) : Result := startCopy (2049 + e.toNat) s

/-- DIST_23 (R436, R158). -/
def execDist23 (e : BitVec 10) (s : State) : Result := startCopy (3073 + e.toNat) s

/-- DIST_24 (R436, R158). -/
def execDist24 (e : BitVec 11) (s : State) : Result := startCopy (4097 + e.toNat) s

/-- DIST_25 (R436, R158). -/
def execDist25 (e : BitVec 11) (s : State) : Result := startCopy (6145 + e.toNat) s

/-- DIST_26 (R436, R158). -/
def execDist26 (e : BitVec 12) (s : State) : Result := startCopy (8193 + e.toNat) s

/-- DIST_27 (R436, R158). -/
def execDist27 (e : BitVec 12) (s : State) : Result := startCopy (12289 + e.toNat) s

/-- DIST_28 (R436, R158). -/
def execDist28 (e : BitVec 13) (s : State) : Result := startCopy (16385 + e.toNat) s

/-- DIST_29 (R436, R158). -/
def execDist29 (e : BitVec 13) (s : State) : Result := startCopy (24577 + e.toNat) s

/-- DIST_INVALID (R437): symbols 30 and 31. -/
def execDistInvalid (s : State) : Result := raiseCode 5 s.eng.sp s

/-- One byte of `Copy` (R439): read back from INFL at the distance, then emitted; at none left the symbol loop goes on. -/
def copyStep (n d : Nat) (s : State) : Result :=
  match n with
  | 0 => .next { s with eng := { s.eng with phase := .litLen } }
  | n' + 1 =>
    withVal (busRead s (s.regs.inflBase.toNat + s.eng.out - d)) s fun b =>
      emit b s fun s1 => .next { s1 with eng := { s1.eng with phase := .copy n' d } }

end Sys2Proof.Machine
end

