-- ==== Sys2Proof/Machine/Unfilter.lean ====
section
/-! DEFINITION. The unfilterer (44_unfilter.md): the rows FILT_*, each of which reconstructs the byte the engine stands at (R497 to
R503), and the parameter and capacity checks (R491, R494). -/

namespace Sys2Proof.Machine

/-- The row is complete (R495, R503): RECON_LEN, then the next row, or after the last one the end of the run (R505, R211). -/
def endRow (s : State) : State :=
  let s1 := { s with
    regs := { s.regs with reconLen := trunc32 ((s.eng.row + 1) * rb s) }
    eng := { s.eng with row := s.eng.row + 1, phase := .row } }
  if s.eng.row + 1 < geomHeight s then s1 else finishRun s1

/-- R503: byte `i` of the row is written; then the next byte of the row, under the same filter, or the row's end. -/
def writeRowByte (ft v : Byte) (s : State) : Result :=
  withVal (busWrite s (s.regs.reconBase.toNat + s.eng.row * rb s + rowIndex s) v) s fun s1 =>
    if rowIndex s + 1 < rb s then .next { s1 with eng := { s1.eng with phase := .rowByte ft (rowIndex s + 1) } }
    else .next (endRow s1)

/-- FILT_NONE (R498): `v := x`. -/
def execFiltNone (s : State) : Result :=
  withVal (filtX s) s fun x => writeRowByte 0#8 x s

/-- FILT_SUB (R499): `v := (x + a) mod 256`. -/
def execFiltSub (s : State) : Result :=
  withVal (filtX s) s fun x =>
  withVal (filtA s) s fun a => writeRowByte 1#8 (x + a) s

/-- FILT_UP (R500): `v := (x + b) mod 256`. -/
def execFiltUp (s : State) : Result :=
  withVal (filtX s) s fun x =>
  withVal (filtB s) s fun b => writeRowByte 2#8 (x + b) s

/-- FILT_AVG (R501): `v := (x + ⌊(a + b) / 2⌋) mod 256`. -/
def execFiltAvg (s : State) : Result :=
  withVal (filtX s) s fun x =>
  withVal (filtA s) s fun a =>
  withVal (filtB s) s fun b => writeRowByte 3#8 (x + average a b) s

/-- FILT_PAETH (R502): `v := (x + Paeth(a, b, c)) mod 256`. -/
def execFiltPaeth (s : State) : Result :=
  withVal (filtX s) s fun x =>
  withVal (filtA s) s fun a =>
  withVal (filtB s) s fun b =>
  withVal (filtC s) s fun c => writeRowByte 4#8 (x + paeth a b c) s

/-- FILT_INVALID (R496). -/
def execFiltInvalid (ft : Byte) (s : State) : Result := raiseAt .invalidFilterType 0 s.eng.row ft.toNat s

/-- The checks of R491 in their order: the first that fails. -/
def ufError (w h bd ct : Nat) : Option RunError :=
  if w = 0 then some ⟨.malformedHeader, 2, 0x30, 0⟩
  else if h = 0 then some ⟨.malformedHeader, 3, 0x34, 0⟩
  else if permitted bd ct = false then some ⟨.unsupportedFeature, 1, 0x38, bd + ct * 256⟩
  else none

/-- `ValidateUnfilterParams` (R209, R491). -/
def ufParamsStep (s : State) : Result :=
  match ufError s.regs.ufWidth.toNat s.regs.ufHeight.toNat (formatDepth s.regs.ufFormat) (formatColor s.regs.ufFormat) with
  | some e => .next (raise e s)
  | none => .next { s with eng := { s.eng with phase := .geometry } }

/-- `Unfilter` up to its first row (R490, R493, R494). -/
def geometryStep (s : State) : Result :=
  if s.regs.reconCap.toNat < geomHeight s * rb s then
    raiseAt .outputOverflow 2 0 (min (geomHeight s * rb s) 0xFFFFFFFF) s
  else
    let s1 := { s with
      regs := { s.regs with rowBytes := trunc32 (rb s), bpp := trunc32 (bpp s) }
      eng := { s.eng with row := 0, phase := .row } }
    if geomHeight s = 0 then .next (finishRun s1) else .next s1

end Sys2Proof.Machine
end

