-- ==== Sys2Proof/Machine/Run.lean ====
section
/-! DEFINITION. The steps of a run that decode no row of the table: the stage entries (R35), the configuration check (R206), the trailer
(R441 to R443) and the CRC32 mode (R210), and how far a step cut short by an abort has come (R204). -/

namespace Sys2Proof.Machine

/-! ## Stage entries (R35) -/

/-- The engine enters a stage: STATUS.STAGE, and what the stage's rule sets with it. No stage is entered as IDLE (R35). -/
def enterStage (g : Stage) (s : State) : State :=
  match g with
  | .idle => s
  | .config => { s with regs := { s.regs with stage := .config }, eng := { s.eng with phase := .config } }
  | .signature => { s with regs := { s.regs with stage := .signature }, eng := { s.eng with phase := .sig } }
  | .chunks =>
    { s with
      regs := { s.regs with stage := .chunks }
      eng := { s.eng with p := 8, chunks := [], phase := .chunk } }
  | .header => { s with regs := { s.regs with stage := .header }, eng := { s.eng with phase := .header } }
  | .palette => { s with regs := { s.regs with stage := .palette }, eng := { s.eng with phase := .palette } }
  | .zlibHeader =>
    { s with
      regs := { s.regs with stage := .zlibHeader }
      eng := { s.eng with bitpos := 0, out := 0, block := 0, s1 := 1, s2 := 0, phase := .inflate } }
  | .blocks => { s with regs := { s.regs with stage := .blocks }, eng := { s.eng with bitpos := 16, phase := .block } }
  | .trailer =>
    { s with
      regs := { s.regs with adlerResult := adlerWord s.eng.s1 s.eng.s2, stage := .trailer }
      eng := { s.eng with bitpos := alignBit s.eng.bitpos, phase := .trailer } }
  | .unfilter =>
    { s with
      regs := { s.regs with stage := .unfilter }
      eng := { s.eng with phase := if isFull s then .geometry else .ufParams } }
  | .crc => { s with regs := { s.regs with stage := .crc }, eng := { s.eng with phase := .crc } }

/-! ## An abort inside a step (R204, R566) -/

/-- The registers a run's steps write while it goes on, in an order that keeps the rules' order within every step: one entry takes its
register from `t` into `r`. -/
def runUpdates (t : Regs) : List (Regs → Regs) :=
  [fun r => { r with adlerResult := t.adlerResult }, fun r => { r with stage := t.stage },
    fun r => { r with crcResult := t.crcResult }, fun r => { r with chunkCount := t.chunkCount },
    fun r => { r with idatCount := t.idatCount }, fun r => { r with idatLen := t.idatLen },
    fun r => { r with imgWidth := t.imgWidth }, fun r => { r with imgHeight := t.imgHeight },
    fun r => { r with imgFormat := t.imgFormat }, fun r => { r with imgInterlace := t.imgInterlace },
    fun r => { r with plteOffset := t.plteOffset }, fun r => { r with plteCount := t.plteCount },
    fun r => { r with rowBytes := t.rowBytes }, fun r => { r with bpp := t.bpp },
    fun r => { r with inflLen := t.inflLen }, fun r => { r with blockCount := t.blockCount },
    fun r => { r with reconLen := t.reconLen }]

/-- The registers when the first `k` of a step's register updates have been made, the step leading from `r` to `t`. -/
def partway (k : Nat) (r t : Regs) : Regs := ((runUpdates t).take k).foldl (fun r f => f r) r

/-! ## The configuration check -/

/-- The regions a mode uses with the offsets of their base registers (R101, R206), in the order IN, INFL, RECON. -/
def usedNamed (r : Regs) : List (Nat × Region) :=
  match r.mode.toNat with
  | 0 => [(0x18, r.inRegion), (0x20, r.inflRegion), (0x28, r.reconRegion)]
  | 1 => [(0x18, r.inRegion), (0x20, r.inflRegion)]
  | 2 => [(0x18, r.inRegion), (0x28, r.reconRegion)]
  | 3 => [(0x18, r.inRegion)]
  | _ => []

/-- R120, R206: the region wraps past 2^32. -/
def Region.wraps (r : Region) : Bool := 2 ^ 32 < r.base + r.len

/-- R120, R206: both are non-empty and share an address. -/
def Region.overlaps (r1 r2 : Region) : Bool :=
  0 < r1.len && 0 < r2.len && r1.base < r2.base + r2.len && r2.base < r1.base + r1.len

/-- The first overlapping pair, earlier regions first: (IN, INFL), (IN, RECON), (INFL, RECON). -/
def firstOverlap : List (Nat × Region) → Option (Nat × Nat)
  | [] => none
  | r :: rs =>
    match rs.find? fun q => r.2.overlaps q.2 with
    | some q => some (r.1, q.1)
    | none => firstOverlap rs

/-- The checks of R206 in their order: the first that fails. -/
def configError (r : Regs) : Option RunError :=
  if 3 < r.mode.toNat then some ⟨.badConfig, 1, 0x04, r.mode.toNat⟩
  else
    match (usedNamed r).find? fun q => q.2.wraps with
    | some q => some ⟨.badConfig, 2, q.1, q.2.len⟩
    | none =>
      match firstOverlap (usedNamed r) with
      | some q => some ⟨.badConfig, 3, q.1, q.2⟩
      | none => none

/-- The first stage of each mode (R202, R207 to R210). -/
def modeEntry (r : Regs) : Stage :=
  match r.mode.toNat with
  | 0 => .signature
  | 1 => .zlibHeader
  | 2 => .unfilter
  | _ => .crc

/-- `CheckConfig` (R206), then the mode's own sequence. -/
def configStep (s : State) : Result :=
  let s1 := { s with regs := { s.regs with stage := .config } }
  match configError s1.regs with
  | some e => .next (raise e s1)
  | none => .next { s1 with eng := { s1.eng with phase := .enter (modeEntry s1.regs) } }

/-! ## The trailer and the CRC32 mode -/

/-- `CheckTrailer` behind its entry, and `CompareAdler` (R441, R442). Then the unfilterer (FULL) or the end of the run (INFLATE) (R443). -/
def trailerStep (s : State) : Result :=
  let j := s.eng.bitpos / 8
  if streamLen s < j + 4 then raiseAt .streamExhausted 3 (8 * streamLen s) s.eng.block s
  else
    withVal (be32From (streamByte s) j) s fun stored =>
      if stored = s.regs.adlerResult.toNat then
        if isFull s then .next { s with eng := { s.eng with phase := .enter .unfilter } } else .next (finishRun s)
      else raiseAt .checksumMismatch 0 j stored s

/-- `RunCrc` behind its entry, and the end of the run (R210, R211). -/
def crcStep (s : State) : Result :=
  withVal (crcOver s s.regs.inLen.toNat 0 crcInit) s fun c =>
    .next (finishRun { s with
      regs := { s.regs with crcResult := crcFinal c }
      eng := { s.eng with crc := c } })

end Sys2Proof.Machine
end

