-- ==== Sys2Proof/Machine/Dispatch.lean ====
section
/-! DEFINITION. What each instruction does: one direct call of its meaning per row of the table. -/

namespace Sys2Proof.Machine

def exec (i : Instr) (s : State) : Host.Outcome State Fault Refusal :=
  match i with
  | .wrCtrl m q f _ => Sys2Proof.Machine.execWrCtrl m q f s
  | .startFull a q f _ => Sys2Proof.Machine.execStartFull a q f s
  | .startInflate a q f _ => Sys2Proof.Machine.execStartInflate a q f s
  | .startUnfilter a q f _ => Sys2Proof.Machine.execStartUnfilter a q f s
  | .startCrc32 a q f _ => Sys2Proof.Machine.execStartCrc32 a q f s
  | .startReserved m a q f _ => Sys2Proof.Machine.execStartReserved m a q f s
  | .abort st m q f _ => Sys2Proof.Machine.execAbort st m q f s
  | .wrStatus v => Sys2Proof.Machine.execWrStatus v s
  | .wrReg off v => Sys2Proof.Machine.execWrReg off v s
  | .rdReg off => Sys2Proof.Machine.execRdReg off s
  | .sig => Sys2Proof.Machine.execSig s
  | .chunkIhdr len => Sys2Proof.Machine.execChunkIhdr len s
  | .chunkPlte len => Sys2Proof.Machine.execChunkPlte len s
  | .chunkIdat len => Sys2Proof.Machine.execChunkIdat len s
  | .chunkIend len => Sys2Proof.Machine.execChunkIend len s
  | .chunkUnknownCritical len typ => Sys2Proof.Machine.execChunkUnknownCritical len typ s
  | .chunkAncillary len typ => Sys2Proof.Machine.execChunkAncillary len typ s
  | .zlibCm cmf flg => Sys2Proof.Machine.execZlibCm cmf flg s
  | .zlibFdict cmf flg => Sys2Proof.Machine.execZlibFdict cmf flg s
  | .zlibFcheck cmf flg => Sys2Proof.Machine.execZlibFcheck cmf flg s
  | .blockStored f => Sys2Proof.Machine.execBlockStored f s
  | .blockFixed f => Sys2Proof.Machine.execBlockFixed f s
  | .blockDynamic f => Sys2Proof.Machine.execBlockDynamic f s
  | .blockReserved f => Sys2Proof.Machine.execBlockReserved f s
  | .litFixed8 lit => Sys2Proof.Machine.execLitFixed8 lit s
  | .litFixed9 lit => Sys2Proof.Machine.execLitFixed9 lit s
  | .litDyn lit => Sys2Proof.Machine.execLitDyn lit s
  | .eob => Sys2Proof.Machine.execEob s
  | .len257 => Sys2Proof.Machine.execLen257 s
  | .len258 => Sys2Proof.Machine.execLen258 s
  | .len259 => Sys2Proof.Machine.execLen259 s
  | .len260 => Sys2Proof.Machine.execLen260 s
  | .len261 => Sys2Proof.Machine.execLen261 s
  | .len262 => Sys2Proof.Machine.execLen262 s
  | .len263 => Sys2Proof.Machine.execLen263 s
  | .len264 => Sys2Proof.Machine.execLen264 s
  | .len265 e => Sys2Proof.Machine.execLen265 e s
  | .len266 e => Sys2Proof.Machine.execLen266 e s
  | .len267 e => Sys2Proof.Machine.execLen267 e s
  | .len268 e => Sys2Proof.Machine.execLen268 e s
  | .len269 e => Sys2Proof.Machine.execLen269 e s
  | .len270 e => Sys2Proof.Machine.execLen270 e s
  | .len271 e => Sys2Proof.Machine.execLen271 e s
  | .len272 e => Sys2Proof.Machine.execLen272 e s
  | .len273 e => Sys2Proof.Machine.execLen273 e s
  | .len274 e => Sys2Proof.Machine.execLen274 e s
  | .len275 e => Sys2Proof.Machine.execLen275 e s
  | .len276 e => Sys2Proof.Machine.execLen276 e s
  | .len277 e => Sys2Proof.Machine.execLen277 e s
  | .len278 e => Sys2Proof.Machine.execLen278 e s
  | .len279 e => Sys2Proof.Machine.execLen279 e s
  | .len280 e => Sys2Proof.Machine.execLen280 e s
  | .len281 e => Sys2Proof.Machine.execLen281 e s
  | .len282 e => Sys2Proof.Machine.execLen282 e s
  | .len283 e => Sys2Proof.Machine.execLen283 e s
  | .len284 e => Sys2Proof.Machine.execLen284 e s
  | .len285 => Sys2Proof.Machine.execLen285 s
  | .litlenInvalid _ => Sys2Proof.Machine.execLitlenInvalid s
  | .dist0 => Sys2Proof.Machine.execDist0 s
  | .dist1 => Sys2Proof.Machine.execDist1 s
  | .dist2 => Sys2Proof.Machine.execDist2 s
  | .dist3 => Sys2Proof.Machine.execDist3 s
  | .dist4 e => Sys2Proof.Machine.execDist4 e s
  | .dist5 e => Sys2Proof.Machine.execDist5 e s
  | .dist6 e => Sys2Proof.Machine.execDist6 e s
  | .dist7 e => Sys2Proof.Machine.execDist7 e s
  | .dist8 e => Sys2Proof.Machine.execDist8 e s
  | .dist9 e => Sys2Proof.Machine.execDist9 e s
  | .dist10 e => Sys2Proof.Machine.execDist10 e s
  | .dist11 e => Sys2Proof.Machine.execDist11 e s
  | .dist12 e => Sys2Proof.Machine.execDist12 e s
  | .dist13 e => Sys2Proof.Machine.execDist13 e s
  | .dist14 e => Sys2Proof.Machine.execDist14 e s
  | .dist15 e => Sys2Proof.Machine.execDist15 e s
  | .dist16 e => Sys2Proof.Machine.execDist16 e s
  | .dist17 e => Sys2Proof.Machine.execDist17 e s
  | .dist18 e => Sys2Proof.Machine.execDist18 e s
  | .dist19 e => Sys2Proof.Machine.execDist19 e s
  | .dist20 e => Sys2Proof.Machine.execDist20 e s
  | .dist21 e => Sys2Proof.Machine.execDist21 e s
  | .dist22 e => Sys2Proof.Machine.execDist22 e s
  | .dist23 e => Sys2Proof.Machine.execDist23 e s
  | .dist24 e => Sys2Proof.Machine.execDist24 e s
  | .dist25 e => Sys2Proof.Machine.execDist25 e s
  | .dist26 e => Sys2Proof.Machine.execDist26 e s
  | .dist27 e => Sys2Proof.Machine.execDist27 e s
  | .dist28 e => Sys2Proof.Machine.execDist28 e s
  | .dist29 e => Sys2Proof.Machine.execDist29 e s
  | .distInvalid _ => Sys2Proof.Machine.execDistInvalid s
  | .clLen sym => Sys2Proof.Machine.execClLen sym s
  | .cl16 e => Sys2Proof.Machine.execCl16 e s
  | .cl17 e => Sys2Proof.Machine.execCl17 e s
  | .cl18 e => Sys2Proof.Machine.execCl18 e s
  | .filtNone => Sys2Proof.Machine.execFiltNone s
  | .filtSub => Sys2Proof.Machine.execFiltSub s
  | .filtUp => Sys2Proof.Machine.execFiltUp s
  | .filtAvg => Sys2Proof.Machine.execFiltAvg s
  | .filtPaeth => Sys2Proof.Machine.execFiltPaeth s
  | .filtInvalid ft => Sys2Proof.Machine.execFiltInvalid ft s

end Sys2Proof.Machine
end

