-- ==== Sys2Proof/Machine/Fetch.lean ====
section
/-! DEFINITION. What the machine does next: whose turn it is, and the instruction the engine or the host brings, decoded in the layer
the state gives (30_encoding.md R140). The engine's cursor is moved past an instruction's bits here. -/

namespace Sys2Proof.Machine

/-- The next thing to do: an instruction to execute, or work that is no row of the table and is done already. -/
inductive Fetched where
  | run (i : Instr) (s : State)
  | answer (r : Result)

/-- What comes of it. -/
def Fetched.result : Fetched → Result
  | .run i s => exec i s
  | .answer r => r

/-- Go on with a value read on the way, or stop. -/
def fetchVal {α : Type} (r : Except Stop α) (s : State) (k : α → Fetched) : Fetched :=
  match r with
  | .error e => .answer (stopAt e s)
  | .ok a => k a

/-- A coded symbol (R349, R430, R434): its start is kept for error positions, and the cursor moves past codeword and extra bits. A pattern
no codeword matches, or an empty code, is InvalidHuffmanCode at the symbol's start (R360, R361). -/
def fetchCoded (r : Except Stop (Option (Instr × Nat))) (sub : Nat) (s : State) : Fetched :=
  fetchVal r s fun
    | none => .answer (raiseCode sub s.eng.bitpos s)
    | some x => .run x.1 { s with eng := { s.eng with sp := s.eng.bitpos, bitpos := s.eng.bitpos + x.2 } }

/-- The chunk at `st.p` (R253, R254): the end of the buffer ends the walk. -/
def fetchChunk (s : State) : Fetched :=
  if s.eng.p = s.regs.inLen.toNat then .answer (.next (endWalk s))
  else if s.regs.inLen.toNat - s.eng.p < 8 then .answer (raiseAt .truncatedStream 1 s.eng.p 0 s)
  else
    fetchVal (inBe32 s s.eng.p) s fun len =>
    fetchVal (inBe32 s (s.eng.p + 4)) s fun typ => .run (instrOfChunk (trunc32 len) (trunc32 typ)) s

/-- `InterpretHeader` up to the header itself (R260). -/
def fetchHeader (s : State) : Fetched :=
  match firstKey s.eng.chunks with
  | none => .answer (raiseAt .missingHeader 0 0xFFFFFFFF 0 s)
  | some f =>
    if f.typ = typIHDR then .run (.chunkIhdr (trunc32 f.len)) s
    else .answer (raiseAt .missingHeader 0 f.off f.typ.toNat s)

/-- `CheckPalette` up to the palette itself (R268): without a PLTE inflation follows. -/
def fetchPalette (s : State) : Fetched :=
  match firstPlte s.eng.chunks with
  | none => .answer (.next { s with eng := { s.eng with phase := .enter .zlibHeader } })
  | some q => .run (.chunkPlte (trunc32 q.len)) s

/-- The zlib header (R330). -/
def fetchZlib (s : State) : Fetched :=
  if streamLen s < 2 then .answer (raiseAt .streamExhausted 1 (8 * streamLen s) 0 s)
  else
    fetchVal (streamByte s 0) s fun cmf =>
    fetchVal (streamByte s 1) s fun flg => .run (.zlibCm cmf flg) s

/-- A block header (R336, R337). -/
def fetchBlock (s : State) : Fetched :=
  fetchVal (readBits (streamBit s) s.eng.bitpos 3) s fun h =>
    .run (instrOfBlock h) { s with eng := { s.eng with hpos := s.eng.bitpos, bitpos := s.eng.bitpos + 3 } }

/-- A row's length check and filter byte (R495). -/
def fetchRow (s : State) : Fetched :=
  let avail := filteredLen s - s.eng.row * stride s
  if avail < stride s then .answer (raiseAt .truncatedScanline 0 s.eng.row avail s)
  else
    fetchVal (filteredByte s (s.eng.row * stride s)) s fun ft =>
      .run (instrOfFilter ft) { s with eng := { s.eng with phase := .rowByte ft 0 } }

/-- The engine's next step, by where it stands in the run. -/
def enginePhase (s : State) : Fetched :=
  match s.eng.phase with
  | .idle => .answer (.next s)
  | .enter g => .answer (.next (enterStage g s))
  | .config => .answer (configStep s)
  | .sig => .run .sig s
  | .chunk => fetchChunk s
  | .header => fetchHeader s
  | .palette => fetchPalette s
  | .inflate => fetchZlib s
  | .zlibFdict cmf flg => .run (.zlibFdict cmf flg) s
  | .zlibFcheck cmf flg => .run (.zlibFcheck cmf flg) s
  | .block => fetchBlock s
  | .stored n => .answer (storedStep n s)
  | .clSym => fetchCoded (decodeCl (streamBit s) s.eng.lens.isEmpty s.eng.cl s.eng.bitpos) 3 s
  | .litLen => fetchCoded (decodeLitLen (streamBit s) s.eng.dyn s.eng.litlen s.eng.bitpos) 1 s
  | .dist _ => fetchCoded (decodeDist (streamBit s) s.eng.dist s.eng.bitpos) 2 s
  | .copy n d => .answer (copyStep n d s)
  | .trailer => .answer (trailerStep s)
  | .ufParams => .answer (ufParamsStep s)
  | .geometry => .answer (geometryStep s)
  | .row => fetchRow s
  | .rowByte ft _ => .run (instrOfFilter ft) s
  | .crc => .answer (crcStep s)

/-- The registers at an abort that falls into the next step: the first register updates of that step have been made, as many as a draw
says (R204: "every result register holds its last engine-written value"; log 5). Where the step itself faults or is refused, because the
platform does not complete one of its accesses (R100, U16), none of its updates has been made. DESIGN CHOICE, unsafe on such a platform,
log 5. -/
def abortedRegs (s : State) : Regs :=
  match (enginePhase s).result with
  | .next t => partway (Config.abortPoint s.draws) s.regs t.regs
  | .fault _ | .refused _ => s.regs

/-- The engine's turn. Idle it does nothing (R582, R600). With an abort pending a draw says whether it is honoured in this step, and
another how far the step had come (R204; log 5). -/
def engineTurn (s : State) : Fetched :=
  if s.regs.busy then
    if s.eng.abortReq then
      let s1 := { s with draws := s.draws + 1 }
      if Config.abortNow s.draws then .answer (raiseAt .aborted 0 0 0 { s1 with regs := abortedRegs s1 })
      else enginePhase s1
    else enginePhase s
  else .answer (.next s)

/-- The host's move `op`, already taken from the list. A register access that is not an aligned word is refused (R107). -/
def hostMove (op : HostOp) (s : State) : Fetched :=
  match op with
  | .write size off v =>
    if size = .word ∧ offAligned off then .run (instrOfWrite s.regs.busy off v) s
    else .answer (.refused .narrowOrMisalignedAccess)
  | .read size off =>
    if size = .word ∧ offAligned off then .run (.rdReg off) s
    else .answer (.refused .narrowOrMisalignedAccess)
  | .poll off mask value =>
    if offAligned off then
      if readValue s off &&& mask = value then .run (.rdReg off) s
      else .run (.rdReg off) { s with host := .engine :: .poll off mask value :: s.host }
    else .answer (.refused .narrowOrMisalignedAccess)
  | .memWrite addr b => .answer (hostMemWrite addr b s)
  | .memRead addr => .answer (hostMemRead addr s)
  | .clean addr n => .answer (hostClean addr n s)
  | .invalidate addr n => .answer (hostInvalidate addr n s)
  | .engine => engineTurn s
  | .reset => .answer (resetMachine s)

/-- Whose turn it is (log 3): the head of the host's list, and with nothing left there the engine. -/
def fetch (s : State) : Fetched :=
  match s.host with
  | [] => engineTurn s
  | op :: rest => hostMove op { s with host := rest }

end Sys2Proof.Machine
end

