-- ==== Sys2Proof/Machine/Place.lean ====
section
/-! DEFINITION. Placing one instruction where the machine fetches its next one, for the host's probe (`State.withFetchWord`). The machine
has no program counter (R31): a host command stands at the head of the host's list, a unit of the input stands in IN with the engine
at the rule that reads it. Log 15. -/

namespace Sys2Proof.Machine

/-- The byte of up to eight bits, least significant first. -/
def byteOfBits (bits : List Bool) : Byte :=
  BitVec.ofNat 8 ((bits.take 8).foldr (fun b acc => b.toNat + 2 * acc) 0)

/-- The first `n` bytes of a bit string, zeros behind its end. -/
def packBytes : Nat → List Bool → List Byte
  | 0, _ => []
  | n + 1, bits => byteOfBits bits :: packBytes n (bits.drop 8)

/-- Where the placed input stands. -/
def placeBase : Nat := 0x1000

/-- Store bytes one after another. -/
def storeBytes : Memory → Nat → List Byte → Memory
  | m, _, [] => m
  | m, a, b :: bs => storeBytes (m.write a b) (a + 1) bs

/-- A run of `mode` with the engine at `phase`, its turn next, and `bytes` in IN from index `at0` on. -/
def placeRun (mode : BitVec 3) (phase : Phase) (at0 : Nat) (bytes : List Byte) (s : State) : State :=
  { s with
    host := .engine :: s.host
    regs := { s.regs with
      mode := mode, busy := true, done := false, err := false
      inBase := trunc32 placeBase, inLen := trunc32 (at0 + bytes.length) }
    eng := { s.eng with phase := phase, abortReq := false, p := at0, bitpos := 8 * at0, row := 0 }
    mem := storeBytes s.mem (placeBase + at0) bytes }

/-- The bits of an instruction as bytes. -/
def instrBytes (i : Instr) : List Byte := packBytes (((encode i).length + 7) / 8) (encode i)

/-- The state in which the next step fetches exactly `i`. -/
def placeInstr (i : Instr) (s : State) : State :=
  match layerOf i with
  | .hostWrite off _ =>
    { s with host := .write .word off (trunc32 ((encode i).foldr (fun b acc => b.toNat + 2 * acc) 0)) :: s.host }
  | .hostRead off => { s with host := .read .word off :: s.host }
  | .signature => placeRun 0#3 .sig 0 (instrBytes i) s
  | .chunk =>
    placeRun 0#3 .chunk 8 (instrBytes i ++ be32Bytes (crc32 ((instrBytes i).drop 4))) s
  | .zlibCm => placeRun 1#3 .inflate 0 (instrBytes i) s
  | .zlibFdict => placeRun 1#3 (.zlibFdict ((instrBytes i).getD 0 0#8) ((instrBytes i).getD 1 0#8)) 0 (instrBytes i) s
  | .zlibFcheck => placeRun 1#3 (.zlibFcheck ((instrBytes i).getD 0 0#8) ((instrBytes i).getD 1 0#8)) 0 (instrBytes i) s
  | .block => placeRun 1#3 .block 0 (instrBytes i) s
  | .litLen dyn lens =>
    let s1 := placeRun 1#3 .litLen 0 (instrBytes i) s
    { s1 with eng := { s1.eng with dyn := dyn, litlen := lens, dist := fixedDist } }
  | .dist lens =>
    let s1 := placeRun 1#3 (.dist 3) 0 (instrBytes i) s
    { s1 with eng := { s1.eng with litlen := fixedLitLen, dist := lens } }
  | .cl _ lens =>
    let s1 := placeRun 1#3 .clSym 0 (instrBytes i) s
    { s1 with eng := { s1.eng with cl := lens, lens := [0], nlit := 257, ndist := 1 } }
  | .filter =>
    let s1 := placeRun 2#3 .row 0 (instrBytes i ++ [0#8]) s
    { s1 with regs := { s1.regs with ufWidth := 1#32, ufHeight := 1#32, ufFormat := 0x0008#32 } }

end Sys2Proof.Machine
end

