-- ==== Sys2Proof/Machine/Step.lean ====
section
/-! DEFINITION. One step of the machine: what `fetch` brings is executed. -/

namespace Sys2Proof.Machine

/-- One step: the host's next access, or one engine step. -/
def step (s : State) : Host.Outcome State Fault Refusal := (fetch s).result

/-- `s` with the instruction of a bare table word where the next step fetches it (logs 14 and 15). -/
def State.withFetchWord (s : State) (nbits w : Nat) : State :=
  match decodeTableWord nbits w with
  | some i => placeInstr i s
  | none => s

end Sys2Proof.Machine
end

