-- ==== Sys2Proof/Safety.lean ====
section
/-! DEFINITION. The words claims are stated in: what an access needs, what an error leaves, what an instruction may change, and the
invariants a step keeps. The register offsets are those of 10_state.md section 2. -/

namespace Sys2Proof.Machine

/-! ## Accesses and frames -/

/-- The platform completes an engine read, or write, at `a` (R583, R100, U16). -/
def Readable (s : State) (a : Nat) : Prop := busCheck s .read a = .ok ()
def Writable (s : State) (a : Nat) : Prop := busCheck s .write a = .ok ()

/-- The platform fails an engine read, or write, at `a` (R583). -/
def Fails (s : State) (d : Dir) (a : Nat) : Prop := a < 2 ^ 32 ∧ platFails s.plat d a = true

/-- `a` lies in none of the regions. -/
def Outside (rs : List Region) (a : Nat) : Prop := ∀ r ∈ rs, r.contains a = false

/-- Everything but the register window, the engine and the two fields of `SameView` is the same: all of memory among it. -/
def SameOutside (s t : State) : Prop :=
  t.mem = s.mem ∧ t.host = s.host ∧ t.plat = s.plat ∧ t.draws = s.draws ∧ t.rdata = s.rdata ∧ t.memData = s.memData ∧
    t.uncleaned = s.uncleaned ∧ t.stale = s.stale

/-- What the host and the engine can see of each other's writes is the same (R113, R119; logs 9 and 25). -/
def SameView (s t : State) : Prop := t.hidden = s.hidden ∧ t.unseen = s.unseen

/-- Every register whose offset is not listed reads as before. -/
def RegsSame (except : List (BitVec 8)) (s t : State) : Prop :=
  ∀ off, off ∉ except → readReg t.regs off = readReg s.regs off

/-- STATUS and the three ERR registers. -/
def errOffsets : List (BitVec 8) := [0x08#8, 0x0C#8, 0x10#8, 0x14#8]

/-- `t` is `s` after an error with this ERR_CODE word, ERR_POS and ERR_AUX (R14, R542, R572, R573, R115): the three registers hold them,
ERR = 1, BUSY = 0, DONE and STAGE kept, every other register kept, the engine idle, and every byte outside the regions the mode writes
as before. -/
def ErrorEntry (codeWord : Word) (pos aux : Nat) (s t : State) : Prop :=
  readReg t.regs 0x0C#8 = codeWord ∧ readReg t.regs 0x10#8 = trunc32 pos ∧ readReg t.regs 0x14#8 = trunc32 aux ∧
    t.regs.err = true ∧ t.regs.busy = false ∧ t.regs.done = s.regs.done ∧ t.regs.stage = s.regs.stage ∧
    RegsSame errOffsets s t ∧ t.eng.phase = .idle ∧ (∀ a, Outside s.regs.outputs a → t.byteAt a = s.byteAt a) ∧
    t.host = s.host ∧ t.plat = s.plat

/-- `s` with STATUS.STAGE set (R35). -/
def State.atStage (s : State) (g : Stage) : State := { s with regs := { s.regs with stage := g } }

/-- The engine moves next, from `e`: the host's list is empty, or its head, which `e` no longer has, gives the engine a turn (log 3). -/
def EngineNext (s e : State) : Prop :=
  (s.host = [] ∧ e = s) ∨ ∃ rest, s.host = .engine :: rest ∧ e = { s with host := rest }

/-- The engine moves next, from `e`, in a run nobody aborts. -/
def EngineTurn (s e : State) : Prop := EngineNext s e ∧ e.regs.busy = true ∧ e.eng.abortReq = false

/-- The address an instruction stores to: the inflated output's next byte (R431), the current byte of the current row (R503), none for
any other row. -/
def storeAddr (i : Instr) (s : State) : Option Nat :=
  match i with
  | .litFixed8 _ | .litFixed9 _ | .litDyn _ => some (s.regs.inflBase.toNat + s.eng.out)
  | .filtNone | .filtSub | .filtUp | .filtAvg | .filtPaeth =>
    some (s.regs.reconBase.toNat + s.eng.row * rb s + rowIndex s)
  | _ => none

/-- The result registers (R46). -/
def resultOffsets : List (BitVec 8) :=
  [0x40#8, 0x44#8, 0x48#8, 0x4C#8, 0x50#8, 0x54#8, 0x58#8, 0x5C#8, 0x60#8, 0x64#8, 0x68#8, 0x6C#8, 0x70#8, 0x74#8, 0x78#8, 0x7C#8]

/-- The read-write registers other than CTRL (R39, R40). -/
def rwOffsets : List (BitVec 8) := [0x18#8, 0x1C#8, 0x20#8, 0x24#8, 0x28#8, 0x2C#8, 0x30#8, 0x34#8, 0x38#8]

/-- The registers an instruction may change when it raises no error: the "Writes" of its rule. -/
def mayWrite (i : Instr) : List (BitVec 8) :=
  match i with
  | .wrCtrl _ _ _ _ => [0x04#8]
  | .startFull _ _ _ _ | .startInflate _ _ _ _ | .startUnfilter _ _ _ _ | .startCrc32 _ _ _ _ | .startReserved _ _ _ _ _
  | .abort _ _ _ _ _ => 0x04#8 :: errOffsets ++ resultOffsets
  | .wrStatus _ => [0x08#8]
  | .wrReg off _ => [off]
  | .rdReg _ => []
  | .sig => [0x08#8]
  | .chunkIhdr _ => [0x68#8, 0x40#8, 0x44#8, 0x48#8, 0x4C#8]
  | .chunkPlte _ => [0x68#8, 0x50#8, 0x54#8]
  | .chunkIdat _ | .chunkUnknownCritical _ _ | .chunkAncillary _ _ => [0x68#8]
  | .chunkIend _ => [0x68#8, 0x70#8, 0x74#8, 0x7C#8]
  | .litFixed8 _ | .litFixed9 _ | .litDyn _ => [0x58#8]
  | .eob => [0x78#8]
  | .filtNone | .filtSub | .filtUp | .filtAvg | .filtPaeth => [0x64#8, 0x08#8]
  | _ => []

/-! ## Operands as bytes -/

/-- The `n` bytes of IN from offset `base` on are readable and are `f 0`, `f 1`, and so on. -/
def InBytes (s : State) (base n : Nat) (f : Nat → Byte) : Prop := ∀ k < n, inByte s (base + k) = .ok (f k)

/-- The big-endian 32-bit number of `f k` to `f (k + 3)` (R11). -/
def be32At (f : Nat → Byte) (k : Nat) : Nat := be32Of (f k) (f (k + 1)) (f (k + 2)) (f (k + 3))

/-- The bytes `f 0` to `f (n - 1)`, in order. -/
def bytesOf (n : Nat) (f : Nat → Byte) : List Byte := (List.range n).map f

/-! ## Regions at START (R101, R120, R206) -/

/-- The region wraps past 2^32. -/
def Wraps (base len : Word) : Prop := 2 ^ 32 < base.toNat + len.toNat

/-- Two regions overlap: both non-empty, and an address in common. -/
def Overlap (b1 l1 b2 l2 : Word) : Prop :=
  0 < l1.toNat ∧ 0 < l2.toNat ∧ b1.toNat < b2.toNat + l2.toNat ∧ b2.toNat < b1.toNat + l1.toNat

/-- The mode uses INFL (FULL, INFLATE), or RECON (FULL, UNFILTER). -/
def UsesInfl (r : Regs) : Prop := r.mode.toNat = 0 ∨ r.mode.toNat = 1
def UsesRecon (r : Regs) : Prop := r.mode.toNat = 0 ∨ r.mode.toNat = 2

/-- The mode is not reserved and no region it uses wraps. -/
def RegionsFit (r : Regs) : Prop :=
  r.mode.toNat ≤ 3 ∧ ¬Wraps r.inBase r.inLen ∧ (UsesInfl r → ¬Wraps r.inflBase r.inflCap) ∧
    (UsesRecon r → ¬Wraps r.reconBase r.reconCap)

/-! ## What a byte of output leaves -/

/-- `t` is `s` after `Emit(b)` (R431), standing at phase `ph`: the byte at INFL index `st.out`, no other byte, INFL_LEN, no other register,
`st.out` and the two Adler accumulators. -/
def Emitted (b : Byte) (ph : Phase) (s t : State) : Prop :=
  t.byteAt (s.regs.inflBase.toNat + s.eng.out) = b ∧
    (∀ a, a ≠ s.regs.inflBase.toNat + s.eng.out → t.byteAt a = s.byteAt a) ∧
    readReg t.regs 0x58#8 = trunc32 (s.eng.out + 1) ∧ RegsSame [0x58#8] s t ∧
    t.eng = { s.eng with
      out := s.eng.out + 1
      s1 := (s.eng.s1 + b.toNat) % 65521
      s2 := (s.eng.s2 + (s.eng.s1 + b.toNat) % 65521) % 65521
      phase := ph } ∧
    t.host = s.host ∧ t.plat = s.plat ∧ t.draws = s.draws

/-- `t` is `s` after byte `i` of row `st.row` was written as `v` under filter `ft` (R495, R503, R505): the byte, no other byte; then the
next byte of the row, or with the row complete RECON_LEN and the next row, or after the last row the end of the run (R211). -/
def RowWritten (ft v : Byte) (i : Nat) (s t : State) : Prop :=
  t.byteAt (s.regs.reconBase.toNat + s.eng.row * rb s + i) = v ∧
    (∀ a, a ≠ s.regs.reconBase.toNat + s.eng.row * rb s + i → t.byteAt a = s.byteAt a) ∧
    (i + 1 < rb s → RegsSame [] s t ∧ t.eng = { s.eng with phase := .rowByte ft (i + 1) }) ∧
    (rb s ≤ i + 1 → readReg t.regs 0x64#8 = trunc32 ((s.eng.row + 1) * rb s) ∧ RegsSame [0x64#8, 0x08#8] s t) ∧
    (rb s ≤ i + 1 → s.eng.row + 1 < geomHeight s →
      readReg t.regs 0x08#8 = readReg s.regs 0x08#8 ∧ t.eng = { s.eng with row := s.eng.row + 1, phase := .row }) ∧
    (rb s ≤ i + 1 → geomHeight s ≤ s.eng.row + 1 →
      t.regs.done = true ∧ t.regs.busy = false ∧ t.regs.err = s.regs.err ∧ t.regs.stage = s.regs.stage ∧
        t.eng = { s.eng with row := s.eng.row + 1, phase := .idle }) ∧
    t.host = s.host ∧ t.plat = s.plat ∧ t.draws = s.draws

/-- The predictor P of R498 to R502 for filter byte `ft`, from the neighbours a, b and c. -/
def predictor (ft : Nat) (a b c : Byte) : Byte :=
  match ft with
  | 1 => a
  | 2 => b
  | 3 => average a b
  | 4 => paeth a b c
  | _ => 0#8

/-! ## Code lengths and codes, as the rules state them -/

/-- How many copies of which length a code-length row appends (R350 to R353). None where CL_16 has no previous length. -/
def clAdds (i : Instr) (lens : List Nat) : Option (Nat × Nat) :=
  match i with
  | .clLen sym => some (1, sym.toNat)
  | .cl16 e => lens.getLast?.map fun v => (3 + e.toNat, v)
  | .cl17 e => some (3 + e.toNat, 0)
  | .cl18 e => some (11 + e.toNat, 0)
  | _ => none

/-- "a symbol s with C.len[s] = L and C.codeword[s] = v" (R360). -/
def ruleSym (lens : List Nat) (l v : Nat) : Option Nat :=
  (List.range lens.length).find? fun s => lens.getD s 0 == l && codeword lens s == v

/-- The loop of R360 as the rule writes it, `fuel` lengths left, `l` bits read with value `v`. -/
def ruleLoop {ε : Type} (rd : Nat → Except ε Bool) (lens : List Nat) (pos : Nat) : Nat → Nat → Nat → Except ε (Option (Nat × Nat))
  | 0, _, _ => .ok none
  | fuel + 1, l, v =>
    match rd (pos + l) with
    | .error e => .error e
    | .ok b =>
      match ruleSym lens (l + 1) (2 * v + b.toNat) with
      | some s => .ok (some (s, l + 1))
      | none =>
        if occupancy lens ≤ (2 * v + b.toNat) * 2 ^ (15 - (l + 1)) then .ok none
        else ruleLoop rd lens pos fuel (l + 1) (2 * v + b.toNat)

/-- `DecodeSym(C, sub)` of R360 with R361: `none` where the rule raises InvalidHuffmanCode. -/
def ruleDecodeSym {ε : Type} (rd : Nat → Except ε Bool) (lens : List Nat) (pos : Nat) : Except ε (Option (Nat × Nat)) :=
  if occupancy lens = 0 then .ok none else ruleLoop rd lens pos 15 0 0

/-- A layer whose coded symbols stand in the codes the encoder writes (Decode.lean `layerOf`); every other layer has one code. -/
def encoderLayer : Layer → Prop
  | .litLen _ lens => lens = fixedLitLen
  | .dist lens => lens = fixedDist
  | .cl noPrev lens => noPrev = false ∧ lens = encoderCl
  | _ => True

/-- The stream's bits at the cursor are readable and are `bits`. -/
def StreamBits (s : State) (bits : List Bool) : Prop :=
  ∀ (k : Nat) (b : Bool), bits[k]? = some b → streamBit s (s.eng.bitpos + k) = .ok b

/-! ## Several steps -/

/-- `n` steps, as long as each answers a next state. -/
def runSteps : Nat → State → Result
  | 0, s => .next s
  | n + 1, s =>
    match step s with
    | .next t => runSteps n t
    | r => r

/-! ## The tables of 30_encoding.md R157 and R158, as the spec prints them -/

/-- LBASE: the base of length code 257 + k. -/
def lenBaseTable : List Nat :=
  [3, 4, 5, 6, 7, 8, 9, 10, 11, 13, 15, 17, 19, 23, 27, 31, 35, 43, 51, 59, 67, 83, 99, 115, 131, 163, 195, 227, 258]

/-- DBASE: the base of distance code d. -/
def distBaseTable : List Nat :=
  [1, 2, 3, 4, 5, 7, 9, 13, 17, 25, 33, 49, 65, 97, 129, 193, 257, 385, 513, 769, 1025, 1537, 2049, 3073, 4097, 6145, 8193,
    12289, 16385, 24577]

/-- The bit depth and color type pairs of R263, color type first. -/
def permittedPairs : List (Nat × Nat) :=
  [(0, 1), (0, 2), (0, 4), (0, 8), (0, 16), (2, 8), (2, 16), (3, 1), (3, 2), (3, 4), (3, 8), (4, 8), (4, 16), (6, 8), (6, 16)]

/-- Every ERR_CODE word the rules raise (R541: code, class and SUB values; R568: no other). -/
def legalErrCodes : List Word :=
  [0x00000101#32, 0x00010102#32, 0x00020102#32, 0x00000103#32, 0x00000104#32, 0x00010105#32, 0x00020105#32, 0x00030105#32,
    0x00010106#32, 0x00020106#32, 0x00030106#32, 0x00000207#32, 0x00010208#32, 0x00020208#32, 0x00030208#32, 0x00040208#32,
    0x00010209#32, 0x00020209#32, 0x00030209#32, 0x0000030A#32, 0x0000030B#32, 0x0001030C#32, 0x0002030C#32, 0x0003030C#32,
    0x0004030C#32, 0x0005030C#32, 0x0006030C#32, 0x0007030C#32, 0x0008030C#32, 0x0009030C#32, 0x000A030C#32, 0x000B030C#32,
    0x000C030C#32, 0x000D030C#32, 0x0000030D#32, 0x0000030E#32, 0x0001030F#32, 0x0002030F#32, 0x0003030F#32, 0x00000410#32,
    0x00000411#32, 0x00010614#32, 0x00020614#32, 0x00010615#32, 0x00020615#32, 0x00030615#32, 0x00000616#32, 0x00000617#32]

/-! ## Where a run can stand -/

/-- The modes whose run enters a stage (R35). -/
def Stage.modes : Stage → List Nat
  | .idle | .config => []
  | .signature | .chunks | .header | .palette => [0]
  | .zlibHeader | .blocks | .trailer => [0, 1]
  | .unfilter => [0, 2]
  | .crc => [3]

/-- The stages a run can stand in before it enters this one (R207 to R210). -/
def Stage.before : Stage → List Stage
  | .idle | .config => []
  | .signature | .crc => [.config]
  | .chunks => [.signature]
  | .header => [.chunks]
  | .palette => [.header]
  | .zlibHeader => [.config, .palette]
  | .blocks => [.zlibHeader]
  | .trailer => [.blocks]
  | .unfilter => [.config, .trailer]

/-- The modes whose run passes through a phase (R207 to R210). -/
def Phase.modes : Phase → List Nat
  | .idle | .config => [0, 1, 2, 3, 4, 5, 6, 7]
  | .enter g => g.modes
  | .sig | .chunk | .header | .palette => [0]
  | .inflate | .zlibFdict _ _ | .zlibFcheck _ _ | .block | .stored _ | .clSym | .litLen | .dist _ | .copy _ _ | .trailer => [0, 1]
  | .ufParams => [2]
  | .geometry | .row | .rowByte _ _ => [0, 2]
  | .crc => [3]

/-- The values STATUS.STAGE can have while the engine stands at a phase (R35): the stage entered last. -/
def Phase.stages : Phase → List Stage
  | .idle =>
    [.idle, .config, .signature, .chunks, .header, .palette, .zlibHeader, .blocks, .trailer, .unfilter, .crc]
  | .enter g => g.before
  | .config => [.config]
  | .sig => [.signature]
  | .chunk => [.chunks]
  | .header => [.header]
  | .palette => [.palette]
  | .inflate | .zlibFdict _ _ | .zlibFcheck _ _ => [.zlibHeader]
  | .block | .stored _ | .clSym | .litLen | .dist _ | .copy _ _ => [.blocks]
  | .trailer => [.trailer]
  | .ufParams | .geometry | .row | .rowByte _ _ => [.unfilter]
  | .crc => [.crc]

/-- Before the first byte of the zlib stream is read. -/
def Phase.beforeInflate : Phase → Bool
  | .config | .sig | .chunk | .header | .palette | .inflate => true
  | .enter g => g ∈ [Stage.signature, .chunks, .header, .palette, .zlibHeader]
  | _ => false

/-- At the zlib header's checks, up to the entry of the blocks. -/
def Phase.inZlib : Phase → Bool
  | .zlibFdict _ _ | .zlibFcheck _ _ => true
  | .enter g => g ∈ [Stage.blocks]
  | _ => false

/-- Inside the blocks or at the trailer. -/
def Phase.inBlocks : Phase → Bool
  | .block | .stored _ | .clSym | .litLen | .dist _ | .copy _ _ | .trailer => true
  | .enter g => g ∈ [Stage.trailer]
  | _ => false

/-- Inside `Inflate(S)` (R330): its counters and accumulators hold values of this run. -/
def Phase.inInflate : Phase → Bool
  | .inflate => true
  | p => p.inZlib || p.inBlocks

/-- In FULL mode, behind the header stage and before the unfilter stage. -/
def Phase.betweenHeaderAndRows : Phase → Bool
  | .palette => true
  | .enter g => g ∈ [Stage.palette, .zlibHeader, .blocks, .trailer, .unfilter]
  | p => p.inInflate

/-- In the unfilterer behind its parameter checks. -/
def Phase.inRows : Phase → Bool
  | .row | .rowByte _ _ => true
  | _ => false

/-! ## Invariants -/

/-- R34, R53, R544: DONE and ERR are never both 1; BUSY = 1 leaves both 0; BUSY is 1 exactly during a run; the ERR registers are 0
during a run and after a successful one. -/
structure StatusInv (s : State) : Prop where
  notBoth : ¬(s.regs.done = true ∧ s.regs.err = true)
  busyClear : s.regs.busy = true → s.regs.done = false ∧ s.regs.err = false
  busyPhase : s.regs.busy = true ↔ s.eng.phase ≠ .idle
  errRegs : s.regs.busy = true ∨ s.regs.done = true → s.regs.errCode = 0#32 ∧ s.regs.errPos = 0#32 ∧ s.regs.errAux = 0#32

/-- R541, R568: ERR_CODE is 0 or a word the rules raise. -/
def ErrCodeInv (s : State) : Prop := s.regs.errCode = 0#32 ∨ s.regs.errCode ∈ legalErrCodes

/-- R35, R101, R120, R207 to R210: the run's mode and STAGE fit where the engine stands, and behind the configuration check the regions
are well formed. -/
structure RunInv (s : State) : Prop where
  mode : s.regs.mode.toNat ∈ s.eng.phase.modes
  stage : s.regs.stage ∈ s.eng.phase.stages
  config : s.eng.phase ≠ .idle → s.eng.phase ≠ .config → configError s.regs = none

/-- Lengths of a code that is in use: `n` of them, each at most `m`, not over-subscribed (R49, R347). -/
def CodeOk (n m : Nat) (lens : List Nat) : Prop := lens.length = n ∧ (∀ l ∈ lens, l ≤ m) ∧ overSubscribed lens = false

/-- R44, R48, R49, R208, R209, R355, R434, R436, R438, R440: the inflater's counters, cursor and codes. -/
structure InflateInv (s : State) : Prop where
  adler : s.eng.phase.inInflate = true → s.eng.s1 < 65521 ∧ s.eng.s2 < 65521
  fresh : s.eng.phase.beforeInflate = true ∨ (s.eng.phase ≠ .idle ∧ 2 ≤ s.regs.mode.toNat) →
    s.regs.inflLen = 0#32 ∧ s.regs.blockCount = 0#32
  output : (s.eng.phase.inInflate = true ∨ (s.regs.mode = 0#3 ∧
      (s.eng.phase = .enter .unfilter ∨ s.eng.phase = .geometry ∨ s.eng.phase.inRows = true))) →
    s.regs.inflLen.toNat = s.eng.out ∧ s.eng.out ≤ s.regs.inflCap.toNat
  blocks : s.eng.phase.inInflate = true → s.regs.blockCount = trunc32 s.eng.block
  header : s.eng.phase.inZlib = true → 2 ≤ streamLen s
  cursor : s.eng.phase.inBlocks = true → 16 ≤ s.eng.bitpos ∧ s.eng.bitpos ≤ 8 * streamLen s
  stored : ∀ n, s.eng.phase = .stored n → n ≤ 65535
  length : ∀ n, s.eng.phase = .dist n → 3 ≤ n ∧ n ≤ 258
  copy : ∀ n d, s.eng.phase = .copy n d → n ≤ 258 ∧ 1 ≤ d ∧ d ≤ 32768 ∧ d ≤ s.eng.out
  lengths : s.eng.phase = .clSym →
    CodeOk 19 7 s.eng.cl ∧ 257 ≤ s.eng.nlit ∧ s.eng.nlit ≤ 286 ∧ 1 ≤ s.eng.ndist ∧ s.eng.ndist ≤ 30 ∧
      s.eng.lens.length < s.eng.nlit + s.eng.ndist ∧ ∀ l ∈ s.eng.lens, l ≤ 15
  codes : (s.eng.phase = .litLen ∨ (∃ n, s.eng.phase = .dist n) ∨ (∃ n d, s.eng.phase = .copy n d)) →
    CodeOk 288 15 s.eng.litlen ∧ CodeOk 32 15 s.eng.dist

/-- The geometry of the run is one R262, R263 and R491 let through. -/
def GeomOk (s : State) : Prop :=
  geomWidth s ≠ 0 ∧ geomHeight s ≠ 0 ∧ (formatColor (geomFormat s), formatDepth (geomFormat s)) ∈ permittedPairs

/-- R45, R48, R494, R495, R503: the unfilterer's geometry, capacity and cursor. -/
structure RowInv (s : State) : Prop where
  geom : (s.eng.phase = .geometry ∨ s.eng.phase.inRows = true ∨ (s.regs.mode = 0#3 ∧
      s.eng.phase.betweenHeaderAndRows = true)) → GeomOk s
  room : s.eng.phase.inRows = true →
    s.eng.row < geomHeight s ∧ geomHeight s * rb s ≤ s.regs.reconCap.toNat ∧ s.regs.rowBytes.toNat = rb s ∧
      s.regs.bpp.toNat = bpp s ∧ s.regs.reconLen.toNat = s.eng.row * rb s
  byte : ∀ ft i, s.eng.phase = .rowByte ft i → ft.toNat ≤ 4 ∧ i < rb s ∧ (s.eng.row + 1) * stride s ≤ filteredLen s
  none : s.regs.busy = true → s.eng.phase.inRows = false → s.regs.reconLen = 0#32

/-- R48, R50, R254, R258: the chunk walk stays in IN, and so do the chunks it accepted. -/
structure WalkInv (s : State) : Prop where
  entry : s.eng.phase = .enter .chunks → 8 ≤ s.regs.inLen.toNat
  cursor : s.eng.phase = .chunk → 8 ≤ s.eng.p ∧ s.eng.p ≤ s.regs.inLen.toNat
  walked : s.eng.phase = .chunk → ∀ c ∈ s.eng.chunks, c.off + 12 + c.len ≤ s.eng.p
  chunks : s.regs.mode = 0#3 → s.eng.phase ∉ [.idle, .config, .enter .signature, .sig, .enter .chunks] →
    ∀ c ∈ s.eng.chunks, 8 ≤ c.off ∧ c.off + 12 + c.len ≤ s.regs.inLen.toNat

/-- All of them, with memory in its canonical form. -/
structure Inv (s : State) : Prop where
  status : StatusInv s
  errCode : ErrCodeInv s
  run : RunInv s
  inflate : InflateInv s
  row : RowInv s
  walk : WalkInv s
  mem : s.mem.wf

/-- The bytes the engine may read at this point (R102): IN, the inflated bytes of this run (read back by a copy and in FULL mode by the
unfilterer), and the reconstructed bytes before the current one. -/
def MayRead (s : State) (a : Nat) : Prop :=
  s.regs.inRegion.contains a = true ∨
    (s.regs.mode.toNat ≤ 1 ∧ s.regs.inflBase.toNat ≤ a ∧ a < s.regs.inflBase.toNat + s.regs.inflLen.toNat) ∨
    (s.eng.phase.inRows = true ∧ s.regs.reconBase.toNat ≤ a ∧
      a < s.regs.reconBase.toNat + s.eng.row * rb s + rowIndex s)

end Sys2Proof.Machine
end

