-- ==== Sys2Proof/Certificates/Slice0/Obligations.lean ====
section
/-! DEFINITION. The statements for the provers, in the order of OBLIGATIONS.json. Each names the rules of `spec/` it rests on. Nothing is
proved here. -/

section Statements

open Sys2Proof Sys2Proof.Machine

/-! ## Reset and the register window -/

/-- R56, R600: every offset of the window reads its reset value, the interrupt line is low, the engine is idle, no abort is pending. -/
def Obligations.ResetRegisters : Prop :=
  (∀ off : BitVec 8, readReg State.reset.regs off =
    if off = 0x00#8 then 0x504E4731#32 else if off = 0x04#8 then 0x00000040#32 else 0#32) ∧
  irqLine State.reset = false ∧ State.reset.eng.phase = .idle ∧ State.reset.eng.abortReq = false

/-- R600, R601, R602: the platform's reset from any state. Outside the regions the running mode writes memory keeps every byte, and while
idle all of it. That the host's list and the platform go on is the model's choice (log 19). -/
def Obligations.ResetFromAnyState : Prop :=
  ∀ (s : State) (rest : List HostOp), s.host = .reset :: rest →
    ∃ t, step s = .next t ∧ (∀ off, readReg t.regs off = readReg State.reset.regs off) ∧ irqLine t = false ∧
      t.eng.phase = .idle ∧ t.eng.abortReq = false ∧ t.host = rest ∧ t.plat = s.plat ∧
      (∀ a, s.regs.busy = false ∨ Outside s.regs.outputs a → t.byteAt a = s.byteAt a)

/-- R32, R33, R34, R35, R46, R575: what each bit of ID, CTRL and STATUS reads as, the reserved offsets, and the interrupt line over the
bits read. -/
def Obligations.RegisterFields : Prop :=
  ∀ s : State,
    readReg s.regs 0x00#8 = 0x504E4731#32 ∧
    (readReg s.regs 0x04#8).getLsbD 0 = false ∧ (readReg s.regs 0x04#8).getLsbD 1 = false ∧
    (readReg s.regs 0x04#8).extractLsb' 2 3 = s.regs.mode ∧ (readReg s.regs 0x04#8).getLsbD 5 = s.regs.irqEn ∧
    (readReg s.regs 0x04#8).getLsbD 6 = s.regs.fcheckEn ∧ (readReg s.regs 0x04#8).extractLsb' 7 25 = 0#25 ∧
    (readReg s.regs 0x08#8).getLsbD 0 = s.regs.busy ∧ (readReg s.regs 0x08#8).getLsbD 1 = s.regs.done ∧
    (readReg s.regs 0x08#8).getLsbD 2 = s.regs.err ∧ (readReg s.regs 0x08#8).getLsbD 3 = false ∧
    ((readReg s.regs 0x08#8).extractLsb' 4 4).toNat = s.regs.stage.code ∧ s.regs.stage.code ≤ 10 ∧
    (readReg s.regs 0x08#8).extractLsb' 8 24 = 0#24 ∧
    (∀ off : BitVec 8, off = 0x3C#8 ∨ 0x80 ≤ off.toNat → readReg s.regs off = 0#32) ∧
    irqLine s = ((readReg s.regs 0x04#8).getLsbD 5 && ((readReg s.regs 0x08#8).getLsbD 1 || (readReg s.regs 0x08#8).getLsbD 2))

/-- R212, R46, R109: RD_REG. The value is the register's, except that a result register read while BUSY = 1 gives a free value (log 7). No
register, no byte of memory and nothing of the engine changes. That a read of STATUS which shows DONE or ERR makes the output of the runs
before it visible to the host is R113 in the form of log 25. -/
def Obligations.ReadRegister : Prop :=
  ∀ (off : BitVec 8) (s : State), ∃ t, exec (.rdReg off) s = .next t ∧
    t.regs = s.regs ∧ t.eng = s.eng ∧ t.host = s.host ∧ t.plat = s.plat ∧ (∀ a, t.byteAt a = s.byteAt a) ∧
    t.uncleaned = s.uncleaned ∧ t.stale = s.stale ∧ t.hidden = s.hidden ∧
    t.unseen = (if off = 0x08#8 ∧ (s.regs.done = true ∨ s.regs.err = true) then [] else s.unseen) ∧
    (s.regs.busy = false ∨ off.toNat < 0x40 ∨ 0x7C < off.toNat → t.rdata = readReg s.regs off) ∧
    (s.regs.busy = true → 0x40 ≤ off.toNat → off.toNat ≤ 0x7C → t.rdata = Config.freeWord s.draws)

/-- R201, R605: WR_REG. While idle a read-write register takes the value; every other offset, and every write while busy, changes nothing. -/
def Obligations.WriteRegister : Prop :=
  ∀ (off : BitVec 8) (v : Word) (s : State), ∃ t, exec (.wrReg off v) s = .next t ∧
    (s.regs.busy = false → off ∈ rwOffsets → readReg t.regs off = v) ∧
    (∀ o, s.regs.busy = true ∨ off ∉ rwOffsets ∨ o ≠ off → readReg t.regs o = readReg s.regs o) ∧
    t.eng = s.eng ∧ SameOutside s t ∧ SameView s t

/-- R205: WR_STATUS. A 1 written to bit 1 or 2 clears DONE or ERR; no other bit of STATUS, no other register and nothing else changes; the
interrupt line follows. -/
def Obligations.AcknowledgeStatus : Prop :=
  ∀ (v : Word) (s : State), ∃ t, exec (.wrStatus v) s = .next t ∧
    (readReg t.regs 0x08#8).getLsbD 1 = ((readReg s.regs 0x08#8).getLsbD 1 && !v.getLsbD 1) ∧
    (readReg t.regs 0x08#8).getLsbD 2 = ((readReg s.regs 0x08#8).getLsbD 2 && !v.getLsbD 2) ∧
    (∀ k, k ≠ 1 → k ≠ 2 → (readReg t.regs 0x08#8).getLsbD k = (readReg s.regs 0x08#8).getLsbD k) ∧
    RegsSame [0x08#8] s t ∧
    irqLine t = (s.regs.irqEn && (s.regs.done && !v.getLsbD 1 || s.regs.err && !v.getLsbD 2)) ∧
    t.eng = s.eng ∧ SameOutside s t ∧ SameView s t

/-- R200: a CTRL write of any word, whichever row it is (WR_CTRL, START_FULL, START_INFLATE, START_UNFILTER, START_CRC32,
START_RESERVED, ABORT). Idle, MODE, IRQ_EN and FCHECK_EN are stored, START begins a run and ABORT does nothing. Busy, only IRQ_EN is
stored, ABORT is requested and START does nothing. -/
def Obligations.CtrlWrite : Prop :=
  ∀ (v : Word) (s : State), ∃ t, exec (instrOfWrite s.regs.busy 0x04#8 v) s = .next t ∧ SameOutside s t ∧
    (s.regs.busy = false → readReg t.regs 0x04#8 = v &&& 0x7C#32 ∧ t.regs.busy = v.getLsbD 0) ∧
    (s.regs.busy = false → v.getLsbD 0 = false → RegsSame [0x04#8] s t ∧ t.eng = s.eng ∧ SameView s t) ∧
    (s.regs.busy = true →
      readReg t.regs 0x04#8 = (readReg s.regs 0x04#8 &&& 0x5C#32) ||| (v &&& 0x20#32) ∧ RegsSame [0x04#8] s t ∧
      t.eng = { s.eng with abortReq := s.eng.abortReq || v.getLsbD 1 } ∧ SameView s t)

/-- R202 up to the configuration check, R575, R608: START_FULL, START_INFLATE, START_UNFILTER, START_CRC32 and START_RESERVED. The ERR and
result registers, DONE, ERR and a stale abort request are cleared, BUSY is set, the read-write registers and all of memory are kept, and
the run stands at its configuration check (STAGE shows CONFIG from here on: log 24). What the host has not cleaned stays hidden from the
run, and the regions the run writes are unseen until STATUS shows its end (R113, R119; logs 9 and 25). -/
def Obligations.StartClears : Prop :=
  ∀ (v : Word) (s : State), s.regs.busy = false → v.getLsbD 0 = true →
    ∃ t, exec (instrOfWrite false 0x04#8 v) s = .next t ∧
      readReg t.regs 0x04#8 = v &&& 0x7C#32 ∧ readReg t.regs 0x08#8 = 0x11#32 ∧
      (∀ off ∈ [0x0C#8, 0x10#8, 0x14#8] ++ resultOffsets, readReg t.regs off = 0#32) ∧
      (∀ off ∈ rwOffsets, readReg t.regs off = readReg s.regs off) ∧
      irqLine t = false ∧ t.eng = { s.eng with phase := .config, abortReq := false } ∧ SameOutside s t ∧
      t.hidden = s.uncleaned ∧ t.unseen = s.unseen ++ t.regs.outputs

/-- R202, R206, R565 (SUB 1), D8: START_RESERVED. The CTRL write starts a run, and its first engine step ends it with BadConfig SUB 1 and no
byte of memory changed, since a reserved mode writes no region (R101, R115). -/
def Obligations.ReservedModeFails : Prop :=
  ∀ (mode : BitVec 3) (a q f : Bool) (rsv : BitVec 25) (s : State), 4 ≤ mode.toNat → s.regs.busy = false →
    ∃ t, exec (.startReserved mode a q f rsv) s = .next t ∧ ∀ e, EngineNext t e → ∃ u, step t = .next u ∧
      ErrorEntry 0x00010615#32 0x04 mode.toNat e u ∧ u.regs.mode = mode ∧ u.regs.stage = .config ∧
      (∀ x, u.byteAt x = s.byteAt x)

/-- R206, R565, R120: the configuration check, in its order: reserved mode, a region that wraps (IN, INFL, RECON), two regions that
overlap ((IN, INFL), (IN, RECON), (INFL, RECON)), else the first stage of the mode's own sequence is entered next (a step of its own:
log 4), with nothing changed but STAGE. -/
def Obligations.ConfigCheck : Prop :=
  ∀ z s : State, EngineTurn z s → s.eng.phase = .config →
    ∃ t, step z = .next t ∧
      (3 < s.regs.mode.toNat → ErrorEntry 0x00010615#32 0x04 s.regs.mode.toNat (s.atStage .config) t) ∧
      (s.regs.mode.toNat ≤ 3 → Wraps s.regs.inBase s.regs.inLen →
        ErrorEntry 0x00020615#32 0x18 s.regs.inLen.toNat (s.atStage .config) t) ∧
      (¬Wraps s.regs.inBase s.regs.inLen → UsesInfl s.regs → Wraps s.regs.inflBase s.regs.inflCap →
        ErrorEntry 0x00020615#32 0x20 s.regs.inflCap.toNat (s.atStage .config) t) ∧
      (¬Wraps s.regs.inBase s.regs.inLen → (UsesInfl s.regs → ¬Wraps s.regs.inflBase s.regs.inflCap) → UsesRecon s.regs →
        Wraps s.regs.reconBase s.regs.reconCap →
        ErrorEntry 0x00020615#32 0x28 s.regs.reconCap.toNat (s.atStage .config) t) ∧
      (RegionsFit s.regs → UsesInfl s.regs → Overlap s.regs.inBase s.regs.inLen s.regs.inflBase s.regs.inflCap →
        ErrorEntry 0x00030615#32 0x18 0x20 (s.atStage .config) t) ∧
      (RegionsFit s.regs → UsesRecon s.regs →
        (UsesInfl s.regs → ¬Overlap s.regs.inBase s.regs.inLen s.regs.inflBase s.regs.inflCap) →
        Overlap s.regs.inBase s.regs.inLen s.regs.reconBase s.regs.reconCap →
        ErrorEntry 0x00030615#32 0x18 0x28 (s.atStage .config) t) ∧
      (RegionsFit s.regs → s.regs.mode = 0#3 → ¬Overlap s.regs.inBase s.regs.inLen s.regs.inflBase s.regs.inflCap →
        ¬Overlap s.regs.inBase s.regs.inLen s.regs.reconBase s.regs.reconCap →
        Overlap s.regs.inflBase s.regs.inflCap s.regs.reconBase s.regs.reconCap →
        ErrorEntry 0x00030615#32 0x20 0x28 (s.atStage .config) t) ∧
      (RegionsFit s.regs → (UsesInfl s.regs → ¬Overlap s.regs.inBase s.regs.inLen s.regs.inflBase s.regs.inflCap) →
        (UsesRecon s.regs → ¬Overlap s.regs.inBase s.regs.inLen s.regs.reconBase s.regs.reconCap) →
        (s.regs.mode = 0#3 → ¬Overlap s.regs.inflBase s.regs.inflCap s.regs.reconBase s.regs.reconCap) →
        t = { s.atStage .config with
          eng := { s.eng with
            phase := .enter
              (if s.regs.mode = 0#3 then .signature else if s.regs.mode = 1#3 then .zlibHeader
                else if s.regs.mode = 2#3 then .unfilter else .crc) } })

/-! ## Errors -/

/-- R14, R541, R542, R543, R572, R573: what an error records, field by field of ERR_CODE, and what it leaves: error entry from any state,
for any error. -/
def Obligations.RaiseRecords : Prop :=
  ∀ (e : RunError) (s : State), e.sub < 256 →
    ((readReg (raise e s).regs 0x0C#8).extractLsb' 0 8).toNat = e.kind.code ∧ 1 ≤ e.kind.code ∧ e.kind.code ≤ 23 ∧
    ((readReg (raise e s).regs 0x0C#8).extractLsb' 8 4).toNat =
      (if e.kind.code ≤ 6 then 1 else if e.kind.code ≤ 9 then 2 else if e.kind.code ≤ 15 then 3
        else if e.kind.code ≤ 17 then 4 else if e.kind.code ≤ 19 then 5 else 6) ∧
    (readReg (raise e s).regs 0x0C#8).extractLsb' 12 4 = 0#4 ∧
    ((readReg (raise e s).regs 0x0C#8).extractLsb' 16 8).toNat = e.sub ∧
    (readReg (raise e s).regs 0x0C#8).extractLsb' 24 8 = 0#8 ∧
    ErrorEntry (readReg (raise e s).regs 0x0C#8) e.pos e.aux s (raise e s) ∧
    (s.regs.irqEn = true → irqLine (raise e s) = true)

/-- R204, R566: with an abort pending the draw decides (log 5): the engine goes on as its place in the run says, or the run ends with
Aborted inside this step: STAGE and each result register hold what they held before it or what the step writes (the last value the engine
wrote), and every other register is kept. -/
def Obligations.AbortTurn : Prop :=
  ∀ z s : State, EngineNext z s → s.regs.busy = true → s.eng.abortReq = true →
    ∃ (r : Regs) (t : State),
      step z = (if Config.abortNow s.draws = true then .next t else (enginePhase { s with draws := s.draws + 1 }).result) ∧
      ErrorEntry 0x00000616#32 0 0 { s with regs := r } t ∧
      (∀ off, off ≠ 0x08#8 → off ∉ resultOffsets → readReg r off = readReg s.regs off) ∧
      r.busy = true ∧ r.done = s.regs.done ∧ r.err = s.regs.err ∧
      (∀ off ∈ resultOffsets, readReg r off = readReg s.regs off ∨
        ∃ u, (enginePhase { s with draws := s.draws + 1 }).result = .next u ∧ readReg r off = readReg u.regs off) ∧
      (r.stage = s.regs.stage ∨
        ∃ u, (enginePhase { s with draws := s.draws + 1 }).result = .next u ∧ r.stage = u.regs.stage)

/-- R583, R567: an engine access the platform fails ends the run with BusError at its address, ERR_AUX 0 for a read and 1 for a write:
the signature, a chunk's length, type, data and CRC, the header's data, the CRC32 mode's data; a literal's, a stored byte's and a copy's
write, a copy's read; a row's filter byte, each operand a filter reads (x, a, b, c) and the byte it writes. (For S see `StreamStops`.) The
order of the accesses within a step, and that the neighbours are read over the bus, are the model's (logs 13 and 27). -/
def Obligations.BusErrorAccess : Prop :=
  (∀ (s : State) (f : Nat → Byte) (i : Nat), i < 8 → i < s.regs.inLen.toNat → InBytes s 0 i f → bytesOf i f = sigBytes.take i →
    Fails s .read (s.regs.inBase.toNat + i) →
    ∃ t, exec .sig s = .next t ∧ ErrorEntry 0x00000617#32 (s.regs.inBase.toNat + i) 0 (s.atStage .signature) t) ∧
  (∀ (z s : State) (f : Nat → Byte) (k : Nat), EngineTurn z s → s.eng.phase = .chunk → s.eng.p + 8 ≤ s.regs.inLen.toNat → k < 8 →
    InBytes s s.eng.p k f → Fails s .read (s.regs.inBase.toNat + (s.eng.p + k)) →
    ∃ t, step z = .next t ∧ ErrorEntry 0x00000617#32 (s.regs.inBase.toNat + (s.eng.p + k)) 0 s t) ∧
  (∀ (len typ : Word) (s : State) (f : Nat → Byte) (k : Nat), s.eng.phase = .chunk →
    s.eng.p + 12 + len.toNat ≤ s.regs.inLen.toNat → k < 8 + len.toNat → InBytes s (s.eng.p + 4) k f →
    Fails s .read (s.regs.inBase.toNat + (s.eng.p + 4 + k)) →
    ∃ t, exec (instrOfChunk len typ) s = .next t ∧
      ErrorEntry 0x00000617#32 (s.regs.inBase.toNat + (s.eng.p + 4 + k)) 0
        (if k < 4 + len.toNat then s else { s with regs := { s.regs with crcResult := crc32 (bytesOf (4 + len.toNat) f) } }) t) ∧
  (∀ (s : State) (f : Nat → Byte) (k : Nat) (h : ChunkRec), s.eng.phase = .header → firstKey s.eng.chunks = some h → k < 13 →
    InBytes s (h.off + 8) k f → Fails s .read (s.regs.inBase.toNat + (h.off + 8 + k)) →
    ∃ t, exec (.chunkIhdr 13#32) s = .next t ∧ ErrorEntry 0x00000617#32 (s.regs.inBase.toNat + (h.off + 8 + k)) 0 s t) ∧
  (∀ (z s : State) (f : Nat → Byte) (k : Nat), EngineTurn z s → s.eng.phase = .crc → k < s.regs.inLen.toNat → InBytes s 0 k f →
    Fails s .read (s.regs.inBase.toNat + k) →
    ∃ t, step z = .next t ∧ ErrorEntry 0x00000617#32 (s.regs.inBase.toNat + k) 0 s t) ∧
  (∀ (i : Instr) (b : Byte) (s : State), i = .litFixed8 b ∨ i = .litFixed9 b ∨ i = .litDyn b →
    s.eng.out < s.regs.inflCap.toNat → Fails s .write (s.regs.inflBase.toNat + s.eng.out) →
    ∃ t, exec i s = .next t ∧ ErrorEntry 0x00000617#32 (s.regs.inflBase.toNat + s.eng.out) 1 s t) ∧
  (∀ (z s : State) (n k : Nat) (b : Byte), EngineTurn z s → s.eng.phase = .stored (n + 1) → s.eng.bitpos = 8 * k →
    k < streamLen s → streamByte s k = .ok b → s.eng.out < s.regs.inflCap.toNat →
    Fails s .write (s.regs.inflBase.toNat + s.eng.out) →
    ∃ t, step z = .next t ∧ ErrorEntry 0x00000617#32 (s.regs.inflBase.toNat + s.eng.out) 1 s t) ∧
  (∀ (z s : State) (n d : Nat), EngineTurn z s → s.eng.phase = .copy (n + 1) d →
    (Fails s .read (s.regs.inflBase.toNat + s.eng.out - d) →
      ∃ t, step z = .next t ∧ ErrorEntry 0x00000617#32 (s.regs.inflBase.toNat + s.eng.out - d) 0 s t) ∧
    (Readable s (s.regs.inflBase.toNat + s.eng.out - d) → s.eng.out < s.regs.inflCap.toNat →
      Fails s .write (s.regs.inflBase.toNat + s.eng.out) →
      ∃ t, step z = .next t ∧ ErrorEntry 0x00000617#32 (s.regs.inflBase.toNat + s.eng.out) 1 s t)) ∧
  (∀ (z s : State) (a : Nat), EngineTurn z s → s.eng.phase = .row → (s.eng.row + 1) * stride s ≤ filteredLen s →
    a = (if s.regs.mode = 0#3 then s.regs.inflBase.toNat else s.regs.inBase.toNat) + s.eng.row * stride s → Fails s .read a →
    ∃ t, step z = .next t ∧ ErrorEntry 0x00000617#32 a 0 s t) ∧
  (∀ (s : State) (ft : Byte) (i ax aa ab ac aw : Nat) (x a b c : Byte), s.eng.phase = .rowByte ft i →
    ax = (if s.regs.mode = 0#3 then s.regs.inflBase.toNat else s.regs.inBase.toNat) + (s.eng.row * stride s + 1 + i) →
    aa = s.regs.reconBase.toNat + (s.eng.row * rb s + i - bpp s) →
    ab = s.regs.reconBase.toNat + ((s.eng.row - 1) * rb s + i) →
    ac = s.regs.reconBase.toNat + ((s.eng.row - 1) * rb s + i - bpp s) →
    aw = s.regs.reconBase.toNat + s.eng.row * rb s + i →
    (Fails s .read ax → ∀ j ∈ [Instr.filtNone, .filtSub, .filtUp, .filtAvg, .filtPaeth],
      ∃ t, exec j s = .next t ∧ ErrorEntry 0x00000617#32 ax 0 s t) ∧
    (filtX s = .ok x → bpp s ≤ i → Fails s .read aa → ∀ j ∈ [Instr.filtSub, .filtAvg, .filtPaeth],
      ∃ t, exec j s = .next t ∧ ErrorEntry 0x00000617#32 aa 0 s t) ∧
    (filtX s = .ok x → 1 ≤ s.eng.row → Fails s .read ab →
      (∃ t, exec .filtUp s = .next t ∧ ErrorEntry 0x00000617#32 ab 0 s t) ∧
      (filtA s = .ok a → ∀ j ∈ [Instr.filtAvg, .filtPaeth], ∃ t, exec j s = .next t ∧ ErrorEntry 0x00000617#32 ab 0 s t)) ∧
    (filtX s = .ok x → filtA s = .ok a → filtB s = .ok b → 1 ≤ s.eng.row → bpp s ≤ i → Fails s .read ac →
      ∃ t, exec .filtPaeth s = .next t ∧ ErrorEntry 0x00000617#32 ac 0 s t) ∧
    (filtX s = .ok x → Fails s .write aw →
      (∃ t, exec .filtNone s = .next t ∧ ErrorEntry 0x00000617#32 aw 1 s t) ∧
      (filtA s = .ok a → ∃ t, exec .filtSub s = .next t ∧ ErrorEntry 0x00000617#32 aw 1 s t) ∧
      (filtB s = .ok b → ∃ t, exec .filtUp s = .next t ∧ ErrorEntry 0x00000617#32 aw 1 s t) ∧
      (filtA s = .ok a → filtB s = .ok b → ∃ t, exec .filtAvg s = .next t ∧ ErrorEntry 0x00000617#32 aw 1 s t) ∧
      (filtA s = .ok a → filtB s = .ok b → filtC s = .ok c →
        ∃ t, exec .filtPaeth s = .next t ∧ ErrorEntry 0x00000617#32 aw 1 s t)))

/-! ## Memory as the host sees it -/

/-- R107, R113, R114, R119, U2, U3, U4: the host's accesses of memory and the register accesses that have no step. A byte write lands and
changes no other byte, and the host reads it back from then on, whatever output stood there (R114; log 25); it is refused in a region the
running mode uses, and in the register window. A byte read gives the bus's byte, and any value where the spec promises none: INFL and RECON
during a run, the output of a run whose end no read of STATUS has shown and that the host has not overwritten (log 25), and on a
non-coherent platform a byte the engine wrote and the host has not invalidated since that read (log 9). A clean counts for the runs that
start behind it, and an invalidate changes no memory and leaves uncleaned bytes uncleaned (log 9). Which accesses are refused beyond R107
and R114 is log 10. -/
def Obligations.HostAccess : Prop :=
  (∀ (s : State) (rest : List HostOp) (addr : Word) (b : Byte), s.host = .memWrite addr b :: rest →
    (inWindow s.plat addr.toNat = true → step s = .refused .narrowOrMisalignedAccess) ∧
    (inWindow s.plat addr.toNat = false → noMemory s.plat addr.toNat = true → step s = .refused .hostHitsNoMemory) ∧
    (inWindow s.plat addr.toNat = false → noMemory s.plat addr.toNat = false →
      (s.regs.busy = true → (∃ r ∈ s.regs.used, r.contains addr.toNat = true) → step s = .refused .hostWriteToBusyRegion) ∧
      (s.regs.busy = false ∨ Outside s.regs.used addr.toNat →
        ∃ t, step s = .next t ∧ t.byteAt addr.toNat = b ∧ (∀ x, x ≠ addr.toNat → t.byteAt x = s.byteAt x) ∧
          t.regs = s.regs ∧ t.eng = s.eng ∧ t.host = rest ∧ t.plat = s.plat ∧ t.draws = s.draws ∧ t.hidden = s.hidden ∧
          (∀ x, (∃ r ∈ t.unseen, r.contains x = true) ↔ x ≠ addr.toNat ∧ ∃ r ∈ s.unseen, r.contains x = true) ∧
          (s.plat.coherent = true → t.uncleaned = s.uncleaned ∧ t.stale = s.stale) ∧
          (s.plat.coherent = false → addr.toNat ∈ t.uncleaned ∧ addr.toNat ∉ t.stale)))) ∧
  (∀ (s : State) (rest : List HostOp) (addr : Word), s.host = .memRead addr :: rest →
    (inWindow s.plat addr.toNat = true → step s = .refused .narrowOrMisalignedAccess) ∧
    (inWindow s.plat addr.toNat = false → noMemory s.plat addr.toNat = false →
      ∃ t, step s = .next t ∧ (∀ x, t.byteAt x = s.byteAt x) ∧ t.regs = s.regs ∧ t.eng = s.eng ∧ t.host = rest ∧
        t.plat = s.plat ∧ SameView s t ∧ t.uncleaned = s.uncleaned ∧ t.stale = s.stale ∧
        (s.regs.busy = true → s.regs.inflRegion.contains addr.toNat = true ∨ s.regs.reconRegion.contains addr.toNat = true →
          s.regs.inRegion.contains addr.toNat = false → t.memData = Config.freeByte s.draws) ∧
        (s.regs.busy = true → (∃ r ∈ s.regs.outputs, r.contains addr.toNat = true) → t.memData = Config.freeByte s.draws) ∧
        ((∃ r ∈ s.unseen, r.contains addr.toNat = true) → t.memData = Config.freeByte s.draws) ∧
        (s.plat.coherent = false → addr.toNat ∈ s.stale → t.memData = Config.freeByte s.draws) ∧
        (Outside s.unseen addr.toNat → s.plat.coherent = true ∨ addr.toNat ∉ s.stale →
          s.regs.busy = false ∨ Outside s.regs.outputs addr.toNat ∧
            (s.regs.inRegion.contains addr.toNat = true ∨
              Outside [s.regs.inflRegion, s.regs.reconRegion] addr.toNat) →
          t.memData = s.byteAt addr.toNat ∧ t.draws = s.draws))) ∧
  (∀ (s : State) (rest : List HostOp) (size : AccessSize) (off : BitVec 8) (v m : Word), size ≠ .word ∨ off.toNat % 4 ≠ 0 →
    (s.host = .read size off :: rest → step s = .refused .narrowOrMisalignedAccess) ∧
    (s.host = .write size off v :: rest → step s = .refused .narrowOrMisalignedAccess) ∧
    (off.toNat % 4 ≠ 0 → s.host = .poll off m v :: rest → step s = .refused .narrowOrMisalignedAccess)) ∧
  (∀ (s : State) (rest : List HostOp) (addr : Word) (n : Nat),
    (s.host = .clean addr n :: rest → ∃ t, step s = .next t ∧ t.regs = s.regs ∧ t.eng = s.eng ∧ t.mem = s.mem ∧ t.host = rest ∧
      t.stale = s.stale ∧ SameView s t ∧
      ∀ x, x ∈ t.uncleaned ↔ x ∈ s.uncleaned ∧ (x < addr.toNat ∨ addr.toNat + n ≤ x)) ∧
    (s.host = .invalidate addr n :: rest → ∃ t, step s = .next t ∧ t.regs = s.regs ∧ t.eng = s.eng ∧ t.mem = s.mem ∧
      t.host = rest ∧ t.uncleaned = s.uncleaned ∧ SameView s t ∧
      ∀ x, x ∈ t.stale ↔ x ∈ s.stale ∧ (x < addr.toNat ∨ addr.toNat + n ≤ x ∨ ∃ r ∈ s.unseen, r.contains x = true))) ∧
  (∀ (s : State) (a : Nat), Readable s a →
    (s.plat.coherent = true ∨ a ∉ s.hidden → busRead s a = .ok (s.byteAt a)) ∧
    (s.plat.coherent = false → a ∈ s.hidden → busRead s a = .ok (Config.uncleanByte s.draws a))) ∧
  (∀ (s : State) (a : Nat) (b : Byte), Writable s a →
    ∃ t, busWrite s a b = .ok t ∧ t.byteAt a = b ∧ (∀ x, x ≠ a → t.byteAt x = s.byteAt x) ∧
      (s.plat.coherent = false → a ∈ t.stale ∧ a ∉ t.hidden ∧ a ∉ t.uncleaned))

/-! ## Rules about the whole machine -/

/-- R34, R53, R541, R544, R568: DONE and ERR never both 1, neither while BUSY, BUSY exactly during a run, the ERR registers 0 during and
after a successful run, and ERR_CODE always 0 or a word of the table: kept by every step. -/
def Obligations.StatusInvStep : Prop :=
  ∀ s t : State, StatusInv s → ErrCodeInv s → step s = .next t → StatusInv t ∧ ErrCodeInv t

/-- R35, R101, R120, R206: mode, STAGE and regions fit where the engine stands: kept by every step. -/
def Obligations.RunInvStep : Prop := ∀ s t : State, Inv s → step s = .next t → RunInv t

/-- R44, R48, R49, R208, R209, R347, R355, R434, R436, R438, R440: the inflater's counters, cursor and codes stay in range, the two Adler
sums below 65521 while `Inflate` runs, and INFL_LEN and BLOCK_COUNT 0 in a run that does not inflate: kept by every step. -/
def Obligations.InflateInvStep : Prop := ∀ s t : State, Inv s → step s = .next t → InflateInv t

/-- R45, R48, R494, R495, R503: the unfilterer's geometry, capacity and cursor: kept by every step. -/
def Obligations.RowInvStep : Prop := ∀ s t : State, Inv s → step s = .next t → RowInv t

/-- R48, R50, R254, R258: the chunk walk and the chunks it accepted stay inside IN: kept by every step. -/
def Obligations.WalkInvStep : Prop := ∀ s t : State, Inv s → step s = .next t → WalkInv t

/-- Memory keeps its canonical form, with every address below 2^32 (R100; the form is the model's, log 1). -/
def Obligations.MemoryWfStep : Prop := ∀ s t : State, s.mem.wf → step s = .next t → t.mem.wf

/-- The invariants hold after reset. That the window's values, the idle engine and BUSY = 0 meet them is R56 and R600. That memory is in
its canonical form, with nothing listed, is the model's choice (log 1). No clause of the invariant rests on the values log 2 chooses for
the engine's internal state: each of them asks for a phase no reset state stands at. -/
def Obligations.ResetInv : Prop := Inv State.reset

/-- R102 (writes), R115: an engine step changes no byte outside the regions the mode writes, and behind the configuration check no byte of
IN. -/
def Obligations.WritesConfined : Prop :=
  ∀ (s t : State), Inv s → (s.host = [] ∨ ∃ rest, s.host = .engine :: rest) → step s = .next t →
    (∀ a, Outside s.regs.outputs a → t.byteAt a = s.byteAt a) ∧
    (s.eng.phase ≠ .config → ∀ a, s.regs.inRegion.contains a = true → t.byteAt a = s.byteAt a)

/-- R102 (reads): an engine step depends on no byte of memory but IN's and those of INFL and RECON the run has written: two states that
differ elsewhere only step to the same registers and engine. -/
def Obligations.ReadsConfined : Prop :=
  ∀ (s t : State) (m : Memory), Inv s → (s.host = [] ∨ ∃ rest, s.host = .engine :: rest) →
    (∀ a, MayRead s a → State.byteAt { s with mem := m } a = s.byteAt a) → step s = .next t →
    ∃ t', step { s with mem := m } = .next t' ∧ t'.regs = t.regs ∧ t'.eng = t.eng ∧ t'.draws = t.draws

/-- R47, R605: while BUSY = 1, no step but a reset changes MODE, FCHECK_EN, a region register or a UF register. -/
def Obligations.ConfigStable : Prop :=
  ∀ s t : State, s.regs.busy = true → (∀ rest, s.host ≠ .reset :: rest) → step s = .next t →
    t.regs.mode = s.regs.mode ∧ t.regs.fcheckEn = s.regs.fcheckEn ∧ ∀ off ∈ rwOffsets, readReg t.regs off = readReg s.regs off

/-- R53, R608, R609: BUSY is set only by a START while idle and cleared only by the end of a run or reset; DONE and ERR are set only by the
end of a run and cleared only by write-1-to-clear, START or reset. -/
def Obligations.FlagsChangeOnlyAt : Prop :=
  ∀ s t : State, step s = .next t →
    (s.regs.busy = false → t.regs.busy = true →
      ∃ v rest, s.host = .write .word 0x04#8 v :: rest ∧ v.getLsbD 0 = true) ∧
    (s.regs.busy = true → t.regs.busy = false →
      (∃ rest, s.host = .reset :: rest) ∨ t.regs.done = true ∨ t.regs.err = true) ∧
    (s.regs.done = false → t.regs.done = true → s.regs.busy = true ∧ t.regs.busy = false) ∧
    (s.regs.err = false → t.regs.err = true → s.regs.busy = true ∧ t.regs.busy = false) ∧
    (s.regs.done = true → t.regs.done = false →
      (∃ rest, s.host = .reset :: rest) ∨ (∃ v rest, s.host = .write .word 0x08#8 v :: rest ∧ v.getLsbD 1 = true) ∨
        (s.regs.busy = false ∧ ∃ v rest, s.host = .write .word 0x04#8 v :: rest ∧ v.getLsbD 0 = true)) ∧
    (s.regs.err = true → t.regs.err = false →
      (∃ rest, s.host = .reset :: rest) ∨ (∃ v rest, s.host = .write .word 0x08#8 v :: rest ∧ v.getLsbD 2 = true) ∨
        (s.regs.busy = false ∧ ∃ v rest, s.host = .write .word 0x04#8 v :: rest ∧ v.getLsbD 0 = true))

/-- R55, R606: STAGE never gets smaller within a run. -/
def Obligations.StageMonotone : Prop :=
  ∀ s t : State, Inv s → s.regs.busy = true → t.regs.busy = true → (∀ rest, s.host ≠ .reset :: rest) → step s = .next t →
    s.regs.stage.code ≤ t.regs.stage.code

/-- The memory frame of every instruction: when it answers a next state, every byte but the one it stores to reads as before; where it
raised an error, every byte outside the regions the mode writes (R115). -/
def Obligations.FrameMemory : Prop :=
  ∀ (i : Instr) (s t : State) (a : Nat), exec i s = .next t → storeAddr i s ≠ some a →
    t.regs.err = false ∨ Outside s.regs.outputs a → t.byteAt a = s.byteAt a

/-- The register frame of every instruction: a register outside the instruction's Writes list reads as before; STATUS and the ERR
registers change beside it only where an error is raised. The host's list, the platform, what the host last read and what host and engine
see of each other's writes are kept, but for the rows that change them: a store, a CTRL write, a read of a register. -/
def Obligations.FrameRegisters : Prop :=
  ∀ (i : Instr) (s t : State), exec i s = .next t →
    (∀ off, off ∉ mayWrite i → off ∉ errOffsets ∨ t.regs.err = false → readReg t.regs off = readReg s.regs off) ∧
    t.host = s.host ∧ t.plat = s.plat ∧ t.memData = s.memData ∧ ((∀ off, i ≠ .rdReg off) → t.rdata = s.rdata) ∧
    (storeAddr i s = none → t.uncleaned = s.uncleaned ∧ t.stale = s.stale ∧ (0x04#8 ∉ mayWrite i → t.hidden = s.hidden)) ∧
    (0x04#8 ∉ mayWrite i → (∀ off, i ≠ .rdReg off) → t.unseen = s.unseen)

/-! ## Signature and chunks -/

/-- R252, R545: the signature stage is entered (STAGE SIGNATURE), and SIG compares the eight bytes in order; a short buffer fails at its
end. That the entry is a step of its own is log 4. -/
def Obligations.SignatureCheck : Prop :=
  (∀ z s : State, EngineTurn z s → s.eng.phase = .enter .signature →
    step z = .next { s.atStage .signature with eng := { s.eng with phase := .sig } }) ∧
  (∀ (s : State) (f : Nat → Byte), InBytes s 0 (min 8 s.regs.inLen.toNat) f →
    ∃ t, exec .sig s = .next t ∧
      (8 ≤ s.regs.inLen.toNat → bytesOf 8 f = [0x89#8, 0x50#8, 0x4E#8, 0x47#8, 0x0D#8, 0x0A#8, 0x1A#8, 0x0A#8] →
        t = { s.atStage .signature with eng := { s.eng with phase := .enter .chunks } }) ∧
      (∀ i, i < 8 → i < s.regs.inLen.toNat → bytesOf i f = sigBytes.take i → sigBytes[i]? ≠ some (f i) →
        ErrorEntry 0x00000101#32 i (f i).toNat (s.atStage .signature) t) ∧
      (s.regs.inLen.toNat < 8 → bytesOf s.regs.inLen.toNat f = sigBytes.take s.regs.inLen.toNat →
        ErrorEntry 0x00000101#32 s.regs.inLen.toNat 0 (s.atStage .signature) t))

/-- R253, R254 (SUB 1), R259: the chunk stage is entered (STAGE CHUNKS, `st.p` 8, no chunks); then the walk at `st.p`: the exact end of the
buffer ends it, one to seven bytes are a truncated header, and otherwise the chunk whose length and type stand there is the next
instruction. That the entry is a step of its own is log 4. -/
def Obligations.ChunkWalk : Prop :=
  (∀ z s : State, EngineTurn z s → s.eng.phase = .enter .chunks →
    step z = .next { s.atStage .chunks with eng := { s.eng with p := 8, chunks := [], phase := .chunk } }) ∧
  (∀ (z s : State) (f : Nat → Byte), EngineTurn z s → s.eng.phase = .chunk →
    (s.eng.p = s.regs.inLen.toNat →
      step z = .next { s with
        regs := { s.regs with
          chunkCount := trunc32 s.eng.chunks.length
          idatCount := trunc32 (s.eng.chunks.filter ChunkRec.isIdat).length
          idatLen := trunc32 ((s.eng.chunks.filter ChunkRec.isIdat).map ChunkRec.len).sum }
        eng := { s.eng with phase := .enter .header } }) ∧
    (s.eng.p < s.regs.inLen.toNat → s.regs.inLen.toNat < s.eng.p + 8 →
      ∃ t, step z = .next t ∧ ErrorEntry 0x00010102#32 s.eng.p 0 s t) ∧
    (s.eng.p + 8 ≤ s.regs.inLen.toNat → InBytes s s.eng.p 8 f →
      step z = exec (instrOfChunk (trunc32 (be32At f 0)) (trunc32 (be32At f 4))) s))

/-- R254, R255, R256, R258, R259: with all bytes of a chunk present and the CRC right, the chunk is recorded and CRC_RESULT holds its CRC.
CHUNK_IHDR, CHUNK_PLTE, CHUNK_IDAT and CHUNK_ANCILLARY in the walk: the walk goes on behind it. CHUNK_IEND: the walk ends, and the three
counters are written. -/
def Obligations.ChunkAccepted : Prop :=
  (∀ (len typ : Word) (s : State) (f : Nat → Byte), s.eng.phase = .chunk → typ ≠ typIEND →
    (isCritical typ = true → isKnownType typ = true) → s.eng.p + 12 + len.toNat ≤ s.regs.inLen.toNat →
    InBytes s (s.eng.p + 4) (8 + len.toNat) f →
    (crc32 (bytesOf (4 + len.toNat) f)).toNat = be32At f (4 + len.toNat) →
    exec (instrOfChunk len typ) s = .next { s with
      regs := { s.regs with crcResult := crc32 (bytesOf (4 + len.toNat) f) }
      eng := { s.eng with
        crc := (bytesOf (4 + len.toNat) f).foldl crcByte 0xFFFFFFFF#32
        chunks := s.eng.chunks ++ [⟨s.eng.p, len.toNat, typ⟩]
        p := s.eng.p + 12 + len.toNat
        phase := .chunk } }) ∧
  (∀ (len : Word) (s : State) (f : Nat → Byte), s.eng.p + 12 + len.toNat ≤ s.regs.inLen.toNat →
    InBytes s (s.eng.p + 4) (8 + len.toNat) f →
    (crc32 (bytesOf (4 + len.toNat) f)).toNat = be32At f (4 + len.toNat) →
    exec (.chunkIend len) s = .next { s with
      regs := { s.regs with
        crcResult := crc32 (bytesOf (4 + len.toNat) f)
        chunkCount := trunc32 (s.eng.chunks.length + 1)
        idatCount := trunc32 (s.eng.chunks.filter ChunkRec.isIdat).length
        idatLen := trunc32 ((s.eng.chunks.filter ChunkRec.isIdat).map ChunkRec.len).sum }
      eng := { s.eng with
        crc := (bytesOf (4 + len.toNat) f).foldl crcByte 0xFFFFFFFF#32
        chunks := s.eng.chunks ++ [⟨s.eng.p, len.toNat, typIEND⟩]
        phase := .enter .header } })

/-- R254 (SUB 2), R255, R257, in that order, for a chunk of any length and type in the walk: data or CRC missing; a wrong CRC;
CHUNK_UNKNOWN_CRITICAL. -/
def Obligations.ChunkRejected : Prop :=
  ∀ (len typ : Word) (s : State) (f : Nat → Byte), s.eng.phase = .chunk →
    (s.regs.inLen.toNat < s.eng.p + 12 + len.toNat →
      ∃ t, exec (instrOfChunk len typ) s = .next t ∧ ErrorEntry 0x00020102#32 s.eng.p typ.toNat s t) ∧
    (s.eng.p + 12 + len.toNat ≤ s.regs.inLen.toNat → InBytes s (s.eng.p + 4) (8 + len.toNat) f →
      (crc32 (bytesOf (4 + len.toNat) f)).toNat ≠ be32At f (4 + len.toNat) →
      ∃ t, exec (instrOfChunk len typ) s = .next t ∧
        ErrorEntry 0x00000103#32 s.eng.p typ.toNat
          { s with regs := { s.regs with crcResult := crc32 (bytesOf (4 + len.toNat) f) } } t) ∧
    (s.eng.p + 12 + len.toNat ≤ s.regs.inLen.toNat → InBytes s (s.eng.p + 4) (8 + len.toNat) f →
      (crc32 (bytesOf (4 + len.toNat) f)).toNat = be32At f (4 + len.toNat) → isCritical typ = true → isKnownType typ = false →
      instrOfChunk len typ = .chunkUnknownCritical len typ ∧
      ∃ t, exec (.chunkUnknownCritical len typ) s = .next t ∧
        ErrorEntry 0x00000207#32 s.eng.p typ.toNat
          { s with regs := { s.regs with crcResult := crc32 (bytesOf (4 + len.toNat) f) } } t)

/-- R260 to R267: the header stage is entered (STAGE HEADER; a step of its own: log 4); R260's own two errors, that the first key chunk is no
IHDR and that there is none; and CHUNK_IHDR on the first key chunk: length, width, height, pairing, compression, filter and interlace
method in this order, else the IMG registers. -/
def Obligations.HeaderChecks : Prop :=
  (∀ z s : State, EngineTurn z s → s.eng.phase = .enter .header →
    step z = .next { s.atStage .header with eng := { s.eng with phase := .header } }) ∧
  (∀ (z s : State) (h : ChunkRec), EngineTurn z s → s.eng.phase = .header → firstKey s.eng.chunks = some h → h.typ ≠ typIHDR →
    ∃ t, step z = .next t ∧ ErrorEntry 0x00000104#32 h.off h.typ.toNat s t) ∧
  (∀ z s : State, EngineTurn z s → s.eng.phase = .header → firstKey s.eng.chunks = none →
    ∃ t, step z = .next t ∧ ErrorEntry 0x00000104#32 0xFFFFFFFF 0 s t) ∧
  (∀ (s : State) (len : Word) (f : Nat → Byte) (h : ChunkRec), s.eng.phase = .header → firstKey s.eng.chunks = some h →
    (len ≠ 13#32 → ∃ t, exec (.chunkIhdr len) s = .next t ∧ ErrorEntry 0x00010105#32 h.off len.toNat s t) ∧
    (len = 13#32 → InBytes s (h.off + 8) 13 f → ∃ t, exec (.chunkIhdr len) s = .next t ∧
      (be32At f 0 = 0 → ErrorEntry 0x00020105#32 h.off 0 s t) ∧
      (be32At f 0 ≠ 0 → be32At f 4 = 0 → ErrorEntry 0x00030105#32 h.off 0 s t) ∧
      (be32At f 0 ≠ 0 → be32At f 4 ≠ 0 → ((f 9).toNat, (f 8).toNat) ∉ permittedPairs →
        ErrorEntry 0x00010208#32 h.off ((f 8).toNat + (f 9).toNat * 256) s t) ∧
      (be32At f 0 ≠ 0 → be32At f 4 ≠ 0 → ((f 9).toNat, (f 8).toNat) ∈ permittedPairs →
        (f 10 ≠ 0#8 → ErrorEntry 0x00020208#32 h.off (f 10).toNat s t) ∧
        (f 10 = 0#8 → f 11 ≠ 0#8 → ErrorEntry 0x00030208#32 h.off (f 11).toNat s t) ∧
        (f 10 = 0#8 → f 11 = 0#8 → f 12 ≠ 0#8 → ErrorEntry 0x00040208#32 h.off (f 12).toNat s t) ∧
        (f 10 = 0#8 → f 11 = 0#8 → f 12 = 0#8 →
          t = { s with
            regs := { s.regs with
              imgWidth := trunc32 (be32At f 0)
              imgHeight := trunc32 (be32At f 4)
              imgFormat := trunc32 ((f 8).toNat + (f 9).toNat * 256)
              imgInterlace := 0#32 }
            eng := { s.eng with phase := .enter .palette } }))))

/-- R268 to R272: the palette stage is entered (STAGE PALETTE; a step of its own: log 4). With no PLTE chunk no register changes and
inflation follows; with one, CHUNK_PLTE on the first: length mod 3, more than 256 entries, position, in this order, else PLTE_OFFSET and
PLTE_COUNT, and inflation follows. -/
def Obligations.PaletteChecks : Prop :=
  (∀ z s : State, EngineTurn z s → s.eng.phase = .enter .palette →
    step z = .next { s.atStage .palette with eng := { s.eng with phase := .palette } }) ∧
  (∀ z s : State, EngineTurn z s → s.eng.phase = .palette → firstPlte s.eng.chunks = none →
    step z = .next { s with eng := { s.eng with phase := .enter .zlibHeader } }) ∧
  (∀ (s : State) (len : Word) (q : ChunkRec), s.eng.phase = .palette → firstPlte s.eng.chunks = some q →
    ∃ t, exec (.chunkPlte len) s = .next t ∧
      (len.toNat % 3 ≠ 0 → ErrorEntry 0x00010106#32 q.off len.toNat s t) ∧
      (len.toNat % 3 = 0 → 768 < len.toNat → ErrorEntry 0x00020106#32 q.off len.toNat s t) ∧
      (len.toNat % 3 = 0 → len.toNat ≤ 768 → (∃ c ∈ s.eng.chunks, c.typ = typIDAT ∧ c.off < q.off) →
        ErrorEntry 0x00030106#32 q.off len.toNat s t) ∧
      (len.toNat % 3 = 0 → len.toNat ≤ 768 → (∀ c ∈ s.eng.chunks, c.typ = typIDAT → q.off ≤ c.off) →
        t = { s with
          regs := { s.regs with
            plteOffset := trunc32 (q.off + 8)
            plteCount := 0x80000000#32 ||| trunc32 (len.toNat / 3) }
          eng := { s.eng with phase := .enter .zlibHeader } }))

/-- R273, R274: S in FULL mode is the concatenation of the IDAT bodies: byte `j` of S is the byte of IN at entry `j` of the list of all
their offsets. -/
def Obligations.StreamAssembly : Prop :=
  ∀ (s : State) (offs : List Nat), s.regs.mode = 0#3 →
    offs = (s.eng.chunks.filter fun c => c.typ == typIDAT).flatMap (fun c => (List.range c.len).map fun k => c.off + 8 + k) →
    streamLen s = offs.length ∧ ∀ j a, offs[j]? = some a → streamByte s j = inByte s a

/-- R250, R251: the table form of the CRC step equals the bit form, for every accumulator and byte; the table entries the rule prints; the
check values of CRC-32. -/
def Obligations.CrcTableForm : Prop :=
  (∀ (c : Word) (b : Byte), crcByteTable c b = crcByte c b) ∧
  crcTable 0#8 = 0#32 ∧ crcTable 1#8 = 0x77073096#32 ∧ crcTable 2#8 = 0xEE0E612C#32 ∧ crcTable 128#8 = 0xEDB88320#32 ∧
  crcTable 255#8 = 0x2D02EF8D#32 ∧ crc32 [] = 0#32 ∧
  crc32 [0x31#8, 0x32#8, 0x33#8, 0x34#8, 0x35#8, 0x36#8, 0x37#8, 0x38#8, 0x39#8] = 0xCBF43926#32

/-- R210, R211: the CRC32 mode: its stage is entered (STAGE CRC), then CRC_RESULT is the CRC-32 of IN, DONE = 1, BUSY = 0; nothing else of
the window and no byte of memory changes. That the whole computation is one step is log 4. -/
def Obligations.CrcRun : Prop :=
  (∀ z s : State, EngineTurn z s → s.eng.phase = .enter .crc →
    step z = .next { s.atStage .crc with eng := { s.eng with phase := .crc } }) ∧
  (∀ (z s : State) (f : Nat → Byte), EngineTurn z s → s.eng.phase = .crc → InBytes s 0 s.regs.inLen.toNat f →
    step z = .next { s with
      regs := { s.regs with crcResult := crc32 (bytesOf s.regs.inLen.toNat f), done := true, busy := false }
      eng := { s.eng with crc := (bytesOf s.regs.inLen.toNat f).foldl crcByte 0xFFFFFFFF#32, phase := .idle } })

/-! ## Inflate -/

/-- R330 to R334, R336, R553: `Inflate` is entered (STAGE ZLIB_HEADER, cursor, counters and Adler sums at their start); a stream of fewer
than two bytes is StreamExhausted SUB 1. ZLIB_CM, ZLIB_FDICT and ZLIB_FCHECK: each raises its SUB, or the next one follows, and behind
the last the blocks are entered (STAGE BLOCKS, bit 16). That the entries are steps of their own is log 4. -/
def Obligations.ZlibHeader : Prop :=
  (∀ z s : State, EngineTurn z s → s.eng.phase = .enter .zlibHeader →
    step z = .next { s.atStage .zlibHeader with
      eng := { s.eng with bitpos := 0, out := 0, block := 0, s1 := 1, s2 := 0, phase := .inflate } }) ∧
  (∀ z s : State, EngineTurn z s → s.eng.phase = .inflate → streamLen s < 2 →
    ∃ t, step z = .next t ∧ ErrorEntry 0x0001030F#32 (8 * streamLen s) 0 s t) ∧
  (∀ z s : State, EngineTurn z s → s.eng.phase = .enter .blocks →
    step z = .next { s.atStage .blocks with eng := { s.eng with bitpos := 16, phase := .block } }) ∧
  (∀ (cmf flg : Byte) (s : State),
    (cmf.extractLsb' 0 4 ≠ 8#4 → ∃ t, exec (.zlibCm cmf flg) s = .next t ∧
      ErrorEntry 0x00010209#32 0 (cmf.toNat + flg.toNat * 256) s t) ∧
    (cmf.extractLsb' 0 4 = 8#4 → exec (.zlibCm cmf flg) s = .next { s with eng := { s.eng with phase := .zlibFdict cmf flg } }) ∧
    (flg &&& 0x20#8 ≠ 0#8 → ∃ t, exec (.zlibFdict cmf flg) s = .next t ∧
      ErrorEntry 0x00020209#32 0 (cmf.toNat + flg.toNat * 256) s t) ∧
    (flg &&& 0x20#8 = 0#8 → exec (.zlibFdict cmf flg) s = .next { s with eng := { s.eng with phase := .zlibFcheck cmf flg } }) ∧
    (s.regs.fcheckEn = true → (cmf.toNat * 256 + flg.toNat) % 31 ≠ 0 → ∃ t, exec (.zlibFcheck cmf flg) s = .next t ∧
      ErrorEntry 0x00030209#32 0 (cmf.toNat + flg.toNat * 256) s t) ∧
    (s.regs.fcheckEn = false ∨ (cmf.toNat * 256 + flg.toNat) % 31 = 0 →
      exec (.zlibFcheck cmf flg) s = .next { s with eng := { s.eng with phase := .enter .blocks } }))

/-- R335, R360, R361, R556, R583: where the engine reads S bit by bit. A bit beyond the end of S is StreamExhausted SUB 2 at 8·N, and one in
a byte the platform fails to read is BusError; whichever it is stops the run at a block header, a coded symbol with its extra bits, the
fields of BLOCK_STORED and BLOCK_DYNAMIC, and a stored byte. Bits that begin no codeword, and any bits under an empty code, are
InvalidHuffmanCode at the symbol's first bit: SUB 1 for a literal/length, 2 for a distance, 3 for a code-length symbol. A byte of S that
cannot be read stops the zlib header and the trailer the same way. -/
def Obligations.StreamStops : Prop :=
  (∀ (s : State) (k : Nat), 8 * streamLen s ≤ k →
    streamBit s k = .error (.raise ⟨.streamExhausted, 2, 8 * streamLen s, s.eng.block⟩)) ∧
  (∀ (s : State) (j a : Nat), a = s.regs.inBase.toNat + (if s.regs.mode = 0#3 then idatOffset s.eng.chunks j else j) →
    Fails s .read a → streamByte s j = .error (.raise ⟨.busError, 0, a, 0⟩) ∧
      (j < streamLen s → ∀ k < 8, streamBit s (8 * j + k) = .error (.raise ⟨.busError, 0, a, 0⟩))) ∧
  (∀ (z s : State) (bits : List Bool) (e : RunError), EngineTurn z s → StreamBits s bits →
    streamBit s (s.eng.bitpos + bits.length) = .error (.raise e) →
    (s.eng.phase = .block ∧ decode .block bits = .error .tooShort) ∨
      (s.eng.phase = .litLen ∧ decode (.litLen s.eng.dyn s.eng.litlen) bits = .error .tooShort) ∨
      ((∃ l, s.eng.phase = .dist l) ∧ decode (.dist s.eng.dist) bits = .error .tooShort) ∨
      (s.eng.phase = .clSym ∧ decode (.cl s.eng.lens.isEmpty s.eng.cl) bits = .error .tooShort) ∨
      ((∃ n, s.eng.phase = .stored (n + 1)) ∧ bits.length < 8) →
    ∃ t, step z = .next t ∧ ErrorEntry e.codeWord e.pos e.aux s t) ∧
  (∀ (z s : State) (bits : List Bool), EngineTurn z s → StreamBits s bits →
    (s.eng.phase = .litLen → decode (.litLen s.eng.dyn s.eng.litlen) bits = .error .undecodable →
      ∃ t, step z = .next t ∧ ErrorEntry 0x0001030C#32 s.eng.bitpos s.eng.block s t) ∧
    ((∃ l, s.eng.phase = .dist l) → decode (.dist s.eng.dist) bits = .error .undecodable →
      ∃ t, step z = .next t ∧ ErrorEntry 0x0002030C#32 s.eng.bitpos s.eng.block s t) ∧
    (s.eng.phase = .clSym → decode (.cl s.eng.lens.isEmpty s.eng.cl) bits = .error .undecodable →
      ∃ t, step z = .next t ∧ ErrorEntry 0x0003030C#32 s.eng.bitpos s.eng.block s t)) ∧
  (∀ (dyn noPrev : Bool) (lens : List Nat) (bits : List Bool), occupancy lens = 0 →
    decode (.litLen dyn lens) bits = .error .undecodable ∧ decode (.dist lens) bits = .error .undecodable ∧
      decode (.cl noPrev lens) bits = .error .undecodable) ∧
  (∀ (bfinal : Bool) (s : State) (j k : Nat) (e : RunError), j = (s.eng.bitpos + 7) / 8 → k < 32 →
    (∀ i < k, ∃ b, streamBit s (8 * j + i) = .ok b) → streamBit s (8 * j + k) = .error (.raise e) →
    ∃ t, exec (.blockStored bfinal) s = .next t ∧ ErrorEntry e.codeWord e.pos e.aux s t) ∧
  (∀ (bfinal : Bool) (s : State) (k hlit hdist hclen : Nat) (e : RunError),
    (∀ i < k, ∃ b, streamBit s (s.eng.bitpos + i) = .ok b) → streamBit s (s.eng.bitpos + k) = .error (.raise e) →
    k < 14 ∨ (readBits (streamBit s) s.eng.bitpos 5 = .ok hlit ∧ readBits (streamBit s) (s.eng.bitpos + 5) 5 = .ok hdist ∧
      readBits (streamBit s) (s.eng.bitpos + 10) 4 = .ok hclen ∧ hlit ≤ 29 ∧ hdist ≤ 29 ∧ k < 14 + 3 * (hclen + 4)) →
    ∃ t, exec (.blockDynamic bfinal) s = .next t ∧ ErrorEntry e.codeWord e.pos e.aux s t) ∧
  (∀ (z s : State) (e : RunError), EngineTurn z s → s.eng.phase = .inflate → 2 ≤ streamLen s →
    (streamByte s 0 = .error (.raise e) ∨ ((∃ b, streamByte s 0 = .ok b) ∧ streamByte s 1 = .error (.raise e))) →
    ∃ t, step z = .next t ∧ ErrorEntry e.codeWord e.pos e.aux s t) ∧
  (∀ (z s : State) (k : Nat) (e : RunError), EngineTurn z s → s.eng.phase = .trailer → s.eng.bitpos / 8 + 4 ≤ streamLen s → k < 4 →
    (∀ i < k, ∃ b, streamByte s (s.eng.bitpos / 8 + i) = .ok b) →
    streamByte s (s.eng.bitpos / 8 + k) = .error (.raise e) →
    ∃ t, step z = .next t ∧ ErrorEntry e.codeWord e.pos e.aux s t)

/-- R339, R340, R341, R154: BLOCK_STORED on the four bytes behind the next byte boundary, little-endian LEN then NLEN; then the copy, one
byte a step, or OutputOverflow SUB 1 where there is no room, and at its end EndBlock (R362). (A byte or field that S no longer holds is
in `StreamStops`.) That the copy takes one step a byte is log 4. -/
def Obligations.StoredBlock : Prop :=
  (∀ (bfinal : Bool) (s : State) (b0 b1 b2 b3 : Byte) (j : Nat), j = (s.eng.bitpos + 7) / 8 → j + 4 ≤ streamLen s →
    streamByte s j = .ok b0 → streamByte s (j + 1) = .ok b1 → streamByte s (j + 2) = .ok b2 → streamByte s (j + 3) = .ok b3 →
    (b2.toNat + 256 * b3.toNat = 65535 - (b0.toNat + 256 * b1.toNat) →
      exec (.blockStored bfinal) s = .next { s with
        eng := { s.eng with bfinal := bfinal, bitpos := 8 * (j + 4), phase := .stored (b0.toNat + 256 * b1.toNat) } }) ∧
    (b2.toNat + 256 * b3.toNat ≠ 65535 - (b0.toNat + 256 * b1.toNat) →
      ∃ t, exec (.blockStored bfinal) s = .next t ∧ ErrorEntry 0x0000030B#32 s.eng.hpos s.eng.block s t)) ∧
  (∀ (z s : State) (n k : Nat) (b : Byte), EngineTurn z s → s.eng.phase = .stored (n + 1) → s.eng.bitpos = 8 * k →
    k < streamLen s → streamByte s k = .ok b →
    (s.eng.out < s.regs.inflCap.toNat → Writable s (s.regs.inflBase.toNat + s.eng.out) →
      ∃ t, step z = .next t ∧ Emitted b (.stored n) { s with eng := { s.eng with bitpos := 8 * (k + 1) } } t) ∧
    (s.eng.out = s.regs.inflCap.toNat → ∃ t, step z = .next t ∧ ErrorEntry 0x00010614#32 s.eng.out s.eng.block s t)) ∧
  (∀ z s : State, EngineTurn z s → s.eng.phase = .stored 0 → step z = exec .eob s)

/-- R342, R159, R160: BLOCK_FIXED sets the fixed codes; the codewords of those lengths (R162) are the ones the tables print, symbol by
symbol, and both codes are complete. -/
def Obligations.FixedBlock : Prop :=
  (∀ (bfinal : Bool) (s : State), exec (.blockFixed bfinal) s = .next { s with
    eng := { s.eng with
      bfinal := bfinal, dyn := false
      litlen := List.replicate 144 8 ++ List.replicate 112 9 ++ List.replicate 24 7 ++ List.replicate 8 8
      dist := List.replicate 32 5
      phase := .litLen } }) ∧
  (∀ sym < 144, fixedLitLen.getD sym 0 = 8 ∧ codeword fixedLitLen sym = 0x30 + sym) ∧
  (∀ k < 112, fixedLitLen.getD (144 + k) 0 = 9 ∧ codeword fixedLitLen (144 + k) = 0x190 + k) ∧
  (∀ k < 24, fixedLitLen.getD (256 + k) 0 = 7 ∧ codeword fixedLitLen (256 + k) = k) ∧
  (∀ k < 8, fixedLitLen.getD (280 + k) 0 = 8 ∧ codeword fixedLitLen (280 + k) = 0xC0 + k) ∧
  (∀ d < 32, fixedDist.getD d 0 = 5 ∧ codeword fixedDist d = d) ∧
  occupancy fixedLitLen = 2 ^ 15 ∧ occupancy fixedDist = 2 ^ 15

/-- R343 to R348: BLOCK_DYNAMIC. HLIT and HDIST out of range, in that order; then the code-length code's lengths, 3 bits each in the order
of R346, with every symbol not reached at 0; over-subscribed, or the code lengths follow. -/
def Obligations.DynamicHeader : Prop :=
  ∀ (bfinal : Bool) (s : State) (hlit hdist hclen : Nat) (l : Nat → Nat) (cl : List Nat),
    readBits (streamBit s) s.eng.bitpos 5 = .ok hlit → readBits (streamBit s) (s.eng.bitpos + 5) 5 = .ok hdist →
    readBits (streamBit s) (s.eng.bitpos + 10) 4 = .ok hclen →
    (29 < hlit → ∃ t, exec (.blockDynamic bfinal) s = .next t ∧ ErrorEntry 0x0009030C#32 (s.eng.hpos + 3) s.eng.block s t) ∧
    (hlit ≤ 29 → 29 < hdist → ∃ t, exec (.blockDynamic bfinal) s = .next t ∧
      ErrorEntry 0x000A030C#32 (s.eng.hpos + 8) s.eng.block s t) ∧
    (hlit ≤ 29 → hdist ≤ 29 →
      (∀ i < hclen + 4, readBits (streamBit s) (s.eng.bitpos + 14 + 3 * i) 3 = .ok (l i)) →
      cl = (List.range 19).map (fun sym =>
        if [16, 17, 18, 0, 8, 7, 9, 6, 10, 5, 11, 4, 12, 3, 13, 2, 14, 1, 15].idxOf sym < hclen + 4 then
          l ([16, 17, 18, 0, 8, 7, 9, 6, 10, 5, 11, 4, 12, 3, 13, 2, 14, 1, 15].idxOf sym)
        else 0) →
      ∃ t, exec (.blockDynamic bfinal) s = .next t ∧
        (2 ^ 15 < occupancy cl → ErrorEntry 0x0006030C#32 (s.eng.hpos + 17) s.eng.block s t) ∧
        (occupancy cl ≤ 2 ^ 15 → t = { s with
          eng := { s.eng with
            bfinal := bfinal, dyn := true, cl := cl, lens := []
            nlit := hlit + 257, ndist := hdist + 1
            bitpos := s.eng.bitpos + 14 + 3 * (hclen + 4)
            phase := .clSym } }))

/-- R349 to R354: CL_LEN, CL_16, CL_17 and CL_18 while more lengths are to come; CL_16 with no previous length; a repeat that runs past the
end. -/
def Obligations.CodeLengthSymbols : Prop :=
  ∀ s : State,
    (∀ sym : BitVec 4, s.eng.lens.length + 1 < s.eng.nlit + s.eng.ndist →
      exec (.clLen sym) s = .next { s with eng := { s.eng with lens := s.eng.lens ++ [sym.toNat], phase := .clSym } }) ∧
    (∀ (e : BitVec 2) (ls : List Nat) (v : Nat), s.eng.lens = ls ++ [v] →
      s.eng.lens.length + (3 + e.toNat) < s.eng.nlit + s.eng.ndist →
      exec (.cl16 e) s = .next { s with
        eng := { s.eng with lens := s.eng.lens ++ List.replicate (3 + e.toNat) v, phase := .clSym } }) ∧
    (∀ e : BitVec 3, s.eng.lens.length + (3 + e.toNat) < s.eng.nlit + s.eng.ndist →
      exec (.cl17 e) s = .next { s with
        eng := { s.eng with lens := s.eng.lens ++ List.replicate (3 + e.toNat) 0, phase := .clSym } }) ∧
    (∀ e : BitVec 7, s.eng.lens.length + (11 + e.toNat) < s.eng.nlit + s.eng.ndist →
      exec (.cl18 e) s = .next { s with
        eng := { s.eng with lens := s.eng.lens ++ List.replicate (11 + e.toNat) 0, phase := .clSym } }) ∧
    (∀ e : BitVec 2, s.eng.lens = [] → ∃ t, exec (.cl16 e) s = .next t ∧ ErrorEntry 0x000B030C#32 s.eng.sp s.eng.block s t) ∧
    (∀ e : BitVec 2, s.eng.lens ≠ [] → s.eng.nlit + s.eng.ndist < s.eng.lens.length + (3 + e.toNat) →
      ∃ t, exec (.cl16 e) s = .next t ∧ ErrorEntry 0x000C030C#32 s.eng.sp s.eng.block s t) ∧
    (∀ e : BitVec 3, s.eng.nlit + s.eng.ndist < s.eng.lens.length + (3 + e.toNat) →
      ∃ t, exec (.cl17 e) s = .next t ∧ ErrorEntry 0x000C030C#32 s.eng.sp s.eng.block s t) ∧
    (∀ e : BitVec 7, s.eng.nlit + s.eng.ndist < s.eng.lens.length + (11 + e.toNat) →
      ∃ t, exec (.cl18 e) s = .next t ∧ ErrorEntry 0x000C030C#32 s.eng.sp s.eng.block s t)

/-- R355 to R358: the code-length row that completes the sequence (CL_LEN, CL_16, CL_17, CL_18): the two codes are split off and checked in
the order of R355, and the symbol loop begins. -/
def Obligations.SplitCodes : Prop :=
  ∀ (i : Instr) (s : State) (r v : Nat) (lens litlen dist : List Nat), clAdds i s.eng.lens = some (r, v) →
    lens = s.eng.lens ++ List.replicate r v → lens.length = s.eng.nlit + s.eng.ndist →
    litlen = lens.take s.eng.nlit ++ List.replicate (288 - s.eng.nlit) 0 →
    dist = lens.drop s.eng.nlit ++ List.replicate (32 - s.eng.ndist) 0 →
    ∃ t, exec i s = .next t ∧
      (2 ^ 15 < occupancy litlen → ErrorEntry 0x0007030C#32 s.eng.hpos s.eng.block s t) ∧
      (occupancy litlen ≤ 2 ^ 15 → litlen.getD 256 0 = 0 → ErrorEntry 0x000D030C#32 s.eng.hpos s.eng.block s t) ∧
      (occupancy litlen ≤ 2 ^ 15 → litlen.getD 256 0 ≠ 0 → 2 ^ 15 < occupancy dist →
        ErrorEntry 0x0008030C#32 s.eng.hpos s.eng.block s t) ∧
      (occupancy litlen ≤ 2 ^ 15 → litlen.getD 256 0 ≠ 0 → occupancy dist ≤ 2 ^ 15 →
        t = { s with eng := { s.eng with lens := lens, litlen := litlen, dist := dist, phase := .litLen } })

/-- R431, R432, R564 (SUB 1): LIT_FIXED_8, LIT_FIXED_9 and LIT_DYN emit their byte where there is room, and overflow where there is none. -/
def Obligations.Literals : Prop :=
  ∀ (i : Instr) (b : Byte) (s : State), i = .litFixed8 b ∨ i = .litFixed9 b ∨ i = .litDyn b →
    (s.eng.out < s.regs.inflCap.toNat → Writable s (s.regs.inflBase.toNat + s.eng.out) →
      ∃ t, exec i s = .next t ∧ Emitted b .litLen s t) ∧
    (s.eng.out = s.regs.inflCap.toNat → ∃ t, exec i s = .next t ∧ ErrorEntry 0x00010614#32 s.eng.out s.eng.block s t)

/-- R433, R362: EOB ends the block: BLOCK_COUNT and `st.block` go up by one, and the trailer follows the block whose BFINAL is 1. -/
def Obligations.EndOfBlock : Prop :=
  ∀ s : State, exec .eob s = .next { s with
    regs := { s.regs with blockCount := trunc32 (s.eng.block + 1) }
    eng := { s.eng with block := s.eng.block + 1, phase := if s.eng.bfinal = true then .enter .trailer else .block } }

/-- R434, R436, R438, R157, R158, R557: a match. LEN_257 to LEN_285: for every code and every value of its extra bits the length is base
plus extra, and the distance symbol is next, with nothing else changed. DIST_0 to DIST_29 after a length: for every code and every value
of its extra bits, a distance within the output starts the copy, and one beyond it is InvalidBackReference at the distance symbol. -/
def Obligations.MatchSymbols : Prop :=
  (∀ (k x : Nat) (s : State), k < 29 → x < 2 ^ lenExtra (257 + k) →
    exec (instrOfLength (257 + k) x) s =
      .next { s with eng := { s.eng with phase := .dist (lenBaseTable.getD k 0 + x) } }) ∧
  (∀ (d x length dist : Nat) (s : State), d < 30 → x < 2 ^ distExtra d → s.eng.phase = .dist length →
    dist = distBaseTable.getD d 0 + x →
    (dist ≤ s.eng.out → exec (instrOfDist d x) s = .next { s with eng := { s.eng with phase := .copy length dist } }) ∧
    (s.eng.out < dist →
      ∃ t, exec (instrOfDist d x) s = .next t ∧ ErrorEntry 0x0000030D#32 s.eng.sp s.eng.block s t))

/-- R338, R435, R437, R496: BLOCK_RESERVED, LITLEN_INVALID, DIST_INVALID and FILT_INVALID raise their error at their position. -/
def Obligations.InvalidSymbols : Prop :=
  ∀ (s : State) (bfinal : Bool) (low : BitVec 1) (ft : Byte),
    (∃ t, exec (.blockReserved bfinal) s = .next t ∧ ErrorEntry 0x0000030A#32 s.eng.hpos s.eng.block s t) ∧
    (∃ t, exec (.litlenInvalid low) s = .next t ∧ ErrorEntry 0x0004030C#32 s.eng.sp s.eng.block s t) ∧
    (∃ t, exec (.distInvalid low) s = .next t ∧ ErrorEntry 0x0005030C#32 s.eng.sp s.eng.block s t) ∧
    (∃ t, exec (.filtInvalid ft) s = .next t ∧ ErrorEntry 0x00000410#32 s.eng.row ft.toNat s t)

/-- R439, R112: the whole copy of `n` bytes at distance `d`, overlapping or not. Each byte written equals the byte `d` before it, as it
stands after the copy; no other byte changes; then the symbol loop goes on. A byte for which there is no room is OutputOverflow SUB 1.
That a copy of `n` bytes takes `n` steps and one more to leave it is log 4; the engine has a turn at each of them (the host's list gives it
`m` and then, where `m` is fewer, is at its end). -/
def Obligations.CopyRun : Prop :=
  (∀ (n d m : Nat) (s : State) (rest : List HostOp), s.host = List.replicate m .engine ++ rest → n ≤ m ∨ rest = [] →
    s.regs.busy = true → s.eng.abortReq = false → s.eng.phase = .copy n d → 1 ≤ d → d ≤ s.eng.out →
    s.eng.out + n ≤ s.regs.inflCap.toNat →
    (∀ k < s.regs.inflCap.toNat, Readable s (s.regs.inflBase.toNat + k) ∧ Writable s (s.regs.inflBase.toNat + k) ∧
      s.regs.inflBase.toNat + k ∉ s.hidden) →
    ∃ t, runSteps n s = .next t ∧ t.eng.phase = .copy 0 d ∧ t.eng.out = s.eng.out + n ∧
      (0 < n → readReg t.regs 0x58#8 = trunc32 (s.eng.out + n)) ∧ RegsSame [0x58#8] s t ∧
      (∀ i < n, t.byteAt (s.regs.inflBase.toNat + s.eng.out + i) = t.byteAt (s.regs.inflBase.toNat + (s.eng.out + i - d))) ∧
      (∀ a, (∀ i < n, a ≠ s.regs.inflBase.toNat + s.eng.out + i) → t.byteAt a = s.byteAt a)) ∧
  (∀ (z s : State) (d : Nat), EngineTurn z s → s.eng.phase = .copy 0 d →
    step z = .next { s with eng := { s.eng with phase := .litLen } }) ∧
  (∀ (z s : State) (n d : Nat), EngineTurn z s → s.eng.phase = .copy (n + 1) d →
    Readable s (s.regs.inflBase.toNat + s.eng.out - d) → s.eng.out = s.regs.inflCap.toNat →
    ∃ t, step z = .next t ∧ ErrorEntry 0x00010614#32 s.eng.out s.eng.block s t)

/-- R441, R442, R443, R440: the trailer stage is entered: ADLER_RESULT is the computed value, STAGE is TRAILER, and the cursor moves to the
next byte boundary. Then a stream too short, a wrong checksum, the unfilter stage (FULL) or the end of the run (INFLATE). That the
entry is a step of its own is log 4. -/
def Obligations.Trailer : Prop :=
  (∀ z s : State, EngineTurn z s → s.eng.phase = .enter .trailer → step z = .next { s with
    regs := { s.regs with adlerResult := trunc32 (s.eng.s2 * 65536 + s.eng.s1), stage := .trailer }
    eng := { s.eng with bitpos := 8 * ((s.eng.bitpos + 7) / 8), phase := .trailer } }) ∧
  (∀ (z s : State) (f : Nat → Byte) (j : Nat), EngineTurn z s → s.eng.phase = .trailer → j = s.eng.bitpos / 8 →
    (streamLen s < j + 4 → ∃ t, step z = .next t ∧ ErrorEntry 0x0003030F#32 (8 * streamLen s) s.eng.block s t) ∧
    (j + 4 ≤ streamLen s → (∀ k < 4, streamByte s (j + k) = .ok (f k)) →
      (be32At f 0 = s.regs.adlerResult.toNat → s.regs.mode = 0#3 →
        step z = .next { s with eng := { s.eng with phase := .enter .unfilter } }) ∧
      (be32At f 0 = s.regs.adlerResult.toNat → s.regs.mode ≠ 0#3 →
        step z = .next { s with
          regs := { s.regs with done := true, busy := false }
          eng := { s.eng with phase := .idle } }) ∧
      (be32At f 0 ≠ s.regs.adlerResult.toNat →
        ∃ t, step z = .next t ∧ ErrorEntry 0x0000030E#32 j (be32At f 0) s t)))

/-! ## Unfilter -/

/-- R209, R490 to R495: the unfilter stage is entered (STAGE UNFILTER); in UNFILTER mode the UF register checks in their order; the capacity
check, then ROW_BYTES and BPP; the row's length check, then its filter byte; and the geometry they use: the channels of R492's table, the
row bytes and bpp of R493. That the entry is a step of its own is log 4. -/
def Obligations.UnfilterEntry : Prop :=
  (∀ z s : State, EngineTurn z s → s.eng.phase = .enter .unfilter → step z = .next { s.atStage .unfilter with
    eng := { s.eng with phase := if s.regs.mode = 0#3 then .geometry else .ufParams } }) ∧
  (∀ z s : State, EngineTurn z s → s.eng.phase = .ufParams → ∃ t, step z = .next t ∧
    (s.regs.ufWidth = 0#32 → ErrorEntry 0x00020105#32 0x30 0 s t) ∧
    (s.regs.ufWidth ≠ 0#32 → s.regs.ufHeight = 0#32 → ErrorEntry 0x00030105#32 0x34 0 s t) ∧
    (s.regs.ufWidth ≠ 0#32 → s.regs.ufHeight ≠ 0#32 →
      ((s.regs.ufFormat.extractLsb' 8 8).toNat, (s.regs.ufFormat.extractLsb' 0 8).toNat) ∉ permittedPairs →
      ErrorEntry 0x00010208#32 0x38
        ((s.regs.ufFormat.extractLsb' 0 8).toNat + (s.regs.ufFormat.extractLsb' 8 8).toNat * 256) s t) ∧
    (s.regs.ufWidth ≠ 0#32 → s.regs.ufHeight ≠ 0#32 →
      ((s.regs.ufFormat.extractLsb' 8 8).toNat, (s.regs.ufFormat.extractLsb' 0 8).toNat) ∈ permittedPairs →
      t = { s with eng := { s.eng with phase := .geometry } })) ∧
  (∀ z s : State, EngineTurn z s → s.eng.phase = .geometry → geomHeight s ≠ 0 → ∃ t, step z = .next t ∧
    (s.regs.reconCap.toNat < geomHeight s * rb s →
      ErrorEntry 0x00020614#32 0 (min (geomHeight s * rb s) 0xFFFFFFFF) s t) ∧
    (geomHeight s * rb s ≤ s.regs.reconCap.toNat →
      t = { s with
        regs := { s.regs with rowBytes := trunc32 (rb s), bpp := trunc32 (bpp s) }
        eng := { s.eng with row := 0, phase := .row } })) ∧
  (∀ (z s : State) (ft : Byte), EngineTurn z s → s.eng.phase = .row →
    (s.eng.row * stride s ≤ filteredLen s → filteredLen s < (s.eng.row + 1) * stride s →
      ∃ t, step z = .next t ∧ ErrorEntry 0x00000411#32 s.eng.row (filteredLen s - s.eng.row * stride s) s t) ∧
    ((s.eng.row + 1) * stride s ≤ filteredLen s → filteredByte s (s.eng.row * stride s) = .ok ft →
      step z = exec (instrOfFilter ft) { s with eng := { s.eng with phase := .rowByte ft 0 } })) ∧
  (channels 0 = 1 ∧ channels 2 = 3 ∧ channels 3 = 1 ∧ channels 4 = 2 ∧ channels 6 = 4) ∧
  (∀ w bd ct bits : Nat, bits = channels ct * bd →
    w * bits ≤ 8 * rowBytesOf w bd ct ∧ 8 * rowBytesOf w bd ct < w * bits + 8 ∧
    (bits < 8 → bppOf bd ct = 1) ∧ (8 ≤ bits → bppOf bd ct = bits / 8) ∧
    ((ct, bd) ∈ permittedPairs → 1 ≤ bits ∧ bits ≤ 64 ∧ (bits < 8 ∨ bits % 8 = 0))) ∧
  (∀ s : State, stride s = rb s + 1 ∧
    (s.regs.mode = 0#3 →
      rb s = rowBytesOf s.regs.imgWidth.toNat (s.regs.imgFormat.extractLsb' 0 8).toNat (s.regs.imgFormat.extractLsb' 8 8).toNat ∧
      bpp s = bppOf (s.regs.imgFormat.extractLsb' 0 8).toNat (s.regs.imgFormat.extractLsb' 8 8).toNat ∧
      geomHeight s = s.regs.imgHeight.toNat ∧ filteredLen s = s.regs.inflLen.toNat) ∧
    (s.regs.mode ≠ 0#3 →
      rb s = rowBytesOf s.regs.ufWidth.toNat (s.regs.ufFormat.extractLsb' 0 8).toNat (s.regs.ufFormat.extractLsb' 8 8).toNat ∧
      bpp s = bppOf (s.regs.ufFormat.extractLsb' 0 8).toNat (s.regs.ufFormat.extractLsb' 8 8).toNat ∧
      geomHeight s = s.regs.ufHeight.toNat ∧ filteredLen s = s.regs.inLen.toNat))

/-- R497 to R503: FILT_NONE, FILT_SUB, FILT_UP, FILT_AVG and FILT_PAETH on byte `i` of the current row, from the operands each one reads. -/
def Obligations.FiltersReconstruct : Prop :=
  ∀ (s : State) (ft : Byte) (i : Nat) (x a b c : Byte), s.eng.phase = .rowByte ft i →
    Writable s (s.regs.reconBase.toNat + s.eng.row * rb s + i) →
    filteredByte s (s.eng.row * stride s + 1 + i) = .ok x →
    (∃ t, exec .filtNone s = .next t ∧ RowWritten 0#8 x i s t) ∧
    ((i < bpp s → a = 0#8) → (bpp s ≤ i → reconByte s (s.eng.row * rb s + i - bpp s) = .ok a) →
      ∃ t, exec .filtSub s = .next t ∧ RowWritten 1#8 (BitVec.ofNat 8 ((x.toNat + a.toNat) % 256)) i s t) ∧
    ((s.eng.row = 0 → b = 0#8) → (1 ≤ s.eng.row → reconByte s ((s.eng.row - 1) * rb s + i) = .ok b) →
      (∃ t, exec .filtUp s = .next t ∧ RowWritten 2#8 (BitVec.ofNat 8 ((x.toNat + b.toNat) % 256)) i s t) ∧
      ((i < bpp s → a = 0#8) → (bpp s ≤ i → reconByte s (s.eng.row * rb s + i - bpp s) = .ok a) →
        (∃ t, exec .filtAvg s = .next t ∧
          RowWritten 3#8 (BitVec.ofNat 8 ((x.toNat + (a.toNat + b.toNat) / 2) % 256)) i s t) ∧
        ((s.eng.row = 0 ∨ i < bpp s → c = 0#8) →
          (1 ≤ s.eng.row → bpp s ≤ i → reconByte s ((s.eng.row - 1) * rb s + i - bpp s) = .ok c) →
          ∃ t, exec .filtPaeth s = .next t ∧
            RowWritten 4#8 (BitVec.ofNat 8 ((x.toNat + (paeth a b c).toNat) % 256)) i s t)))

/-- R502, R501: the Paeth predictor is the neighbour nearest to a + b - c, a before b before c on a tie; in row 0 it is a, and for the
first bytes of a row b; the average of two bytes is formed without wrap. -/
def Obligations.PaethPredictor : Prop :=
  (∀ (a b c : Byte) (p : Int), p = (a.toNat : Int) + b.toNat - c.toNat →
    (paeth a b c = a ∨ paeth a b c = b ∨ paeth a b c = c) ∧
    (∀ q ∈ [a, b, c], |p - (paeth a b c).toNat| ≤ |p - q.toNat|) ∧
    (|p - a.toNat| ≤ |p - b.toNat| → |p - a.toNat| ≤ |p - c.toNat| → paeth a b c = a) ∧
    (|p - b.toNat| < |p - a.toNat| → |p - b.toNat| ≤ |p - c.toNat| → paeth a b c = b)) ∧
  (∀ a : Byte, paeth a 0#8 0#8 = a) ∧ (∀ b : Byte, paeth 0#8 b 0#8 = b) ∧
  (∀ a b : Byte, (average a b).toNat = (a.toNat + b.toNat) / 2)

/-- R506: the round-trip law, byte by byte. If the reconstructed bytes of this row before byte `i` and of the row above up to `i` are the
raw ones, and the filtered byte is the raw byte minus the predictor of the raw neighbours (mod 256), then the byte written is the raw
byte: for each of the five filter types and every geometry. -/
def Obligations.RoundTripByte : Prop :=
  ∀ (s : State) (ft : Byte) (i : Nat) (raw : Nat → Nat → Byte) (a b c : Byte), ft.toNat ≤ 4 → s.eng.phase = .rowByte ft i →
    (∀ j < i, reconByte s (s.eng.row * rb s + j) = .ok (raw s.eng.row j)) →
    (1 ≤ s.eng.row → ∀ j ≤ i, reconByte s ((s.eng.row - 1) * rb s + j) = .ok (raw (s.eng.row - 1) j)) →
    a = (if i < bpp s then 0#8 else raw s.eng.row (i - bpp s)) →
    b = (if s.eng.row = 0 then 0#8 else raw (s.eng.row - 1) i) →
    c = (if s.eng.row = 0 ∨ i < bpp s then 0#8 else raw (s.eng.row - 1) (i - bpp s)) →
    filteredByte s (s.eng.row * stride s + 1 + i) =
      .ok (BitVec.ofNat 8 ((raw s.eng.row i).toNat + 256 - (predictor ft.toNat a b c).toNat)) →
    Writable s (s.regs.reconBase.toNat + s.eng.row * rb s + i) →
    ∃ t, exec (instrOfFilter ft) s = .next t ∧
      t.byteAt (s.regs.reconBase.toNat + s.eng.row * rb s + i) = raw s.eng.row i

/-! ## Decoding -/

/-- R140, R163, R167, R203: a step runs the instruction the decoder reads. In every layer, when the bits where the machine stands (the
host's next access, or the engine's place in IN or in S) decode to `i`, step is exec of `i`, with the cursor moved past its bits. -/
def Obligations.StepRunsDecoded : Prop :=
  (∀ (s : State) (off : BitVec 8) (v : Word) (rest : List HostOp) (i : Instr) (n : Nat), s.host = .write .word off v :: rest →
    decode (.hostWrite off s.regs.busy) (fieldBits 32 v.toNat) = .ok (i, n) → step s = exec i { s with host := rest }) ∧
  (∀ (s : State) (off : BitVec 8) (rest : List HostOp) (i : Instr) (n : Nat), s.host = .read .word off :: rest →
    decode (.hostRead off) [] = .ok (i, n) → step s = exec i { s with host := rest }) ∧
  (∀ z s : State, EngineTurn z s → s.eng.phase = .sig → step z = exec .sig s) ∧
  (∀ (z s : State) (f : Nat → Byte) (i : Instr) (n : Nat), EngineTurn z s → s.eng.phase = .chunk →
    s.eng.p + 8 ≤ s.regs.inLen.toNat → InBytes s s.eng.p 8 f → decode .chunk (byteBits (bytesOf 8 f)) = .ok (i, n) →
    step z = exec i s) ∧
  (∀ (z s : State) (h : ChunkRec), EngineTurn z s → s.eng.phase = .header → firstKey s.eng.chunks = some h → h.typ = typIHDR →
    step z = exec (.chunkIhdr (trunc32 h.len)) s) ∧
  (∀ (z s : State) (q : ChunkRec), EngineTurn z s → s.eng.phase = .palette → firstPlte s.eng.chunks = some q →
    step z = exec (.chunkPlte (trunc32 q.len)) s) ∧
  (∀ (z s : State) (cmf flg : Byte), EngineTurn z s → s.eng.phase = .inflate → 2 ≤ streamLen s → streamByte s 0 = .ok cmf →
    streamByte s 1 = .ok flg → step z = exec (.zlibCm cmf flg) s) ∧
  (∀ (z s : State) (cmf flg : Byte), EngineTurn z s →
    (s.eng.phase = .zlibFdict cmf flg → step z = exec (.zlibFdict cmf flg) s) ∧
    (s.eng.phase = .zlibFcheck cmf flg → step z = exec (.zlibFcheck cmf flg) s)) ∧
  (∀ (z s : State) (bits : List Bool) (i : Instr) (n : Nat), EngineTurn z s → s.eng.phase = .block → StreamBits s bits →
    decode .block bits = .ok (i, n) →
    step z = exec i { s with eng := { s.eng with hpos := s.eng.bitpos, bitpos := s.eng.bitpos + n } }) ∧
  (∀ (z s : State) (bits : List Bool) (i : Instr) (n : Nat), EngineTurn z s → StreamBits s bits →
    (s.eng.phase = .litLen ∧ decode (.litLen s.eng.dyn s.eng.litlen) bits = .ok (i, n)) ∨
      ((∃ l, s.eng.phase = .dist l) ∧ decode (.dist s.eng.dist) bits = .ok (i, n)) ∨
      (s.eng.phase = .clSym ∧ decode (.cl s.eng.lens.isEmpty s.eng.cl) bits = .ok (i, n)) →
    step z = exec i { s with eng := { s.eng with sp := s.eng.bitpos, bitpos := s.eng.bitpos + n } }) ∧
  (∀ (z s : State) (ft : Byte), EngineTurn z s → s.eng.phase = .row → (s.eng.row + 1) * stride s ≤ filteredLen s →
    filteredByte s (s.eng.row * stride s) = .ok ft →
    step z = exec (instrOfFilter ft) { s with eng := { s.eng with phase := .rowByte ft 0 } }) ∧
  (∀ (z s : State) (ft : Byte) (k : Nat), EngineTurn z s → s.eng.phase = .rowByte ft k → step z = exec (instrOfFilter ft) s)

/-- R141 to R165: no bit of an encoding is dropped. For every well-formed instruction, with every operand at every value its encoding
admits, and whatever bits follow, the decoder of its layer gives the instruction back and takes exactly its bits. -/
def Obligations.DecodeEncode : Prop :=
  ∀ (i : Instr) (rest : List Bool), i.wf = true →
    decode (layerOf i) (encode i ++ rest) = .ok (i, (encode i).length)

/-- R141 to R165: the other direction. What a decoder accepts is well formed, and encoding it gives back exactly the bits it took. -/
def Obligations.EncodeDecode : Prop :=
  ∀ (l : Layer) (bits : List Bool) (i : Instr) (n : Nat), encoderLayer l → decode l bits = .ok (i, n) →
    i.wf = true ∧ encode i = bits.take n

/-- R162, R360: canonical decoding. In any code that is not over-subscribed, the bits of a symbol's codeword, most significant first, decode
to that symbol in exactly its length. -/
def Obligations.CanonicalDecode : Prop :=
  ∀ (ε : Type) (rd : Nat → Except ε Bool) (lens : List Nat) (pos sym l : Nat), sym < lens.length → lens.getD sym 0 = l →
    1 ≤ l → l ≤ 15 → occupancy lens ≤ 2 ^ 15 →
    (∀ k < l, rd (pos + k) = .ok ((codeword lens sym).testBit (l - 1 - k))) →
    decodeSym rd lens pos = .ok (some (sym, l))

/-- R360, R361: the decoder's loop, which compares with the first codeword of each length, is the rule's loop, which looks for a symbol with
that codeword, on every bit source and any list of lengths, errors and undecodable patterns included. -/
def Obligations.DecodeSymIsRule : Prop :=
  ∀ (ε : Type) (rd : Nat → Except ε Bool) (lens : List Nat) (pos : Nat), decodeSym rd lens pos = ruleDecodeSym rd lens pos

/-- R141, R142, R144, R148, R153, R159, R160, R161, R164: words written out from the spec's tables, one or more for every family, decode to
the instruction they stand for. -/
def Obligations.DecodedWords : Prop :=
  decode (.hostWrite 0x04#8 false) (fieldBits 32 0x45) = .ok (.startInflate false false true 0#25, 32) ∧
  decode (.hostWrite 0x04#8 true) (fieldBits 32 0x02) = .ok (.abort false 0#3 false false 0#25, 32) ∧
  decode (.hostWrite 0x08#8 false) (fieldBits 32 0x06) = .ok (.wrStatus 6#32, 32) ∧
  decode .chunk (byteBits [0x00#8, 0x00#8, 0x00#8, 0x0D#8, 0x49#8, 0x48#8, 0x44#8, 0x52#8]) = .ok (.chunkIhdr 13#32, 64) ∧
  decode .zlibCm (byteBits [0x78#8, 0x01#8]) = .ok (.zlibCm 0x78#8 0x01#8, 16) ∧
  decode .block [true, true, false] = .ok (.blockFixed true, 3) ∧
  decode (.litLen false fixedLitLen) [true, false, false, true, false, false, false, true] = .ok (.litFixed8 97#8, 8) ∧
  decode (.litLen false fixedLitLen) [false, false, false, true, false, false, true, true] = .ok (.len265 1#1, 8) ∧
  decode (.dist fixedDist) [false, false, true, false, false, true] = .ok (.dist4 1#1, 6) ∧
  decode .filter (byteBits [0x04#8]) = .ok (.filtPaeth, 8) ∧
  decode .signature (byteBits [0x89#8, 0x50#8, 0x4E#8, 0x47#8, 0x0D#8, 0x0A#8, 0x1A#8, 0x0A#8]) = .ok (.sig, 64) ∧
  decode (.cl false ([0, 2, 2] ++ List.replicate 13 0 ++ [2, 3, 3])) [true, true, true, true, false, true, false, false, false, false] =
    .ok (.cl18 5#7, 10) ∧
  decode (.cl false ([0, 2, 2] ++ List.replicate 13 0 ++ [2, 3, 3])) [true, false, true, true] = .ok (.cl16 3#2, 4)

end Statements
end

