-- ==== Sys2Proof/Laws/Decode.lean ====
section
/-! SUPPORT. What the decoder's readers guarantee of the values they give, and which meaning each coded symbol's row has. -/

namespace Sys2Proof

/-! ## Bit fields (R151) -/

theorem readBits_lt {ε : Type} {rd : Nat → Except ε Bool} {pos n v : Nat} (h : readBits rd pos n = .ok v) : v < 2 ^ n := by
  induction n generalizing v with
  | zero => cases h; simp
  | succ n ih =>
    unfold readBits at h
    split at h
    · cases h
    · rename_i w hw
      split at h
      · cases h
      · rename_i b hb
        cases h
        have := ih hw
        have hb : b.toNat ≤ 1 := by cases b <;> simp
        have : b.toNat * 2 ^ n ≤ 1 * 2 ^ n := Nat.mul_le_mul_right _ hb
        rw [Nat.pow_succ]; omega

/-- Every bit of the field was read. -/
theorem readBits_read {ε : Type} {rd : Nat → Except ε Bool} {pos n v : Nat} (h : readBits rd pos n = .ok v) :
    ∀ k < n, ∃ b, rd (pos + k) = .ok b := by
  induction n generalizing v with
  | zero => intro k hk; omega
  | succ n ih =>
    unfold readBits at h
    split at h
    · cases h
    · rename_i w hw
      split at h
      · cases h
      · rename_i b hb
        intro k hk
        rcases Nat.lt_succ_iff_lt_or_eq.1 hk with hk | rfl
        · exact ih hw k hk
        · exact ⟨b, hb⟩

/-- A field that cannot be read names the bit that cannot. -/
theorem readBits_error {ε : Type} {rd : Nat → Except ε Bool} {pos n : Nat} {e : ε} (h : readBits rd pos n = .error e) :
    ∃ k, rd k = .error e := by
  induction n with
  | zero => cases h
  | succ n ih =>
    unfold readBits at h
    split at h
    · cases h; exact ih ‹_›
    · split at h
      · cases h; exact ⟨_, ‹_›⟩
      · cases h

/-! ## Codes -/

theorem symOfRank_lt (lens : List Nat) (l r i : Nat) (h : r < lens.count l) : symOfRank lens l r i < i + lens.length := by
  induction lens generalizing r i with
  | nil => simp at h
  | cons x xs ih =>
    unfold symOfRank
    split
    · subst x
      cases r with
      | zero => simp
      | succ r =>
        simp only [List.count_cons_self] at h
        have := ih r (i + 1) (by omega)
        simp only [List.length_cons]; omega
    · have := ih r (i + 1) (by rwa [List.count_cons_of_ne ‹_›] at h)
      simp only [List.length_cons]; omega

/-- The loop reads at least one bit and answers a symbol of the code. -/
theorem symLoop_some {ε : Type} {rd : Nat → Except ε Bool} {lens : List Nat} {k pos fuel len v first s n : Nat}
    (h : symLoop rd lens k pos fuel len v first = .ok (some (s, n))) :
    s < lens.length ∧ len < n ∧ n ≤ len + fuel ∧ ∀ j, len ≤ j → j < n → ∃ b, rd (pos + j) = .ok b := by
  induction fuel generalizing len v first with
  | zero => cases h
  | succ fuel ih =>
    simp only [symLoop] at h
    split at h
    · cases h
    · rename_i b hb
      generalize 2 * (first + if len = 0 then 0 else lens.count len) = f at h
      split at h
      · cases h
        rename_i hc
        refine ⟨?_, by omega, by omega, fun j h1 h2 => ?_⟩
        · have := symOfRank_lt lens (len + 1) (2 * v + b.toNat - f) 0 (by omega)
          omega
        · have : j = len := by omega
          subst j; exact ⟨b, hb⟩
      · split at h
        · cases h
        · obtain ⟨h1, h2, h3, h4⟩ := ih h
          refine ⟨h1, by omega, by omega, fun j hj1 hj2 => ?_⟩
          rcases Nat.eq_or_lt_of_le hj1 with rfl | hj1
          · exact ⟨b, hb⟩
          · exact h4 j hj1 hj2

theorem symLoop_error {ε : Type} {rd : Nat → Except ε Bool} {lens : List Nat} {k pos fuel len v first : Nat} {e : ε}
    (h : symLoop rd lens k pos fuel len v first = .error e) : ∃ j, rd j = .error e := by
  induction fuel generalizing len v first with
  | zero => cases h
  | succ fuel ih =>
    simp only [symLoop] at h
    split at h
    · cases h; exact ⟨_, ‹_›⟩
    · rename_i b hb
      generalize 2 * (first + if len = 0 then 0 else lens.count len) = f at h
      split at h
      · cases h
      · split at h
        · cases h
        · exact ih h

theorem decodeSym_some {ε : Type} {rd : Nat → Except ε Bool} {lens : List Nat} {pos s n : Nat}
    (h : decodeSym rd lens pos = .ok (some (s, n))) :
    s < lens.length ∧ 1 ≤ n ∧ n ≤ 15 ∧ ∀ j < n, ∃ b, rd (pos + j) = .ok b := by
  unfold decodeSym at h
  split at h
  · cases h
  · obtain ⟨h1, h2, h3, h4⟩ := symLoop_some h
    exact ⟨h1, by omega, by omega, fun j hj => h4 j (by omega) hj⟩

theorem decodeSym_error {ε : Type} {rd : Nat → Except ε Bool} {lens : List Nat} {pos : Nat} {e : ε}
    (h : decodeSym rd lens pos = .error e) : ∃ j, rd j = .error e := by
  unfold decodeSym at h
  split at h
  · cases h
  · exact symLoop_error h

/-- A coded symbol's row: the symbol is one of the code's, its extra bits fit, and every bit it took was read. -/
theorem decodeCoded_some {ε : Type} {rd : Nat → Except ε Bool} {lens : List Nat} {extra : Nat → Nat} {mk : Nat → Nat → Instr}
    {pos n : Nat} {i : Instr} (h : decodeCoded rd lens extra mk pos = .ok (some (i, n))) :
    ∃ s x, s < lens.length ∧ x < 2 ^ extra s ∧ i = mk s x ∧ 1 ≤ n ∧ ∀ j < n, ∃ b, rd (pos + j) = .ok b := by
  unfold decodeCoded at h
  split at h
  · cases h
  · cases h
  · rename_i s m hs
    split at h
    · cases h
    · rename_i x hx
      cases h
      obtain ⟨h1, h2, -, h4⟩ := decodeSym_some hs
      refine ⟨s, x, h1, readBits_lt hx, rfl, by omega, fun j hj => ?_⟩
      by_cases hjm : j < m
      · exact h4 j hjm
      · obtain ⟨b, hb⟩ := readBits_read hx (j - m) (by omega)
        refine ⟨b, ?_⟩
        rwa [show pos + m + (j - m) = pos + j by omega] at hb

theorem decodeCoded_error {ε : Type} {rd : Nat → Except ε Bool} {lens : List Nat} {extra : Nat → Nat} {mk : Nat → Nat → Instr}
    {pos : Nat} {e : ε} (h : decodeCoded rd lens extra mk pos = .error e) : ∃ j, rd j = .error e := by
  unfold decodeCoded at h
  split at h
  · cases h; exact decodeSym_error ‹_›
  · cases h
  · split at h
    · cases h; exact readBits_error ‹_›
    · cases h

end Sys2Proof

namespace Sys2Proof.Machine

/-! ## The meanings of coded symbols -/

/-- R430: what a literal/length symbol does: a literal, the block's end, a length of 3 to 258, or the invalid symbols' error. -/
theorem exec_litLen (dyn : Bool) (sym x : Nat) (s : State) (hx : x < 2 ^ lenExtra sym) :
    (∃ b, exec (instrOfLitLen dyn sym x) s = literal b s) ∨ exec (instrOfLitLen dyn sym x) s = .next (endBlock s) ∨
      (∃ n, 3 ≤ n ∧ n ≤ 258 ∧ exec (instrOfLitLen dyn sym x) s = startMatch n s) ∨
      exec (instrOfLitLen dyn sym x) s = raiseCode 4 s.eng.sp s := by
  unfold instrOfLitLen
  split
  · refine .inl ⟨BitVec.ofNat 8 sym, ?_⟩
    cases dyn
    · by_cases h : sym < 144 <;> simp [h, exec, execLitFixed8, execLitFixed9]
    · simp [exec, execLitDyn]
  · split
    · exact .inr (.inl rfl)
    · unfold instrOfLength
      split <;> first
        | exact .inr (.inr (.inl ⟨_, by decide, by decide, rfl⟩))
        | exact .inr (.inr (.inr rfl))
        | (refine .inr (.inr (.inl ⟨_, ?_, ?_, rfl⟩)) <;>
            simp [lenExtra, lenExtraTable] at hx <;> simp only [BitVec.toNat_ofNat] <;> omega)

/-- R436, R437: what a distance symbol does: the copy at a distance of 1 to 32768, or the invalid symbols' error. -/
theorem exec_dist (sym x : Nat) (s : State) (hx : x < 2 ^ distExtra sym) :
    (∃ d, 1 ≤ d ∧ d ≤ 32768 ∧ exec (instrOfDist sym x) s = startCopy d s) ∨
      exec (instrOfDist sym x) s = raiseCode 5 s.eng.sp s := by
  unfold instrOfDist
  split <;> first
    | exact .inl ⟨_, by decide, by decide, rfl⟩
    | exact .inr rfl
    | (refine .inl ⟨_, ?_, ?_, rfl⟩ <;>
        simp [distExtra, distExtraTable] at hx <;> simp only [BitVec.toNat_ofNat] <;> omega)

/-- R349: what a code-length symbol does: one length of 0 to 15, a repeat of the previous length, or a run of zeros. -/
theorem exec_cl (sym x : Nat) (s : State) :
    (∃ l, l ≤ 15 ∧ exec (instrOfCl sym x) s = appendLens [l] s) ∨
      (s.eng.lens = [] ∧ exec (instrOfCl sym x) s = raiseCode 11 s.eng.sp s) ∨
      (∃ r v, 1 ≤ r ∧ (v = 0 ∨ v ∈ s.eng.lens) ∧ exec (instrOfCl sym x) s = repeatLens r v s) := by
  unfold instrOfCl
  split
  · cases h : s.eng.lens.getLast? with
    | none =>
      refine .inr (.inl ⟨by simpa using h, ?_⟩)
      simp [exec, execCl16, h]
    | some v =>
      refine .inr (.inr ⟨3 + (BitVec.ofNat 2 x).toNat, v, by omega, .inr (List.mem_of_getLast? h), ?_⟩)
      simp [exec, execCl16, h]
  · exact .inr (.inr ⟨3 + (BitVec.ofNat 3 x).toNat, 0, by omega, .inl rfl, rfl⟩)
  · exact .inr (.inr ⟨11 + (BitVec.ofNat 7 x).toNat, 0, by omega, .inl rfl, rfl⟩)
  · refine .inl ⟨(BitVec.ofNat 4 sym).toNat, ?_, rfl⟩
    have := (BitVec.ofNat 4 sym).isLt
    omega

end Sys2Proof.Machine
end

