-- ==== Sys2Proof/Laws/State.lean ====
section
/-! SUPPORT. One lemma per field per named update of the state, all true by unfolding, so that no later proof opens a record update. -/

namespace Sys2Proof.Machine

/-! ### The successful end of a run (R211) -/

@[simp] theorem finishRun_regs (s : State) : (finishRun s).regs = { s.regs with done := true, busy := false } := rfl
@[simp] theorem finishRun_eng (s : State) : (finishRun s).eng = { s.eng with phase := .idle } := rfl
@[simp] theorem finishRun_mem (s : State) : (finishRun s).mem = s.mem := rfl
@[simp] theorem finishRun_host (s : State) : (finishRun s).host = s.host := rfl
@[simp] theorem finishRun_plat (s : State) : (finishRun s).plat = s.plat := rfl
@[simp] theorem finishRun_draws (s : State) : (finishRun s).draws = s.draws := rfl
@[simp] theorem finishRun_rdata (s : State) : (finishRun s).rdata = s.rdata := rfl
@[simp] theorem finishRun_memData (s : State) : (finishRun s).memData = s.memData := rfl
@[simp] theorem finishRun_uncleaned (s : State) : (finishRun s).uncleaned = s.uncleaned := rfl
@[simp] theorem finishRun_stale (s : State) : (finishRun s).stale = s.stale := rfl
@[simp] theorem finishRun_hidden (s : State) : (finishRun s).hidden = s.hidden := rfl
@[simp] theorem finishRun_unseen (s : State) : (finishRun s).unseen = s.unseen := rfl

/-! ### The start of a run (R202) -/

@[simp] theorem startRun_regs (s : State) : (startRun s).regs = s.regs.started := rfl
@[simp] theorem startRun_eng (s : State) : (startRun s).eng = { s.eng with phase := .config, abortReq := false } := rfl
@[simp] theorem startRun_mem (s : State) : (startRun s).mem = s.mem := rfl
@[simp] theorem startRun_host (s : State) : (startRun s).host = s.host := rfl
@[simp] theorem startRun_plat (s : State) : (startRun s).plat = s.plat := rfl
@[simp] theorem startRun_draws (s : State) : (startRun s).draws = s.draws := rfl
@[simp] theorem startRun_rdata (s : State) : (startRun s).rdata = s.rdata := rfl
@[simp] theorem startRun_memData (s : State) : (startRun s).memData = s.memData := rfl
@[simp] theorem startRun_uncleaned (s : State) : (startRun s).uncleaned = s.uncleaned := rfl
@[simp] theorem startRun_stale (s : State) : (startRun s).stale = s.stale := rfl
@[simp] theorem startRun_hidden (s : State) : (startRun s).hidden = s.uncleaned := rfl
@[simp] theorem startRun_unseen (s : State) : (startRun s).unseen = s.unseen ++ s.regs.outputs := rfl

/-! ### STATUS.STAGE (R35) -/

@[simp] theorem State.atStage_regs (s : State) (g : Stage) : (s.atStage g).regs = { s.regs with stage := g } := rfl
@[simp] theorem State.atStage_eng (s : State) (g : Stage) : (s.atStage g).eng = s.eng := rfl
@[simp] theorem State.atStage_mem (s : State) (g : Stage) : (s.atStage g).mem = s.mem := rfl
@[simp] theorem State.atStage_host (s : State) (g : Stage) : (s.atStage g).host = s.host := rfl
@[simp] theorem State.atStage_plat (s : State) (g : Stage) : (s.atStage g).plat = s.plat := rfl
@[simp] theorem State.atStage_draws (s : State) (g : Stage) : (s.atStage g).draws = s.draws := rfl
@[simp] theorem State.atStage_rdata (s : State) (g : Stage) : (s.atStage g).rdata = s.rdata := rfl
@[simp] theorem State.atStage_memData (s : State) (g : Stage) : (s.atStage g).memData = s.memData := rfl
@[simp] theorem State.atStage_uncleaned (s : State) (g : Stage) : (s.atStage g).uncleaned = s.uncleaned := rfl
@[simp] theorem State.atStage_stale (s : State) (g : Stage) : (s.atStage g).stale = s.stale := rfl
@[simp] theorem State.atStage_hidden (s : State) (g : Stage) : (s.atStage g).hidden = s.hidden := rfl
@[simp] theorem State.atStage_unseen (s : State) (g : Stage) : (s.atStage g).unseen = s.unseen := rfl

/-! ### A chunk record (R258) -/

@[simp] theorem recordChunk_regs (len typ : Word) (s : State) : (recordChunk len typ s).regs = s.regs := rfl
@[simp] theorem recordChunk_eng (len typ : Word) (s : State) :
    (recordChunk len typ s).eng = { s.eng with chunks := s.eng.chunks ++ [⟨s.eng.p, len.toNat, typ⟩] } :=
  rfl
@[simp] theorem recordChunk_mem (len typ : Word) (s : State) : (recordChunk len typ s).mem = s.mem := rfl
@[simp] theorem recordChunk_host (len typ : Word) (s : State) : (recordChunk len typ s).host = s.host := rfl
@[simp] theorem recordChunk_plat (len typ : Word) (s : State) : (recordChunk len typ s).plat = s.plat := rfl
@[simp] theorem recordChunk_draws (len typ : Word) (s : State) : (recordChunk len typ s).draws = s.draws := rfl
@[simp] theorem recordChunk_rdata (len typ : Word) (s : State) : (recordChunk len typ s).rdata = s.rdata := rfl
@[simp] theorem recordChunk_memData (len typ : Word) (s : State) : (recordChunk len typ s).memData = s.memData := rfl
@[simp] theorem recordChunk_uncleaned (len typ : Word) (s : State) : (recordChunk len typ s).uncleaned = s.uncleaned := rfl
@[simp] theorem recordChunk_stale (len typ : Word) (s : State) : (recordChunk len typ s).stale = s.stale := rfl
@[simp] theorem recordChunk_hidden (len typ : Word) (s : State) : (recordChunk len typ s).hidden = s.hidden := rfl
@[simp] theorem recordChunk_unseen (len typ : Word) (s : State) : (recordChunk len typ s).unseen = s.unseen := rfl

/-! ### The walk's end (R259) -/

@[simp] theorem endWalk_regs (s : State) :
    (endWalk s).regs = { s.regs with
      chunkCount := trunc32 s.eng.chunks.length
      idatCount := trunc32 (s.eng.chunks.filter ChunkRec.isIdat).length
      idatLen := trunc32 (idatTotal s.eng.chunks) } :=
  rfl
@[simp] theorem endWalk_eng (s : State) : (endWalk s).eng = { s.eng with phase := .enter .header } := rfl
@[simp] theorem endWalk_mem (s : State) : (endWalk s).mem = s.mem := rfl
@[simp] theorem endWalk_host (s : State) : (endWalk s).host = s.host := rfl
@[simp] theorem endWalk_plat (s : State) : (endWalk s).plat = s.plat := rfl
@[simp] theorem endWalk_draws (s : State) : (endWalk s).draws = s.draws := rfl
@[simp] theorem endWalk_rdata (s : State) : (endWalk s).rdata = s.rdata := rfl
@[simp] theorem endWalk_memData (s : State) : (endWalk s).memData = s.memData := rfl
@[simp] theorem endWalk_uncleaned (s : State) : (endWalk s).uncleaned = s.uncleaned := rfl
@[simp] theorem endWalk_stale (s : State) : (endWalk s).stale = s.stale := rfl
@[simp] theorem endWalk_hidden (s : State) : (endWalk s).hidden = s.hidden := rfl
@[simp] theorem endWalk_unseen (s : State) : (endWalk s).unseen = s.unseen := rfl

/-! ### The header results (R267) -/

@[simp] theorem writeHeader_regs (w h bd ct cm fm im : Nat) (s : State) :
    (writeHeader w h bd ct cm fm im s).regs = { s.regs with
      imgWidth := trunc32 w
      imgHeight := trunc32 h
      imgFormat := trunc32 (bd + ct * 256 + cm * 65536 + fm * 16777216)
      imgInterlace := trunc32 im } :=
  rfl
@[simp] theorem writeHeader_eng (w h bd ct cm fm im : Nat) (s : State) :
    (writeHeader w h bd ct cm fm im s).eng = { s.eng with phase := .enter .palette } :=
  rfl
@[simp] theorem writeHeader_mem (w h bd ct cm fm im : Nat) (s : State) : (writeHeader w h bd ct cm fm im s).mem = s.mem := rfl
@[simp] theorem writeHeader_host (w h bd ct cm fm im : Nat) (s : State) :
    (writeHeader w h bd ct cm fm im s).host = s.host :=
  rfl
@[simp] theorem writeHeader_plat (w h bd ct cm fm im : Nat) (s : State) :
    (writeHeader w h bd ct cm fm im s).plat = s.plat :=
  rfl
@[simp] theorem writeHeader_draws (w h bd ct cm fm im : Nat) (s : State) :
    (writeHeader w h bd ct cm fm im s).draws = s.draws :=
  rfl
@[simp] theorem writeHeader_rdata (w h bd ct cm fm im : Nat) (s : State) :
    (writeHeader w h bd ct cm fm im s).rdata = s.rdata :=
  rfl
@[simp] theorem writeHeader_memData (w h bd ct cm fm im : Nat) (s : State) :
    (writeHeader w h bd ct cm fm im s).memData = s.memData :=
  rfl
@[simp] theorem writeHeader_uncleaned (w h bd ct cm fm im : Nat) (s : State) :
    (writeHeader w h bd ct cm fm im s).uncleaned = s.uncleaned :=
  rfl
@[simp] theorem writeHeader_stale (w h bd ct cm fm im : Nat) (s : State) :
    (writeHeader w h bd ct cm fm im s).stale = s.stale :=
  rfl
@[simp] theorem writeHeader_hidden (w h bd ct cm fm im : Nat) (s : State) :
    (writeHeader w h bd ct cm fm im s).hidden = s.hidden :=
  rfl
@[simp] theorem writeHeader_unseen (w h bd ct cm fm im : Nat) (s : State) :
    (writeHeader w h bd ct cm fm im s).unseen = s.unseen :=
  rfl

/-! ### The palette results (R272) -/

@[simp] theorem writePalette_regs (p len : Nat) (s : State) :
    (writePalette p len s).regs = { s.regs with
      plteOffset := trunc32 (p + 8)
      plteCount := trunc32 (2 ^ 31 + len / 3) } :=
  rfl
@[simp] theorem writePalette_eng (p len : Nat) (s : State) :
    (writePalette p len s).eng = { s.eng with phase := .enter .zlibHeader } :=
  rfl
@[simp] theorem writePalette_mem (p len : Nat) (s : State) : (writePalette p len s).mem = s.mem := rfl
@[simp] theorem writePalette_host (p len : Nat) (s : State) : (writePalette p len s).host = s.host := rfl
@[simp] theorem writePalette_plat (p len : Nat) (s : State) : (writePalette p len s).plat = s.plat := rfl
@[simp] theorem writePalette_draws (p len : Nat) (s : State) : (writePalette p len s).draws = s.draws := rfl
@[simp] theorem writePalette_rdata (p len : Nat) (s : State) : (writePalette p len s).rdata = s.rdata := rfl
@[simp] theorem writePalette_memData (p len : Nat) (s : State) : (writePalette p len s).memData = s.memData := rfl
@[simp] theorem writePalette_uncleaned (p len : Nat) (s : State) : (writePalette p len s).uncleaned = s.uncleaned := rfl
@[simp] theorem writePalette_stale (p len : Nat) (s : State) : (writePalette p len s).stale = s.stale := rfl
@[simp] theorem writePalette_hidden (p len : Nat) (s : State) : (writePalette p len s).hidden = s.hidden := rfl
@[simp] theorem writePalette_unseen (p len : Nat) (s : State) : (writePalette p len s).unseen = s.unseen := rfl

/-! ### The stream cursor (R335) -/

@[simp] theorem atBit_regs (pos : Nat) (s : State) : (atBit pos s).regs = s.regs := rfl
@[simp] theorem atBit_eng (pos : Nat) (s : State) : (atBit pos s).eng = { s.eng with bitpos := pos } := rfl
@[simp] theorem atBit_mem (pos : Nat) (s : State) : (atBit pos s).mem = s.mem := rfl
@[simp] theorem atBit_host (pos : Nat) (s : State) : (atBit pos s).host = s.host := rfl
@[simp] theorem atBit_plat (pos : Nat) (s : State) : (atBit pos s).plat = s.plat := rfl
@[simp] theorem atBit_draws (pos : Nat) (s : State) : (atBit pos s).draws = s.draws := rfl
@[simp] theorem atBit_rdata (pos : Nat) (s : State) : (atBit pos s).rdata = s.rdata := rfl
@[simp] theorem atBit_memData (pos : Nat) (s : State) : (atBit pos s).memData = s.memData := rfl
@[simp] theorem atBit_uncleaned (pos : Nat) (s : State) : (atBit pos s).uncleaned = s.uncleaned := rfl
@[simp] theorem atBit_stale (pos : Nat) (s : State) : (atBit pos s).stale = s.stale := rfl
@[simp] theorem atBit_hidden (pos : Nat) (s : State) : (atBit pos s).hidden = s.hidden := rfl
@[simp] theorem atBit_unseen (pos : Nat) (s : State) : (atBit pos s).unseen = s.unseen := rfl

/-! ### A block's end (R362) -/

@[simp] theorem endBlock_regs (s : State) : (endBlock s).regs = { s.regs with blockCount := trunc32 (s.eng.block + 1) } := rfl
@[simp] theorem endBlock_eng (s : State) :
    (endBlock s).eng = { s.eng with
      block := s.eng.block + 1
      phase := afterBlock s.eng.bfinal } :=
  rfl
@[simp] theorem endBlock_mem (s : State) : (endBlock s).mem = s.mem := rfl
@[simp] theorem endBlock_host (s : State) : (endBlock s).host = s.host := rfl
@[simp] theorem endBlock_plat (s : State) : (endBlock s).plat = s.plat := rfl
@[simp] theorem endBlock_draws (s : State) : (endBlock s).draws = s.draws := rfl
@[simp] theorem endBlock_rdata (s : State) : (endBlock s).rdata = s.rdata := rfl
@[simp] theorem endBlock_memData (s : State) : (endBlock s).memData = s.memData := rfl
@[simp] theorem endBlock_uncleaned (s : State) : (endBlock s).uncleaned = s.uncleaned := rfl
@[simp] theorem endBlock_stale (s : State) : (endBlock s).stale = s.stale := rfl
@[simp] theorem endBlock_hidden (s : State) : (endBlock s).hidden = s.hidden := rfl
@[simp] theorem endBlock_unseen (s : State) : (endBlock s).unseen = s.unseen := rfl

/-! ### The registers of an error (R542) -/

@[simp] theorem Regs.withError_mode (r : Regs) (e : RunError) : (r.withError e).mode = r.mode := rfl
@[simp] theorem Regs.withError_irqEn (r : Regs) (e : RunError) : (r.withError e).irqEn = r.irqEn := rfl
@[simp] theorem Regs.withError_fcheckEn (r : Regs) (e : RunError) : (r.withError e).fcheckEn = r.fcheckEn := rfl
@[simp] theorem Regs.withError_busy (r : Regs) (e : RunError) : (r.withError e).busy = false := rfl
@[simp] theorem Regs.withError_done (r : Regs) (e : RunError) : (r.withError e).done = r.done := rfl
@[simp] theorem Regs.withError_err (r : Regs) (e : RunError) : (r.withError e).err = true := rfl
@[simp] theorem Regs.withError_stage (r : Regs) (e : RunError) : (r.withError e).stage = r.stage := rfl
@[simp] theorem Regs.withError_errCode (r : Regs) (e : RunError) : (r.withError e).errCode = e.codeWord := rfl
@[simp] theorem Regs.withError_errPos (r : Regs) (e : RunError) : (r.withError e).errPos = trunc32 e.pos := rfl
@[simp] theorem Regs.withError_errAux (r : Regs) (e : RunError) : (r.withError e).errAux = trunc32 e.aux := rfl
@[simp] theorem Regs.withError_inBase (r : Regs) (e : RunError) : (r.withError e).inBase = r.inBase := rfl
@[simp] theorem Regs.withError_inLen (r : Regs) (e : RunError) : (r.withError e).inLen = r.inLen := rfl
@[simp] theorem Regs.withError_inflBase (r : Regs) (e : RunError) : (r.withError e).inflBase = r.inflBase := rfl
@[simp] theorem Regs.withError_inflCap (r : Regs) (e : RunError) : (r.withError e).inflCap = r.inflCap := rfl
@[simp] theorem Regs.withError_reconBase (r : Regs) (e : RunError) : (r.withError e).reconBase = r.reconBase := rfl
@[simp] theorem Regs.withError_reconCap (r : Regs) (e : RunError) : (r.withError e).reconCap = r.reconCap := rfl
@[simp] theorem Regs.withError_ufWidth (r : Regs) (e : RunError) : (r.withError e).ufWidth = r.ufWidth := rfl
@[simp] theorem Regs.withError_ufHeight (r : Regs) (e : RunError) : (r.withError e).ufHeight = r.ufHeight := rfl
@[simp] theorem Regs.withError_ufFormat (r : Regs) (e : RunError) : (r.withError e).ufFormat = r.ufFormat := rfl
@[simp] theorem Regs.withError_imgWidth (r : Regs) (e : RunError) : (r.withError e).imgWidth = r.imgWidth := rfl
@[simp] theorem Regs.withError_imgHeight (r : Regs) (e : RunError) : (r.withError e).imgHeight = r.imgHeight := rfl
@[simp] theorem Regs.withError_imgFormat (r : Regs) (e : RunError) : (r.withError e).imgFormat = r.imgFormat := rfl
@[simp] theorem Regs.withError_imgInterlace (r : Regs) (e : RunError) : (r.withError e).imgInterlace = r.imgInterlace := rfl
@[simp] theorem Regs.withError_plteOffset (r : Regs) (e : RunError) : (r.withError e).plteOffset = r.plteOffset := rfl
@[simp] theorem Regs.withError_plteCount (r : Regs) (e : RunError) : (r.withError e).plteCount = r.plteCount := rfl
@[simp] theorem Regs.withError_inflLen (r : Regs) (e : RunError) : (r.withError e).inflLen = r.inflLen := rfl
@[simp] theorem Regs.withError_rowBytes (r : Regs) (e : RunError) : (r.withError e).rowBytes = r.rowBytes := rfl
@[simp] theorem Regs.withError_bpp (r : Regs) (e : RunError) : (r.withError e).bpp = r.bpp := rfl
@[simp] theorem Regs.withError_reconLen (r : Regs) (e : RunError) : (r.withError e).reconLen = r.reconLen := rfl
@[simp] theorem Regs.withError_crcResult (r : Regs) (e : RunError) : (r.withError e).crcResult = r.crcResult := rfl
@[simp] theorem Regs.withError_adlerResult (r : Regs) (e : RunError) : (r.withError e).adlerResult = r.adlerResult := rfl
@[simp] theorem Regs.withError_chunkCount (r : Regs) (e : RunError) : (r.withError e).chunkCount = r.chunkCount := rfl
@[simp] theorem Regs.withError_idatCount (r : Regs) (e : RunError) : (r.withError e).idatCount = r.idatCount := rfl
@[simp] theorem Regs.withError_blockCount (r : Regs) (e : RunError) : (r.withError e).blockCount = r.blockCount := rfl
@[simp] theorem Regs.withError_idatLen (r : Regs) (e : RunError) : (r.withError e).idatLen = r.idatLen := rfl

/-! ### The registers of a START (R202) -/

@[simp] theorem Regs.started_mode (r : Regs) : r.started.mode = r.mode := rfl
@[simp] theorem Regs.started_irqEn (r : Regs) : r.started.irqEn = r.irqEn := rfl
@[simp] theorem Regs.started_fcheckEn (r : Regs) : r.started.fcheckEn = r.fcheckEn := rfl
@[simp] theorem Regs.started_busy (r : Regs) : r.started.busy = true := rfl
@[simp] theorem Regs.started_done (r : Regs) : r.started.done = false := rfl
@[simp] theorem Regs.started_err (r : Regs) : r.started.err = false := rfl
@[simp] theorem Regs.started_stage (r : Regs) : r.started.stage = .config := rfl
@[simp] theorem Regs.started_errCode (r : Regs) : r.started.errCode = 0#32 := rfl
@[simp] theorem Regs.started_errPos (r : Regs) : r.started.errPos = 0#32 := rfl
@[simp] theorem Regs.started_errAux (r : Regs) : r.started.errAux = 0#32 := rfl
@[simp] theorem Regs.started_inBase (r : Regs) : r.started.inBase = r.inBase := rfl
@[simp] theorem Regs.started_inLen (r : Regs) : r.started.inLen = r.inLen := rfl
@[simp] theorem Regs.started_inflBase (r : Regs) : r.started.inflBase = r.inflBase := rfl
@[simp] theorem Regs.started_inflCap (r : Regs) : r.started.inflCap = r.inflCap := rfl
@[simp] theorem Regs.started_reconBase (r : Regs) : r.started.reconBase = r.reconBase := rfl
@[simp] theorem Regs.started_reconCap (r : Regs) : r.started.reconCap = r.reconCap := rfl
@[simp] theorem Regs.started_ufWidth (r : Regs) : r.started.ufWidth = r.ufWidth := rfl
@[simp] theorem Regs.started_ufHeight (r : Regs) : r.started.ufHeight = r.ufHeight := rfl
@[simp] theorem Regs.started_ufFormat (r : Regs) : r.started.ufFormat = r.ufFormat := rfl
@[simp] theorem Regs.started_imgWidth (r : Regs) : r.started.imgWidth = 0#32 := rfl
@[simp] theorem Regs.started_imgHeight (r : Regs) : r.started.imgHeight = 0#32 := rfl
@[simp] theorem Regs.started_imgFormat (r : Regs) : r.started.imgFormat = 0#32 := rfl
@[simp] theorem Regs.started_imgInterlace (r : Regs) : r.started.imgInterlace = 0#32 := rfl
@[simp] theorem Regs.started_plteOffset (r : Regs) : r.started.plteOffset = 0#32 := rfl
@[simp] theorem Regs.started_plteCount (r : Regs) : r.started.plteCount = 0#32 := rfl
@[simp] theorem Regs.started_inflLen (r : Regs) : r.started.inflLen = 0#32 := rfl
@[simp] theorem Regs.started_rowBytes (r : Regs) : r.started.rowBytes = 0#32 := rfl
@[simp] theorem Regs.started_bpp (r : Regs) : r.started.bpp = 0#32 := rfl
@[simp] theorem Regs.started_reconLen (r : Regs) : r.started.reconLen = 0#32 := rfl
@[simp] theorem Regs.started_crcResult (r : Regs) : r.started.crcResult = 0#32 := rfl
@[simp] theorem Regs.started_adlerResult (r : Regs) : r.started.adlerResult = 0#32 := rfl
@[simp] theorem Regs.started_chunkCount (r : Regs) : r.started.chunkCount = 0#32 := rfl
@[simp] theorem Regs.started_idatCount (r : Regs) : r.started.idatCount = 0#32 := rfl
@[simp] theorem Regs.started_blockCount (r : Regs) : r.started.blockCount = 0#32 := rfl
@[simp] theorem Regs.started_idatLen (r : Regs) : r.started.idatLen = 0#32 := rfl

/-! ### A stage's entry (R35) -/

@[simp] theorem enterStage_mem (g : Stage) (s : State) : (enterStage g s).mem = s.mem := by cases g <;> rfl
@[simp] theorem enterStage_host (g : Stage) (s : State) : (enterStage g s).host = s.host := by cases g <;> rfl
@[simp] theorem enterStage_plat (g : Stage) (s : State) : (enterStage g s).plat = s.plat := by cases g <;> rfl
@[simp] theorem enterStage_draws (g : Stage) (s : State) : (enterStage g s).draws = s.draws := by cases g <;> rfl
@[simp] theorem enterStage_rdata (g : Stage) (s : State) : (enterStage g s).rdata = s.rdata := by cases g <;> rfl
@[simp] theorem enterStage_memData (g : Stage) (s : State) : (enterStage g s).memData = s.memData := by cases g <;> rfl
@[simp] theorem enterStage_uncleaned (g : Stage) (s : State) : (enterStage g s).uncleaned = s.uncleaned := by cases g <;> rfl
@[simp] theorem enterStage_stale (g : Stage) (s : State) : (enterStage g s).stale = s.stale := by cases g <;> rfl
@[simp] theorem enterStage_hidden (g : Stage) (s : State) : (enterStage g s).hidden = s.hidden := by cases g <;> rfl
@[simp] theorem enterStage_unseen (g : Stage) (s : State) : (enterStage g s).unseen = s.unseen := by cases g <;> rfl

/-! ### What no step of a run but its end changes in the window (R47, R605) -/

/-- The window without STATUS.STAGE and the result registers. -/
def Regs.kept (r : Regs) : Regs :=
  { r with
    stage := .idle
    imgWidth := 0#32, imgHeight := 0#32, imgFormat := 0#32, imgInterlace := 0#32
    plteOffset := 0#32, plteCount := 0#32
    inflLen := 0#32, rowBytes := 0#32, bpp := 0#32, reconLen := 0#32
    crcResult := 0#32, adlerResult := 0#32
    chunkCount := 0#32, idatCount := 0#32, blockCount := 0#32, idatLen := 0#32 }

/-- What `kept` keeps, register by register. -/
theorem Regs.kept_fields {r q : Regs} (h : q.kept = r.kept) :
    q.mode = r.mode ∧ q.irqEn = r.irqEn ∧ q.fcheckEn = r.fcheckEn ∧ q.busy = r.busy ∧ q.done = r.done ∧ q.err = r.err ∧
    q.errCode = r.errCode ∧ q.errPos = r.errPos ∧ q.errAux = r.errAux ∧ q.inBase = r.inBase ∧ q.inLen = r.inLen ∧
    q.inflBase = r.inflBase ∧ q.inflCap = r.inflCap ∧ q.reconBase = r.reconBase ∧ q.reconCap = r.reconCap ∧
    q.ufWidth = r.ufWidth ∧ q.ufHeight = r.ufHeight ∧ q.ufFormat = r.ufFormat := by
  refine ⟨?_, ?_, ?_, ?_, ?_, ?_, ?_, ?_, ?_, ?_, ?_, ?_, ?_, ?_, ?_, ?_, ?_, ?_⟩
  · exact show q.kept.mode = r.kept.mode from congrArg _ h
  · exact show q.kept.irqEn = r.kept.irqEn from congrArg _ h
  · exact show q.kept.fcheckEn = r.kept.fcheckEn from congrArg _ h
  · exact show q.kept.busy = r.kept.busy from congrArg _ h
  · exact show q.kept.done = r.kept.done from congrArg _ h
  · exact show q.kept.err = r.kept.err from congrArg _ h
  · exact show q.kept.errCode = r.kept.errCode from congrArg _ h
  · exact show q.kept.errPos = r.kept.errPos from congrArg _ h
  · exact show q.kept.errAux = r.kept.errAux from congrArg _ h
  · exact show q.kept.inBase = r.kept.inBase from congrArg _ h
  · exact show q.kept.inLen = r.kept.inLen from congrArg _ h
  · exact show q.kept.inflBase = r.kept.inflBase from congrArg _ h
  · exact show q.kept.inflCap = r.kept.inflCap from congrArg _ h
  · exact show q.kept.reconBase = r.kept.reconBase from congrArg _ h
  · exact show q.kept.reconCap = r.kept.reconCap from congrArg _ h
  · exact show q.kept.ufWidth = r.kept.ufWidth from congrArg _ h
  · exact show q.kept.ufHeight = r.kept.ufHeight from congrArg _ h
  · exact show q.kept.ufFormat = r.kept.ufFormat from congrArg _ h

/-- The regions a mode writes are among what is kept. -/
theorem Regs.kept_outputs {r q : Regs} (h : q.kept = r.kept) : q.outputs = r.outputs :=
  show q.kept.outputs = r.kept.outputs from congrArg _ h

@[simp] theorem enterStage_kept (g : Stage) (s : State) : (enterStage g s).regs.kept = s.regs.kept := by cases g <;> rfl

/-- A property that each single update keeps holds partway through a step. -/
theorem partway_keeps {P : Regs → Prop} {r t : Regs} (k : Nat) (hr : P r) (h : ∀ f ∈ runUpdates t, ∀ x, P x → P (f x)) :
    P (partway k r t) := by
  unfold partway
  have h' : ∀ f ∈ (runUpdates t).take k, ∀ x, P x → P (f x) := fun f hf => h f (List.mem_of_mem_take hf)
  generalize (runUpdates t).take k = fs at h'
  induction fs generalizing r with
  | nil => exact hr
  | cons f fs ih => exact ih (h' f (by simp) r hr) fun g hg => h' g (by simp [hg])

@[simp] theorem partway_kept (k : Nat) (r t : Regs) : (partway k r t).kept = r.kept := by
  refine partway_keeps (P := fun x => x.kept = r.kept) k rfl fun f hf x hx => ?_
  simp only [runUpdates, List.mem_cons, List.not_mem_nil, or_false] at hf
  rcases hf with rfl | rfl | rfl | rfl | rfl | rfl | rfl | rfl | rfl | rfl | rfl | rfl | rfl | rfl | rfl | rfl | rfl <;> exact hx

@[simp] theorem abortedRegs_kept (s : State) : (abortedRegs s).kept = s.regs.kept := by
  unfold abortedRegs; split <;> simp

end Sys2Proof.Machine
end

