-- ==== Sys2Proof/Laws/Memory.lean ====
section
/-! SUPPORT. Memory: what a read gives after a write and after a range write, and that every memory operation keeps the canonical
form. -/

namespace Sys2Proof.Machine

/-! ## Reads -/

@[simp] theorem Memory.read_nil (a : Nat) : Memory.read [] a = none := rfl

theorem Memory.read_cons (k a : Nat) (v : Byte) (m : Memory) :
    Memory.read ((k, v) :: m) a = if k = a then some v else Memory.read m a := rfl

/-- Below the first address nothing is listed. -/
theorem Memory.read_eq_none {m : Memory} {a : Nat} (h : ∀ c ∈ m, c.1 ≠ a) : m.read a = none := by
  induction m with
  | nil => rfl
  | cons c m ih =>
    rw [Memory.read_cons, if_neg (h c (by simp)), ih fun d hd => h d (by simp [hd])]

theorem Memory.read_append (m n : Memory) (a : Nat) :
    Memory.read (m ++ n) a = (m.read a).or (n.read a) := by
  induction m with
  | nil => rfl
  | cons c m ih =>
    obtain ⟨k, v⟩ := c
    by_cases h : k = a <;> simp [Memory.read_cons, h, ih]

theorem Memory.read_write_same (m : Memory) (a : Nat) (b : Byte) : (m.write a b).read a = some b := by
  induction m with
  | nil => simp [Memory.write, Memory.read_cons]
  | cons c m ih =>
    obtain ⟨k, v⟩ := c
    unfold Memory.write
    split
    · simp [Memory.read_cons]
    · split
      · simp [Memory.read_cons]
      · have : k ≠ a := by omega
        simp [Memory.read_cons, this, ih]

theorem Memory.read_write_other (m : Memory) {a x : Nat} (b : Byte) (h : x ≠ a) : (m.write a b).read x = m.read x := by
  induction m with
  | nil => simp [Memory.write, Memory.read_cons, h.symm]
  | cons c m ih =>
    obtain ⟨k, v⟩ := c
    unfold Memory.write
    split
    · simp [Memory.read_cons, h.symm]
    · split
      · subst k; simp [Memory.read_cons, h.symm]
      · simp [Memory.read_cons, ih]

/-- A read after a write. -/
theorem Memory.read_write (m : Memory) (a x : Nat) (b : Byte) :
    (m.write a b).read x = if x = a then some b else m.read x := by
  split
  · subst x; exact m.read_write_same a b
  · exact m.read_write_other b ‹_›

/-- Filtering by address keeps exactly the addresses the test lets through. -/
theorem Memory.read_filter (m : Memory) (p : Nat → Bool) (a : Nat) :
    Memory.read (m.filter fun c => p c.1) a = if p a then m.read a else none := by
  induction m with
  | nil => simp
  | cons c m ih =>
    obtain ⟨k, v⟩ := c
    by_cases hk : p k
    · by_cases h : k = a
      · subst k; simp [Memory.read_cons, hk]
      · simp [Memory.read_cons, hk, h, ih]
    · by_cases h : k = a
      · subst k; simp [hk, ih]
      · simp [Memory.read_cons, hk, h, ih]

theorem Memory.read_range (base n : Nat) (f : Nat → Byte) (a : Nat) :
    Memory.read ((List.range n).map fun i => (base + i, f i)) a =
      if base ≤ a ∧ a < base + n then some (f (a - base)) else none := by
  induction n with
  | zero => simp
  | succ n ih =>
    rw [List.range_succ, List.map_append, Memory.read_append, ih]
    by_cases h : base + n = a
    · subst a
      simp [Memory.read_cons]
    · by_cases h1 : base ≤ a ∧ a < base + n
      · have h2 : base ≤ a ∧ a < base + (n + 1) := by omega
        simp [h1, h2]
      · have h2 : ¬(base ≤ a ∧ a < base + (n + 1)) := by omega
        simp only [h1, h2, if_false, List.map_cons, List.map_nil, Memory.read_cons, h, Memory.read_nil, Option.or]

/-- A read after a range write. -/
theorem Memory.read_setRange (m : Memory) (base n : Nat) (f : Nat → Byte) (a : Nat) :
    (m.setRange base n f).read a = if base ≤ a ∧ a < base + n then some (f (a - base)) else m.read a := by
  unfold Memory.setRange
  rw [Memory.read_append, Memory.read_append, Memory.read_range,
    Memory.read_filter m (fun x => decide (x < base)), Memory.read_filter m (fun x => decide (base + n ≤ x))]
  by_cases h1 : base ≤ a
  · by_cases h2 : a < base + n
    · simp [h1, h2, Nat.not_lt.2 h1]
    · have h3 : ¬a < base := by omega
      have h4 : base + n ≤ a := by omega
      simp [h2, h3, h4]
  · have h3 : a < base := by omega
    have h4 : ¬base + n ≤ a := by omega
    cases m.read a <;> simp [h1, h3, h4]

/-! ## The canonical form -/

theorem Memory.wf_nil : Memory.wf [] := ⟨List.Pairwise.nil, by simp⟩

/-- Every address a write leaves was there or is the one written. -/
theorem Memory.mem_write {m : Memory} {a : Nat} {b : Byte} {c : Host.Cell} (h : c ∈ m.write a b) : c ∈ m ∨ c.1 = a := by
  induction m with
  | nil => simp [Memory.write] at h; simp [h]
  | cons d m ih =>
    obtain ⟨k, v⟩ := d
    unfold Memory.write at h
    split at h
    · rcases List.mem_cons.1 h with rfl | h
      · exact .inr rfl
      · exact .inl h
    · split at h
      · rcases List.mem_cons.1 h with rfl | h
        · exact .inr rfl
        · exact .inl (List.mem_cons_of_mem _ h)
      · rcases List.mem_cons.1 h with rfl | h
        · exact .inl (by simp)
        · rcases ih h with h | h
          · exact .inl (List.mem_cons_of_mem _ h)
          · exact .inr h

theorem Memory.wf_write {m : Memory} {a : Nat} (b : Byte) (hm : m.wf) (ha : a < 2 ^ 32) : (m.write a b).wf := by
  refine ⟨?_, fun c hc => (Memory.mem_write hc).elim (hm.2 c) fun h => h ▸ ha⟩
  have hp := hm.1
  clear hm
  induction m with
  | nil => exact List.pairwise_singleton _ _
  | cons d m ih =>
    obtain ⟨k, v⟩ := d
    rw [List.pairwise_cons] at hp
    unfold Memory.write
    split
    · refine List.pairwise_cons.2 ⟨fun c hc => ?_, List.pairwise_cons.2 hp⟩
      rcases List.mem_cons.1 hc with rfl | hc
      · assumption
      · have := hp.1 c hc; simp only at this ⊢; omega
    · split
      · subst k; exact List.pairwise_cons.2 hp
      · refine List.pairwise_cons.2 ⟨fun c hc => ?_, ih hp.2⟩
        rcases Memory.mem_write hc with h | h
        · exact hp.1 c h
        · simp only [h]; omega

theorem Memory.wf_setRange {m : Memory} {base n : Nat} (f : Nat → Byte) (hm : m.wf) (h : base + n ≤ 2 ^ 32) :
    (m.setRange base n f).wf := by
  unfold Memory.setRange
  constructor
  · refine List.pairwise_append.2 ⟨List.pairwise_append.2 ⟨hm.1.filter _, ?_, ?_⟩, hm.1.filter _, ?_⟩
    · rw [List.pairwise_map]
      exact List.pairwise_lt_range.imp fun h => by simp only; omega
    · intro c hc d hd
      simp only [List.mem_filter, decide_eq_true_eq] at hc
      obtain ⟨i, -, rfl⟩ := List.mem_map.1 hd
      simp only; omega
    · intro c hc d hd
      simp only [List.mem_filter, decide_eq_true_eq] at hd
      rcases List.mem_append.1 hc with hc | hc
      · simp only [List.mem_filter, decide_eq_true_eq] at hc; omega
      · obtain ⟨i, hi, rfl⟩ := List.mem_map.1 hc
        have := List.mem_range.1 hi
        simp only; omega
  · intro c hc
    rcases List.mem_append.1 hc with hc | hc
    · rcases List.mem_append.1 hc with hc | hc
      · exact hm.2 c (List.mem_filter.1 hc).1
      · obtain ⟨i, hi, rfl⟩ := List.mem_map.1 hc
        have := List.mem_range.1 hi
        simp only; omega
    · exact hm.2 c (List.mem_filter.1 hc).1

/-! ## The byte of an address -/

/-- What the bus holds depends on memory alone. -/
theorem State.byteAt_congr {s t : State} (h : t.mem = s.mem) (a : Nat) : t.byteAt a = s.byteAt a := by
  simp [State.byteAt, h]

/-- The bus after one byte was written. -/
theorem State.byteAt_write {s t : State} {x : Nat} {b : Byte} (h : t.mem = s.mem.write x b) (a : Nat) :
    t.byteAt a = if a = x then b else s.byteAt a := by
  unfold State.byteAt
  rw [h, Memory.read_write]
  split <;> rfl

/-- Memory after reset lists nothing, so it is in canonical form. -/
theorem reset_mem_wf : State.reset.mem.wf := Memory.wf_nil

end Sys2Proof.Machine
end

