-- ==== Sys2Proof/Laws/Ops.lean ====
section
/-! SUPPORT. What each shared operation of Machine/Ops.lean can do, said once: the bus, going on with a value or stopping, error entry,
the output of a byte, and the register window's reads after each kind of update. -/

namespace Sys2Proof.Machine

/-! ## The bus -/

theorem busCheck_ok {s : State} {d : Dir} {a : Nat} :
    busCheck s d a = .ok () ↔
      a < 2 ^ 32 ∧ platFails s.plat d a = false ∧ inWindow s.plat a = false ∧ noMemory s.plat a = false := by
  unfold busCheck
  split
  · simp only [reduceCtorEq, false_iff]; omega
  · have h : a < 2 ^ 32 := by omega
    simp only [h, true_and]
    cases platFails s.plat d a <;> cases inWindow s.plat a <;> cases noMemory s.plat a <;> simp

/-- The only error the bus raises is BusError at the address (R567, R583). -/
theorem busCheck_raise {s : State} {d : Dir} {a : Nat} {e : RunError} (h : busCheck s d a = .error (.raise e)) :
    e = ⟨.busError, 0, a, dirAux d⟩ ∧ platFails s.plat d a = true := by
  unfold busCheck at h
  split at h
  · cases h
  · split at h
    · cases h; exact ⟨rfl, ‹_›⟩
    · split at h
      · cases h
      · split at h <;> cases h

/-- The bus looks at the platform alone. -/
theorem busCheck_congr {s t : State} (h : t.plat = s.plat) (d : Dir) (a : Nat) : busCheck t d a = busCheck s d a := by
  simp [busCheck, h]

theorem busRead_ok {s : State} {a : Nat} {b : Byte} : busRead s a = .ok b ↔ Readable s a ∧ engineByte s a = b := by
  unfold busRead Readable
  cases h : busCheck s .read a <;> simp

theorem busRead_raise {s : State} {a : Nat} {e : RunError} (h : busRead s a = .error (.raise e)) :
    e = ⟨.busError, 0, a, 0⟩ := by
  unfold busRead at h
  cases hc : busCheck s .read a with
  | error f => rw [hc] at h; cases h; exact (busCheck_raise hc).1
  | ok u => rw [hc] at h; cases h

theorem busWrite_ok {s t : State} {a : Nat} {b : Byte} : busWrite s a b = .ok t ↔ Writable s a ∧ putByte s a b = t := by
  unfold busWrite Writable
  cases h : busCheck s .write a <;> simp

theorem busWrite_raise {s : State} {a : Nat} {b : Byte} {e : RunError} (h : busWrite s a b = .error (.raise e)) :
    e = ⟨.busError, 0, a, 1⟩ := by
  unfold busWrite at h
  cases hc : busCheck s .write a with
  | error f => rw [hc] at h; cases h; exact (busCheck_raise hc).1
  | ok u => rw [hc] at h; cases h

/-- Where the host's write was visible at START the engine sees the bus's byte (R112, R119). -/
theorem engineByte_eq {s : State} {a : Nat} (h : a ∉ s.hidden) : engineByte s a = s.byteAt a := by
  simp [engineByte, h]

/-! ### The byte an engine write leaves -/

@[simp] theorem putByte_regs (s : State) (a : Nat) (b : Byte) : (putByte s a b).regs = s.regs := by
  unfold putByte; split <;> rfl
@[simp] theorem putByte_eng (s : State) (a : Nat) (b : Byte) : (putByte s a b).eng = s.eng := by
  unfold putByte; split <;> rfl
@[simp] theorem putByte_mem (s : State) (a : Nat) (b : Byte) : (putByte s a b).mem = s.mem.write a b := by
  unfold putByte; split <;> rfl
@[simp] theorem putByte_host (s : State) (a : Nat) (b : Byte) : (putByte s a b).host = s.host := by
  unfold putByte; split <;> rfl
@[simp] theorem putByte_plat (s : State) (a : Nat) (b : Byte) : (putByte s a b).plat = s.plat := by
  unfold putByte; split <;> rfl
@[simp] theorem putByte_draws (s : State) (a : Nat) (b : Byte) : (putByte s a b).draws = s.draws := by
  unfold putByte; split <;> rfl
@[simp] theorem putByte_rdata (s : State) (a : Nat) (b : Byte) : (putByte s a b).rdata = s.rdata := by
  unfold putByte; split <;> rfl
@[simp] theorem putByte_unseen (s : State) (a : Nat) (b : Byte) : (putByte s a b).unseen = s.unseen := by
  unfold putByte; split <;> rfl
@[simp] theorem putByte_memData (s : State) (a : Nat) (b : Byte) : (putByte s a b).memData = s.memData := by
  unfold putByte; split <;> rfl

theorem putByte_byteAt (s : State) (a x : Nat) (b : Byte) : (putByte s a b).byteAt x = if x = a then b else s.byteAt x :=
  State.byteAt_write (putByte_mem s a b) x

/-! ## Regions (R101) -/

theorem Region.contains_iff (r : Region) (a : Nat) : r.contains a = true ↔ r.base ≤ a ∧ a < r.base + r.len := by
  simp [Region.contains]

theorem Region.contains_false (r : Region) (a : Nat) : r.contains a = false ↔ a < r.base ∨ r.base + r.len ≤ a := by
  rw [← Bool.not_eq_true, Region.contains_iff]; omega

@[simp] theorem Regs.inRegion_base (r : Regs) : r.inRegion.base = r.inBase.toNat := rfl
@[simp] theorem Regs.inRegion_len (r : Regs) : r.inRegion.len = r.inLen.toNat := rfl
@[simp] theorem Regs.inflRegion_base (r : Regs) : r.inflRegion.base = r.inflBase.toNat := rfl
@[simp] theorem Regs.inflRegion_len (r : Regs) : r.inflRegion.len = r.inflCap.toNat := rfl
@[simp] theorem Regs.reconRegion_base (r : Regs) : r.reconRegion.base = r.reconBase.toNat := rfl
@[simp] theorem Regs.reconRegion_len (r : Regs) : r.reconRegion.len = r.reconCap.toNat := rfl

/-! ## Going on with a value, or stopping -/

@[simp] theorem withVal_ok {α : Type} (a : α) (s : State) (k : α → Result) : withVal (.ok a) s k = k a := rfl
@[simp] theorem withVal_raise {α : Type} (e : RunError) (s : State) (k : α → Result) :
    withVal (.error (.raise e)) s k = .next (raise e s) := rfl
@[simp] theorem fetchVal_ok {α : Type} (a : α) (s : State) (k : α → Fetched) : fetchVal (.ok a) s k = k a := rfl
@[simp] theorem fetchVal_error {α : Type} (e : Stop) (s : State) (k : α → Fetched) :
    fetchVal (.error e) s k = .answer (stopAt e s) := rfl

/-- A next state comes from the value, or is an error entry. -/
theorem withVal_next {α : Type} {r : Except Stop α} {s t : State} {k : α → Result} (h : withVal r s k = .next t) :
    (∃ a, r = .ok a ∧ k a = .next t) ∨ ∃ e, r = .error (.raise e) ∧ t = raise e s := by
  cases r with
  | ok a => exact .inl ⟨a, rfl, h⟩
  | error e =>
    cases e with
    | raise e => cases h; exact .inr ⟨e, rfl, rfl⟩
    | fault f => cases h
    | refuse f => cases h

theorem stopAt_next {e : Stop} {s t : State} (h : stopAt e s = .next t) : ∃ r, e = .raise r ∧ t = raise r s := by
  cases e with
  | raise r => cases h; exact ⟨r, rfl, rfl⟩
  | fault f => cases h
  | refuse f => cases h

/-! ## The host's accesses of memory (R114, R119) -/

/-- A host access of a byte of memory that answers a next state reached memory. -/
theorem withHostByte_next {s t : State} {a : Nat} {r : Result} (h : withHostByte s a r = .next t) :
    hostCheck s a = none ∧ r = .next t := by
  unfold withHostByte at h
  split at h
  · cases h
  · exact ⟨‹_›, h⟩

@[simp] theorem hostPut_regs (a : Nat) (b : Byte) (s : State) : (hostPut a b s).regs = s.regs := by
  unfold hostPut; split <;> rfl
@[simp] theorem hostPut_eng (a : Nat) (b : Byte) (s : State) : (hostPut a b s).eng = s.eng := by
  unfold hostPut; split <;> rfl
@[simp] theorem hostPut_mem (a : Nat) (b : Byte) (s : State) : (hostPut a b s).mem = s.mem.write a b := by
  unfold hostPut; split <;> rfl
@[simp] theorem hostPut_host (a : Nat) (b : Byte) (s : State) : (hostPut a b s).host = s.host := by
  unfold hostPut; split <;> rfl
@[simp] theorem hostPut_plat (a : Nat) (b : Byte) (s : State) : (hostPut a b s).plat = s.plat := by
  unfold hostPut; split <;> rfl
@[simp] theorem hostPut_draws (a : Nat) (b : Byte) (s : State) : (hostPut a b s).draws = s.draws := by
  unfold hostPut; split <;> rfl
@[simp] theorem hostPut_rdata (a : Nat) (b : Byte) (s : State) : (hostPut a b s).rdata = s.rdata := by
  unfold hostPut; split <;> rfl
@[simp] theorem hostPut_memData (a : Nat) (b : Byte) (s : State) : (hostPut a b s).memData = s.memData := by
  unfold hostPut; split <;> rfl
@[simp] theorem hostPut_hidden (a : Nat) (b : Byte) (s : State) : (hostPut a b s).hidden = s.hidden := by
  unfold hostPut; split <;> rfl
@[simp] theorem hostPut_unseen (a : Nat) (b : Byte) (s : State) :
    (hostPut a b s).unseen = s.unseen.flatMap (Region.without a) := by
  unfold hostPut; split <;> rfl

/-- The parts a range without `a` is left with hold its other bytes. -/
theorem Region.mem_without (a x : Nat) (r : Region) : (∃ q ∈ r.without a, q.contains x = true) ↔ x ≠ a ∧ r.contains x = true := by
  by_cases h : r.contains a = true
  · simp only [Region.without, h, if_true, List.mem_cons, List.not_mem_nil, or_false, exists_eq_or_imp, exists_eq_left,
      Region.contains_iff]
    rw [Region.contains_iff] at h
    omega
  · simp only [Region.without, h, Bool.false_eq_true, if_false, List.mem_singleton, exists_eq_left]
    exact ⟨fun hx => ⟨fun e => h (e ▸ hx), hx⟩, fun hx => hx.2⟩

/-- The host's byte is observed by the host, and of the others none is that was not (R114). -/
theorem isUnseen_hostPut (a x : Nat) (b : Byte) (s : State) :
    isUnseen (hostPut a b s) x = true ↔ x ≠ a ∧ isUnseen s x = true := by
  simp only [isUnseen, hostPut_unseen, List.any_eq_true, List.mem_flatMap]
  constructor
  · rintro ⟨q, ⟨r, hr, hq⟩, hx⟩
    have h := (Region.mem_without a x r).1 ⟨q, hq, hx⟩
    exact ⟨h.1, r, hr, h.2⟩
  · rintro ⟨hx, r, hr, hc⟩
    obtain ⟨q, hq, hc⟩ := (Region.mem_without a x r).2 ⟨hx, hc⟩
    exact ⟨q, ⟨r, hr, hq⟩, hc⟩

/-! ## Error entry -/

@[simp] theorem havocRegion_regs (s : State) (r : Region) : (havocRegion s r).regs = s.regs := rfl
@[simp] theorem havocRegion_eng (s : State) (r : Region) : (havocRegion s r).eng = s.eng := rfl
@[simp] theorem havocRegion_host (s : State) (r : Region) : (havocRegion s r).host = s.host := rfl
@[simp] theorem havocRegion_plat (s : State) (r : Region) : (havocRegion s r).plat = s.plat := rfl

/-- A property of states that each region's step keeps holds after all of them. -/
theorem havocOutputs_keeps {P : State → Prop} {s : State} (hs : P s)
    (h : ∀ u r, r ∈ s.regs.outputs → P u → P (havocRegion u r)) : P (havocOutputs s) := by
  unfold havocOutputs
  generalize s.regs.outputs = rs at h
  induction rs generalizing s with
  | nil => exact hs
  | cons r rs ih => exact ih (h s r (by simp) hs) fun u q hq => h u q (by simp [hq])

@[simp] theorem havocOutputs_regs (s : State) : (havocOutputs s).regs = s.regs :=
  havocOutputs_keeps (P := fun u => u.regs = s.regs) rfl fun _ _ _ h => h
@[simp] theorem havocOutputs_eng (s : State) : (havocOutputs s).eng = s.eng :=
  havocOutputs_keeps (P := fun u => u.eng = s.eng) rfl fun _ _ _ h => h
@[simp] theorem havocOutputs_host (s : State) : (havocOutputs s).host = s.host :=
  havocOutputs_keeps (P := fun u => u.host = s.host) rfl fun _ _ _ h => h
@[simp] theorem havocOutputs_plat (s : State) : (havocOutputs s).plat = s.plat :=
  havocOutputs_keeps (P := fun u => u.plat = s.plat) rfl fun _ _ _ h => h
@[simp] theorem havocOutputs_rdata (s : State) : (havocOutputs s).rdata = s.rdata :=
  havocOutputs_keeps (P := fun u => u.rdata = s.rdata) rfl fun _ _ _ h => h
@[simp] theorem havocOutputs_memData (s : State) : (havocOutputs s).memData = s.memData :=
  havocOutputs_keeps (P := fun u => u.memData = s.memData) rfl fun _ _ _ h => h
@[simp] theorem havocOutputs_uncleaned (s : State) : (havocOutputs s).uncleaned = s.uncleaned :=
  havocOutputs_keeps (P := fun u => u.uncleaned = s.uncleaned) rfl fun _ _ _ h => h
@[simp] theorem havocOutputs_stale (s : State) : (havocOutputs s).stale = s.stale :=
  havocOutputs_keeps (P := fun u => u.stale = s.stale) rfl fun _ _ _ h => h
@[simp] theorem havocOutputs_hidden (s : State) : (havocOutputs s).hidden = s.hidden :=
  havocOutputs_keeps (P := fun u => u.hidden = s.hidden) rfl fun _ _ _ h => h
@[simp] theorem havocOutputs_unseen (s : State) : (havocOutputs s).unseen = s.unseen :=
  havocOutputs_keeps (P := fun u => u.unseen = s.unseen) rfl fun _ _ _ h => h

/-- R115 frees no byte outside the regions the mode writes. -/
theorem havocOutputs_byteAt {s : State} {a : Nat} (h : Outside s.regs.outputs a) : (havocOutputs s).byteAt a = s.byteAt a := by
  refine havocOutputs_keeps (P := fun u => u.byteAt a = s.byteAt a) rfl fun u r hr hu => ?_
  have hc := h r hr
  rw [← hu]
  unfold State.byteAt
  simp only [havocRegion, Memory.read_setRange]
  rw [if_neg]
  simp only [Region.contains, Bool.and_eq_false_iff, decide_eq_false_iff_not] at hc
  omega

theorem havocOutputs_wf {s : State} (h : s.mem.wf) (hr : ∀ r ∈ s.regs.outputs, r.base < 2 ^ 32) : (havocOutputs s).mem.wf :=
  havocOutputs_keeps (P := fun u => u.mem.wf) h fun _ r hm hu => Memory.wf_setRange _ hu (by have := hr r hm; omega)

/-- The regions begin inside the bus space. -/
theorem outputs_base_lt {r : Regs} {q : Region} (h : q ∈ r.outputs) : q.base < 2 ^ 32 := by
  unfold Regs.outputs at h
  split at h <;> simp only [List.mem_cons, List.not_mem_nil, or_false] at h
  · rcases h with rfl | rfl
    · exact r.inflBase.isLt
    · exact r.reconBase.isLt
  · subst h; exact r.inflBase.isLt
  · subst h; exact r.reconBase.isLt

@[simp] theorem raise_regs (e : RunError) (s : State) : (raise e s).regs = s.regs.withError e := by
  simp [raise]
@[simp] theorem raise_eng (e : RunError) (s : State) : (raise e s).eng = { s.eng with phase := .idle } := by
  simp [raise]
@[simp] theorem raise_host (e : RunError) (s : State) : (raise e s).host = s.host := by
  simp [raise]
@[simp] theorem raise_plat (e : RunError) (s : State) : (raise e s).plat = s.plat := by
  simp [raise]
@[simp] theorem raise_rdata (e : RunError) (s : State) : (raise e s).rdata = s.rdata := by
  simp [raise]
@[simp] theorem raise_memData (e : RunError) (s : State) : (raise e s).memData = s.memData := by
  simp [raise]
@[simp] theorem raise_uncleaned (e : RunError) (s : State) : (raise e s).uncleaned = s.uncleaned := by
  simp [raise]
@[simp] theorem raise_stale (e : RunError) (s : State) : (raise e s).stale = s.stale := by
  simp [raise]
@[simp] theorem raise_hidden (e : RunError) (s : State) : (raise e s).hidden = s.hidden := by
  simp [raise]
@[simp] theorem raise_unseen (e : RunError) (s : State) : (raise e s).unseen = s.unseen := by
  simp [raise]

theorem raise_byteAt {s : State} {a : Nat} (e : RunError) (h : Outside s.regs.outputs a) :
    (raise e s).byteAt a = s.byteAt a :=
  (State.byteAt_congr (s := havocOutputs s) rfl a).trans (havocOutputs_byteAt h)

theorem raise_wf {s : State} (e : RunError) (h : s.mem.wf) : (raise e s).mem.wf :=
  havocOutputs_wf (s := s) h fun _ => outputs_base_lt

/-! ## Reads of the register window after an update -/

/-- An error changes the ERR registers and STATUS alone. -/
theorem regsSame_withError {s t : State} {e : RunError} (h : t.regs = s.regs.withError e) : RegsSame errOffsets s t := by
  intro off hoff
  rw [h]
  unfold readReg
  split <;> first | rfl | (exfalso; apply hoff; simp [errOffsets, ← BitVec.toNat_inj, *])

/-- Error entry, in the words statements use. -/
theorem raise_errorEntry (e : RunError) (s : State) : ErrorEntry e.codeWord e.pos e.aux s (raise e s) := by
  have hr := raise_regs e s
  refine ⟨?_, ?_, ?_, ?_, ?_, ?_, ?_, regsSame_withError hr, by simp, fun a ha => raise_byteAt e ha, by simp, by simp⟩ <;>
    simp [readReg]

/-- ERR_CODE is computed from the name and the SUB alone. -/
theorem codeWord_mk (kind : ErrorKind) (sub pos aux : Nat) :
    (RunError.mk kind sub pos aux).codeWord = trunc32 (kind.code + classOfCode kind.code * 256 + sub * 65536) := by
  unfold RunError.codeWord; with_reducible rfl

/-- Error entry of a named error; with a literal SUB the premise is true by `decide`. -/
theorem errorEntry_raise {kind : ErrorKind} {sub : Nat} {w : Word}
    (hw : trunc32 (kind.code + classOfCode kind.code * 256 + sub * 65536) = w) (pos aux : Nat) (s : State) :
    ErrorEntry w pos aux s (raise ⟨kind, sub, pos, aux⟩ s) := by
  have h := raise_errorEntry ⟨kind, sub, pos, aux⟩ s
  rw [codeWord_mk, hw] at h
  exact h

/-! ## The output of a byte (R431) -/

/-- The state `Emit(b)` hands on. -/
def emitted (b : Byte) (s : State) : State :=
  { putByte s (s.regs.inflBase.toNat + s.eng.out) b with
    regs := { s.regs with inflLen := trunc32 (s.eng.out + 1) }
    eng := { s.eng with
      out := s.eng.out + 1
      s1 := (adlerStep (s.eng.s1, s.eng.s2) b).1
      s2 := (adlerStep (s.eng.s1, s.eng.s2) b).2 } }

theorem emit_room {b : Byte} {s : State} {k : State → Result} (h : s.eng.out < s.regs.inflCap.toNat)
    (hw : Writable s (s.regs.inflBase.toNat + s.eng.out)) : emit b s k = k (emitted b s) := by
  unfold emit
  rw [if_neg (by omega), busWrite_ok.2 ⟨hw, rfl⟩]
  simp [emitted]

theorem emit_full {b : Byte} {s : State} {k : State → Result} (h : s.regs.inflCap.toNat ≤ s.eng.out) :
    emit b s k = .next (raise ⟨.outputOverflow, 1, s.eng.out, s.eng.block⟩ s) := by
  unfold emit
  rw [if_pos h]
  rfl

/-- All that `Emit` can answer. -/
theorem emit_next {b : Byte} {s t : State} {k : State → Result} (h : emit b s k = .next t) :
    (s.eng.out < s.regs.inflCap.toNat ∧ Writable s (s.regs.inflBase.toNat + s.eng.out) ∧ k (emitted b s) = .next t) ∨
      t = raise ⟨.outputOverflow, 1, s.eng.out, s.eng.block⟩ s ∨
      t = raise ⟨.busError, 0, s.regs.inflBase.toNat + s.eng.out, 1⟩ s := by
  by_cases hc : s.regs.inflCap.toNat ≤ s.eng.out
  · rw [emit_full hc] at h
    cases h
    exact .inr (.inl rfl)
  · unfold emit at h
    rw [if_neg hc] at h
    rcases withVal_next h with ⟨u, hu, hk⟩ | ⟨e, he, rfl⟩
    · obtain ⟨hw, rfl⟩ := busWrite_ok.1 hu
      have hc' : s.eng.out < s.regs.inflCap.toNat := by omega
      refine .inl ⟨hc', hw, ?_⟩
      rw [← hk]
      simp [emitted]
    · rw [busWrite_raise he]
      exact .inr (.inr rfl)

end Sys2Proof.Machine
end

