-- ==== Sys2Proof/Laws/Stops.lean ====
section
/-! SUPPORT. How engine work can fail: every reader raises only errors of the table (R541), and a step that fails is an error entry from a
state that still has the step's memory and configuration. -/

namespace Sys2Proof.Machine

/-! ## Readers -/

/-- An error the reader raises has an ERR_CODE word of the table. -/
def Legal {α : Type} (r : Except Stop α) : Prop := ∀ e, r = .error (.raise e) → e.codeWord ∈ legalErrCodes

theorem codeWord_legal {kind : ErrorKind} {sub pos aux : Nat}
    (h : trunc32 (kind.code + classOfCode kind.code * 256 + sub * 65536) ∈ legalErrCodes) :
    (RunError.mk kind sub pos aux).codeWord ∈ legalErrCodes := by
  unfold RunError.codeWord; exact h

theorem busError_legal (pos aux : Nat) : (RunError.mk .busError 0 pos aux).codeWord ∈ legalErrCodes := codeWord_legal (by decide)

theorem Legal.ok {α : Type} (a : α) : Legal (.ok a : Except Stop α) := fun _ h => by cases h

theorem legal_busCheck (s : State) (d : Dir) (a : Nat) : Legal (busCheck s d a) := fun e h => by
  rw [(busCheck_raise h).1]; exact busError_legal _ _

theorem legal_busRead (s : State) (a : Nat) : Legal (busRead s a) := fun e h => by
  rw [busRead_raise h]; exact busError_legal _ _

theorem legal_busWrite (s : State) (a : Nat) (b : Byte) : Legal (busWrite s a b) := fun e h => by
  rw [busWrite_raise h]; exact busError_legal _ _

theorem legal_inByte (s : State) (i : Nat) : Legal (inByte s i) := legal_busRead s _

theorem legal_be32From {rd : Nat → Except Stop Byte} (h : ∀ i, Legal (rd i)) (i : Nat) : Legal (be32From rd i) := by
  intro e he
  unfold be32From at he
  repeat' (split at he)
  all_goals first | (cases he; exact h _ e (by assumption)) | cases he

theorem legal_inBe32 (s : State) (i : Nat) : Legal (inBe32 s i) := legal_be32From (legal_inByte s) i

theorem legal_crcOver (s : State) (n i : Nat) (c : Word) : Legal (crcOver s n i c) := by
  induction n generalizing i c with
  | zero => exact Legal.ok _
  | succ n ih =>
    intro e he
    unfold crcOver at he
    split at he
    · cases he; exact legal_inByte s i e (by assumption)
    · exact ih _ _ e he

theorem legal_checkSignature (s : State) (bs : List Byte) (i : Nat) : Legal (checkSignature s bs i) := by
  induction bs generalizing i with
  | nil => exact Legal.ok _
  | cons b bs ih =>
    intro e he
    unfold checkSignature at he
    split at he
    · cases he; exact codeWord_legal (by decide)
    · split at he
      · cases he; exact legal_inByte s i e (by assumption)
      · split at he
        · exact ih _ e he
        · cases he; exact codeWord_legal (by decide)

theorem legal_streamByte (s : State) (j : Nat) : Legal (streamByte s j) := legal_inByte s _

theorem legal_streamBit (s : State) (k : Nat) : Legal (streamBit s k) := by
  intro e he
  unfold streamBit at he
  split at he
  · cases he; exact codeWord_legal (by decide)
  · split at he
    · cases he; exact legal_streamByte s _ e (by assumption)
    · cases he

/-- A bit that was read lies in the stream. -/
theorem streamBit_ok {s : State} {k : Nat} {b : Bool} (h : streamBit s k = .ok b) : k < 8 * streamLen s := by
  unfold streamBit at h
  split at h
  · cases h
  · omega

theorem legal_readBits (s : State) (pos n : Nat) : Legal (readBits (streamBit s) pos n) := fun e he => by
  obtain ⟨k, hk⟩ := readBits_error he
  exact legal_streamBit s k e hk

/-- A field of the stream fits its width and ends inside the stream. -/
theorem readBits_stream {s : State} {pos n v : Nat} (h : readBits (streamBit s) pos n = .ok v) :
    v < 2 ^ n ∧ (1 ≤ n → pos + n ≤ 8 * streamLen s) := by
  refine ⟨readBits_lt h, fun hn => ?_⟩
  obtain ⟨b, hb⟩ := readBits_read h (n - 1) (by omega)
  have := streamBit_ok hb
  omega

theorem legal_decodeCoded (s : State) (lens : List Nat) (extra : Nat → Nat) (mk : Nat → Nat → Instr) (pos : Nat) :
    Legal (decodeCoded (streamBit s) lens extra mk pos) := fun e he => by
  obtain ⟨k, hk⟩ := decodeCoded_error he
  exact legal_streamBit s k e hk

/-- A coded symbol of the stream ends inside the stream. -/
theorem decodeCoded_stream {s : State} {lens : List Nat} {extra : Nat → Nat} {mk : Nat → Nat → Instr} {pos n : Nat} {i : Instr}
    (h : decodeCoded (streamBit s) lens extra mk pos = .ok (some (i, n))) :
    ∃ sym x, sym < lens.length ∧ x < 2 ^ extra sym ∧ i = mk sym x ∧ pos + n ≤ 8 * streamLen s := by
  obtain ⟨sym, x, h1, h2, h3, h4, h5⟩ := decodeCoded_some h
  obtain ⟨b, hb⟩ := h5 (n - 1) (by omega)
  have := streamBit_ok hb
  exact ⟨sym, x, h1, h2, h3, by omega⟩

theorem legal_readClLens (s : State) (order : List Nat) (pos : Nat) (cl : List Nat) : Legal (readClLens s order pos cl) := by
  induction order generalizing pos cl with
  | nil => exact Legal.ok _
  | cons x xs ih =>
    intro e he
    unfold readClLens at he
    split at he
    · cases he; exact legal_readBits s pos 3 e (by assumption)
    · exact ih _ _ e he

/-- The code-length code's lengths: as many as before, each at most 7, all read inside the stream. -/
theorem readClLens_ok {s : State} {order : List Nat} {pos : Nat} {cl cl' : List Nat} (h : readClLens s order pos cl = .ok cl')
    (hc : ∀ l ∈ cl, l ≤ 7) :
    cl'.length = cl.length ∧ (∀ l ∈ cl', l ≤ 7) ∧ (order ≠ [] → pos + 3 * order.length ≤ 8 * streamLen s) := by
  induction order generalizing pos cl with
  | nil => cases h; exact ⟨rfl, hc, fun h => absurd rfl h⟩
  | cons x xs ih =>
    unfold readClLens at h
    split at h
    · cases h
    · rename_i l hl
      obtain ⟨hlt, hpos⟩ := readBits_stream hl
      have hc' : ∀ y ∈ cl.set x l, y ≤ 7 := fun y hy => by
        rcases List.mem_or_eq_of_mem_set hy with hy | rfl
        · exact hc y hy
        · omega
      obtain ⟨h1, h2, h3⟩ := ih h hc'
      refine ⟨by simpa using h1, h2, fun _ => ?_⟩
      cases xs with
      | nil => simp only [List.length_cons, List.length_nil]; have := hpos (by omega); omega
      | cons y ys => have := h3 (by simp); simp only [List.length_cons] at this ⊢; omega

theorem legal_filteredByte (s : State) (j : Nat) : Legal (filteredByte s j) := legal_busRead s _
theorem legal_reconByte (s : State) (k : Nat) : Legal (reconByte s k) := legal_busRead s _
theorem legal_filtX (s : State) : Legal (filtX s) := legal_filteredByte s _

theorem legal_filtA (s : State) : Legal (filtA s) := by
  unfold filtA; split
  · exact legal_reconByte s _
  · exact Legal.ok _

theorem legal_filtB (s : State) : Legal (filtB s) := by
  unfold filtB; split
  · exact legal_reconByte s _
  · exact Legal.ok _

theorem legal_filtC (s : State) : Legal (filtC s) := by
  unfold filtC; split
  · exact legal_reconByte s _
  · exact Legal.ok _

/-! ## A step that fails -/

/-- What a step may have done before it raises: STAGE and the result registers of the window, and the engine's own cursors. Memory and
everything outside are untouched. -/
structure Touched (s s' : State) : Prop where
  same : SameOutside s s'
  view : SameView s s'
  regs : s'.regs.kept = s.regs.kept

theorem SameOutside.refl (s : State) : SameOutside s s := ⟨rfl, rfl, rfl, rfl, rfl, rfl, rfl, rfl⟩

theorem SameView.refl (s : State) : SameView s s := ⟨rfl, rfl⟩

theorem Touched.refl (s : State) : Touched s s := ⟨SameOutside.refl s, SameView.refl s, rfl⟩

/-- `t` is an error entry, with an error of the table, from a state that touched no memory and no configuration of `s`. -/
def Raised (s t : State) : Prop := ∃ e s', Touched s s' ∧ e.codeWord ∈ legalErrCodes ∧ t = raise e s'

theorem Raised.mk {e : RunError} {s s' t : State} (ht : Touched s s') (he : e.codeWord ∈ legalErrCodes) (h : t = raise e s') :
    Raised s t := ⟨e, s', ht, he, h⟩

/-- An error entry, field by field. -/
theorem Raised.shape {s t : State} (h : Raised s t) :
    ∃ (e : RunError) (r : Regs), e.codeWord ∈ legalErrCodes ∧ r.kept = s.regs.kept ∧ t.regs = r.withError e ∧
      t.eng.phase = .idle ∧ t.host = s.host ∧ t.plat = s.plat ∧ SameView s t ∧ (s.mem.wf → t.mem.wf) ∧
      ∀ x, Outside s.regs.outputs x → t.byteAt x = s.byteAt x := by
  obtain ⟨e, s', ht, he, rfl⟩ := h
  obtain ⟨hm, hh, hpl, -⟩ := ht.same
  have ho : s'.regs.outputs = s.regs.outputs := Regs.kept_outputs ht.regs
  refine ⟨e, s'.regs, he, ht.regs, raise_regs e s', by simp, by simp [hh], by simp [hpl],
    ⟨by simp [ht.view.1], by simp [ht.view.2]⟩, fun h => raise_wf e (hm ▸ h), fun x hx => ?_⟩
  rw [raise_byteAt e (ho ▸ hx)]; exact State.byteAt_congr hm x

/-- A read that fails is an error entry; one that succeeds goes on. -/
theorem withVal_legal {α : Type} {r : Except Stop α} {s s' t : State} {k : α → Result} (h : withVal r s' k = .next t)
    (hr : Legal r) (ht : Touched s s') : Raised s t ∨ ∃ a, r = .ok a ∧ k a = .next t := by
  rcases withVal_next h with h | ⟨e, he, rfl⟩
  · exact .inr h
  · exact .inl ⟨e, s', ht, hr e he, rfl⟩

theorem raiseAt_raised {kind : ErrorKind} {sub pos aux : Nat} {s s' t : State} (h : raiseAt kind sub pos aux s' = .next t)
    (ht : Touched s s') (he : trunc32 (kind.code + classOfCode kind.code * 256 + sub * 65536) ∈ legalErrCodes) : Raised s t := by
  cases h; exact ⟨_, _, ht, codeWord_legal he, rfl⟩

end Sys2Proof.Machine
end

