-- ==== Sys2Proof/Laws/Moves.lean ====
section
/-! SUPPORT. What an engine step can do, said once: every meaning's possible next states, and from them `EngineMove`, the list of all moves
of the engine. A statement about every step is a case analysis over that list. -/

namespace Sys2Proof.Machine

/-! ## Small facts -/

theorem touched_stage (s : State) (g : Stage) : Touched s (s.atStage g) := ⟨SameOutside.refl _, SameView.refl _, rfl⟩

theorem be32From_lt {rd : Nat → Except Stop Byte} {i v : Nat} (h : be32From rd i = .ok v) : v < 2 ^ 32 := by
  unfold be32From at h
  repeat' (split at h)
  all_goals first | cases h
  rename_i a _ _ b _ _ c _ _ d _
  have := a.isLt; have := b.isLt; have := c.isLt; have := d.isLt
  unfold be32Of; omega

theorem Region.wraps_iff (r : Region) : r.wraps = true ↔ 2 ^ 32 < r.base + r.len := by
  simp [Region.wraps]

theorem Region.overlaps_iff (r q : Region) :
    r.overlaps q = true ↔ 0 < r.len ∧ 0 < q.len ∧ r.base < q.base + q.len ∧ q.base < r.base + r.len := by
  simp [Region.overlaps, and_assoc]

/-! ## Signature and chunks -/

theorem checkSignature_ok {s : State} {bs : List Byte} {i : Nat} (h : checkSignature s bs i = .ok ()) (hb : bs ≠ []) :
    i + bs.length ≤ s.regs.inLen.toNat := by
  induction bs generalizing i with
  | nil => exact absurd rfl hb
  | cons b bs ih =>
    unfold checkSignature at h
    split at h
    · cases h
    · split at h
      · cases h
      · split at h
        · cases bs with
          | nil => simp; omega
          | cons c cs => have := ih h (by simp); simp only [List.length_cons] at this ⊢; omega
        · cases h

theorem execSig_next {s t : State} (h : execSig s = .next t) :
    Raised s t ∨ (8 ≤ s.regs.inLen.toNat ∧ t = { s.atStage .signature with eng := { s.eng with phase := .enter .chunks } }) := by
  unfold execSig at h
  rcases withVal_legal h (legal_checkSignature _ _ _) (touched_stage s .signature) with h | ⟨a, ha, hk⟩
  · exact .inl h
  · cases hk
    have := checkSignature_ok ha (by simp [sigBytes])
    exact .inr ⟨by simpa [sigBytes] using this, rfl⟩

/-- The state behind a chunk's CRC check. -/
def withCrc (c : Word) (s : State) : State :=
  { s with regs := { s.regs with crcResult := crcFinal c }, eng := { s.eng with crc := c } }

theorem touched_withCrc (c : Word) (s : State) : Touched s (withCrc c s) := ⟨SameOutside.refl _, SameView.refl _, rfl⟩

theorem readChunk_next {len typ : Word} {k : State → Result} {s t : State} (h : readChunk len typ k s = .next t) :
    Raised s t ∨ (s.eng.p + 12 + len.toNat ≤ s.regs.inLen.toNat ∧ ∃ c, k (withCrc c s) = .next t) := by
  unfold readChunk at h
  simp only at h
  split at h
  · exact .inl (raiseAt_raised h (Touched.refl s) (by decide))
  · rcases withVal_legal h (legal_crcOver _ _ _ _) (Touched.refl s) with h | ⟨c, -, h⟩
    · exact .inl h
    · rcases withVal_legal h (legal_inBe32 _ _) (touched_withCrc c s) with h | ⟨v, -, h⟩
      · exact .inl h
      · split at h
        · exact .inr ⟨by omega, c, h⟩
        · exact .inl (raiseAt_raised h (touched_withCrc c s) (by decide))

/-- The state behind an accepted chunk (R258). -/
def accepted (len typ c : Word) (s : State) : State :=
  { s with
    regs := { s.regs with crcResult := crcFinal c }
    eng := { s.eng with
      crc := c, chunks := s.eng.chunks ++ [⟨s.eng.p, len.toNat, typ⟩], p := s.eng.p + 12 + len.toNat, phase := .chunk } }

theorem accept_next {len typ : Word} {s t : State} (h : readChunk len typ (acceptChunk len typ) s = .next t) :
    Raised s t ∨ (s.eng.p + 12 + len.toNat ≤ s.regs.inLen.toNat ∧ ∃ c, t = accepted len typ c s) := by
  rcases readChunk_next h with h | ⟨hl, c, h⟩
  · exact .inl h
  · cases h; exact .inr ⟨hl, c, rfl⟩

theorem execChunkIend_next {len : Word} {s t : State} (h : execChunkIend len s = .next t) :
    Raised s t ∨ (s.eng.p + 12 + len.toNat ≤ s.regs.inLen.toNat ∧ ∃ c, t = endWalk (recordChunk len typIEND (withCrc c s))) := by
  rcases readChunk_next h with h | ⟨hl, c, h⟩
  · exact .inl h
  · cases h; exact .inr ⟨hl, c, rfl⟩

theorem execChunkUnknownCritical_next {len typ : Word} {s t : State} (h : execChunkUnknownCritical len typ s = .next t) :
    Raised s t := by
  rcases readChunk_next h with h | ⟨hl, c, h⟩
  · exact h
  · exact raiseAt_raised h (touched_withCrc c s) (by decide)

theorem headerError_some {p w h bd ct cm fm im : Nat} {e : RunError} (he : headerError p w h bd ct cm fm im = some e) :
    e.codeWord ∈ legalErrCodes := by
  unfold headerError at he
  repeat' (split at he)
  all_goals first | (cases he; exact codeWord_legal (by decide)) | cases he

theorem headerError_none {p w h bd ct cm fm im : Nat} (he : headerError p w h bd ct cm fm im = none) :
    w ≠ 0 ∧ h ≠ 0 ∧ permitted bd ct = true ∧ cm = 0 ∧ fm = 0 ∧ im = 0 := by
  unfold headerError at he
  repeat' (split at he)
  all_goals first | cases he
  simp_all

theorem checkHeader_next {len : Word} {s t : State} (h : checkHeader len s = .next t) :
    Raised s t ∨ ∃ w h bd ct, w ≠ 0 ∧ w < 2 ^ 32 ∧ h ≠ 0 ∧ h < 2 ^ 32 ∧ bd < 256 ∧ ct < 256 ∧ permitted bd ct = true ∧
      t = writeHeader w h bd ct 0 0 0 s := by
  unfold checkHeader at h
  simp only at h
  split at h
  · exact .inl (raiseAt_raised h (Touched.refl s) (by decide))
  · rcases withVal_legal h (legal_inBe32 _ _) (Touched.refl s) with h | ⟨w, hw, h⟩; · exact .inl h
    rcases withVal_legal h (legal_inBe32 _ _) (Touched.refl s) with h | ⟨ht, hh, h⟩; · exact .inl h
    rcases withVal_legal h (legal_inByte _ _) (Touched.refl s) with h | ⟨bd, -, h⟩; · exact .inl h
    rcases withVal_legal h (legal_inByte _ _) (Touched.refl s) with h | ⟨ct, -, h⟩; · exact .inl h
    rcases withVal_legal h (legal_inByte _ _) (Touched.refl s) with h | ⟨cm, -, h⟩; · exact .inl h
    rcases withVal_legal h (legal_inByte _ _) (Touched.refl s) with h | ⟨fm, -, h⟩; · exact .inl h
    rcases withVal_legal h (legal_inByte _ _) (Touched.refl s) with h | ⟨im, -, h⟩; · exact .inl h
    split at h
    · cases h; exact .inl (Raised.mk (Touched.refl s) (headerError_some ‹_›) rfl)
    · cases h
      obtain ⟨h1, h2, h3, h4, h5, h6⟩ := headerError_none ‹_›
      refine .inr ⟨w, ht, bd.toNat, ct.toNat, h1, be32From_lt hw, h2, be32From_lt hh, bd.isLt, ct.isLt, h3, ?_⟩
      rw [h4, h5, h6]

theorem checkPalette_next {len : Word} {s t : State} (h : checkPalette len s = .next t) :
    Raised s t ∨ t = writePalette (paletteOff s) len.toNat s := by
  unfold checkPalette at h
  split at h
  · cases h
    refine .inl (Raised.mk (Touched.refl s) ?_ rfl)
    rename_i he
    unfold paletteError at he
    repeat' (split at he)
    all_goals first | (cases he; exact codeWord_legal (by decide)) | cases he
  · cases h; exact .inr rfl

/-! ## Inflate -/

theorem literal_next {b : Byte} {s s' t : State} (h : literal b s' = .next t) (ht : Touched s s') :
    Raised s t ∨ (s'.eng.out < s'.regs.inflCap.toNat ∧ Writable s' (s'.regs.inflBase.toNat + s'.eng.out) ∧
      t = { emitted b s' with eng := { (emitted b s').eng with phase := .litLen } }) := by
  rcases emit_next h with ⟨h1, h2, h3⟩ | h | h
  · cases h3; exact .inr ⟨h1, h2, rfl⟩
  · exact .inl (Raised.mk ht (codeWord_legal (by decide)) h)
  · exact .inl (Raised.mk ht (busError_legal _ _) h)

theorem storedStep_next {n : Nat} {s t : State} (h : storedStep n s = .next t) :
    Raised s t ∨ (n = 0 ∧ t = endBlock s) ∨
      ∃ m b, n = m + 1 ∧ s.eng.bitpos + 8 ≤ 8 * streamLen s ∧ s.eng.out < s.regs.inflCap.toNat ∧
        Writable s (s.regs.inflBase.toNat + s.eng.out) ∧
        t = { emitted b (atBit (s.eng.bitpos + 8) s) with
          eng := { (emitted b (atBit (s.eng.bitpos + 8) s)).eng with phase := .stored m } } := by
  unfold storedStep at h
  split at h
  · cases h; exact .inr (.inl ⟨rfl, rfl⟩)
  · rename_i m
    rcases withVal_legal h (legal_readBits _ _ _) (Touched.refl s) with h | ⟨v, hv, h⟩; · exact .inl h
    have ht : Touched s (atBit (s.eng.bitpos + 8) s) := ⟨SameOutside.refl _, SameView.refl _, rfl⟩
    rcases emit_next h with ⟨h1, h2, h3⟩ | h | h
    · cases h3; exact .inr (.inr ⟨m, _, rfl, (readBits_stream hv).2 (by omega), h1, h2, rfl⟩)
    · exact .inl (Raised.mk ht (codeWord_legal (by decide)) h)
    · exact .inl (Raised.mk ht (busError_legal _ _) h)

theorem copyStep_next {n d : Nat} {s t : State} (h : copyStep n d s = .next t) :
    Raised s t ∨ (n = 0 ∧ t = { s with eng := { s.eng with phase := .litLen } }) ∨
      ∃ m b, n = m + 1 ∧ busRead s (s.regs.inflBase.toNat + s.eng.out - d) = .ok b ∧ s.eng.out < s.regs.inflCap.toNat ∧
        Writable s (s.regs.inflBase.toNat + s.eng.out) ∧
        t = { emitted b s with eng := { (emitted b s).eng with phase := .copy m d } } := by
  unfold copyStep at h
  split at h
  · cases h; exact .inr (.inl ⟨rfl, rfl⟩)
  · rename_i m
    rcases withVal_legal h (legal_busRead _ _) (Touched.refl s) with h | ⟨b, hb, h⟩; · exact .inl h
    rcases emit_next h with ⟨h1, h2, h3⟩ | h | h
    · cases h3; exact .inr (.inr ⟨m, b, rfl, hb, h1, h2, rfl⟩)
    · exact .inl (Raised.mk (Touched.refl s) (codeWord_legal (by decide)) h)
    · exact .inl (Raised.mk (Touched.refl s) (busError_legal _ _) h)

theorem startCopy_next {d : Nat} {s s' t : State} (h : startCopy d s' = .next t) (ht : Touched s s') :
    Raised s t ∨ (d ≤ s'.eng.out ∧ t = { s' with eng := { s'.eng with phase := .copy (matchLength s') d } }) := by
  unfold startCopy at h
  split at h
  · exact .inl (raiseAt_raised h ht (by decide))
  · cases h; exact .inr ⟨by omega, rfl⟩

theorem raiseCode_raised {sub pos : Nat} {s s' t : State} (h : raiseCode sub pos s' = .next t) (ht : Touched s s')
    (hs : 1 ≤ sub ∧ sub ≤ 13) : Raised s t := by
  refine raiseAt_raised h ht ?_
  obtain ⟨h1, h2⟩ := hs
  have : sub = 1 ∨ sub = 2 ∨ sub = 3 ∨ sub = 4 ∨ sub = 5 ∨ sub = 6 ∨ sub = 7 ∨ sub = 8 ∨ sub = 9 ∨ sub = 10 ∨ sub = 11 ∨
      sub = 12 ∨ sub = 13 := by omega
  rcases this with rfl | rfl | rfl | rfl | rfl | rfl | rfl | rfl | rfl | rfl | rfl | rfl | rfl <;> decide

theorem blockStored_next {f : Bool} {s s' t : State} (h : execBlockStored f s' = .next t) (ht : Touched s s') :
    Raised s t ∨ ∃ len, len < 2 ^ 16 ∧ alignBit s'.eng.bitpos + 32 ≤ 8 * streamLen s' ∧
      t = { s' with
        eng := { s'.eng with bfinal := f, bitpos := alignBit s'.eng.bitpos + 32, phase := .stored len } } := by
  have ht' : Touched s { s' with eng := { s'.eng with bfinal := f, bitpos := alignBit s'.eng.bitpos } } :=
    ⟨ht.same, ht.view, ht.regs⟩
  unfold execBlockStored at h
  rcases withVal_legal h (legal_readBits _ _ _) ht' with h | ⟨len, hl, h⟩; · exact .inl h
  rcases withVal_legal h (legal_readBits _ _ _) ht' with h | ⟨nlen, hn, h⟩; · exact .inl h
  split at h
  · cases h
    have := (readBits_stream hn).2 (by omega)
    exact .inr ⟨len, readBits_lt hl, this, rfl⟩
  · exact .inl (raiseAt_raised h ht' (by decide))

theorem blockDynamic_next {f : Bool} {s s' t : State} (h : execBlockDynamic f s' = .next t) (ht : Touched s s') :
    Raised s t ∨ ∃ cl nlit ndist pos, CodeOk 19 7 cl ∧ 257 ≤ nlit ∧ nlit ≤ 286 ∧ 1 ≤ ndist ∧ ndist ≤ 30 ∧
      s'.eng.bitpos ≤ pos ∧ pos ≤ 8 * streamLen s' ∧
      t = { s' with
        eng := { s'.eng with
          bfinal := f, dyn := true, cl := cl, lens := [], nlit := nlit, ndist := ndist, bitpos := pos, phase := .clSym } } := by
  have ht' : Touched s { s' with eng := { s'.eng with bfinal := f, dyn := true } } := ⟨ht.same, ht.view, ht.regs⟩
  unfold execBlockDynamic at h
  rcases withVal_legal h (legal_readBits _ _ _) ht' with h | ⟨hlit, -, h⟩; · exact .inl h
  rcases withVal_legal h (legal_readBits _ _ _) ht' with h | ⟨hdist, -, h⟩; · exact .inl h
  rcases withVal_legal h (legal_readBits _ _ _) ht' with h | ⟨hclen, hc, h⟩; · exact .inl h
  split at h
  · exact .inl (raiseCode_raised h ht' (by omega))
  split at h
  · exact .inl (raiseCode_raised h ht' (by omega))
  rcases withVal_legal h (legal_readClLens _ _ _ _) ht' with h | ⟨cl, hcl, h⟩; · exact .inl h
  have hc16 : hclen < 16 := readBits_lt hc
  obtain ⟨h1, h2, h3⟩ := readClLens_ok hcl fun l hl => by rw [List.eq_of_mem_replicate hl]; omega
  have hlen : (clOrder.take (hclen + 4)).length = hclen + 4 := by simp [clOrder]; omega
  have h3' := h3 (fun hn => by rw [hn] at hlen; simp at hlen)
  rw [hlen] at h3'
  split at h
  · exact .inl (raiseCode_raised h ⟨ht'.same, ht'.view, ht'.regs⟩ (by omega))
  · cases h
    refine .inr ⟨cl, hlit + 257, hdist + 1, s'.eng.bitpos + 14 + 3 * (hclen + 4), ⟨by simpa using h1, h2, ?_⟩, by omega, by omega,
      by omega, by omega, by omega, h3', rfl⟩
    simpa using ‹¬overSubscribed cl = true›

theorem blockReserved_raised {f : Bool} {s s' t : State} (h : execBlockReserved f s' = .next t) (ht : Touched s s') : Raised s t :=
  raiseAt_raised (s' := { s' with eng := { s'.eng with bfinal := f } }) h ⟨ht.same, ht.view, ht.regs⟩ (by decide)

/-- The lengths of R349 grow, or the split (R355) found both codes in order. -/
theorem appendLens_next {ls : List Nat} {s s' t : State} (h : appendLens ls s' = .next t) (ht : Touched s s') :
    Raised s t ∨
      ((s'.eng.lens ++ ls).length < s'.eng.nlit + s'.eng.ndist ∧
        t = { s' with eng := { s'.eng with lens := s'.eng.lens ++ ls, phase := .clSym } }) ∨
      ∃ litlen dist, ((∀ l ∈ s'.eng.lens ++ ls, l ≤ 15) → (∀ l ∈ litlen, l ≤ 15) ∧ ∀ l ∈ dist, l ≤ 15) ∧
        overSubscribed litlen = false ∧ overSubscribed dist = false ∧
        (s'.eng.nlit ≤ 288 → s'.eng.nlit ≤ (s'.eng.lens ++ ls).length → litlen.length = 288) ∧
        (s'.eng.ndist ≤ 32 → s'.eng.nlit + s'.eng.ndist ≤ (s'.eng.lens ++ ls).length → dist.length = 32) ∧
        s'.eng.nlit + s'.eng.ndist ≤ (s'.eng.lens ++ ls).length ∧
        t = { s' with
          eng := { s'.eng with lens := s'.eng.lens ++ ls, litlen := litlen, dist := dist, phase := .litLen } } := by
  unfold appendLens at h
  simp only at h
  split at h
  · cases h; exact .inr (.inl ⟨‹_›, rfl⟩)
  · rename_i hn
    unfold splitAndCheck at h
    simp only at h
    split at h
    · exact .inl (raiseCode_raised h ⟨ht.same, ht.view, ht.regs⟩ (by omega))
    split at h
    · exact .inl (raiseCode_raised h ⟨ht.same, ht.view, ht.regs⟩ (by omega))
    split at h
    · exact .inl (raiseCode_raised h ⟨ht.same, ht.view, ht.regs⟩ (by omega))
    cases h
    refine .inr (.inr ⟨_, _, fun hl => ⟨?_, ?_⟩, eq_false_of_ne_true ‹_›, eq_false_of_ne_true ‹_›, ?_, ?_, by omega, rfl⟩)
    · intro l hm
      rcases List.mem_append.1 hm with hm | hm
      · exact hl l (List.mem_of_mem_take hm)
      · rw [List.eq_of_mem_replicate hm]; omega
    · intro l hm
      rcases List.mem_append.1 hm with hm | hm
      · exact hl l (List.mem_of_mem_drop (List.mem_of_mem_take hm))
      · rw [List.eq_of_mem_replicate hm]; omega
    · intro h1 h2
      simp only [List.length_append, List.length_take, List.length_replicate] at h2 ⊢; omega
    · intro h1 h2
      simp only [List.length_append, List.length_take, List.length_drop, List.length_replicate] at h2 ⊢; omega

theorem repeatLens_next {r v : Nat} {s s' t : State} (h : repeatLens r v s' = .next t) (ht : Touched s s') :
    Raised s t ∨ (s'.eng.lens.length + r ≤ s'.eng.nlit + s'.eng.ndist ∧ appendLens (List.replicate r v) s' = .next t) := by
  unfold repeatLens at h
  split at h
  · exact .inl (raiseCode_raised h ht (by omega))
  · exact .inr ⟨by omega, h⟩

/-! ## Unfilter -/

/-- The state after byte `i` of the row was written as `v` under filter `ft` (R495, R503, R505). -/
def rowWritten (ft v : Byte) (s : State) : State :=
  let s1 := putByte s (s.regs.reconBase.toNat + s.eng.row * rb s + rowIndex s) v
  if rowIndex s + 1 < rb s then { s1 with eng := { s1.eng with phase := .rowByte ft (rowIndex s + 1) } } else endRow s1

theorem writeRowByte_ok {ft v : Byte} {s : State}
    (h : Writable s (s.regs.reconBase.toNat + s.eng.row * rb s + rowIndex s)) :
    writeRowByte ft v s = .next (rowWritten ft v s) := by
  unfold writeRowByte
  rw [busWrite_ok.2 ⟨h, rfl⟩]
  simp only [withVal_ok, rowWritten]
  split <;> rfl

theorem writeRowByte_next {ft v : Byte} {s s' t : State} (h : writeRowByte ft v s' = .next t) (ht : Touched s s') :
    Raised s t ∨ (Writable s' (s'.regs.reconBase.toNat + s'.eng.row * rb s' + rowIndex s') ∧ t = rowWritten ft v s') := by
  unfold writeRowByte at h
  rcases withVal_legal h (legal_busWrite _ _ _) ht with h | ⟨u, hu, h⟩
  · exact .inl h
  · obtain ⟨hw, rfl⟩ := busWrite_ok.1 hu
    refine .inr ⟨hw, ?_⟩
    unfold rowWritten
    split at h
    · cases h; rename_i hc; simp [hc]
    · cases h; rename_i hc; simp [hc]

/-- What a filter row does: its error, or one byte under one of the five filters (R497 to R503). -/
theorem exec_filter {ft : Byte} {s s' t : State} (h : exec (instrOfFilter ft) s' = .next t) (ht : Touched s s') :
    Raised s t ∨ ∃ v, ft.toNat ≤ 4 ∧ Writable s' (s'.regs.reconBase.toNat + s'.eng.row * rb s' + rowIndex s') ∧
      t = rowWritten ft v s' := by
  have fin : ∀ {g v : Byte}, ft = g → g.toNat ≤ 4 → writeRowByte g v s' = .next t → Raised s t ∨ ∃ v, ft.toNat ≤ 4 ∧
      Writable s' (s'.regs.reconBase.toNat + s'.eng.row * rb s' + rowIndex s') ∧ t = rowWritten ft v s' := by
    intro g v hg h4 h
    subst hg
    rcases writeRowByte_next h ht with h | ⟨h1, h2⟩
    · exact .inl h
    · exact .inr ⟨v, h4, h1, h2⟩
  unfold instrOfFilter at h
  split at h
  · rcases withVal_legal h (legal_filtX _) ht with h | ⟨x, -, h⟩; · exact .inl h
    exact fin (BitVec.eq_of_toNat_eq ‹_›) (by decide) h
  · rcases withVal_legal h (legal_filtX _) ht with h | ⟨x, -, h⟩; · exact .inl h
    rcases withVal_legal h (legal_filtA _) ht with h | ⟨a, -, h⟩; · exact .inl h
    exact fin (BitVec.eq_of_toNat_eq ‹_›) (by decide) h
  · rcases withVal_legal h (legal_filtX _) ht with h | ⟨x, -, h⟩; · exact .inl h
    rcases withVal_legal h (legal_filtB _) ht with h | ⟨a, -, h⟩; · exact .inl h
    exact fin (BitVec.eq_of_toNat_eq ‹_›) (by decide) h
  · rcases withVal_legal h (legal_filtX _) ht with h | ⟨x, -, h⟩; · exact .inl h
    rcases withVal_legal h (legal_filtA _) ht with h | ⟨a, -, h⟩; · exact .inl h
    rcases withVal_legal h (legal_filtB _) ht with h | ⟨b, -, h⟩; · exact .inl h
    exact fin (BitVec.eq_of_toNat_eq ‹_›) (by decide) h
  · rcases withVal_legal h (legal_filtX _) ht with h | ⟨x, -, h⟩; · exact .inl h
    rcases withVal_legal h (legal_filtA _) ht with h | ⟨a, -, h⟩; · exact .inl h
    rcases withVal_legal h (legal_filtB _) ht with h | ⟨b, -, h⟩; · exact .inl h
    rcases withVal_legal h (legal_filtC _) ht with h | ⟨c, -, h⟩; · exact .inl h
    exact fin (BitVec.eq_of_toNat_eq ‹_›) (by decide) h
  · exact .inl (raiseAt_raised h ht (by decide))

end Sys2Proof.Machine
end

