-- ==== Sys2Proof/Laws/Engine.lean ====
section
/-! SUPPORT. `EngineMove`: every way the engine can take one step of a run, and the theorem that there is no other. -/

namespace Sys2Proof.Machine

theorem step_eq (s : State) : step s = (fetch s).result := rfl

/-- The state in which a coded symbol that took `n` bits is executed. -/
def behindSymbol (n : Nat) (s : State) : State :=
  { s with eng := { s.eng with sp := s.eng.bitpos, bitpos := s.eng.bitpos + n } }

/-- The state in which a block header is executed. -/
def behindHeader (s : State) : State :=
  { s with eng := { s.eng with hpos := s.eng.bitpos, bitpos := s.eng.bitpos + 3 } }

/-- The state in which the filter of a row's first byte is executed. -/
def atRowStart (ft : Byte) (s : State) : State := { s with eng := { s.eng with phase := .rowByte ft 0 } }

/-! ## The moves' states, field by field -/

@[simp] theorem emitted_regs (b : Byte) (s : State) :
    (emitted b s).regs = { s.regs with inflLen := trunc32 (s.eng.out + 1) } := rfl
@[simp] theorem emitted_eng (b : Byte) (s : State) :
    (emitted b s).eng = { s.eng with
      out := s.eng.out + 1
      s1 := (s.eng.s1 + b.toNat) % 65521
      s2 := (s.eng.s2 + (s.eng.s1 + b.toNat) % 65521) % 65521 } := rfl
@[simp] theorem emitted_mem (b : Byte) (s : State) :
    (emitted b s).mem = s.mem.write (s.regs.inflBase.toNat + s.eng.out) b := putByte_mem _ _ _
@[simp] theorem emitted_host (b : Byte) (s : State) : (emitted b s).host = s.host := putByte_host _ _ _
@[simp] theorem emitted_plat (b : Byte) (s : State) : (emitted b s).plat = s.plat := putByte_plat _ _ _
@[simp] theorem emitted_draws (b : Byte) (s : State) : (emitted b s).draws = s.draws := putByte_draws _ _ _

@[simp] theorem withCrc_regs (c : Word) (s : State) : (withCrc c s).regs = { s.regs with crcResult := crcFinal c } := rfl
@[simp] theorem withCrc_eng (c : Word) (s : State) : (withCrc c s).eng = { s.eng with crc := c } := rfl
@[simp] theorem withCrc_mem (c : Word) (s : State) : (withCrc c s).mem = s.mem := rfl
@[simp] theorem accepted_regs (len typ c : Word) (s : State) :
    (accepted len typ c s).regs = { s.regs with crcResult := crcFinal c } := rfl
@[simp] theorem accepted_eng (len typ c : Word) (s : State) :
    (accepted len typ c s).eng = { s.eng with
      crc := c, chunks := s.eng.chunks ++ [⟨s.eng.p, len.toNat, typ⟩], p := s.eng.p + 12 + len.toNat, phase := .chunk } := rfl
@[simp] theorem accepted_mem (len typ c : Word) (s : State) : (accepted len typ c s).mem = s.mem := rfl

@[simp] theorem behindSymbol_regs (n : Nat) (s : State) : (behindSymbol n s).regs = s.regs := rfl
@[simp] theorem behindSymbol_eng (n : Nat) (s : State) :
    (behindSymbol n s).eng = { s.eng with sp := s.eng.bitpos, bitpos := s.eng.bitpos + n } := rfl
@[simp] theorem behindSymbol_mem (n : Nat) (s : State) : (behindSymbol n s).mem = s.mem := rfl
@[simp] theorem behindHeader_regs (s : State) : (behindHeader s).regs = s.regs := rfl
@[simp] theorem behindHeader_eng (s : State) :
    (behindHeader s).eng = { s.eng with hpos := s.eng.bitpos, bitpos := s.eng.bitpos + 3 } := rfl
@[simp] theorem behindHeader_mem (s : State) : (behindHeader s).mem = s.mem := rfl
@[simp] theorem atRowStart_regs (ft : Byte) (s : State) : (atRowStart ft s).regs = s.regs := rfl
@[simp] theorem atRowStart_eng (ft : Byte) (s : State) : (atRowStart ft s).eng = { s.eng with phase := .rowByte ft 0 } := rfl
@[simp] theorem atRowStart_mem (ft : Byte) (s : State) : (atRowStart ft s).mem = s.mem := rfl

/-- A row's geometry depends on the window alone. -/
theorem geom_congr {s t : State} (h : t.regs = s.regs) :
    rb t = rb s ∧ stride t = stride s ∧ bpp t = bpp s ∧ geomHeight t = geomHeight s ∧ geomWidth t = geomWidth s ∧
      geomFormat t = geomFormat s ∧ filteredLen t = filteredLen s := by
  simp [stride, rb, bpp, geomHeight, geomWidth, geomFormat, filteredLen, isFull, h]

/-- The stream's length depends on the window and the chunks alone. -/
theorem streamLen_congr {s t : State} (h : t.regs = s.regs) (hc : t.eng.chunks = s.eng.chunks) : streamLen t = streamLen s := by
  simp [streamLen, isFull, h, hc]

theorem rowWritten_regs (ft v : Byte) (s : State) :
    (rowWritten ft v s).regs =
      if rowIndex s + 1 < rb s then s.regs
      else if s.eng.row + 1 < geomHeight s then { s.regs with reconLen := trunc32 ((s.eng.row + 1) * rb s) }
      else { s.regs with reconLen := trunc32 ((s.eng.row + 1) * rb s), done := true, busy := false } := by
  obtain ⟨h1, -, -, h2, -⟩ := geom_congr (putByte_regs s (s.regs.reconBase.toNat + s.eng.row * rb s + rowIndex s) v)
  unfold rowWritten endRow
  simp only [h1, h2, putByte_eng]
  split
  · simp
  · split <;> simp

theorem rowWritten_eng (ft v : Byte) (s : State) :
    (rowWritten ft v s).eng =
      if rowIndex s + 1 < rb s then { s.eng with phase := .rowByte ft (rowIndex s + 1) }
      else if s.eng.row + 1 < geomHeight s then { s.eng with row := s.eng.row + 1, phase := .row }
      else { s.eng with row := s.eng.row + 1, phase := .idle } := by
  obtain ⟨h1, -, -, h2, -⟩ := geom_congr (putByte_regs s (s.regs.reconBase.toNat + s.eng.row * rb s + rowIndex s) v)
  unfold rowWritten endRow
  simp only [h1, h2, putByte_eng]
  split
  · simp
  · split <;> simp

theorem rowWritten_mem (ft v : Byte) (s : State) :
    (rowWritten ft v s).mem = s.mem.write (s.regs.reconBase.toNat + s.eng.row * rb s + rowIndex s) v := by
  unfold rowWritten endRow
  simp only
  split
  · simp
  · split <;> simp

/-- The moves of the engine from `s`, rule by rule. -/
inductive EngineMove (s : State) : State → Prop
  /-- With no run the engine stays (R600). -/
  | idle (hp : s.eng.phase = .idle) : EngineMove s s
  /-- An error ends the run (R14). -/
  | raised {t : State} (h : Raised s t) : EngineMove s t
  /-- R35. -/
  | enter (g : Stage) (hp : s.eng.phase = .enter g) : EngineMove s (enterStage g s)
  /-- R206. -/
  | config (hp : s.eng.phase = .config) (hc : configError s.regs = none) :
      EngineMove s { s.atStage .config with eng := { s.eng with phase := .enter (modeEntry s.regs) } }
  /-- R252. -/
  | signature (hp : s.eng.phase = .sig) (hl : 8 ≤ s.regs.inLen.toNat) :
      EngineMove s { s.atStage .signature with eng := { s.eng with phase := .enter .chunks } }
  /-- R254, R258. -/
  | chunk (len typ c : Word) (hp : s.eng.phase = .chunk) (hl : s.eng.p + 12 + len.toNat ≤ s.regs.inLen.toNat) :
      EngineMove s (accepted len typ c s)
  /-- R256. -/
  | lastChunk (len c : Word) (hp : s.eng.phase = .chunk) (hl : s.eng.p + 12 + len.toNat ≤ s.regs.inLen.toNat) :
      EngineMove s (endWalk (recordChunk len typIEND (withCrc c s)))
  /-- R253, R259. -/
  | walkEnd (hp : s.eng.phase = .chunk) (hl : s.eng.p = s.regs.inLen.toNat) : EngineMove s (endWalk s)
  /-- R267. -/
  | header (w h bd ct : Nat) (hp : s.eng.phase = .header) (hw : w ≠ 0 ∧ w < 2 ^ 32) (hh : h ≠ 0 ∧ h < 2 ^ 32)
      (hb : bd < 256 ∧ ct < 256) (hf : permitted bd ct = true) : EngineMove s (writeHeader w h bd ct 0 0 0 s)
  /-- R268, no palette. -/
  | noPalette (hp : s.eng.phase = .palette) :
      EngineMove s { s with eng := { s.eng with phase := .enter .zlibHeader } }
  /-- R272. -/
  | palette (p len : Nat) (hp : s.eng.phase = .palette) : EngineMove s (writePalette p len s)
  /-- R330, R331. -/
  | zlibCm (cmf flg : Byte) (hp : s.eng.phase = .inflate) (hl : 2 ≤ streamLen s) :
      EngineMove s { s with eng := { s.eng with phase := .zlibFdict cmf flg } }
  /-- R332. -/
  | zlibFdict (cmf flg : Byte) (hp : s.eng.phase = .zlibFdict cmf flg) :
      EngineMove s { s with eng := { s.eng with phase := .zlibFcheck cmf flg } }
  /-- R333, R336. -/
  | zlibFcheck (cmf flg : Byte) (hp : s.eng.phase = .zlibFcheck cmf flg) :
      EngineMove s { s with eng := { s.eng with phase := .enter .blocks } }
  /-- R339, R340. -/
  | storedBlock (f : Bool) (len : Nat) (hp : s.eng.phase = .block) (hl : len < 2 ^ 16)
      (hb : alignBit (s.eng.bitpos + 3) + 32 ≤ 8 * streamLen s) :
      EngineMove s { behindHeader s with
        eng := { (behindHeader s).eng with
          bfinal := f, bitpos := alignBit (s.eng.bitpos + 3) + 32, phase := .stored len } }
  /-- R342. -/
  | fixedBlock (f : Bool) (hp : s.eng.phase = .block) (hb : s.eng.bitpos + 3 ≤ 8 * streamLen s) :
      EngineMove s { behindHeader s with
        eng := { (behindHeader s).eng with
          bfinal := f, dyn := false, litlen := fixedLitLen, dist := fixedDist, phase := .litLen } }
  /-- R343 to R348. -/
  | dynamicBlock (f : Bool) (cl : List Nat) (nlit ndist pos : Nat) (hp : s.eng.phase = .block) (hc : CodeOk 19 7 cl)
      (hn : 257 ≤ nlit ∧ nlit ≤ 286) (hd : 1 ≤ ndist ∧ ndist ≤ 30) (hb : s.eng.bitpos + 3 ≤ pos ∧ pos ≤ 8 * streamLen s) :
      EngineMove s { behindHeader s with
        eng := { (behindHeader s).eng with
          bfinal := f, dyn := true, cl := cl, lens := [], nlit := nlit, ndist := ndist, bitpos := pos, phase := .clSym } }
  /-- R341, at its end. -/
  | storedDone (hp : s.eng.phase = .stored 0) : EngineMove s (endBlock s)
  /-- R341. -/
  | storedByte (n : Nat) (b : Byte) (hp : s.eng.phase = .stored (n + 1)) (hb : s.eng.bitpos + 8 ≤ 8 * streamLen s)
      (hr : s.eng.out < s.regs.inflCap.toNat) (hw : Writable s (s.regs.inflBase.toNat + s.eng.out)) :
      EngineMove s { emitted b (atBit (s.eng.bitpos + 8) s) with
        eng := { (emitted b (atBit (s.eng.bitpos + 8) s)).eng with phase := .stored n } }
  /-- R349 to R354, more lengths to come. -/
  | clMore (n : Nat) (ls : List Nat) (hp : s.eng.phase = .clSym) (hb : s.eng.bitpos + n ≤ 8 * streamLen s)
      (hl : ∀ l ∈ ls, l ≤ 15 ∨ l ∈ s.eng.lens) (hm : s.eng.lens.length + ls.length < s.eng.nlit + s.eng.ndist) :
      EngineMove s { behindSymbol n s with
        eng := { (behindSymbol n s).eng with lens := s.eng.lens ++ ls, phase := .clSym } }
  /-- R355 to R358. -/
  | clDone (n : Nat) (ls litlen dist : List Nat) (hp : s.eng.phase = .clSym) (hb : s.eng.bitpos + n ≤ 8 * streamLen s)
      (h15 : (∀ l ∈ s.eng.lens, l ≤ 15) → (∀ l ∈ litlen, l ≤ 15) ∧ ∀ l ∈ dist, l ≤ 15)
      (hl : overSubscribed litlen = false ∧ (s.eng.nlit ≤ 288 → litlen.length = 288))
      (hd : overSubscribed dist = false ∧ (s.eng.ndist ≤ 32 → dist.length = 32)) :
      EngineMove s { behindSymbol n s with
        eng := { (behindSymbol n s).eng with lens := s.eng.lens ++ ls, litlen := litlen, dist := dist, phase := .litLen } }
  /-- R431, R432. -/
  | literal (n : Nat) (b : Byte) (hp : s.eng.phase = .litLen) (hb : s.eng.bitpos + n ≤ 8 * streamLen s)
      (hr : s.eng.out < s.regs.inflCap.toNat) (hw : Writable s (s.regs.inflBase.toNat + s.eng.out)) :
      EngineMove s { emitted b (behindSymbol n s) with
        eng := { (emitted b (behindSymbol n s)).eng with phase := .litLen } }
  /-- R433. -/
  | endOfBlock (n : Nat) (hp : s.eng.phase = .litLen) (hb : s.eng.bitpos + n ≤ 8 * streamLen s) :
      EngineMove s (endBlock (behindSymbol n s))
  /-- R434. -/
  | length (n l : Nat) (hp : s.eng.phase = .litLen) (hb : s.eng.bitpos + n ≤ 8 * streamLen s) (hl : 3 ≤ l ∧ l ≤ 258) :
      EngineMove s { behindSymbol n s with eng := { (behindSymbol n s).eng with phase := .dist l } }
  /-- R436, R438. -/
  | distance (n l d : Nat) (hp : s.eng.phase = .dist l) (hb : s.eng.bitpos + n ≤ 8 * streamLen s) (hd : 1 ≤ d ∧ d ≤ 32768)
      (ho : d ≤ s.eng.out) :
      EngineMove s { behindSymbol n s with eng := { (behindSymbol n s).eng with phase := .copy l d } }
  /-- R439, at its end. -/
  | copyDone (d : Nat) (hp : s.eng.phase = .copy 0 d) : EngineMove s { s with eng := { s.eng with phase := .litLen } }
  /-- R439. -/
  | copyByte (n d : Nat) (b : Byte) (hp : s.eng.phase = .copy (n + 1) d)
      (hb : busRead s (s.regs.inflBase.toNat + s.eng.out - d) = .ok b)
      (hr : s.eng.out < s.regs.inflCap.toNat) (hw : Writable s (s.regs.inflBase.toNat + s.eng.out)) :
      EngineMove s { emitted b s with eng := { (emitted b s).eng with phase := .copy n d } }
  /-- R442, R443, FULL mode. -/
  | trailerFull (hp : s.eng.phase = .trailer) (hm : isFull s = true) :
      EngineMove s { s with eng := { s.eng with phase := .enter .unfilter } }
  /-- R442, R443, R211, INFLATE mode. -/
  | trailerDone (hp : s.eng.phase = .trailer) (hm : isFull s = false) : EngineMove s (finishRun s)
  /-- R491. -/
  | ufParams (hp : s.eng.phase = .ufParams)
      (hu : ufError s.regs.ufWidth.toNat s.regs.ufHeight.toNat (formatDepth s.regs.ufFormat) (formatColor s.regs.ufFormat) = none) :
      EngineMove s { s with eng := { s.eng with phase := .geometry } }
  /-- R494; with no rows the run ends. -/
  | geometry (hp : s.eng.phase = .geometry) (hr : geomHeight s * rb s ≤ s.regs.reconCap.toNat) (hh : geomHeight s ≠ 0) :
      EngineMove s { s with
        regs := { s.regs with rowBytes := trunc32 (rb s), bpp := trunc32 (bpp s) }
        eng := { s.eng with row := 0, phase := .row } }
  | noRows (hp : s.eng.phase = .geometry) (hh : geomHeight s = 0) :
      EngineMove s (finishRun { s with
        regs := { s.regs with rowBytes := trunc32 (rb s), bpp := trunc32 (bpp s) }
        eng := { s.eng with row := 0, phase := .row } })
  /-- R495, with the row's first byte. -/
  | rowStart (ft v : Byte) (hp : s.eng.phase = .row) (ha : stride s ≤ filteredLen s - s.eng.row * stride s) (hf : ft.toNat ≤ 4)
      (hw : Writable s (s.regs.reconBase.toNat + s.eng.row * rb s)) : EngineMove s (rowWritten ft v (atRowStart ft s))
  /-- R503. -/
  | rowByte (ft v : Byte) (i : Nat) (hp : s.eng.phase = .rowByte ft i) (hf : ft.toNat ≤ 4)
      (hw : Writable s (s.regs.reconBase.toNat + s.eng.row * rb s + i)) : EngineMove s (rowWritten ft v s)
  /-- R210, R211. -/
  | crc (c : Word) (hp : s.eng.phase = .crc) :
      EngineMove s (finishRun { s with
        regs := { s.regs with crcResult := crcFinal c }
        eng := { s.eng with crc := c } })

/-! ## There is no other move -/

theorem touched_eng (s : State) (e : Engine) : Touched s { s with eng := e } := ⟨SameOutside.refl _, SameView.refl _, rfl⟩

theorem configError_some {r : Regs} {e : RunError} (he : configError r = some e) : e.codeWord ∈ legalErrCodes := by
  unfold configError at he
  split at he
  · cases he; exact codeWord_legal (by decide)
  · split at he
    · cases he; exact codeWord_legal (by decide)
    · split at he
      · cases he; exact codeWord_legal (by decide)
      · cases he

theorem fetchVal_next {α : Type} {r : Except Stop α} {s s' t : State} {k : α → Fetched}
    (h : (fetchVal r s' k).result = .next t) (hr : Legal r) (ht : Touched s s') :
    Raised s t ∨ ∃ a, r = .ok a ∧ (k a).result = .next t := by
  cases r with
  | ok a => exact .inr ⟨a, rfl, h⟩
  | error e =>
    obtain ⟨e', rfl, rfl⟩ := stopAt_next h
    exact .inl (Raised.mk ht (hr e' rfl) rfl)

/-- A coded symbol: an error, or the row the decoder read. -/
theorem fetchCoded_next {s t : State} {lens : List Nat} {extra : Nat → Nat} {mk : Nat → Nat → Instr} {sub : Nat}
    (h : (fetchCoded (decodeCoded (streamBit s) lens extra mk s.eng.bitpos) sub s).result = .next t) (hs : 1 ≤ sub ∧ sub ≤ 13) :
    Raised s t ∨ ∃ n sym x, sym < lens.length ∧ x < 2 ^ extra sym ∧ s.eng.bitpos + n ≤ 8 * streamLen s ∧
      exec (mk sym x) (behindSymbol n s) = .next t := by
  unfold fetchCoded at h
  rcases fetchVal_next h (legal_decodeCoded _ _ _ _ _) (Touched.refl s) with h | ⟨a, ha, h⟩
  · exact .inl h
  · cases a with
    | none => exact .inl (raiseCode_raised h (Touched.refl s) hs)
    | some x =>
      obtain ⟨i, n⟩ := x
      obtain ⟨sym, x, h1, h2, rfl, h4⟩ := decodeCoded_stream ha
      exact .inr ⟨n, sym, x, h1, h2, h4, h⟩

theorem move_config {s t : State} (hp : s.eng.phase = .config) (h : configStep s = .next t) : EngineMove s t := by
  unfold configStep at h
  simp only at h
  split at h
  · cases h; exact .raised (Raised.mk (touched_stage s .config) (configError_some ‹_›) rfl)
  · cases h; exact .config hp ‹_›

theorem move_chunk {s t : State} (hp : s.eng.phase = .chunk) (h : (fetchChunk s).result = .next t) : EngineMove s t := by
  unfold fetchChunk at h
  split at h
  · cases h; exact .walkEnd hp ‹_›
  split at h
  · exact .raised (raiseAt_raised h (Touched.refl s) (by decide))
  rcases fetchVal_next h (legal_inBe32 _ _) (Touched.refl s) with h | ⟨len, -, h⟩; · exact .raised h
  rcases fetchVal_next h (legal_inBe32 _ _) (Touched.refl s) with h | ⟨typ, -, h⟩; · exact .raised h
  have acc : ∀ {l y : Word}, readChunk l y (acceptChunk l y) s = .next t → EngineMove s t := fun h => by
    rcases accept_next h with h | ⟨hl, c, rfl⟩
    · exact .raised h
    · exact .chunk _ _ _ hp hl
  simp only [Fetched.result, instrOfChunk] at h
  split at h
  · simp only [exec, execChunkIhdr, hp] at h; exact acc h
  split at h
  · simp only [exec, execChunkPlte, hp] at h; exact acc h
  split at h
  · exact acc h
  split at h
  · rcases execChunkIend_next h with h | ⟨hl, c, rfl⟩
    · exact .raised h
    · exact .lastChunk _ _ hp hl
  split at h
  · exact .raised (execChunkUnknownCritical_next h)
  · exact acc h

theorem move_header {s t : State} (hp : s.eng.phase = .header) (h : (fetchHeader s).result = .next t) : EngineMove s t := by
  unfold fetchHeader at h
  split at h
  · exact .raised (raiseAt_raised h (Touched.refl s) (by decide))
  · split at h
    · simp only [Fetched.result, exec, execChunkIhdr, hp] at h
      rcases checkHeader_next h with h | ⟨w, ht, bd, ct, h1, h2, h3, h4, h5, h6, h7, rfl⟩
      · exact .raised h
      · exact .header w ht bd ct hp ⟨h1, h2⟩ ⟨h3, h4⟩ ⟨h5, h6⟩ h7
    · exact .raised (raiseAt_raised h (Touched.refl s) (by decide))

theorem move_palette {s t : State} (hp : s.eng.phase = .palette) (h : (fetchPalette s).result = .next t) : EngineMove s t := by
  unfold fetchPalette at h
  simp only at h
  split at h
  · cases h; exact .noPalette hp
  · simp only [Fetched.result, exec, execChunkPlte, hp] at h
    rcases checkPalette_next h with h | rfl
    · exact .raised h
    · exact .palette _ _ hp

theorem move_zlib {s t : State} (hp : s.eng.phase = .inflate) (h : (fetchZlib s).result = .next t) : EngineMove s t := by
  unfold fetchZlib at h
  split at h
  · exact .raised (raiseAt_raised h (Touched.refl s) (by decide))
  rcases fetchVal_next h (legal_streamByte _ _) (Touched.refl s) with h | ⟨cmf, -, h⟩; · exact .raised h
  rcases fetchVal_next h (legal_streamByte _ _) (Touched.refl s) with h | ⟨flg, -, h⟩; · exact .raised h
  simp only [Fetched.result, exec, execZlibCm] at h
  split at h
  · exact .raised (raiseAt_raised h (Touched.refl s) (by decide))
  · cases h
    exact .zlibCm cmf flg hp (by omega)

theorem move_block {s t : State} (hp : s.eng.phase = .block) (h : (fetchBlock s).result = .next t) : EngineMove s t := by
  unfold fetchBlock at h
  rcases fetchVal_next h (legal_readBits _ _ _) (Touched.refl s) with h | ⟨v, hv, h⟩; · exact .raised h
  have ht : Touched s (behindHeader s) := touched_eng s _
  have hb := (readBits_stream hv).2 (by omega)
  simp only [Fetched.result] at h
  unfold instrOfBlock at h
  split at h
  · rcases blockStored_next h ht with h | ⟨len, h1, h2, rfl⟩
    · exact .raised h
    · exact .storedBlock _ len hp h1 h2
  · cases h; exact .fixedBlock _ hp hb
  · rcases blockDynamic_next h ht with h | ⟨cl, nlit, ndist, pos, h1, h2, h3, h4, h5, h6, h7, rfl⟩
    · exact .raised h
    · exact .dynamicBlock _ cl nlit ndist pos hp h1 ⟨h2, h3⟩ ⟨h4, h5⟩ ⟨h6, h7⟩
  · exact .raised (blockReserved_raised h ht)

theorem move_cl {s t : State} (hp : s.eng.phase = .clSym)
    (h : (fetchCoded (decodeCl (streamBit s) s.eng.lens.isEmpty s.eng.cl s.eng.bitpos) 3 s).result = .next t) : EngineMove s t := by
  rcases fetchCoded_next h (by omega) with h | ⟨n, sym, x, -, -, hb, h⟩; · exact .raised h
  have ht : Touched s (behindSymbol n s) := touched_eng s _
  have fin : ∀ ls : List Nat, (∀ l ∈ ls, l ≤ 15 ∨ l ∈ s.eng.lens) → appendLens ls (behindSymbol n s) = .next t →
      EngineMove s t := by
    intro ls hls h
    rcases appendLens_next h ht with h | ⟨h1, rfl⟩ | ⟨ll, dd, h1, h3, h4, h5, h6, h7, rfl⟩
    · exact .raised h
    · refine .clMore n ls hp hb hls ?_
      rw [List.length_append] at h1; exact h1
    · have hn : (behindSymbol n s).eng.nlit ≤ ((behindSymbol n s).eng.lens ++ ls).length := by omega
      refine .clDone n ls ll dd hp hb (fun h15 => h1 fun l hm => ?_) ⟨h3, fun hk => h5 hk hn⟩ ⟨h4, fun hk => h6 hk h7⟩
      rcases List.mem_append.1 hm with hm | hm
      · exact h15 l hm
      · exact (hls l hm).elim id (h15 l)
  rcases exec_cl sym x (behindSymbol n s) with ⟨l, h1, h2⟩ | ⟨-, h2⟩ | ⟨r, v, h1, h2, h3⟩
  · rw [h2] at h
    exact fin [l] (fun y hy => .inl (by rw [List.mem_singleton.1 hy]; exact h1)) h
  · rw [h2] at h
    exact .raised (raiseCode_raised h ht (by omega))
  · rw [h3] at h
    rcases repeatLens_next h ht with h | ⟨-, h⟩
    · exact .raised h
    · refine fin _ (fun y hy => ?_) h
      rw [List.eq_of_mem_replicate hy]
      rcases h2 with rfl | h2
      · exact .inl (by omega)
      · exact .inr h2

theorem move_litLen {s t : State} (hp : s.eng.phase = .litLen)
    (h : (fetchCoded (decodeLitLen (streamBit s) s.eng.dyn s.eng.litlen s.eng.bitpos) 1 s).result = .next t) : EngineMove s t := by
  rcases fetchCoded_next h (by omega) with h | ⟨n, sym, x, -, hx, hb, h⟩; · exact .raised h
  have ht : Touched s (behindSymbol n s) := touched_eng s _
  rcases exec_litLen s.eng.dyn sym x (behindSymbol n s) hx with ⟨b, h2⟩ | h2 | ⟨l, h1, h3, h2⟩ | h2
  · rw [h2] at h
    rcases literal_next h ht with h | ⟨h1, h3, rfl⟩
    · exact .raised h
    · exact .literal n b hp hb h1 h3
  · rw [h2] at h; cases h
    exact .endOfBlock n hp hb
  · rw [h2] at h; cases h
    exact .length n l hp hb ⟨h1, h3⟩
  · rw [h2] at h
    exact .raised (raiseCode_raised h ht (by omega))

theorem move_dist {s t : State} {l : Nat} (hp : s.eng.phase = .dist l)
    (h : (fetchCoded (decodeDist (streamBit s) s.eng.dist s.eng.bitpos) 2 s).result = .next t) : EngineMove s t := by
  rcases fetchCoded_next h (by omega) with h | ⟨n, sym, x, -, hx, hb, h⟩; · exact .raised h
  have ht : Touched s (behindSymbol n s) := touched_eng s _
  rcases exec_dist sym x (behindSymbol n s) hx with ⟨d, h1, h2, h3⟩ | h2
  · rw [h3] at h
    rcases startCopy_next h ht with h | ⟨h4, h5⟩
    · exact .raised h
    · have hm : matchLength (behindSymbol n s) = l := by simp [matchLength, behindSymbol, hp]
      rw [hm] at h5
      subst h5
      exact .distance n l d hp hb ⟨h1, h2⟩ h4
  · rw [h2] at h
    exact .raised (raiseCode_raised h ht (by omega))

theorem move_trailer {s t : State} (hp : s.eng.phase = .trailer) (h : trailerStep s = .next t) : EngineMove s t := by
  unfold trailerStep at h
  simp only at h
  split at h
  · exact .raised (raiseAt_raised h (Touched.refl s) (by decide))
  rcases withVal_legal h (legal_be32From (legal_streamByte _) _) (Touched.refl s) with h | ⟨v, -, h⟩; · exact .raised h
  split at h
  · split at h
    · cases h; exact .trailerFull hp ‹_›
    · cases h; exact .trailerDone hp (eq_false_of_ne_true ‹_›)
  · exact .raised (raiseAt_raised h (Touched.refl s) (by decide))

theorem move_ufParams {s t : State} (hp : s.eng.phase = .ufParams) (h : ufParamsStep s = .next t) : EngineMove s t := by
  unfold ufParamsStep at h
  simp only at h
  split at h
  · cases h
    refine .raised (Raised.mk (Touched.refl s) ?_ rfl)
    rename_i he
    unfold ufError at he
    repeat' (split at he)
    all_goals first | (cases he; exact codeWord_legal (by decide)) | cases he
  · cases h; exact .ufParams hp ‹_›

theorem move_geometry {s t : State} (hp : s.eng.phase = .geometry) (h : geometryStep s = .next t) : EngineMove s t := by
  unfold geometryStep at h
  simp only at h
  split at h
  · exact .raised (raiseAt_raised h (Touched.refl s) (by decide))
  · split at h
    · cases h; exact .noRows hp ‹_›
    · cases h; exact .geometry hp (by omega) ‹_›

theorem move_row {s t : State} (hp : s.eng.phase = .row) (h : (fetchRow s).result = .next t) : EngineMove s t := by
  unfold fetchRow at h
  simp only at h
  split at h
  · exact .raised (raiseAt_raised h (Touched.refl s) (by decide))
  rename_i ha
  rcases fetchVal_next h (legal_filteredByte _ _) (Touched.refl s) with h | ⟨ft, -, h⟩; · exact .raised h
  rcases exec_filter h (touched_eng s _) with h | ⟨v, h1, h2, rfl⟩
  · exact .raised h
  · exact .rowStart ft v hp (by omega) h1 h2

theorem move_rowByte {s t : State} {ft : Byte} {i : Nat} (hp : s.eng.phase = .rowByte ft i)
    (h : exec (instrOfFilter ft) s = .next t) : EngineMove s t := by
  rcases exec_filter h (Touched.refl s) with h | ⟨v, h1, h2, rfl⟩
  · exact .raised h
  · have hi : rowIndex s = i := by simp [rowIndex, hp]
    exact .rowByte ft v i hp h1 (hi ▸ h2)

theorem move_crc {s t : State} (hp : s.eng.phase = .crc) (h : crcStep s = .next t) : EngineMove s t := by
  unfold crcStep at h
  rcases withVal_legal h (legal_crcOver _ _ _ _) (Touched.refl s) with h | ⟨c, -, h⟩; · exact .raised h
  cases h; exact .crc c hp

/-- R203: the engine's step at any phase of a run is one of the moves. -/
theorem enginePhase_move {s t : State} (h : (enginePhase s).result = .next t) : EngineMove s t := by
  unfold enginePhase at h
  split at h
  · cases h; exact .idle ‹_›
  · cases h; exact .enter _ ‹_›
  · exact move_config ‹_› h
  · rcases execSig_next h with h | ⟨h1, rfl⟩
    · exact .raised h
    · exact .signature ‹_› h1
  · exact move_chunk ‹_› h
  · exact move_header ‹_› h
  · exact move_palette ‹_› h
  · exact move_zlib ‹_› h
  · rename_i cmf flg hq
    simp only [Fetched.result, exec, execZlibFdict] at h
    split at h
    · exact .raised (raiseAt_raised h (Touched.refl s) (by decide))
    · cases h; exact .zlibFdict cmf flg hq
  · rename_i cmf flg hq
    simp only [Fetched.result, exec, execZlibFcheck] at h
    split at h
    · exact .raised (raiseAt_raised h (Touched.refl s) (by decide))
    · cases h; exact .zlibFcheck cmf flg hq
  · exact move_block ‹_› h
  · rename_i n hq
    rcases storedStep_next h with h | ⟨rfl, rfl⟩ | ⟨m, b, rfl, h1, h2, h3, rfl⟩
    · exact .raised h
    · exact .storedDone hq
    · exact .storedByte m b hq h1 h2 h3
  · exact move_cl ‹_› h
  · exact move_litLen ‹_› h
  · exact move_dist ‹_› h
  · rename_i n d hq
    rcases copyStep_next h with h | ⟨rfl, rfl⟩ | ⟨m, b, rfl, h1, h2, h3, rfl⟩
    · exact .raised h
    · exact .copyDone d hq
    · exact .copyByte m d b hq h1 h2 h3
  · exact move_trailer ‹_› h
  · exact move_ufParams ‹_› h
  · exact move_geometry ‹_› h
  · exact move_row ‹_› h
  · exact move_rowByte ‹_› h
  · exact move_crc ‹_› h

end Sys2Proof.Machine
end

