-- ==== Sys2Proof/Laws/Step.lean ====
section
/-! SUPPORT. What any step can do: `HostMove` lists the host's moves beside `EngineMove`, and `step_next` says that a step is one of
them. -/

namespace Sys2Proof.Machine

/-- The host's moves from `s`, the access already taken off the list. -/
inductive HostMove (s : State) : HostOp → State → Prop
  /-- R200, R202, R204. -/
  | ctrl (v : Word) : HostMove s (.write .word 0x04#8 v)
      (ctrlWrite (v.getLsbD 0) (v.getLsbD 1) (v.extractLsb' 2 3) (v.getLsbD 5) (v.getLsbD 6) s)
  /-- R205. -/
  | status (v : Word) : HostMove s (.write .word 0x08#8 v)
      { s with regs := { s.regs with done := s.regs.done && !v.getLsbD 1, err := s.regs.err && !v.getLsbD 2 } }
  /-- R201. -/
  | reg (off : BitVec 8) (v : Word) (h : off ≠ 0x04#8) (h' : off ≠ 0x08#8) : HostMove s (.write .word off v)
      (if s.regs.busy then s else { s with regs := writeRegs s.regs off v })
  /-- R212, and R167's poll, which may ask for another read. -/
  | read (op : HostOp) (off : BitVec 8) (rest : List HostOp) (h : (∃ z, op = .read z off) ∨ ∃ m v, op = .poll off m v) :
      HostMove s op { s with
        host := rest, rdata := readValue s off
        draws := if s.regs.busy && isResult off then s.draws + 1 else s.draws
        unseen := if showsEnd s off then [] else s.unseen }
  /-- R114: the host stores a byte outside the running mode's regions. -/
  | memWrite (addr : Word) (b : Byte) (t : State) (hu : usedByRun s addr.toNat = false) (hr : t.regs = s.regs) (he : t.eng = s.eng)
      (hm : t.mem = s.mem.write addr.toNat b) (ho : t.host = s.host ∧ t.plat = s.plat ∧ t.draws = s.draws) :
      HostMove s (.memWrite addr b) t
  /-- R114, R119: a host memory read, cache maintenance. -/
  | quiet (op : HostOp) (t : State) (hr : t.regs = s.regs) (he : t.eng = s.eng) (hm : t.mem = s.mem)
      (ho : t.host = s.host ∧ t.plat = s.plat)
      (h : (∃ a, op = .memRead a) ∨ (∃ a n, op = .clean a n) ∨ ∃ a n, op = .invalidate a n) : HostMove s op t
  /-- R600 to R602. -/
  | reset (t : State) (hr : t.regs = Regs.reset) (he : t.eng = Engine.reset)
      (hm : t.mem = (if s.regs.busy then havocOutputs s else s).mem) (ho : t.host = s.host ∧ t.plat = s.plat) :
      HostMove s .reset t

/-- R141: which row a CTRL word is does not matter to what the write does. -/
theorem exec_ctrl (busy : Bool) (v : Word) (s : State) :
    exec (instrOfCtrl busy v) s =
      .next (ctrlWrite (v.getLsbD 0) (v.getLsbD 1) (v.extractLsb' 2 3) (v.getLsbD 5) (v.getLsbD 6) s) := by
  unfold instrOfCtrl
  simp only
  split
  · rename_i h
    have h1 : v.getLsbD 1 = true := by revert h; cases v.getLsbD 1 <;> simp
    rw [h1]; rfl
  · split
    · rename_i h0
      rw [h0]
      split
      · rename_i hm; rw [show v.extractLsb' 2 3 = 0#3 from BitVec.eq_of_toNat_eq hm]; rfl
      · rename_i hm; rw [show v.extractLsb' 2 3 = 1#3 from BitVec.eq_of_toNat_eq hm]; rfl
      · rename_i hm; rw [show v.extractLsb' 2 3 = 2#3 from BitVec.eq_of_toNat_eq hm]; rfl
      · rename_i hm; rw [show v.extractLsb' 2 3 = 3#3 from BitVec.eq_of_toNat_eq hm]; rfl
      · rfl
    · rename_i h h0
      have h0 : v.getLsbD 0 = false := eq_false_of_ne_true h0
      have h1 : v.getLsbD 1 = false := by revert h; rw [h0]; cases v.getLsbD 1 <;> simp
      rw [h0, h1]; rfl

/-- The engine's turn: idle it stays, busy it moves, with an abort draw at most (R204). -/
theorem engineTurn_next {s t : State} (h : (engineTurn s).result = .next t) :
    (s.regs.busy = false ∧ t = s) ∨ (s.regs.busy = true ∧ ∃ n, EngineMove { s with draws := n } t) := by
  unfold engineTurn at h
  split at h
  · rename_i hb
    refine .inr ⟨hb, ?_⟩
    split at h
    · split at h
      · refine ⟨s.draws + 1, .raised (raiseAt_raised h ?_ (by decide))⟩
        exact ⟨SameOutside.refl _, SameView.refl _, abortedRegs_kept _⟩
      · exact ⟨s.draws + 1, enginePhase_move h⟩
    · exact ⟨s.draws, enginePhase_move h⟩
  · cases h; exact .inl ⟨eq_false_of_ne_true ‹_›, rfl⟩

theorem hostMove_next {op : HostOp} {s t : State} (h : (hostMove op s).result = .next t) (ho : op ≠ .engine) : HostMove s op t := by
  unfold hostMove at h
  split at h
  · rename_i size off v
    split at h
    · rename_i hs
      obtain ⟨rfl, -⟩ := hs
      simp only [Fetched.result, instrOfWrite] at h
      split at h
      · rename_i h4; subst h4
        rw [exec_ctrl] at h; cases h
        exact .ctrl v
      · split at h
        · rename_i h8; subst h8; cases h; exact .status v
        · cases h; exact .reg off v ‹_› ‹_›
    · cases h
  · split at h
    · cases h; exact .read _ _ s.host (.inl ⟨_, rfl⟩)
    · cases h
  · split at h
    · split at h
      · cases h; exact .read _ _ s.host (.inr ⟨_, _, rfl⟩)
      · cases h; exact .read _ _ _ (.inr ⟨_, _, rfl⟩)
    · cases h
  · rename_i addr b
    simp only [Fetched.result, hostMemWrite] at h
    have h := (withHostByte_next h).2
    split at h
    · cases h
    · cases h
      exact .memWrite addr b _ (eq_false_of_ne_true ‹_›) (by simp) (by simp) (by simp) ⟨by simp, by simp, by simp⟩
  · rename_i addr
    simp only [Fetched.result, hostMemRead] at h
    have h := (withHostByte_next h).2
    split at h <;> (cases h; exact .quiet _ _ rfl rfl rfl ⟨rfl, rfl⟩ (.inl ⟨_, rfl⟩))
  · cases h; exact .quiet _ _ rfl rfl rfl ⟨rfl, rfl⟩ (.inr (.inl ⟨_, _, rfl⟩))
  · cases h; exact .quiet _ _ rfl rfl rfl ⟨rfl, rfl⟩ (.inr (.inr ⟨_, _, rfl⟩))
  · exact absurd rfl ho
  · cases h
    refine .reset _ rfl rfl ?_ ?_
    · rfl
    · simp only; split <;> simp

/-- A step is the engine's turn or a move of the host. -/
theorem step_next {s t : State} (h : step s = .next t) :
    (∃ rest, (s.host = [] ∧ rest = [] ∨ s.host = .engine :: rest) ∧
      ((s.regs.busy = false ∧ t = { s with host := rest }) ∨
        (s.regs.busy = true ∧ ∃ n, EngineMove { s with host := rest, draws := n } t))) ∨
      ∃ op rest, s.host = op :: rest ∧ op ≠ .engine ∧ HostMove { s with host := rest } op t := by
  rw [step_eq, fetch] at h
  split at h
  · rename_i hh
    refine .inl ⟨[], .inl ⟨hh, rfl⟩, ?_⟩
    have e : s = { s with host := [] } := by rw [← hh]
    rcases engineTurn_next h with ⟨h1, h2⟩ | ⟨h1, n, h2⟩
    · exact .inl ⟨h1, by rw [h2]; exact e⟩
    · refine .inr ⟨h1, n, ?_⟩
      rw [e] at h2; exact h2
  · rename_i op rest hh
    by_cases ho : op = .engine
    · subst ho
      refine .inl ⟨rest, .inr hh, ?_⟩
      rcases engineTurn_next (s := { s with host := rest }) h with ⟨h1, h2⟩ | ⟨h1, n, h2⟩
      · exact .inl ⟨h1, h2⟩
      · exact .inr ⟨h1, n, h2⟩
    · exact .inr ⟨op, rest, hh, ho, hostMove_next h ho⟩

end Sys2Proof.Machine
end

