-- ==== Sys2Proof/Laws/Bytes.lean ====
section
/-! SUPPORT. Reading bytes and bits: the bits of a list, of a byte of the stream, of a big-endian number and of a run of bytes under the
CRC; and one equation per phase for the engine's step. -/

namespace Sys2Proof

/-! ## Bits of a list -/

theorem fieldBits_length (n v : Nat) : (fieldBits n v).length = n := by simp [fieldBits]

theorem codeBits_length (n c : Nat) : (codeBits n c).length = n := by simp [codeBits, fieldBits]

theorem byteBits_length (bs : List Byte) : (byteBits bs).length = 8 * bs.length := by
  induction bs with
  | nil => rfl
  | cons b bs ih => rw [byteBits, List.flatMap_cons, List.length_append, fieldBits_length, ← byteBits, ih, List.length_cons]; omega

theorem fieldBits_get (n v k : Nat) (h : k < n) : (fieldBits n v)[k]? = some (v.testBit k) := by
  simp [fieldBits, h]

/-- Any reader whose bits from `pos` on are those of `v` reads `v` (R151). -/
theorem readBits_of_bits {ε : Type} {rd : Nat → Except ε Bool} {pos n v : Nat}
    (h : ∀ k < n, rd (pos + k) = .ok (v.testBit k)) : readBits rd pos n = .ok (v % 2 ^ n) := by
  induction n with
  | zero => simp [readBits, Nat.mod_one]
  | succ n ih =>
    rw [readBits, ih fun k hk => h k (by omega)]
    simp only
    rw [h n (by omega)]
    have ht : v.testBit n = decide (v / 2 ^ n % 2 = 1) := by rw [Nat.testBit_eq_decide_div_mod_eq]
    have hm : v % 2 ^ (n + 1) = v % 2 ^ n + 2 ^ n * (v / 2 ^ n % 2) := by
      rw [Nat.pow_succ, Nat.mod_mul]
    have h2 : v / 2 ^ n % 2 < 2 := Nat.mod_lt _ (by omega)
    simp only [ht, hm]
    congr 2
    rw [Nat.mul_comm]
    congr 1
    rcases Nat.lt_succ_iff_lt_or_eq.1 h2 with h | h
    · have : v / 2 ^ n % 2 = 0 := by omega
      rw [this]; rfl
    · rw [h]; rfl

/-- R151, the encoder's side: a field of a list, whatever stands before and behind it. -/
theorem readBits_fieldBits (pre rest : List Bool) (n v : Nat) :
    readBits (listBits (pre ++ (fieldBits n v ++ rest))) pre.length n = .ok (v % 2 ^ n) := by
  refine readBits_of_bits fun k hk => ?_
  have hg : (pre ++ (fieldBits n v ++ rest))[pre.length + k]? = some (v.testBit k) := by
    rw [List.getElem?_append_right (by omega), Nat.add_sub_cancel_left,
      List.getElem?_append_left (by rw [fieldBits_length]; exact hk), fieldBits_get n v k hk]
  simp [listBits, hg]

end Sys2Proof

namespace Sys2Proof.Machine

/-! ## Bytes of IN and of the stream -/

theorem be32From_ok {rd : Nat → Except Stop Byte} {i : Nat} {f : Nat → Byte} (h : ∀ k < 4, rd (i + k) = .ok (f k)) :
    be32From rd i = .ok (be32At f 0) := by
  have h0 := h 0 (by omega)
  have h1 := h 1 (by omega)
  have h2 := h 2 (by omega)
  have h3 := h 3 (by omega)
  rw [Nat.add_zero] at h0
  simp [be32From, h0, h1, h2, h3, be32At]

theorem bytesOf_succ (n : Nat) (f : Nat → Byte) : bytesOf (n + 1) f = f 0 :: bytesOf n fun k => f (k + 1) := by
  simp [bytesOf, List.range_succ_eq_map, Function.comp_def]

/-- R250 over bytes that can be read. -/
theorem crcOver_ok {s : State} {n i : Nat} {f : Nat → Byte} (h : ∀ k < n, inByte s (i + k) = .ok (f k)) (c : Word) :
    crcOver s n i c = .ok ((bytesOf n f).foldl crcByte c) := by
  induction n generalizing i f c with
  | zero => rfl
  | succ n ih =>
    have h0 := h 0 (by omega)
    rw [Nat.add_zero] at h0
    rw [crcOver, h0, bytesOf_succ]
    simp only [List.foldl_cons]
    exact ih (i := i + 1) (f := fun k => f (k + 1)) (fun k hk => by rw [Nat.add_right_comm]; exact h (k + 1) (by omega)) _

/-- R335: bit `k` of byte `j` of the stream. -/
theorem streamBit_of_byte {s : State} {j k : Nat} {b : Byte} (h : streamByte s j = .ok b) (hj : j < streamLen s) (hk : k < 8) :
    streamBit s (8 * j + k) = .ok (b.getLsbD k) := by
  unfold streamBit
  rw [if_neg (by omega), show (8 * j + k) / 8 = j by omega, h, show (8 * j + k) % 8 = k by omega]

/-- R335, R105: a byte of the stream, as eight bits. -/
theorem readBits_streamByte {s : State} {j : Nat} {b : Byte} (h : streamByte s j = .ok b) (hj : j < streamLen s) :
    readBits (streamBit s) (8 * j) 8 = .ok b.toNat := by
  rw [readBits_of_bits (v := b.toNat) fun k hk => by rw [streamBit_of_byte h hj hk]; rfl]
  have := b.isLt
  congr 1; omega

/-! ## The engine's step, phase by phase -/

theorem step_engineNext {s e : State} (h : EngineNext s e) : step s = (engineTurn e).result := by
  rcases h with ⟨h, rfl⟩ | ⟨rest, h, rfl⟩ <;> rw [step_eq, fetch, h]
  rfl

theorem step_engine {s e : State} (h : EngineTurn s e) : step s = (enginePhase e).result := by
  obtain ⟨h1, h2, h3⟩ := h
  rw [step_engineNext h1]
  simp [engineTurn, h2, h3]

theorem step_host {s : State} {op : HostOp} {rest : List HostOp} (h : s.host = op :: rest) :
    step s = (hostMove op { s with host := rest }).result := by
  rw [step_eq, fetch, h]

end Sys2Proof.Machine
end

