-- ==== Sys2Proof/Laws/Config.lean ====
section
/-! SUPPORT. The configuration check (R206) as one chain of tests per mode. -/

namespace Sys2Proof.Machine

/-! The words of Safety.lean for the same tests. -/

theorem wraps_in (r : Regs) : Wraps r.inBase r.inLen ↔ r.inRegion.wraps = true := by rw [Region.wraps_iff]; rfl
theorem wraps_infl (r : Regs) : Wraps r.inflBase r.inflCap ↔ r.inflRegion.wraps = true := by rw [Region.wraps_iff]; rfl
theorem wraps_recon (r : Regs) : Wraps r.reconBase r.reconCap ↔ r.reconRegion.wraps = true := by rw [Region.wraps_iff]; rfl
theorem overlap_in_infl (r : Regs) :
    Overlap r.inBase r.inLen r.inflBase r.inflCap ↔ r.inRegion.overlaps r.inflRegion = true := by rw [Region.overlaps_iff]; rfl
theorem overlap_in_recon (r : Regs) :
    Overlap r.inBase r.inLen r.reconBase r.reconCap ↔ r.inRegion.overlaps r.reconRegion = true := by
  rw [Region.overlaps_iff]; rfl
theorem overlap_infl_recon (r : Regs) :
    Overlap r.inflBase r.inflCap r.reconBase r.reconCap ↔ r.inflRegion.overlaps r.reconRegion = true := by
  rw [Region.overlaps_iff]; rfl

/-- A reserved mode. -/
theorem configError_reserved {r : Regs} (h : 3 < r.mode.toNat) : configError r = some ⟨.badConfig, 1, 0x04, r.mode.toNat⟩ := by
  simp [configError, h]

/-- FULL: three regions, three pairs. -/
theorem configError_full {r : Regs} (h : r.mode.toNat = 0) : configError r =
    if r.inRegion.wraps then some ⟨.badConfig, 2, 0x18, r.inLen.toNat⟩
    else if r.inflRegion.wraps then some ⟨.badConfig, 2, 0x20, r.inflCap.toNat⟩
    else if r.reconRegion.wraps then some ⟨.badConfig, 2, 0x28, r.reconCap.toNat⟩
    else if r.inRegion.overlaps r.inflRegion then some ⟨.badConfig, 3, 0x18, 0x20⟩
    else if r.inRegion.overlaps r.reconRegion then some ⟨.badConfig, 3, 0x18, 0x28⟩
    else if r.inflRegion.overlaps r.reconRegion then some ⟨.badConfig, 3, 0x20, 0x28⟩
    else none := by
  unfold configError usedNamed
  rw [h, if_neg (by omega)]
  cases h1 : r.inRegion.wraps <;> cases h2 : r.inflRegion.wraps <;> cases h3 : r.reconRegion.wraps <;>
    simp [h1, h2, h3]
  cases h4 : r.inRegion.overlaps r.inflRegion <;> cases h5 : r.inRegion.overlaps r.reconRegion <;>
    cases h6 : r.inflRegion.overlaps r.reconRegion <;> simp [firstOverlap, h4, h5, h6]

/-- INFLATE: IN and INFL. -/
theorem configError_inflate {r : Regs} (h : r.mode.toNat = 1) : configError r =
    if r.inRegion.wraps then some ⟨.badConfig, 2, 0x18, r.inLen.toNat⟩
    else if r.inflRegion.wraps then some ⟨.badConfig, 2, 0x20, r.inflCap.toNat⟩
    else if r.inRegion.overlaps r.inflRegion then some ⟨.badConfig, 3, 0x18, 0x20⟩
    else none := by
  unfold configError usedNamed
  rw [h, if_neg (by omega)]
  cases h1 : r.inRegion.wraps <;> cases h2 : r.inflRegion.wraps <;> simp [h1, h2]
  cases h4 : r.inRegion.overlaps r.inflRegion <;> simp [firstOverlap, h4]

/-- UNFILTER: IN and RECON. -/
theorem configError_unfilter {r : Regs} (h : r.mode.toNat = 2) : configError r =
    if r.inRegion.wraps then some ⟨.badConfig, 2, 0x18, r.inLen.toNat⟩
    else if r.reconRegion.wraps then some ⟨.badConfig, 2, 0x28, r.reconCap.toNat⟩
    else if r.inRegion.overlaps r.reconRegion then some ⟨.badConfig, 3, 0x18, 0x28⟩
    else none := by
  unfold configError usedNamed
  rw [h, if_neg (by omega)]
  cases h1 : r.inRegion.wraps <;> cases h2 : r.reconRegion.wraps <;> simp [h1, h2]
  cases h4 : r.inRegion.overlaps r.reconRegion <;> simp [firstOverlap, h4]

/-- CRC32: IN alone. -/
theorem configError_crc {r : Regs} (h : r.mode.toNat = 3) : configError r =
    if r.inRegion.wraps then some ⟨.badConfig, 2, 0x18, r.inLen.toNat⟩ else none := by
  unfold configError usedNamed
  rw [h, if_neg (by omega)]
  cases h1 : r.inRegion.wraps <;> simp [h1, firstOverlap]

/-- Past the check the mode is one of the four and no output region shares a byte with IN. -/
theorem configError_none_mode {r : Regs} (h : configError r = none) : r.mode.toNat ≤ 3 := by
  unfold configError at h
  split at h
  · cases h
  · omega

theorem outputs_disjoint {r : Regs} {q : Region} {a : Nat} (h : configError r = none) (hq : q ∈ r.outputs)
    (ha : r.inRegion.contains a = true) : q.contains a = false := by
  have key : r.inRegion.overlaps q = false := by
    have hm := configError_none_mode h
    have hc : r.mode.toNat = 0 ∨ r.mode.toNat = 1 ∨ r.mode.toNat = 2 ∨ r.mode.toNat = 3 := by omega
    unfold Regs.outputs at hq
    rcases hc with hm | hm | hm | hm <;> simp only [hm, List.mem_cons, List.not_mem_nil, or_false] at hq
    · rw [configError_full hm] at h
      rcases hq with rfl | rfl <;> by_contra hc <;> simp [Bool.not_eq_false] at hc <;> simp [hc] at h
      all_goals (repeat' split at h) <;> simp_all
    · rw [configError_inflate hm] at h
      subst hq; by_contra hc; simp [Bool.not_eq_false] at hc; simp [hc] at h
      all_goals (repeat' split at h) <;> simp_all
    · rw [configError_unfilter hm] at h
      subst hq; by_contra hc; simp [Bool.not_eq_false] at hc; simp [hc] at h
      all_goals (repeat' split at h) <;> simp_all
  rw [← Bool.not_eq_true, Region.overlaps_iff] at key
  rw [Region.contains_iff] at ha
  rw [Region.contains_false]
  omega

end Sys2Proof.Machine
end

