-- ==== Sys2Proof/Laws/PerInstr.lean ====
section
/-! SUPPORT. What is said of every instruction, one lemma per constructor: how many bits its encoding takes (30_encoding.md R141 to R165:
a register word 32, the signature and a chunk header 64, a zlib header 16, a block header 3, a coded symbol its codeword and extra bits,
a filter byte 8). -/

namespace Sys2Proof.Laws.Width

set_option Elab.async false

/-- The bits of an instruction in its layer; a register read carries none. -/
def width : Instr → Nat
  | .wrCtrl _ _ _ _ => 32
  | .startFull _ _ _ _ => 32
  | .startInflate _ _ _ _ => 32
  | .startUnfilter _ _ _ _ => 32
  | .startCrc32 _ _ _ _ => 32
  | .startReserved _ _ _ _ _ => 32
  | .abort _ _ _ _ _ => 32
  | .wrStatus _ => 32
  | .wrReg _ _ => 32
  | .rdReg _ => 0
  | .sig => 64
  | .chunkIhdr _ => 64
  | .chunkPlte _ => 64
  | .chunkIdat _ => 64
  | .chunkIend _ => 64
  | .chunkUnknownCritical _ _ => 64
  | .chunkAncillary _ _ => 64
  | .zlibCm _ _ => 16
  | .zlibFdict _ _ => 16
  | .zlibFcheck _ _ => 16
  | .blockStored _ => 3
  | .blockFixed _ => 3
  | .blockDynamic _ => 3
  | .blockReserved _ => 3
  | .litFixed8 _ => 8
  | .litFixed9 _ => 9
  | .litDyn lit => if lit.toNat < 144 then 8 else 9
  | .eob => 7
  | .len257 => 7
  | .len258 => 7
  | .len259 => 7
  | .len260 => 7
  | .len261 => 7
  | .len262 => 7
  | .len263 => 7
  | .len264 => 7
  | .len265 _ => 8
  | .len266 _ => 8
  | .len267 _ => 8
  | .len268 _ => 8
  | .len269 _ => 9
  | .len270 _ => 9
  | .len271 _ => 9
  | .len272 _ => 9
  | .len273 _ => 10
  | .len274 _ => 10
  | .len275 _ => 10
  | .len276 _ => 10
  | .len277 _ => 11
  | .len278 _ => 11
  | .len279 _ => 11
  | .len280 _ => 12
  | .len281 _ => 13
  | .len282 _ => 13
  | .len283 _ => 13
  | .len284 _ => 13
  | .len285 => 8
  | .litlenInvalid _ => 8
  | .dist0 => 5
  | .dist1 => 5
  | .dist2 => 5
  | .dist3 => 5
  | .dist4 _ => 6
  | .dist5 _ => 6
  | .dist6 _ => 7
  | .dist7 _ => 7
  | .dist8 _ => 8
  | .dist9 _ => 8
  | .dist10 _ => 9
  | .dist11 _ => 9
  | .dist12 _ => 10
  | .dist13 _ => 10
  | .dist14 _ => 11
  | .dist15 _ => 11
  | .dist16 _ => 12
  | .dist17 _ => 12
  | .dist18 _ => 13
  | .dist19 _ => 13
  | .dist20 _ => 14
  | .dist21 _ => 14
  | .dist22 _ => 15
  | .dist23 _ => 15
  | .dist24 _ => 16
  | .dist25 _ => 16
  | .dist26 _ => 17
  | .dist27 _ => 17
  | .dist28 _ => 18
  | .dist29 _ => 18
  | .distInvalid _ => 5
  | .clLen _ => 5
  | .cl16 _ => 7
  | .cl17 _ => 8
  | .cl18 _ => 12
  | .filtNone => 8
  | .filtSub => 8
  | .filtUp => 8
  | .filtAvg => 8
  | .filtPaeth => 8
  | .filtInvalid _ => 8

/-- A well-formed instruction's encoding has its row's width. -/
def Statement (i : Instr) : Prop := i.wf = true → (encode i).length = width i

theorem wrCtrl (mode : BitVec 3) (irqEn fcheckEn : Bool) (rsv : BitVec 25) : Statement (.wrCtrl mode irqEn fcheckEn rsv) :=
  fun _ => fieldBits_length _ _
theorem startFull (abort irqEn fcheckEn : Bool) (rsv : BitVec 25) : Statement (.startFull abort irqEn fcheckEn rsv) :=
  fun _ => fieldBits_length _ _
theorem startInflate (abort irqEn fcheckEn : Bool) (rsv : BitVec 25) : Statement (.startInflate abort irqEn fcheckEn rsv) :=
  fun _ => fieldBits_length _ _
theorem startUnfilter (abort irqEn fcheckEn : Bool) (rsv : BitVec 25) : Statement (.startUnfilter abort irqEn fcheckEn rsv) :=
  fun _ => fieldBits_length _ _
theorem startCrc32 (abort irqEn fcheckEn : Bool) (rsv : BitVec 25) : Statement (.startCrc32 abort irqEn fcheckEn rsv) :=
  fun _ => fieldBits_length _ _
theorem startReserved (mode : BitVec 3) (abort irqEn fcheckEn : Bool) (rsv : BitVec 25) : Statement (.startReserved mode abort irqEn fcheckEn rsv) :=
  fun _ => fieldBits_length _ _
theorem abort (start : Bool) (mode : BitVec 3) (irqEn fcheckEn : Bool) (rsv : BitVec 25) : Statement (.abort start mode irqEn fcheckEn rsv) :=
  fun _ => fieldBits_length _ _
theorem wrStatus (v : Word) : Statement (.wrStatus v) :=
  fun _ => fieldBits_length _ _
theorem wrReg (off : BitVec 8) (v : Word) : Statement (.wrReg off v) :=
  fun _ => fieldBits_length _ _
theorem rdReg (off : BitVec 8) : Statement (.rdReg off) :=
  fun _ => rfl
theorem sig : Statement (.sig) :=
  fun _ => rfl
theorem chunkIhdr (len : Word) : Statement (.chunkIhdr len) :=
  fun _ => byteBits_length _
theorem chunkPlte (len : Word) : Statement (.chunkPlte len) :=
  fun _ => byteBits_length _
theorem chunkIdat (len : Word) : Statement (.chunkIdat len) :=
  fun _ => byteBits_length _
theorem chunkIend (len : Word) : Statement (.chunkIend len) :=
  fun _ => byteBits_length _
theorem chunkUnknownCritical (len typ : Word) : Statement (.chunkUnknownCritical len typ) :=
  fun _ => byteBits_length _
theorem chunkAncillary (len typ : Word) : Statement (.chunkAncillary len typ) :=
  fun _ => byteBits_length _
theorem zlibCm (cmf flg : Byte) : Statement (.zlibCm cmf flg) :=
  fun _ => byteBits_length _
theorem zlibFdict (cmf flg : Byte) : Statement (.zlibFdict cmf flg) :=
  fun _ => byteBits_length _
theorem zlibFcheck (cmf flg : Byte) : Statement (.zlibFcheck cmf flg) :=
  fun _ => byteBits_length _
theorem blockStored (bfinal : Bool) : Statement (.blockStored bfinal) :=
  fun _ => rfl
theorem blockFixed (bfinal : Bool) : Statement (.blockFixed bfinal) :=
  fun _ => rfl
theorem blockDynamic (bfinal : Bool) : Statement (.blockDynamic bfinal) :=
  fun _ => rfl
theorem blockReserved (bfinal : Bool) : Statement (.blockReserved bfinal) :=
  fun _ => rfl
theorem litFixed8 (lit : Byte) : Statement (.litFixed8 lit) :=
  fun h => by
    have h' : lit.toNat < 144 := of_decide_eq_true h
    simp [encode, litLenBits, litLenParts, fixedLitLenWord, h', width, codeBits_length, fieldBits_length]
theorem litFixed9 (lit : Byte) : Statement (.litFixed9 lit) :=
  fun h => by
    have h' : ¬lit.toNat < 144 := Nat.not_lt.2 (of_decide_eq_true h)
    have h2 : lit.toNat < 256 := lit.isLt
    simp [encode, litLenBits, litLenParts, fixedLitLenWord, h', h2, width, codeBits_length, fieldBits_length]
theorem litDyn (lit : Byte) : Statement (.litDyn lit) :=
  fun _ => by
    have h2 : lit.toNat < 256 := lit.isLt
    by_cases h' : lit.toNat < 144 <;>
      simp [encode, litLenBits, litLenParts, fixedLitLenWord, h', h2, width, codeBits_length, fieldBits_length]
theorem eob : Statement (.eob) :=
  fun _ => rfl
theorem len257 : Statement (.len257) :=
  fun _ => rfl
theorem len258 : Statement (.len258) :=
  fun _ => rfl
theorem len259 : Statement (.len259) :=
  fun _ => rfl
theorem len260 : Statement (.len260) :=
  fun _ => rfl
theorem len261 : Statement (.len261) :=
  fun _ => rfl
theorem len262 : Statement (.len262) :=
  fun _ => rfl
theorem len263 : Statement (.len263) :=
  fun _ => rfl
theorem len264 : Statement (.len264) :=
  fun _ => rfl
theorem len265 (e : BitVec 1) : Statement (.len265 e) :=
  fun _ => by
    simp [encode, litLenBits, litLenParts, fixedLitLenWord, width, codeBits_length, fieldBits_length]
theorem len266 (e : BitVec 1) : Statement (.len266 e) :=
  fun _ => by
    simp [encode, litLenBits, litLenParts, fixedLitLenWord, width, codeBits_length, fieldBits_length]
theorem len267 (e : BitVec 1) : Statement (.len267 e) :=
  fun _ => by
    simp [encode, litLenBits, litLenParts, fixedLitLenWord, width, codeBits_length, fieldBits_length]
theorem len268 (e : BitVec 1) : Statement (.len268 e) :=
  fun _ => by
    simp [encode, litLenBits, litLenParts, fixedLitLenWord, width, codeBits_length, fieldBits_length]
theorem len269 (e : BitVec 2) : Statement (.len269 e) :=
  fun _ => by
    simp [encode, litLenBits, litLenParts, fixedLitLenWord, width, codeBits_length, fieldBits_length]
theorem len270 (e : BitVec 2) : Statement (.len270 e) :=
  fun _ => by
    simp [encode, litLenBits, litLenParts, fixedLitLenWord, width, codeBits_length, fieldBits_length]
theorem len271 (e : BitVec 2) : Statement (.len271 e) :=
  fun _ => by
    simp [encode, litLenBits, litLenParts, fixedLitLenWord, width, codeBits_length, fieldBits_length]
theorem len272 (e : BitVec 2) : Statement (.len272 e) :=
  fun _ => by
    simp [encode, litLenBits, litLenParts, fixedLitLenWord, width, codeBits_length, fieldBits_length]
theorem len273 (e : BitVec 3) : Statement (.len273 e) :=
  fun _ => by
    simp [encode, litLenBits, litLenParts, fixedLitLenWord, width, codeBits_length, fieldBits_length]
theorem len274 (e : BitVec 3) : Statement (.len274 e) :=
  fun _ => by
    simp [encode, litLenBits, litLenParts, fixedLitLenWord, width, codeBits_length, fieldBits_length]
theorem len275 (e : BitVec 3) : Statement (.len275 e) :=
  fun _ => by
    simp [encode, litLenBits, litLenParts, fixedLitLenWord, width, codeBits_length, fieldBits_length]
theorem len276 (e : BitVec 3) : Statement (.len276 e) :=
  fun _ => by
    simp [encode, litLenBits, litLenParts, fixedLitLenWord, width, codeBits_length, fieldBits_length]
theorem len277 (e : BitVec 4) : Statement (.len277 e) :=
  fun _ => by
    simp [encode, litLenBits, litLenParts, fixedLitLenWord, width, codeBits_length, fieldBits_length]
theorem len278 (e : BitVec 4) : Statement (.len278 e) :=
  fun _ => by
    simp [encode, litLenBits, litLenParts, fixedLitLenWord, width, codeBits_length, fieldBits_length]
theorem len279 (e : BitVec 4) : Statement (.len279 e) :=
  fun _ => by
    simp [encode, litLenBits, litLenParts, fixedLitLenWord, width, codeBits_length, fieldBits_length]
theorem len280 (e : BitVec 4) : Statement (.len280 e) :=
  fun _ => by
    simp [encode, litLenBits, litLenParts, fixedLitLenWord, width, codeBits_length, fieldBits_length]
theorem len281 (e : BitVec 5) : Statement (.len281 e) :=
  fun _ => by
    simp [encode, litLenBits, litLenParts, fixedLitLenWord, width, codeBits_length, fieldBits_length]
theorem len282 (e : BitVec 5) : Statement (.len282 e) :=
  fun _ => by
    simp [encode, litLenBits, litLenParts, fixedLitLenWord, width, codeBits_length, fieldBits_length]
theorem len283 (e : BitVec 5) : Statement (.len283 e) :=
  fun _ => by
    simp [encode, litLenBits, litLenParts, fixedLitLenWord, width, codeBits_length, fieldBits_length]
theorem len284 (e : BitVec 5) : Statement (.len284 e) :=
  fun _ => by
    simp [encode, litLenBits, litLenParts, fixedLitLenWord, width, codeBits_length, fieldBits_length]
theorem len285 : Statement (.len285) :=
  fun _ => rfl
theorem litlenInvalid (low : BitVec 1) : Statement (.litlenInvalid low) :=
  fun _ => by
    have h : ∀ x : BitVec 1, (litLenBits (.litlenInvalid x)).length = 8 := by decide
    exact h low
theorem dist0 : Statement (.dist0) :=
  fun _ => rfl
theorem dist1 : Statement (.dist1) :=
  fun _ => rfl
theorem dist2 : Statement (.dist2) :=
  fun _ => rfl
theorem dist3 : Statement (.dist3) :=
  fun _ => rfl
theorem dist4 (e : BitVec 1) : Statement (.dist4 e) :=
  fun _ => by
    simp [encode, distBits, distParts, width, codeBits_length, fieldBits_length]
theorem dist5 (e : BitVec 1) : Statement (.dist5 e) :=
  fun _ => by
    simp [encode, distBits, distParts, width, codeBits_length, fieldBits_length]
theorem dist6 (e : BitVec 2) : Statement (.dist6 e) :=
  fun _ => by
    simp [encode, distBits, distParts, width, codeBits_length, fieldBits_length]
theorem dist7 (e : BitVec 2) : Statement (.dist7 e) :=
  fun _ => by
    simp [encode, distBits, distParts, width, codeBits_length, fieldBits_length]
theorem dist8 (e : BitVec 3) : Statement (.dist8 e) :=
  fun _ => by
    simp [encode, distBits, distParts, width, codeBits_length, fieldBits_length]
theorem dist9 (e : BitVec 3) : Statement (.dist9 e) :=
  fun _ => by
    simp [encode, distBits, distParts, width, codeBits_length, fieldBits_length]
theorem dist10 (e : BitVec 4) : Statement (.dist10 e) :=
  fun _ => by
    simp [encode, distBits, distParts, width, codeBits_length, fieldBits_length]
theorem dist11 (e : BitVec 4) : Statement (.dist11 e) :=
  fun _ => by
    simp [encode, distBits, distParts, width, codeBits_length, fieldBits_length]
theorem dist12 (e : BitVec 5) : Statement (.dist12 e) :=
  fun _ => by
    simp [encode, distBits, distParts, width, codeBits_length, fieldBits_length]
theorem dist13 (e : BitVec 5) : Statement (.dist13 e) :=
  fun _ => by
    simp [encode, distBits, distParts, width, codeBits_length, fieldBits_length]
theorem dist14 (e : BitVec 6) : Statement (.dist14 e) :=
  fun _ => by
    simp [encode, distBits, distParts, width, codeBits_length, fieldBits_length]
theorem dist15 (e : BitVec 6) : Statement (.dist15 e) :=
  fun _ => by
    simp [encode, distBits, distParts, width, codeBits_length, fieldBits_length]
theorem dist16 (e : BitVec 7) : Statement (.dist16 e) :=
  fun _ => by
    simp [encode, distBits, distParts, width, codeBits_length, fieldBits_length]
theorem dist17 (e : BitVec 7) : Statement (.dist17 e) :=
  fun _ => by
    simp [encode, distBits, distParts, width, codeBits_length, fieldBits_length]
theorem dist18 (e : BitVec 8) : Statement (.dist18 e) :=
  fun _ => by
    simp [encode, distBits, distParts, width, codeBits_length, fieldBits_length]
theorem dist19 (e : BitVec 8) : Statement (.dist19 e) :=
  fun _ => by
    simp [encode, distBits, distParts, width, codeBits_length, fieldBits_length]
theorem dist20 (e : BitVec 9) : Statement (.dist20 e) :=
  fun _ => by
    simp [encode, distBits, distParts, width, codeBits_length, fieldBits_length]
theorem dist21 (e : BitVec 9) : Statement (.dist21 e) :=
  fun _ => by
    simp [encode, distBits, distParts, width, codeBits_length, fieldBits_length]
theorem dist22 (e : BitVec 10) : Statement (.dist22 e) :=
  fun _ => by
    simp [encode, distBits, distParts, width, codeBits_length, fieldBits_length]
theorem dist23 (e : BitVec 10) : Statement (.dist23 e) :=
  fun _ => by
    simp [encode, distBits, distParts, width, codeBits_length, fieldBits_length]
theorem dist24 (e : BitVec 11) : Statement (.dist24 e) :=
  fun _ => by
    simp [encode, distBits, distParts, width, codeBits_length, fieldBits_length]
theorem dist25 (e : BitVec 11) : Statement (.dist25 e) :=
  fun _ => by
    simp [encode, distBits, distParts, width, codeBits_length, fieldBits_length]
theorem dist26 (e : BitVec 12) : Statement (.dist26 e) :=
  fun _ => by
    simp [encode, distBits, distParts, width, codeBits_length, fieldBits_length]
theorem dist27 (e : BitVec 12) : Statement (.dist27 e) :=
  fun _ => by
    simp [encode, distBits, distParts, width, codeBits_length, fieldBits_length]
theorem dist28 (e : BitVec 13) : Statement (.dist28 e) :=
  fun _ => by
    simp [encode, distBits, distParts, width, codeBits_length, fieldBits_length]
theorem dist29 (e : BitVec 13) : Statement (.dist29 e) :=
  fun _ => by
    simp [encode, distBits, distParts, width, codeBits_length, fieldBits_length]
theorem distInvalid (low : BitVec 1) : Statement (.distInvalid low) :=
  fun _ => by
    simp [encode, distBits, distParts, width, codeBits_length, fieldBits_length]
theorem clLen (sym : BitVec 4) : Statement (.clLen sym) :=
  fun _ => by
    simp [encode, width, codeBits_length]
theorem cl16 (e : BitVec 2) : Statement (.cl16 e) :=
  fun _ => by
    simp [encode, width, codeBits_length, fieldBits_length]
theorem cl17 (e : BitVec 3) : Statement (.cl17 e) :=
  fun _ => by
    simp [encode, width, codeBits_length, fieldBits_length]
theorem cl18 (e : BitVec 7) : Statement (.cl18 e) :=
  fun _ => by
    simp [encode, width, codeBits_length, fieldBits_length]
theorem filtNone : Statement (.filtNone) :=
  fun _ => rfl
theorem filtSub : Statement (.filtSub) :=
  fun _ => rfl
theorem filtUp : Statement (.filtUp) :=
  fun _ => rfl
theorem filtAvg : Statement (.filtAvg) :=
  fun _ => rfl
theorem filtPaeth : Statement (.filtPaeth) :=
  fun _ => rfl
theorem filtInvalid (ft : Byte) : Statement (.filtInvalid ft) :=
  fun _ => byteBits_length _

end Sys2Proof.Laws.Width
end

