-- ==== Sys2Proof/Laws/Registers.lean ====
section
/-! SUPPORT. The register window: what each offset reads after one register is written, the bits of CTRL and STATUS, and WR_REG's writes
(10_state.md section 2). -/

namespace Sys2Proof.Machine

/-! ## A read after one register was written -/

theorem readReg_errCode (r : Regs) (v : Word) (off : BitVec 8) :
    readReg { r with errCode := v } off = if off = 0x0C#8 then v else readReg r off := by
  by_cases h : off = 0x0C#8
  · subst h; rfl
  · rw [if_neg h]; unfold readReg
    split <;> first | rfl | exact absurd (BitVec.eq_of_toNat_eq ‹_›) h

theorem readReg_errPos (r : Regs) (v : Word) (off : BitVec 8) :
    readReg { r with errPos := v } off = if off = 0x10#8 then v else readReg r off := by
  by_cases h : off = 0x10#8
  · subst h; rfl
  · rw [if_neg h]; unfold readReg
    split <;> first | rfl | exact absurd (BitVec.eq_of_toNat_eq ‹_›) h

theorem readReg_errAux (r : Regs) (v : Word) (off : BitVec 8) :
    readReg { r with errAux := v } off = if off = 0x14#8 then v else readReg r off := by
  by_cases h : off = 0x14#8
  · subst h; rfl
  · rw [if_neg h]; unfold readReg
    split <;> first | rfl | exact absurd (BitVec.eq_of_toNat_eq ‹_›) h

theorem readReg_imgWidth (r : Regs) (v : Word) (off : BitVec 8) :
    readReg { r with imgWidth := v } off = if off = 0x40#8 then v else readReg r off := by
  by_cases h : off = 0x40#8
  · subst h; rfl
  · rw [if_neg h]; unfold readReg
    split <;> first | rfl | exact absurd (BitVec.eq_of_toNat_eq ‹_›) h

theorem readReg_imgHeight (r : Regs) (v : Word) (off : BitVec 8) :
    readReg { r with imgHeight := v } off = if off = 0x44#8 then v else readReg r off := by
  by_cases h : off = 0x44#8
  · subst h; rfl
  · rw [if_neg h]; unfold readReg
    split <;> first | rfl | exact absurd (BitVec.eq_of_toNat_eq ‹_›) h

theorem readReg_imgFormat (r : Regs) (v : Word) (off : BitVec 8) :
    readReg { r with imgFormat := v } off = if off = 0x48#8 then v else readReg r off := by
  by_cases h : off = 0x48#8
  · subst h; rfl
  · rw [if_neg h]; unfold readReg
    split <;> first | rfl | exact absurd (BitVec.eq_of_toNat_eq ‹_›) h

theorem readReg_imgInterlace (r : Regs) (v : Word) (off : BitVec 8) :
    readReg { r with imgInterlace := v } off = if off = 0x4C#8 then v else readReg r off := by
  by_cases h : off = 0x4C#8
  · subst h; rfl
  · rw [if_neg h]; unfold readReg
    split <;> first | rfl | exact absurd (BitVec.eq_of_toNat_eq ‹_›) h

theorem readReg_plteOffset (r : Regs) (v : Word) (off : BitVec 8) :
    readReg { r with plteOffset := v } off = if off = 0x50#8 then v else readReg r off := by
  by_cases h : off = 0x50#8
  · subst h; rfl
  · rw [if_neg h]; unfold readReg
    split <;> first | rfl | exact absurd (BitVec.eq_of_toNat_eq ‹_›) h

theorem readReg_plteCount (r : Regs) (v : Word) (off : BitVec 8) :
    readReg { r with plteCount := v } off = if off = 0x54#8 then v else readReg r off := by
  by_cases h : off = 0x54#8
  · subst h; rfl
  · rw [if_neg h]; unfold readReg
    split <;> first | rfl | exact absurd (BitVec.eq_of_toNat_eq ‹_›) h

theorem readReg_inflLen (r : Regs) (v : Word) (off : BitVec 8) :
    readReg { r with inflLen := v } off = if off = 0x58#8 then v else readReg r off := by
  by_cases h : off = 0x58#8
  · subst h; rfl
  · rw [if_neg h]; unfold readReg
    split <;> first | rfl | exact absurd (BitVec.eq_of_toNat_eq ‹_›) h

theorem readReg_rowBytes (r : Regs) (v : Word) (off : BitVec 8) :
    readReg { r with rowBytes := v } off = if off = 0x5C#8 then v else readReg r off := by
  by_cases h : off = 0x5C#8
  · subst h; rfl
  · rw [if_neg h]; unfold readReg
    split <;> first | rfl | exact absurd (BitVec.eq_of_toNat_eq ‹_›) h

theorem readReg_bpp (r : Regs) (v : Word) (off : BitVec 8) :
    readReg { r with bpp := v } off = if off = 0x60#8 then v else readReg r off := by
  by_cases h : off = 0x60#8
  · subst h; rfl
  · rw [if_neg h]; unfold readReg
    split <;> first | rfl | exact absurd (BitVec.eq_of_toNat_eq ‹_›) h

theorem readReg_reconLen (r : Regs) (v : Word) (off : BitVec 8) :
    readReg { r with reconLen := v } off = if off = 0x64#8 then v else readReg r off := by
  by_cases h : off = 0x64#8
  · subst h; rfl
  · rw [if_neg h]; unfold readReg
    split <;> first | rfl | exact absurd (BitVec.eq_of_toNat_eq ‹_›) h

theorem readReg_crcResult (r : Regs) (v : Word) (off : BitVec 8) :
    readReg { r with crcResult := v } off = if off = 0x68#8 then v else readReg r off := by
  by_cases h : off = 0x68#8
  · subst h; rfl
  · rw [if_neg h]; unfold readReg
    split <;> first | rfl | exact absurd (BitVec.eq_of_toNat_eq ‹_›) h

theorem readReg_adlerResult (r : Regs) (v : Word) (off : BitVec 8) :
    readReg { r with adlerResult := v } off = if off = 0x6C#8 then v else readReg r off := by
  by_cases h : off = 0x6C#8
  · subst h; rfl
  · rw [if_neg h]; unfold readReg
    split <;> first | rfl | exact absurd (BitVec.eq_of_toNat_eq ‹_›) h

theorem readReg_chunkCount (r : Regs) (v : Word) (off : BitVec 8) :
    readReg { r with chunkCount := v } off = if off = 0x70#8 then v else readReg r off := by
  by_cases h : off = 0x70#8
  · subst h; rfl
  · rw [if_neg h]; unfold readReg
    split <;> first | rfl | exact absurd (BitVec.eq_of_toNat_eq ‹_›) h

theorem readReg_idatCount (r : Regs) (v : Word) (off : BitVec 8) :
    readReg { r with idatCount := v } off = if off = 0x74#8 then v else readReg r off := by
  by_cases h : off = 0x74#8
  · subst h; rfl
  · rw [if_neg h]; unfold readReg
    split <;> first | rfl | exact absurd (BitVec.eq_of_toNat_eq ‹_›) h

theorem readReg_blockCount (r : Regs) (v : Word) (off : BitVec 8) :
    readReg { r with blockCount := v } off = if off = 0x78#8 then v else readReg r off := by
  by_cases h : off = 0x78#8
  · subst h; rfl
  · rw [if_neg h]; unfold readReg
    split <;> first | rfl | exact absurd (BitVec.eq_of_toNat_eq ‹_›) h

theorem readReg_idatLen (r : Regs) (v : Word) (off : BitVec 8) :
    readReg { r with idatLen := v } off = if off = 0x7C#8 then v else readReg r off := by
  by_cases h : off = 0x7C#8
  · subst h; rfl
  · rw [if_neg h]; unfold readReg
    split <;> first | rfl | exact absurd (BitVec.eq_of_toNat_eq ‹_›) h

/-- BUSY, DONE, ERR and STAGE show at STATUS alone. -/
theorem readReg_statusFields (r : Regs) (b d e : Bool) (g : Stage) {off : BitVec 8} (h : off ≠ 0x08#8) :
    readReg { r with busy := b, done := d, err := e, stage := g } off = readReg r off := by
  unfold readReg
  split <;> first | rfl | exact absurd (BitVec.eq_of_toNat_eq ‹_›) h

/-- MODE, IRQ_EN and FCHECK_EN show at CTRL alone. -/
theorem readReg_ctrlFields (r : Regs) (m : BitVec 3) (q f : Bool) {off : BitVec 8} (h : off ≠ 0x04#8) :
    readReg { r with mode := m, irqEn := q, fcheckEn := f } off = readReg r off := by
  unfold readReg
  split <;> first | rfl | exact absurd (BitVec.eq_of_toNat_eq ‹_›) h

/-! ## CTRL and STATUS, bit by bit (R33, R34) -/

theorem statusValue_bits (r : Regs) :
    (statusValue r).getLsbD 0 = r.busy ∧ (statusValue r).getLsbD 1 = r.done ∧ (statusValue r).getLsbD 2 = r.err ∧
      (statusValue r).getLsbD 3 = false ∧ ((statusValue r).extractLsb' 4 4).toNat = r.stage.code ∧
      (statusValue r).extractLsb' 8 24 = 0#24 := by
  unfold statusValue
  cases r.busy <;> cases r.done <;> cases r.err <;> cases r.stage <;> decide

theorem ctrlValue_bits (r : Regs) :
    (ctrlValue r).getLsbD 0 = false ∧ (ctrlValue r).getLsbD 1 = false ∧ (ctrlValue r).extractLsb' 2 3 = r.mode ∧
      (ctrlValue r).getLsbD 5 = r.irqEn ∧ (ctrlValue r).getLsbD 6 = r.fcheckEn ∧ (ctrlValue r).extractLsb' 7 25 = 0#25 := by
  unfold ctrlValue
  generalize r.mode = m
  revert m
  cases r.irqEn <;> cases r.fcheckEn <;> decide

/-! ## WR_REG (R201) -/

/-- A read-write register takes the value, and no other offset reads differently. -/
theorem readReg_writeRegs (r : Regs) (off o : BitVec 8) (v : Word) :
    readReg (writeRegs r off v) o = if o = off ∧ off ∈ rwOffsets then v else readReg r o := by
  have hn : ∀ k : Nat, k < 256 → off.toNat = k → off = BitVec.ofNat 8 k := fun k hk h => by
    apply BitVec.eq_of_toNat_eq; rw [h, BitVec.toNat_ofNat]; omega
  by_cases hm : off ∈ rwOffsets
  · have hm' := hm
    simp only [rwOffsets, List.mem_cons, List.not_mem_nil, or_false] at hm'
    by_cases ho : o = off
    · subst ho
      rw [if_pos ⟨rfl, hm⟩]
      rcases hm' with rfl | rfl | rfl | rfl | rfl | rfl | rfl | rfl | rfl <;> rfl
    · rw [if_neg fun h => ho h.1]
      rcases hm' with rfl | rfl | rfl | rfl | rfl | rfl | rfl | rfl | rfl <;> simp only [writeRegs, BitVec.toNat_ofNat] <;>
        unfold readReg <;> split <;> first | rfl | exact absurd (BitVec.eq_of_toNat_eq ‹_›) ho
  · rw [if_neg fun h => hm h.2]
    unfold writeRegs
    split <;> first | rfl | (rename_i h; exfalso; apply hm; rw [hn _ (by decide) h]; decide)

end Sys2Proof.Machine
end

