-- ==== Sys2Proof/Tests/Slice0.lean ====
section
/-! SUPPORT. The model's own tests and the witnesses of the statements' hypotheses. Expected values come from `95_test_vectors.md` (cited
as "vectors" with the section) or are worked out by hand from the rule named. -/

namespace Sys2Proof.Tests

set_option Elab.async false

open Sys2Proof Sys2Proof.Machine

/-! ## Helpers -/

/-- A bit string as the spec writes it: the first bit read on the left. -/
def bits (ds : List Nat) : List Bool := ds.map (· == 1)

/-- The bytes of a byte string. -/
def bytes (ns : List Nat) : List Byte := ns.map (BitVec.ofNat 8)

/-- A run of `mode` at `phase`, STAGE as it fits there, `inp` in IN at 0x1000, INFL and RECON of 64 bytes at 0x2000 and 0x3000, as the vectors place them. -/
def run (mode : BitVec 3) (phase : Phase) (inp : List Nat) : State :=
  { State.reset with
    regs := { Regs.reset with
      mode := mode, busy := true, stage := phase.stages.headD .idle
      inBase := 0x1000#32, inLen := trunc32 inp.length, inflBase := 0x2000#32, inflCap := 0x40#32
      reconBase := 0x3000#32, reconCap := 0x40#32 }
    eng := { Engine.reset with phase := phase, s1 := 1 }
    mem := storeBytes [] 0x1000 (bytes inp) }

/-- The state a step or an instruction leaves, if it leaves one. -/
def after : Result → Option State
  | .next t => some t
  | .fault _ => none
  | .refused _ => none

/-- Registers read afterwards. -/
def reads (r : Result) (offs : List (BitVec 8)) : Option (List Word) := (after r).map fun t => offs.map (readReg t.regs)

/-- Where the engine stands afterwards. -/
def phaseAfter (r : Result) : Option Phase := (after r).map fun t => t.eng.phase

/-- STATUS, ERR_CODE, ERR_POS and ERR_AUX. -/
def errView : List (BitVec 8) := [0x08#8, 0x0C#8, 0x10#8, 0x14#8]

/-- The first bytes of PNG1 (vectors 4.1): signature and IHDR chunk. -/
def pngHead : List Nat :=
  [0x89, 0x50, 0x4E, 0x47, 0x0D, 0x0A, 0x1A, 0x0A, 0, 0, 0, 0x0D, 0x49, 0x48, 0x44, 0x52, 0, 0, 0, 1, 0, 0, 0, 1, 8, 6, 0, 0, 0,
    0x1F, 0x15, 0xC4, 0x89]

/-- The IDAT chunk of PNG1. -/
def pngIdat : List Nat :=
  [0, 0, 0, 0x10, 0x49, 0x44, 0x41, 0x54, 0x78, 1, 1, 5, 0, 0xFA, 0xFF, 0, 0xFF, 0, 0, 0x80, 4, 0x81, 1, 0x80, 0x19, 0x2F, 0x85, 0xB0]

/-- The IEND chunk. -/
def pngIend : List Nat := [0, 0, 0, 0, 0x49, 0x45, 0x4E, 0x44, 0xAE, 0x42, 0x60, 0x82]

/-- The PLTE chunk of PNG2. -/
def pngPlte : List Nat :=
  [0, 0, 0, 0x0C, 0x50, 0x4C, 0x54, 0x45, 0, 0, 0, 0xFF, 0, 0, 0, 0xFF, 0, 0, 0, 0xFF, 0x9B, 0xC0, 0x13, 0xDC]

/-- A FULL run at the chunk at offset `p` of `inp`. -/
def atChunk (p : Nat) (inp : List Nat) : State :=
  let s := run 0#3 .chunk inp
  { s with eng := { s.eng with p := p } }

/-- A symbol read with an empty output behind it, in the first block. -/
def atSymbol : State := { run 1#3 .litLen [] with eng := { (run 1#3 .litLen []).eng with sp := 26 } }

/-- A distance symbol of a length of 3, with 32768 bytes behind it. -/
def atDistance : State := { run 1#3 (.dist 3) [] with eng := { (run 1#3 (.dist 3) []).eng with out := 32768, sp := 34 } }

/-- An UNFILTER run of width 2, height 2, gray 8-bit at byte `i` of row `row`, with the rows before it in RECON. -/
def atRow (ft : Byte) (row i : Nat) (inp recon : List Nat) : State :=
  let s := run 2#3 (.rowByte ft i) inp
  { s with
    regs := { s.regs with
      ufWidth := 2#32, ufHeight := 2#32, ufFormat := 0x0008#32, rowBytes := 2#32, bpp := 1#32
      reconLen := trunc32 (2 * row) }
    eng := { s.eng with row := row }
    mem := storeBytes s.mem 0x3000 (bytes recon) }

/-- The fixed literal/length code of R159, and the fixed distance code of R160. -/
def fixedLen (b : List Bool) : Except DecodeError (Instr × Nat) := decode (.litLen false fixedLitLen) b
def fixedDst (b : List Bool) : Except DecodeError (Instr × Nat) := decode (.dist fixedDist) b

/-! ## Well-formedness: one ill-formed term for each check -/

/-- R141: MODE 0 to 3 is not reserved. -/
theorem test_wf_reserved_mode : (Instr.startReserved 3#3 false false true 0#25).wf = false := by decide

/-- R106, R141: the offset of a register store. -/
theorem test_wf_write_offset :
    (Instr.wrReg 0x1A#8 0#32).wf = false ∧ (Instr.wrReg 0x04#8 0#32).wf = false ∧ (Instr.wrReg 0x08#8 0#32).wf = false := by decide

/-- R106: the offset of a register read. -/
theorem test_wf_read_offset : (Instr.rdReg 0x41#8).wf = false := by decide

/-- R144: IHDR is known, "tEXt" is ancillary. -/
theorem test_wf_unknown_critical :
    (Instr.chunkUnknownCritical 0#32 0x49484452#32).wf = false ∧ (Instr.chunkUnknownCritical 0#32 0x74455874#32).wf = false := by decide

/-- R144: "ABCD" is critical. -/
theorem test_wf_ancillary : (Instr.chunkAncillary 0#32 0x41424344#32).wf = false := by decide

/-- R159: 144 has a 9-bit codeword, 143 an 8-bit one. -/
theorem test_wf_fixed_literals : (Instr.litFixed8 144#8).wf = false ∧ (Instr.litFixed9 143#8).wf = false := by decide

/-- R164: filter byte 4 is Paeth. -/
theorem test_wf_filter : (Instr.filtInvalid 4#8).wf = false := by decide

/-! ## Decoding: words written out from the spec's tables -/

/-- R141 and the table of section 8 of the vectors; ABORT and START as R200 tells them apart. -/
theorem test_decode_ctrl :
    decode (.hostWrite 0x04#8 false) (fieldBits 32 0x5C) = .ok (.wrCtrl 7#3 false true 0#25, 32) ∧
    decode (.hostWrite 0x04#8 false) (fieldBits 32 0x61) = .ok (.startFull false true true 0#25, 32) ∧
    decode (.hostWrite 0x04#8 false) (fieldBits 32 0x05) = .ok (.startInflate false false false 0#25, 32) ∧
    decode (.hostWrite 0x04#8 false) (fieldBits 32 0x49) = .ok (.startUnfilter false false true 0#25, 32) ∧
    decode (.hostWrite 0x04#8 false) (fieldBits 32 0x4F) = .ok (.startCrc32 true false true 0#25, 32) ∧
    decode (.hostWrite 0x04#8 false) (fieldBits 32 0x55) = .ok (.startReserved 5#3 false false true 0#25, 32) ∧
    decode (.hostWrite 0x04#8 true) (fieldBits 32 0x23) = .ok (.abort true 0#3 true false 0#25, 32) ∧
    decode (.hostWrite 0x04#8 false) (fieldBits 32 0xFFFFFF82) = .ok (.abort false 0#3 false false 0x1FFFFFF#25, 32) := by
  decide +kernel

/-- R141, R201, R205, R212; a misaligned offset is refused. -/
theorem test_decode_registers :
    decode (.hostWrite 0x08#8 false) (fieldBits 32 0x04) = .ok (.wrStatus 4#32, 32) ∧
    decode (.hostWrite 0x1C#8 false) (fieldBits 32 0x49) = .ok (.wrReg 0x1C#8 0x49#32, 32) ∧
    decode (.hostRead 0x68#8) [] = .ok (.rdReg 0x68#8, 0) ∧
    decode (.hostRead 0x69#8) [] = .error .notAligned ∧ decode (.hostWrite 0x1D#8 false) (fieldBits 32 0) = .error .notAligned := by
  decide +kernel

/-- R142, R143, R144: signature and chunk heads, byte by byte. -/
theorem test_decode_chunks :
    decode .signature (byteBits (bytes [0x89, 0x50, 0x4E, 0x47, 0x0D, 0x0A, 0x1A, 0x0A])) = .ok (.sig, 64) ∧
    decode .signature (byteBits (bytes [0x89, 0x50, 0x4E, 0x47, 0x0D, 0x0A, 0x1A, 0x0B])) = .error .notSignature ∧
    decode .chunk (byteBits (bytes [0, 0, 0, 0x0D, 0x49, 0x48, 0x44, 0x52])) = .ok (.chunkIhdr 13#32, 64) ∧
    decode .chunk (byteBits (bytes [0, 0, 0, 0x0C, 0x50, 0x4C, 0x54, 0x45])) = .ok (.chunkPlte 12#32, 64) ∧
    decode .chunk (byteBits (bytes [1, 0, 0, 0x10, 0x49, 0x44, 0x41, 0x54])) = .ok (.chunkIdat 0x1000010#32, 64) ∧
    decode .chunk (byteBits (bytes [0, 0, 0, 0, 0x49, 0x45, 0x4E, 0x44])) = .ok (.chunkIend 0#32, 64) ∧
    decode .chunk (byteBits (bytes [0, 0, 0, 0, 0x41, 0x42, 0x43, 0x44])) = .ok (.chunkUnknownCritical 0#32 0x41424344#32, 64) ∧
    decode .chunk (byteBits (bytes [0, 0, 0, 3, 0x74, 0x45, 0x58, 0x74])) = .ok (.chunkAncillary 3#32 0x74455874#32, 64) ∧
    decode .chunk (byteBits (bytes [0, 0, 0, 3, 0x74, 0x45, 0x58])) = .error .tooShort := by
  decide +kernel

/-- R148, R153, R164; the boundary of a critical type (R144) and of the filter types. -/
theorem test_decode_zlib_block_filter :
    decode .zlibCm (byteBits (bytes [0x78, 0x9C])) = .ok (.zlibCm 0x78#8 0x9C#8, 16) ∧
    decode .zlibFdict (byteBits (bytes [0x78, 0x20])) = .ok (.zlibFdict 0x78#8 0x20#8, 16) ∧
    decode .zlibFcheck (byteBits (bytes [0x78, 0x01])) = .ok (.zlibFcheck 0x78#8 0x01#8, 16) ∧
    decode .block (bits [1, 0, 0]) = .ok (.blockStored true, 3) ∧ decode .block (bits [0, 1, 0]) = .ok (.blockFixed false, 3) ∧
    decode .block (bits [1, 0, 1]) = .ok (.blockDynamic true, 3) ∧ decode .block (bits [0, 1, 1]) = .ok (.blockReserved false, 3) ∧
    decode .filter (byteBits (bytes [0])) = .ok (.filtNone, 8) ∧ decode .filter (byteBits (bytes [1])) = .ok (.filtSub, 8) ∧
    decode .filter (byteBits (bytes [2])) = .ok (.filtUp, 8) ∧ decode .filter (byteBits (bytes [3])) = .ok (.filtAvg, 8) ∧
    decode .filter (byteBits (bytes [4])) = .ok (.filtPaeth, 8) ∧
    decode .filter (byteBits (bytes [5])) = .ok (.filtInvalid 5#8, 8) ∧
    decode .chunk (byteBits (bytes [0, 0, 0, 0, 0x5B, 0, 0, 0])) = .ok (.chunkAncillary 0#32 0x5B000000#32, 64) := by
  decide +kernel

/-- The codeword table of section 3.4 of the vectors. -/
theorem test_decode_fixed_codewords :
    fixedLen (bits [0, 0, 1, 1, 0, 0, 0, 0]) = .ok (.litFixed8 0#8, 8) ∧
    fixedLen (bits [0, 1, 1, 1, 0, 0, 0, 1]) = .ok (.litFixed8 65#8, 8) ∧
    fixedLen (bits [1, 0, 0, 1, 0, 0, 0, 1]) = .ok (.litFixed8 97#8, 8) ∧
    fixedLen (bits [1, 0, 1, 1, 1, 1, 1, 1]) = .ok (.litFixed8 143#8, 8) ∧
    fixedLen (bits [1, 1, 0, 0, 1, 0, 0, 0, 0]) = .ok (.litFixed9 144#8, 9) ∧
    fixedLen (bits [1, 1, 1, 1, 1, 1, 1, 1, 1]) = .ok (.litFixed9 255#8, 9) ∧
    fixedLen (bits [0, 0, 0, 0, 0, 0, 0]) = .ok (.eob, 7) ∧
    fixedLen (bits [1, 1, 0, 0, 0, 1, 1, 0]) = .ok (.litlenInvalid 0#1, 8) ∧
    fixedLen (bits [1, 1, 0, 0, 0, 1, 1, 1]) = .ok (.litlenInvalid 1#1, 8) ∧
    fixedDst (bits [1, 1, 1, 1, 0]) = .ok (.distInvalid 0#1, 5) ∧ fixedDst (bits [1, 1, 1, 1, 1]) = .ok (.distInvalid 1#1, 5) := by
  decide +kernel

/-- The literal/length lengths of the "abccccc" stream (vectors 3.3): 97, 98, 99 have length 2, 256 and 258 length 3. -/
def abcCode : List Nat := List.replicate 97 0 ++ [2, 2, 2] ++ List.replicate 156 0 ++ [3, 0, 3] ++ List.replicate 29 0

/-- R162 by hand on that code: 97 is 00, 98 is 01, 99 is 10, 256 is 110, 258 is 111. -/
theorem test_decode_dynamic :
    decode (.litLen true abcCode) (bits [0, 0]) = .ok (.litDyn 97#8, 2) ∧
    decode (.litLen true abcCode) (bits [1, 0]) = .ok (.litDyn 99#8, 2) ∧
    decode (.litLen true abcCode) (bits [1, 1, 0]) = .ok (.eob, 3) ∧ decode (.litLen true abcCode) (bits [1, 1, 1]) = .ok (.len258, 3) := by
  decide +kernel

/-- The code-length code of that stream: 18, 2 and 3 of length 2, 0 and 1 of length 3, so that 2 is 00, 3 is 01, 18 is 10, 0 is 110, 1 is
111. -/
def abcCl : List Nat := [3, 3, 2, 2, 0, 0, 0, 0, 0, 0, 0, 0, 0, 0, 0, 0, 0, 0, 2]

/-- R161: 18 with extra 86 (vectors 3.3), the plain lengths, and 16 and 17 in a code whose lengths are all 5. -/
theorem test_decode_code_lengths :
    decode (.cl false abcCl) (bits [1, 0, 0, 1, 1, 0, 1, 0, 1]) = .ok (.cl18 86#7, 9) ∧
    decode (.cl false abcCl) (bits [0, 0]) = .ok (.clLen 2#4, 2) ∧ decode (.cl false abcCl) (bits [1, 1, 1]) = .ok (.clLen 1#4, 3) ∧
    decode (.cl false (List.replicate 19 5)) (bits [1, 0, 0, 0, 0, 1, 0]) = .ok (.cl16 1#2, 7) ∧
    decode (.cl false (List.replicate 19 5)) (bits [1, 0, 0, 0, 1, 0, 1, 1]) = .ok (.cl17 6#3, 8) ∧
    decode (.cl false (List.replicate 19 5)) (bits [0, 1, 1, 1, 1]) = .ok (.clLen 15#4, 5) := by
  decide +kernel

/-- R360, R361 (vectors 3.3): the bit 1 in the incomplete code where 256 is 0, and a code with no codeword at all. -/
theorem test_decode_undecodable :
    decode (.litLen true (List.replicate 256 0 ++ [1] ++ List.replicate 31 0)) (bits [1]) = .error .undecodable ∧
    decode (.litLen true (List.replicate 256 0 ++ [1] ++ List.replicate 31 0)) (bits [0]) = .ok (.eob, 1) ∧
    decode (.dist (List.replicate 32 0)) [] = .error .undecodable ∧ fixedLen (bits [0, 0, 1, 1]) = .error .tooShort := by
  decide +kernel

/-- R157, R159: the codewords of the length symbols, most significant bit first, then the extra bits, least significant first. -/
theorem test_decode_lengths_1 :
    fixedLen (bits [0, 0, 0, 0, 0, 0, 1]) = .ok (.len257, 7) ∧
    fixedLen (bits [0, 0, 0, 0, 0, 1, 0]) = .ok (.len258, 7) ∧
    fixedLen (bits [0, 0, 0, 0, 0, 1, 1]) = .ok (.len259, 7) ∧
    fixedLen (bits [0, 0, 0, 0, 1, 0, 0]) = .ok (.len260, 7) ∧
    fixedLen (bits [0, 0, 0, 0, 1, 0, 1]) = .ok (.len261, 7) ∧
    fixedLen (bits [0, 0, 0, 0, 1, 1, 0]) = .ok (.len262, 7) ∧
    fixedLen (bits [0, 0, 0, 0, 1, 1, 1]) = .ok (.len263, 7) ∧
    fixedLen (bits [0, 0, 0, 1, 0, 0, 0]) = .ok (.len264, 7) ∧
    fixedLen (bits [0, 0, 0, 1, 0, 0, 1, 1]) = .ok (.len265 1#1, 8) ∧
    fixedLen (bits [0, 0, 0, 1, 0, 1, 0, 1]) = .ok (.len266 1#1, 8) := by decide +kernel

/-- R157, R159: the codewords of the length symbols, most significant bit first, then the extra bits, least significant first. -/
theorem test_decode_lengths_2 :
    fixedLen (bits [0, 0, 0, 1, 0, 1, 1, 1]) = .ok (.len267 1#1, 8) ∧
    fixedLen (bits [0, 0, 0, 1, 1, 0, 0, 1]) = .ok (.len268 1#1, 8) ∧
    fixedLen (bits [0, 0, 0, 1, 1, 0, 1, 1, 0]) = .ok (.len269 1#2, 9) ∧
    fixedLen (bits [0, 0, 0, 1, 1, 1, 0, 0, 1]) = .ok (.len270 2#2, 9) ∧
    fixedLen (bits [0, 0, 0, 1, 1, 1, 1, 1, 0]) = .ok (.len271 1#2, 9) ∧
    fixedLen (bits [0, 0, 1, 0, 0, 0, 0, 0, 1]) = .ok (.len272 2#2, 9) ∧
    fixedLen (bits [0, 0, 1, 0, 0, 0, 1, 1, 1, 0]) = .ok (.len273 3#3, 10) ∧
    fixedLen (bits [0, 0, 1, 0, 0, 1, 0, 0, 0, 1]) = .ok (.len274 4#3, 10) ∧
    fixedLen (bits [0, 0, 1, 0, 0, 1, 1, 1, 1, 0]) = .ok (.len275 3#3, 10) ∧
    fixedLen (bits [0, 0, 1, 0, 1, 0, 0, 0, 0, 1]) = .ok (.len276 4#3, 10) := by decide +kernel

/-- R157, R159: the codewords of the length symbols, most significant bit first, then the extra bits, least significant first. -/
theorem test_decode_lengths_3 :
    fixedLen (bits [0, 0, 1, 0, 1, 0, 1, 1, 1, 1, 0]) = .ok (.len277 7#4, 11) ∧
    fixedLen (bits [0, 0, 1, 0, 1, 1, 0, 0, 0, 0, 1]) = .ok (.len278 8#4, 11) ∧
    fixedLen (bits [0, 0, 1, 0, 1, 1, 1, 1, 1, 1, 0]) = .ok (.len279 7#4, 11) ∧
    fixedLen (bits [1, 1, 0, 0, 0, 0, 0, 0, 0, 0, 0, 1]) = .ok (.len280 8#4, 12) ∧
    fixedLen (bits [1, 1, 0, 0, 0, 0, 0, 1, 1, 1, 1, 1, 0]) = .ok (.len281 15#5, 13) ∧
    fixedLen (bits [1, 1, 0, 0, 0, 0, 1, 0, 0, 0, 0, 0, 1]) = .ok (.len282 16#5, 13) ∧
    fixedLen (bits [1, 1, 0, 0, 0, 0, 1, 1, 1, 1, 1, 1, 0]) = .ok (.len283 15#5, 13) ∧
    fixedLen (bits [1, 1, 0, 0, 0, 1, 0, 0, 0, 0, 0, 0, 1]) = .ok (.len284 16#5, 13) ∧
    fixedLen (bits [1, 1, 0, 0, 0, 1, 0, 1]) = .ok (.len285, 8) := by decide +kernel

/-- R158, R160: the 5-bit distance codewords and their extra bits. -/
theorem test_decode_distances_1 :
    fixedDst (bits [0, 0, 0, 0, 0]) = .ok (.dist0, 5) ∧
    fixedDst (bits [0, 0, 0, 0, 1]) = .ok (.dist1, 5) ∧
    fixedDst (bits [0, 0, 0, 1, 0]) = .ok (.dist2, 5) ∧
    fixedDst (bits [0, 0, 0, 1, 1]) = .ok (.dist3, 5) ∧
    fixedDst (bits [0, 0, 1, 0, 0, 1]) = .ok (.dist4 1#1, 6) ∧
    fixedDst (bits [0, 0, 1, 0, 1, 1]) = .ok (.dist5 1#1, 6) ∧
    fixedDst (bits [0, 0, 1, 1, 0, 0, 1]) = .ok (.dist6 2#2, 7) ∧
    fixedDst (bits [0, 0, 1, 1, 1, 1, 0]) = .ok (.dist7 1#2, 7) ∧
    fixedDst (bits [0, 1, 0, 0, 0, 0, 0, 1]) = .ok (.dist8 4#3, 8) ∧
    fixedDst (bits [0, 1, 0, 0, 1, 1, 1, 0]) = .ok (.dist9 3#3, 8) := by decide +kernel

/-- R158, R160: the 5-bit distance codewords and their extra bits. -/
theorem test_decode_distances_2 :
    fixedDst (bits [0, 1, 0, 1, 0, 0, 0, 0, 1]) = .ok (.dist10 8#4, 9) ∧
    fixedDst (bits [0, 1, 0, 1, 1, 1, 1, 1, 0]) = .ok (.dist11 7#4, 9) ∧
    fixedDst (bits [0, 1, 1, 0, 0, 0, 0, 0, 0, 1]) = .ok (.dist12 16#5, 10) ∧
    fixedDst (bits [0, 1, 1, 0, 1, 1, 1, 1, 1, 0]) = .ok (.dist13 15#5, 10) ∧
    fixedDst (bits [0, 1, 1, 1, 0, 0, 0, 0, 0, 0, 1]) = .ok (.dist14 32#6, 11) ∧
    fixedDst (bits [0, 1, 1, 1, 1, 1, 1, 1, 1, 1, 0]) = .ok (.dist15 31#6, 11) ∧
    fixedDst (bits [1, 0, 0, 0, 0, 0, 0, 0, 0, 0, 0, 1]) = .ok (.dist16 64#7, 12) ∧
    fixedDst (bits [1, 0, 0, 0, 1, 1, 1, 1, 1, 1, 1, 0]) = .ok (.dist17 63#7, 12) ∧
    fixedDst (bits [1, 0, 0, 1, 0, 0, 0, 0, 0, 0, 0, 0, 1]) = .ok (.dist18 128#8, 13) ∧
    fixedDst (bits [1, 0, 0, 1, 1, 1, 1, 1, 1, 1, 1, 1, 0]) = .ok (.dist19 127#8, 13) := by decide +kernel

/-- R158, R160: the 5-bit distance codewords and their extra bits. -/
theorem test_decode_distances_3 :
    fixedDst (bits [1, 0, 1, 0, 0, 0, 0, 0, 0, 0, 0, 0, 0, 1]) = .ok (.dist20 256#9, 14) ∧
    fixedDst (bits [1, 0, 1, 0, 1, 1, 1, 1, 1, 1, 1, 1, 1, 0]) = .ok (.dist21 255#9, 14) ∧
    fixedDst (bits [1, 0, 1, 1, 0, 0, 0, 0, 0, 0, 0, 0, 0, 0, 1]) = .ok (.dist22 512#10, 15) ∧
    fixedDst (bits [1, 0, 1, 1, 1, 1, 1, 1, 1, 1, 1, 1, 1, 1, 0]) = .ok (.dist23 511#10, 15) ∧
    fixedDst (bits [1, 1, 0, 0, 0, 0, 0, 0, 0, 0, 0, 0, 0, 0, 0, 1]) = .ok (.dist24 1024#11, 16) ∧
    fixedDst (bits [1, 1, 0, 0, 1, 1, 1, 1, 1, 1, 1, 1, 1, 1, 1, 0]) = .ok (.dist25 1023#11, 16) ∧
    fixedDst (bits [1, 1, 0, 1, 0, 0, 0, 0, 0, 0, 0, 0, 0, 0, 0, 0, 1]) = .ok (.dist26 2048#12, 17) ∧
    fixedDst (bits [1, 1, 0, 1, 1, 1, 1, 1, 1, 1, 1, 1, 1, 1, 1, 1, 0]) = .ok (.dist27 2047#12, 17) ∧
    fixedDst (bits [1, 1, 1, 0, 0, 0, 0, 0, 0, 0, 0, 0, 0, 0, 0, 0, 0, 1]) = .ok (.dist28 4096#13, 18) ∧
    fixedDst (bits [1, 1, 1, 0, 1, 1, 1, 1, 1, 1, 1, 1, 1, 1, 1, 1, 1, 0]) = .ok (.dist29 4095#13, 18) := by decide +kernel

/-- The last column of the table of R157: the longest length of each code. -/
theorem test_exec_lengths_1 :
    phaseAfter (exec (.len257) atSymbol) = some (.dist 3) ∧
    phaseAfter (exec (.len258) atSymbol) = some (.dist 4) ∧
    phaseAfter (exec (.len259) atSymbol) = some (.dist 5) ∧
    phaseAfter (exec (.len260) atSymbol) = some (.dist 6) ∧
    phaseAfter (exec (.len261) atSymbol) = some (.dist 7) ∧
    phaseAfter (exec (.len262) atSymbol) = some (.dist 8) ∧
    phaseAfter (exec (.len263) atSymbol) = some (.dist 9) ∧
    phaseAfter (exec (.len264) atSymbol) = some (.dist 10) ∧
    phaseAfter (exec (.len265 1#1) atSymbol) = some (.dist 12) ∧
    phaseAfter (exec (.len266 1#1) atSymbol) = some (.dist 14) ∧
    phaseAfter (exec (.len267 1#1) atSymbol) = some (.dist 16) ∧
    phaseAfter (exec (.len268 1#1) atSymbol) = some (.dist 18) ∧
    phaseAfter (exec (.len269 3#2) atSymbol) = some (.dist 22) ∧
    phaseAfter (exec (.len270 3#2) atSymbol) = some (.dist 26) ∧
    phaseAfter (exec (.len271 3#2) atSymbol) = some (.dist 30) := by decide +kernel

/-- The last column of the table of R157: the longest length of each code. -/
theorem test_exec_lengths_2 :
    phaseAfter (exec (.len272 3#2) atSymbol) = some (.dist 34) ∧
    phaseAfter (exec (.len273 7#3) atSymbol) = some (.dist 42) ∧
    phaseAfter (exec (.len274 7#3) atSymbol) = some (.dist 50) ∧
    phaseAfter (exec (.len275 7#3) atSymbol) = some (.dist 58) ∧
    phaseAfter (exec (.len276 7#3) atSymbol) = some (.dist 66) ∧
    phaseAfter (exec (.len277 15#4) atSymbol) = some (.dist 82) ∧
    phaseAfter (exec (.len278 15#4) atSymbol) = some (.dist 98) ∧
    phaseAfter (exec (.len279 15#4) atSymbol) = some (.dist 114) ∧
    phaseAfter (exec (.len280 15#4) atSymbol) = some (.dist 130) ∧
    phaseAfter (exec (.len281 31#5) atSymbol) = some (.dist 162) ∧
    phaseAfter (exec (.len282 31#5) atSymbol) = some (.dist 194) ∧
    phaseAfter (exec (.len283 31#5) atSymbol) = some (.dist 226) ∧
    phaseAfter (exec (.len284 31#5) atSymbol) = some (.dist 258) ∧
    phaseAfter (exec (.len285) atSymbol) = some (.dist 258) := by decide +kernel

/-- R158: the farthest distance of each code, one below the next base ("The largest distance is 24577 + 8191 = 32768"). -/
theorem test_exec_distances_1 :
    phaseAfter (exec (.dist0) atDistance) = some (.copy 3 1) ∧
    phaseAfter (exec (.dist1) atDistance) = some (.copy 3 2) ∧
    phaseAfter (exec (.dist2) atDistance) = some (.copy 3 3) ∧
    phaseAfter (exec (.dist3) atDistance) = some (.copy 3 4) ∧
    phaseAfter (exec (.dist4 1#1) atDistance) = some (.copy 3 6) ∧
    phaseAfter (exec (.dist5 1#1) atDistance) = some (.copy 3 8) ∧
    phaseAfter (exec (.dist6 3#2) atDistance) = some (.copy 3 12) ∧
    phaseAfter (exec (.dist7 3#2) atDistance) = some (.copy 3 16) ∧
    phaseAfter (exec (.dist8 7#3) atDistance) = some (.copy 3 24) ∧
    phaseAfter (exec (.dist9 7#3) atDistance) = some (.copy 3 32) ∧
    phaseAfter (exec (.dist10 15#4) atDistance) = some (.copy 3 48) ∧
    phaseAfter (exec (.dist11 15#4) atDistance) = some (.copy 3 64) ∧
    phaseAfter (exec (.dist12 31#5) atDistance) = some (.copy 3 96) ∧
    phaseAfter (exec (.dist13 31#5) atDistance) = some (.copy 3 128) ∧
    phaseAfter (exec (.dist14 63#6) atDistance) = some (.copy 3 192) := by decide +kernel

/-- R158: the farthest distance of each code, one below the next base ("The largest distance is 24577 + 8191 = 32768"). -/
theorem test_exec_distances_2 :
    phaseAfter (exec (.dist15 63#6) atDistance) = some (.copy 3 256) ∧
    phaseAfter (exec (.dist16 127#7) atDistance) = some (.copy 3 384) ∧
    phaseAfter (exec (.dist17 127#7) atDistance) = some (.copy 3 512) ∧
    phaseAfter (exec (.dist18 255#8) atDistance) = some (.copy 3 768) ∧
    phaseAfter (exec (.dist19 255#8) atDistance) = some (.copy 3 1024) ∧
    phaseAfter (exec (.dist20 511#9) atDistance) = some (.copy 3 1536) ∧
    phaseAfter (exec (.dist21 511#9) atDistance) = some (.copy 3 2048) ∧
    phaseAfter (exec (.dist22 1023#10) atDistance) = some (.copy 3 3072) ∧
    phaseAfter (exec (.dist23 1023#10) atDistance) = some (.copy 3 4096) ∧
    phaseAfter (exec (.dist24 2047#11) atDistance) = some (.copy 3 6144) ∧
    phaseAfter (exec (.dist25 2047#11) atDistance) = some (.copy 3 8192) ∧
    phaseAfter (exec (.dist26 4095#12) atDistance) = some (.copy 3 12288) ∧
    phaseAfter (exec (.dist27 4095#12) atDistance) = some (.copy 3 16384) ∧
    phaseAfter (exec (.dist28 8191#13) atDistance) = some (.copy 3 24576) ∧
    phaseAfter (exec (.dist29 8191#13) atDistance) = some (.copy 3 32768) := by decide +kernel

/-! ## One step of each instruction -/

/-- Vectors 6 and 8: CTRL and STATUS after each CTRL write. -/
theorem test_exec_ctrl :
    reads (exec (.wrCtrl 7#3 false true 0#25) State.reset) [0x04#8, 0x08#8] = some [0x5C#32, 0#32] ∧
    reads (exec (.startFull false true true 0#25) State.reset) [0x04#8, 0x08#8] = some [0x60#32, 0x11#32] ∧
    reads (exec (.startInflate false true true 0#25) State.reset) [0x04#8, 0x08#8] = some [0x64#32, 0x11#32] ∧
    reads (exec (.startUnfilter false false true 0#25) State.reset) [0x04#8, 0x08#8] = some [0x48#32, 0x11#32] ∧
    reads (exec (.startCrc32 false false true 0#25) State.reset) [0x04#8, 0x08#8] = some [0x4C#32, 0x11#32] ∧
    reads (exec (.startReserved 5#3 false false true 0#25) State.reset) [0x04#8, 0x08#8] = some [0x54#32, 0x11#32] := by
  decide +kernel

/-- R200 (vectors 6): ABORT while idle changes nothing; while busy it is requested and only IRQ_EN is stored. -/
theorem test_exec_abort :
    reads (exec (.abort false 0#3 false true 0#25) State.reset) [0x04#8, 0x08#8] = some [0x40#32, 0#32] ∧
    reads (exec (.abort true 0#3 true false 0#25) (run 1#3 .block [])) [0x04#8] = some [0x64#32] ∧
    (after (exec (.abort true 0#3 true false 0#25) (run 1#3 .block []))).map (fun t => t.eng.abortReq) = some true := by
  decide +kernel

/-- P2 (vectors 8): after DONE at STAGE 8 with IRQ_EN, `wr STATUS, 0x6` leaves 0x80 and the line low. -/
theorem test_exec_wrStatus :
    let s : State := { State.reset with regs := { Regs.reset with irqEn := true, done := true, stage := .trailer } }
    irqLine s = true ∧ reads (exec (.wrStatus 6#32) s) [0x08#8] = some [0x80#32] ∧
      (after (exec (.wrStatus 6#32) s)).map irqLine = some false := by
  decide +kernel

/-- Vectors 6: IN_LEN takes the value; a reserved offset, a read-only register and a busy machine take none. -/
theorem test_exec_wrReg :
    reads (exec (.wrReg 0x1C#8 0x49#32) State.reset) [0x1C#8] = some [0x49#32] ∧
    reads (exec (.wrReg 0x3C#8 0x1234#32) State.reset) [0x3C#8] = some [0#32] ∧
    reads (exec (.wrReg 0x0C#8 5#32) State.reset) [0x0C#8] = some [0#32] ∧
    reads (exec (.wrReg 0x1C#8 0x49#32) (run 1#3 .block [])) [0x1C#8] = some [0#32] := by
  decide +kernel

/-- Vectors 6: ID, CTRL and STATUS after reset. -/
theorem test_exec_rdReg :
    (after (exec (.rdReg 0x00#8) State.reset)).map (fun t => t.rdata) = some 0x504E4731#32 ∧
    (after (exec (.rdReg 0x04#8) State.reset)).map (fun t => t.rdata) = some 0x40#32 ∧
    (after (exec (.rdReg 0x08#8) State.reset)).map (fun t => t.rdata) = some 0#32 := by
  decide +kernel

/-- Vectors 6 and P6: a reserved mode, a wrap, an overlap, at the run's first step. -/
theorem test_step_config :
    reads (step (run 5#3 .config [])) errView =
      some [0x14#32, 0x00010615#32, 0x04#32, 5#32] ∧
    reads (step { run 3#3 .config [] with
      regs := { (run 3#3 .config []).regs with inBase := 0xFFFFFFF0#32, inLen := 0x20#32 } }) errView =
      some [0x14#32, 0x00020615#32, 0x18#32, 0x20#32] ∧
    phaseAfter (step { run 3#3 .config [] with
      regs := { (run 3#3 .config []).regs with inBase := 0xFFFFFFE0#32, inLen := 0x20#32 } }) = some (.enter .crc) ∧
    reads (step { run 1#3 .config [] with
      regs := { (run 1#3 .config []).regs with inLen := 0x10#32, inflBase := 0x1008#32, inflCap := 0x10#32 } }) errView =
      some [0x14#32, 0x00030615#32, 0x18#32, 0x20#32] := by
  decide +kernel

/-- P1 (vectors 8): the CRC-32 of "123456789". -/
theorem test_step_crc :
    reads (step (run 3#3 .crc [0x31, 0x32, 0x33, 0x34, 0x35, 0x36, 0x37, 0x38, 0x39])) [0x08#8, 0x68#8] =
      some [0xA2#32, 0xCBF43926#32] := by
  decide +kernel

/-- R35: the STAGE each entry shows while BUSY = 1. -/
theorem test_step_enter :
    ([(0#3, Stage.signature), (0#3, .chunks), (0#3, .header), (0#3, .palette), (1#3, .zlibHeader), (1#3, .blocks), (1#3, .trailer),
      (2#3, .unfilter), (3#3, .crc)].map fun x => reads (step (run x.1 (.enter x.2) [])) [0x08#8]) =
      [0x21#32, 0x31#32, 0x41#32, 0x51#32, 0x61#32, 0x71#32, 0x81#32, 0x91#32, 0xA1#32].map fun w => some [w] := by
  decide +kernel

/-- The byte the host read last, where the read's value is no free one. -/
def hostSees (s : State) (a : Word) : Option (Nat × Byte) :=
  (after (step { s with host := [.memRead a] })).map fun t => (t.draws, t.memData)

/-- What a step refuses. -/
def refusal (r : Result) : Option Refusal :=
  match r with
  | .refused e => some e
  | _ => none

/-- R107, R114, R113: host bytes outside a run and during one; the window on the bus; and the output before and behind the STATUS read that
shows the end (the value of a free read is not asked for, only that it was drawn). R114: a byte of IN the host wrote over output of an
earlier run it has not observed reads as written during the run, and the bytes beside it do not. -/
theorem test_step_host_bytes :
    let s : State := { run 1#3 .block [0x78] with mem := [(0x1000, 0x78#8), (0x2000, 9#8)] }
    let w : State := { State.reset with
      plat := { Platform.default with windowOnBus := true, regBase := 0x4000#32 }, host := [.memWrite 0x4004#32 1#8] }
    let d : State := { s with
      regs := { s.regs with busy := false, done := true }, eng := { s.eng with phase := .idle }, unseen := s.regs.outputs }
    let u : State := hostPut 0x1000 7#8 { s with unseen := [⟨0x0FFE, 4⟩] }
    hostSees s 0x1000#32 = some (0, 0x78#8) ∧ (hostSees s 0x2000#32).map Prod.fst = some 1 ∧
    (hostSees s 0x3000#32).map Prod.fst = some 1 ∧
    refusal (step { s with host := [.memWrite 0x203F#32 1#8] }) = some .hostWriteToBusyRegion ∧
    (after (step { s with host := [.memWrite 0x2040#32 1#8] })).map (fun t => t.byteAt 0x2040) = some 1#8 ∧
    refusal (step w) = some .narrowOrMisalignedAccess ∧ (hostSees d 0x2000#32).map Prod.fst = some 1 ∧
    ((after (exec (.rdReg 0x08#8) d)).bind fun t => hostSees t 0x2000#32) = some (0, 9#8) ∧
    hostSees u 0x1000#32 = some (0, 7#8) ∧ (hostSees u 0x0FFF#32).map Prod.fst = some 1 ∧
    (hostSees u 0x1001#32).map Prod.fst = some 1 := by
  decide +kernel

/-- Vectors 4.2: the signature; one wrong byte; "89 50 58"; five matching bytes. -/
theorem test_exec_sig :
    phaseAfter (exec .sig (run 0#3 .sig pngHead)) = some (.enter .chunks) ∧
    reads (exec .sig (run 0#3 .sig [0x89, 0x50, 0x4E, 0x47, 0x0D, 0x0A, 0x1A, 0x0B])) errView =
      some [0x24#32, 0x101#32, 7#32, 0x0B#32] ∧
    reads (exec .sig (run 0#3 .sig [0x89, 0x50, 0x58])) errView = some [0x24#32, 0x101#32, 2#32, 0x58#32] ∧
    reads (exec .sig (run 0#3 .sig [0x89, 0x50, 0x4E, 0x47, 0x0D])) errView = some [0x24#32, 0x101#32, 5#32, 0#32] := by
  decide +kernel

/-- Vectors 2 and 4.1: the CRC of PNG1's IHDR, and the walk behind it at 0x21. -/
theorem test_exec_ihdr_walk :
    reads (exec (.chunkIhdr 13#32) (atChunk 8 pngHead)) [0x68#8] = some [0x1F15C489#32] ∧
    (after (exec (.chunkIhdr 13#32) (atChunk 8 pngHead))).map (fun t => (t.eng.p, t.eng.chunks)) =
      some (0x21, [⟨8, 13, 0x49484452#32⟩]) := by
  decide +kernel

/-- The header stage on PNG1 (vectors 4.1), and a header of length 12 (4.2). -/
theorem test_exec_ihdr_header :
    let s : State := { run 0#3 .header pngHead with
      eng := { (run 0#3 .header pngHead).eng with chunks := [⟨8, 13, 0x49484452#32⟩] } }
    reads (exec (.chunkIhdr 13#32) s) [0x40#8, 0x44#8, 0x48#8, 0x4C#8] = some [1#32, 1#32, 0x608#32, 0#32] ∧
      reads (exec (.chunkIhdr 12#32) s) [0x0C#8, 0x10#8, 0x14#8] = some [0x00010105#32, 8#32, 0x0C#32] := by
  decide +kernel

/-- PNG2's palette (vectors 4.1) in the walk and in the palette stage. -/
theorem test_exec_plte :
    reads (exec (.chunkPlte 12#32) (atChunk 8 (List.replicate 8 0 ++ pngPlte))) [0x68#8] = some [0x9BC013DC#32] ∧
    reads (exec (.chunkPlte 12#32) { run 0#3 .palette [] with
      eng := { (run 0#3 .palette []).eng with chunks := [⟨8, 13, 0x49484452#32⟩, ⟨0x21, 12, 0x504C5445#32⟩] } }) [0x50#8, 0x54#8] =
      some [0x29#32, 0x80000004#32] := by
  decide +kernel

/-- PNG1's IDAT (vectors 4.2: CRC_RESULT 0x192F85B0), and PNG1 cut short behind its first data byte. -/
theorem test_exec_idat :
    reads (exec (.chunkIdat 0x10#32) (atChunk 8 (List.replicate 8 0 ++ pngIdat))) [0x68#8] = some [0x192F85B0#32] ∧
    reads (exec (.chunkIdat 0x10#32) (atChunk 8 (List.replicate 8 0 ++ pngIdat.take 9))) errView =
      some [0x34#32, 0x00020102#32, 8#32, 0x49444154#32] := by
  decide +kernel

/-- The walk's end (vectors 4.1), and P5's bad CRC. -/
theorem test_exec_iend :
    let s : State := atChunk 0x18 (List.replicate 24 0 ++ pngIend)
    let e : Engine := { s.eng with chunks := [⟨8, 13, 0x49484452#32⟩, ⟨0x21, 0x10, 0x49444154#32⟩] }
    reads (exec (.chunkIend 0#32) { s with eng := e }) [0x68#8, 0x70#8, 0x74#8, 0x7C#8] =
      some [0xAE426082#32, 3#32, 1#32, 0x10#32] ∧
    reads (exec (.chunkIend 0#32) (atChunk 8 (List.replicate 8 0 ++ pngIend.take 11 ++ [0x83]))) errView =
      some [0x34#32, 0x103#32, 8#32, 0x49454E44#32] := by
  decide +kernel

/-- Vectors 4.2: `chunk ABCD, ()`. -/
theorem test_exec_unknown_critical :
    reads (exec (.chunkUnknownCritical 0#32 0x41424344#32)
      (atChunk 8 (List.replicate 8 0 ++ [0, 0, 0, 0, 0x41, 0x42, 0x43, 0x44, 0xDB, 0x17, 0x20, 0xA5]))) (errView ++ [0x68#8]) =
      some [0x34#32, 0x207#32, 8#32, 0x41424344#32, 0xDB1720A5#32] := by
  decide +kernel

/-- PNG3's tEXt chunk (vectors 4.1) is skipped. -/
theorem test_exec_ancillary :
    (after (exec (.chunkAncillary 3#32 0x74455874#32)
      (atChunk 8 (List.replicate 8 0 ++ [0, 0, 0, 3, 0x74, 0x45, 0x58, 0x74, 0x6B, 0, 0x76, 0xCB, 4, 0xF3, 0x90])))).map
      (fun t => (t.eng.p, t.regs.crcResult, t.eng.phase)) = some (23, 0xCB04F390#32, .chunk) := by
  decide +kernel

/-- Vectors 3.1: the three checks on the zlib header; FCHECK_EN = 0 lets the third pass. -/
theorem test_exec_zlib :
    reads (exec (.zlibCm 0x77#8 0x01#8) (run 1#3 .inflate [])) [0x0C#8, 0x10#8, 0x14#8] = some [0x00010209#32, 0#32, 0x0177#32] ∧
    reads (exec (.zlibFdict 0x78#8 0x20#8) (run 1#3 .inflate [])) [0x0C#8, 0x14#8] = some [0x00020209#32, 0x2078#32] ∧
    reads (exec (.zlibFcheck 0x78#8 0x00#8) (run 1#3 .inflate [])) [0x0C#8, 0x14#8] = some [0x00030209#32, 0x0078#32] ∧
    phaseAfter (exec (.zlibFcheck 0x78#8 0x00#8)
      { run 1#3 .inflate [] with regs := { (run 1#3 .inflate []).regs with fcheckEn := false } }) = some (.enter .blocks) ∧
    phaseAfter (exec (.zlibFcheck 0x78#8 0xDA#8) (run 1#3 .inflate [])) = some (.enter .blocks) := by
  decide +kernel

/-- Vectors 3.2: LEN 3 with NLEN FC FF, and with FD FF; the reserved type at bit 16. -/
theorem test_exec_block_stored :
    let s (x : Nat) : State := { run 1#3 .block [0x78, 1, 1, 3, 0, x, 0xFF, 0x61] with
      eng := { (run 1#3 .block []).eng with hpos := 16, bitpos := 19 } }
    phaseAfter (exec (.blockStored true) (s 0xFC)) = some (.stored 3) ∧
      reads (exec (.blockStored true) (s 0xFD)) [0x0C#8, 0x10#8] = some [0x30B#32, 16#32] ∧
      reads (exec (.blockReserved true) (s 0xFC)) [0x0C#8, 0x10#8, 0x14#8] = some [0x30A#32, 16#32, 0#32] := by
  decide +kernel

/-- R342: the lengths of the fixed codes at the borders of their ranges. -/
theorem test_exec_block_fixed :
    (after (exec (.blockFixed true) (run 1#3 .block []))).map (fun t =>
      ([143, 144, 255, 256, 279, 280, 287].map fun i => t.eng.litlen.getD i 0, t.eng.dist.getD 31 0, t.eng.litlen.length)) =
      some ([8, 9, 9, 7, 7, 8, 8], 5, 288) := by
  decide +kernel

/-- The "abccccc" header (vectors 3.3): 259 + 1 lengths, the code-length lengths 18: 2, 0: 3, 2: 2, 1: 3, 3: 2, and the first symbol at bit
87; HLIT 30 (R344). -/
theorem test_exec_block_dynamic :
    let s (inp : List Nat) : State := { run 1#3 .block inp with eng := { (run 1#3 .block []).eng with hpos := 16, bitpos := 19 } }
    (after (exec (.blockDynamic true) (s [0x78, 1, 0x15, 0xC0, 1, 0x0D, 0, 0, 0, 0x82, 0xB0]))).map (fun t =>
      (t.eng.nlit, t.eng.ndist, t.eng.bitpos, [18, 0, 2, 1, 3, 16].map fun i => t.eng.cl.getD i 0)) =
      some (259, 1, 87, [2, 3, 2, 3, 2, 0]) ∧
    reads (exec (.blockDynamic true) (s [0x78, 1, 0xF5, 0, 0, 0])) [0x0C#8, 0x10#8] = some [0x0009030C#32, 19#32] := by
  decide +kernel

/-- R432, R440 (vectors 2: the Adler-32 of "a" is 0x00620062), and the full output (R564). -/
theorem test_exec_literal :
    (after (exec (.litFixed8 0x61#8) atSymbol)).map (fun t => (t.byteAt 0x2000, t.regs.inflLen, t.eng.s1, t.eng.s2)) =
      some (0x61#8, 1#32, 0x62, 0x62) ∧
    (after (exec (.litFixed9 0xFF#8) atSymbol)).map (fun t => t.byteAt 0x2000) = some 0xFF#8 ∧
    (after (exec (.litDyn 0x61#8) atSymbol)).map (fun t => t.byteAt 0x2000) = some 0x61#8 ∧
    reads (exec (.litFixed8 0x61#8) { atSymbol with eng := { atSymbol.eng with out := 0x40 } }) [0x0C#8, 0x10#8] =
      some [0x00010614#32, 0x40#32] := by
  decide +kernel

/-- R362: BLOCK_COUNT, and the trailer behind the final block. -/
theorem test_exec_eob :
    reads (exec .eob atSymbol) [0x78#8] = some [1#32] ∧ phaseAfter (exec .eob atSymbol) = some .block ∧
    phaseAfter (exec .eob { atSymbol with eng := { atSymbol.eng with bfinal := true } }) = some (.enter .trailer) := by
  decide +kernel

/-- Vectors 3.4: symbol 286, distance symbol 30, and a distance beyond the output. -/
theorem test_exec_bad_symbols :
    reads (exec (.litlenInvalid 0#1) atSymbol) [0x0C#8, 0x10#8] = some [0x0004030C#32, 26#32] ∧
    reads (exec (.distInvalid 0#1) atDistance) [0x0C#8, 0x10#8] = some [0x0005030C#32, 34#32] ∧
    reads (exec .dist0 { atDistance with eng := { atDistance.eng with out := 0 } }) [0x0C#8, 0x10#8] = some [0x30D#32, 34#32] := by
  decide +kernel

/-- R439 (vectors 3.4, "a" then `match 5, 1`): a byte of an overlapping copy. -/
theorem test_step_copy :
    let s : State := { run 1#3 (.copy 5 1) [] with
      mem := [(0x2000, 0x61#8)], eng := { (run 1#3 (.copy 5 1) []).eng with out := 1 } }
    (after (step s)).map (fun t => (t.byteAt 0x2001, t.eng.phase)) = some (0x61#8, .copy 4 1) := by
  decide +kernel

/-- R350 to R354: what each code-length row appends; CL_16 first (vectors 3.3, SUB 11); a repeat past the end (SUB 12). -/
theorem test_exec_code_lengths :
    let s (ls : List Nat) : State := { run 1#3 .clSym [] with
      eng := { (run 1#3 .clSym []).eng with lens := ls, nlit := 257, ndist := 1, sp := 45 } }
    (after (exec (.clLen 9#4) (s []))).map (fun t => t.eng.lens) = some [9] ∧
    (after (exec (.cl16 1#2) (s [7]))).map (fun t => t.eng.lens) = some [7, 7, 7, 7, 7] ∧
    (after (exec (.cl17 0#3) (s [7]))).map (fun t => t.eng.lens) = some [7, 0, 0, 0] ∧
    (after (exec (.cl18 127#7) (s []))).map (fun t => t.eng.lens.length) = some 138 ∧
    reads (exec (.cl16 0#2) (s [])) [0x0C#8, 0x10#8] = some [0x000B030C#32, 45#32] ∧
    reads (exec (.cl18 127#7) (s (List.replicate 138 0))) [0x0C#8, 0x10#8] = some [0x000C030C#32, 45#32] := by
  decide +kernel

/-- R355 (the stream of vectors 3.3 whose companion is accepted: symbol 256 alone, of length 1): the last length splits the codes. -/
theorem test_exec_split :
    let s : State := { run 1#3 .clSym [] with
      eng := { (run 1#3 .clSym []).eng with lens := List.replicate 256 0 ++ [1], nlit := 257, ndist := 1 } }
    (after (exec (.clLen 0#4) s)).map (fun t => (t.eng.phase, t.eng.litlen.getD 256 0, t.eng.litlen.length, t.eng.dist)) =
      some (.litLen, 1, 288, List.replicate 32 0) := by
  decide +kernel

/-- Vectors 3.5 ("a"): the trailer entered behind bit 34; right, wrong, and missing. -/
theorem test_step_trailer :
    let s (ph : Phase) (pos : Nat) (adler : Word) (inp : List Nat) : State := { run 1#3 ph inp with
      regs := { (run 1#3 ph inp).regs with adlerResult := adler }
      eng := { (run 1#3 ph []).eng with bitpos := pos, block := 1, out := 1, s1 := 0x62, s2 := 0x62 } }
    let t := s .trailer 40 0x00620062#32
    (reads (step (s (.enter .trailer) 34 0#32 [])) [0x08#8, 0x6C#8] = some [0x81#32, 0x00620062#32] ∧
      (after (step (s (.enter .trailer) 34 0#32 []))).map (fun u => u.eng.bitpos) = some 40) ∧
    reads (step (t [0x78, 1, 0x4B, 4, 0, 0, 0x62, 0, 0x62])) [0x08#8, 0x6C#8] = some [0x82#32, 0x00620062#32] ∧
    reads (step (t [0x78, 1, 0x4B, 4, 0, 0, 0x62, 0, 0x63])) errView = some [0x84#32, 0x30E#32, 5#32, 0x00620063#32] ∧
    reads (step (t [0x78, 1, 0x4B, 4, 0])) errView = some [0x84#32, 0x0003030F#32, 40#32, 1#32] := by
  decide +kernel

/-- Vectors 5 on two rows of two bytes: None and Sub in row 0 ("00 FF FF", "01 80 80"), Up, Average ("00 FF FF 03 FF FF") and Paeth
(P4) in row 1. -/
theorem test_exec_filters :
    (after (exec .filtNone (atRow 0#8 0 0 [0, 0xFF, 0xFF] []))).map (fun t => t.byteAt 0x3000) = some 0xFF#8 ∧
    (after (exec .filtSub (atRow 1#8 0 1 [1, 0x80, 0x80] [0x80]))).map (fun t => t.byteAt 0x3001) = some 0#8 ∧
    (after (exec .filtUp (atRow 2#8 1 0 [0, 0x10, 0x20, 2, 1, 2] [0x10, 0x20]))).map (fun t => t.byteAt 0x3002) = some 0x11#8 ∧
    (after (exec .filtAvg (atRow 3#8 1 1 [0, 0xFF, 0xFF, 3, 0xFF, 0xFF] [0xFF, 0xFF, 0x7E]))).map (fun t => t.byteAt 0x3003) =
      some 0xBD#8 ∧
    (after (exec .filtPaeth (atRow 4#8 1 1 [0, 0x0A, 0x14, 4, 5, 5] [0x0A, 0x14, 0x0F]))).map (fun t => t.byteAt 0x3003) =
      some 0x19#8 := by
  decide +kernel

/-- R503, R505, R211 (P4): the last byte of the last row ends the run with RECON_LEN 4. -/
theorem test_exec_last_row :
    reads (exec .filtPaeth (atRow 4#8 1 1 [0, 0x0A, 0x14, 4, 5, 5] [0x0A, 0x14, 0x0F])) [0x08#8, 0x64#8] = some [0x92#32, 4#32] := by
  decide +kernel

/-- Vectors 5: filter byte FF; the Paeth values of the list below the table. -/
theorem test_exec_filter_invalid :
    reads (exec (.filtInvalid 0xFF#8) (atRow 0xFF#8 0 0 [0xFF, 0] [])) errView = some [0x94#32, 0x410#32, 0#32, 0xFF#32] ∧
    paeth 10#8 20#8 30#8 = 10#8 ∧ paeth 200#8 100#8 150#8 = 150#8 ∧ paeth 255#8 0#8 255#8 = 0#8 ∧ paeth 100#8 100#8 50#8 = 100#8 ∧
    paeth 50#8 100#8 100#8 = 50#8 := by
  decide +kernel

/-- Vectors 5: a capacity of 3 for one RGBA pixel, and UF_WIDTH 0, UF_FORMAT 0x0604. -/
theorem test_step_unfilter_checks :
    let s (ph : Phase) (w f c : Word) : State := { run 2#3 ph [0, 0xFF, 0, 0, 0x80] with
      regs := { (run 2#3 ph [0, 0xFF, 0, 0, 0x80]).regs with ufWidth := w, ufHeight := 1#32, ufFormat := f, reconCap := c } }
    reads (step (s .geometry 1#32 0x0608#32 3#32)) errView = some [0x94#32, 0x00020614#32, 0#32, 4#32] ∧
    reads (step (s .geometry 1#32 0x0608#32 4#32)) [0x5C#8, 0x60#8] = some [4#32, 4#32] ∧
    reads (step (s .ufParams 0#32 0x0608#32 4#32)) errView = some [0x94#32, 0x00020105#32, 0x30#32, 0#32] ∧
    reads (step (s .ufParams 1#32 0x0604#32 4#32)) errView = some [0x94#32, 0x00010208#32, 0x38#32, 0x0604#32] := by
  decide +kernel


/-! ## Witnesses: states and operands that meet the hypotheses of each statement

A witness `witness_<Name>` belongs to `Obligations.<Name>`, with one line for each clause, at the borders of its range. -/

/-- Byte `k` of a byte string. -/
def nth (ns : List Nat) (k : Nat) : Byte := BitVec.ofNat 8 (ns.getD k 0)

/-- A state a step leaves. -/
theorem goes_on {r : Result} (h : (after r).isSome = true) : ∃ t, r = .next t := by
  cases r <;> simp_all [after]

/-- The engine's turn with nothing left for the host, or with the turn at the head of its list. -/
abbrev Turn (s : State) : Prop := EngineTurn s s
abbrev TurnOf (s : State) : Prop := EngineTurn { s with host := .engine :: s.host } s

theorem turn_iff (s : State) : Turn s ↔ s.host = [] ∧ s.regs.busy = true ∧ s.eng.abortReq = false := by
  refine ⟨fun ⟨h, hb, ha⟩ => ⟨?_, hb, ha⟩, fun ⟨h, hb, ha⟩ => ⟨.inl ⟨h, rfl⟩, hb, ha⟩⟩
  rcases h with ⟨h, -⟩ | ⟨rest, h, he⟩
  · exact h
  · have hl := congrArg (fun u => u.host.length) he
    simp [h] at hl

theorem turnOf_iff (s : State) : TurnOf s ↔ s.regs.busy = true ∧ s.eng.abortReq = false :=
  ⟨fun h => h.2, fun h => ⟨.inr ⟨s.host, rfl, rfl⟩, h⟩⟩

/-- A FULL run in the chunk walk, at PNG1's IHDR. -/
def walking : State := atChunk 8 pngHead

/-- An INFLATE run in a copy: "a", then `match 5, 1`. -/
def copying : State :=
  let s := run 1#3 (.copy 5 1) [0x78, 1, 0x4B, 4, 3, 0]
  { s with
    regs := { s.regs with inflLen := 1#32 }
    eng := { s.eng with bitpos := 39, out := 1, s1 := 0x62, s2 := 0x62, litlen := fixedLitLen, dist := fixedDist }
    mem := s.mem.write 0x2000 0x61#8 }

/-- An UNFILTER run at the last byte of P4 (vectors 8). -/
def unfiltering : State := atRow 4#8 1 1 [0, 0x0A, 0x14, 4, 5, 5] [0x0A, 0x14, 0x0F]

/-- An INFLATE run in the code lengths of the "abccccc" stream (vectors 3.3). -/
def readingLengths : State :=
  let s := run 1#3 .clSym [0x78, 1, 0x15, 0xC0, 1, 0x0D, 0, 0, 0, 0x82, 0xB0, 0xAC, 0x40]
  { s with
    eng := { s.eng with hpos := 16, bitpos := 87, dyn := true, bfinal := true, cl := abcCl, nlit := 259, ndist := 1 } }

theorem inv_walking : Inv walking where
  status := ⟨by decide, by decide, by decide, by decide⟩
  errCode := .inl rfl
  run := ⟨by decide, by decide, fun _ _ => by decide +kernel⟩
  inflate :=
    { adler := by decide, fresh := by decide, output := by decide, blocks := by decide, header := by decide, cursor := by decide,
      stored := fun _ h => (nomatch h), length := fun _ h => (nomatch h), copy := fun _ _ h => (nomatch h),
      lengths := fun h => (nomatch h),
      codes := by rintro (h | ⟨_, h⟩ | ⟨_, _, h⟩) <;> (nomatch h) }
  row := ⟨by simp [walking, atChunk, run, Phase.inRows, Phase.betweenHeaderAndRows, Phase.inInflate, Phase.inZlib, Phase.inBlocks], by decide, fun _ _ h => (nomatch h), by decide⟩
  walk := ⟨by decide, by decide, by decide, by decide⟩
  mem := by decide +kernel

theorem inv_copying : Inv copying where
  status := ⟨by decide, by decide, by decide, by decide⟩
  errCode := .inl rfl
  run := ⟨by decide, by decide, fun _ _ => by decide +kernel⟩
  inflate :=
    { adler := by decide, fresh := by decide, output := fun _ => by decide, blocks := by decide, header := by decide,
      cursor := by decide, stored := fun _ h => (nomatch h), length := fun _ h => (nomatch h),
      copy := fun n d h => by cases h; decide,
      lengths := fun h => (nomatch h),
      codes := fun _ => by unfold CodeOk; decide +kernel }
  row := ⟨by simp [copying, run, Phase.inRows, Phase.betweenHeaderAndRows, Phase.inInflate, Phase.inZlib, Phase.inBlocks], by decide, fun _ _ h => (nomatch h), by decide⟩
  walk := ⟨by decide, by decide, by decide, by decide⟩
  mem := by decide +kernel

theorem inv_unfiltering : Inv unfiltering where
  status := ⟨by decide, by decide, by decide, by decide⟩
  errCode := .inl rfl
  run := ⟨by decide, by decide, fun _ _ => by decide +kernel⟩
  inflate :=
    { adler := by decide, fresh := by decide, output := by decide, blocks := by decide, header := by decide, cursor := by decide,
      stored := fun _ h => (nomatch h), length := fun _ h => (nomatch h), copy := fun _ _ h => (nomatch h),
      lengths := fun h => (nomatch h),
      codes := by rintro (h | ⟨_, h⟩ | ⟨_, _, h⟩) <;> (nomatch h) }
  row := ⟨fun _ => by unfold GeomOk; decide, by decide, fun ft i h => by cases h; decide, by decide⟩
  walk := ⟨by decide, by decide, by decide, by decide⟩
  mem := by decide +kernel

theorem inv_readingLengths : Inv readingLengths where
  status := ⟨by decide, by decide, by decide, by decide⟩
  errCode := .inl rfl
  run := ⟨by decide, by decide, fun _ _ => by decide +kernel⟩
  inflate :=
    { adler := by decide, fresh := by decide, output := fun _ => by decide, blocks := by decide, header := by decide,
      cursor := by decide, stored := fun _ h => (nomatch h), length := fun _ h => (nomatch h), copy := fun _ _ h => (nomatch h),
      lengths := fun _ => by unfold CodeOk; decide +kernel,
      codes := by rintro (h | ⟨_, h⟩ | ⟨_, _, h⟩) <;> (nomatch h) }
  row := ⟨by simp [readingLengths, run, Phase.inRows, Phase.betweenHeaderAndRows, Phase.inInflate, Phase.inZlib, Phase.inBlocks], by decide, fun _ _ h => (nomatch h), by decide⟩
  walk := ⟨by decide, by decide, by decide, by decide⟩
  mem := by decide +kernel

/-- Each of them goes on. -/
theorem steps_on :
    (∃ t, step walking = .next t) ∧ (∃ t, step copying = .next t) ∧ (∃ t, step unfiltering = .next t) ∧
      ∃ t, step readingLengths = .next t :=
  ⟨goes_on (by decide +kernel), goes_on (by decide +kernel), goes_on (by decide +kernel), goes_on (by decide +kernel)⟩

/-! ### The register window -/

/-- A reset during a run, with an address outside INFL; and a reset while idle. -/
theorem witness_ResetFromAnyState :
    ({ copying with host := [.reset] }).host = .reset :: [] ∧ copying.regs.busy = true ∧ Outside copying.regs.outputs 0x1000 ∧
      Outside copying.regs.outputs 0x2040 ∧ ({ State.reset with host := [.reset, .engine] }).host = .reset :: [.engine] ∧
      State.reset.regs.busy = false := by
  unfold Outside; decide +kernel

/-- The reserved offsets. -/
theorem witness_RegisterFields : (0x3C#8 = 0x3C#8 ∨ 0x80 ≤ (0x3C#8).toNat) ∧ 0x80 ≤ (0x80#8).toNat ∧ 0x80 ≤ (0xFC#8).toNat := by decide

/-- A busy machine; the result offsets and their neighbours. -/
theorem witness_ReadRegister :
    copying.regs.busy = true ∧ (0x3C#8).toNat < 0x40 ∧ 0x40 ≤ (0x40#8).toNat ∧ (0x7C#8).toNat ≤ 0x7C ∧ 0x7C < (0x80#8).toNat ∧
      State.reset.regs.busy = false := by decide

/-- The first and the last register that is written, one that is not, idle and busy. -/
theorem witness_WriteRegister :
    State.reset.regs.busy = false ∧ 0x18#8 ∈ rwOffsets ∧ 0x38#8 ∈ rwOffsets ∧ 0x3C#8 ∉ rwOffsets ∧ 0x0C#8 ∉ rwOffsets ∧
      copying.regs.busy = true := by decide

theorem witness_CtrlWrite :
    State.reset.regs.busy = false ∧ (0x5C#32).getLsbD 0 = false ∧ (0x41#32).getLsbD 0 = true ∧ copying.regs.busy = true := by decide

theorem witness_StartClears : State.reset.regs.busy = false ∧ (0x4F#32).getLsbD 0 = true := by decide

/-- The first and the last reserved mode; behind the START the engine is next. -/
theorem witness_ReservedModeFails :
    4 ≤ (4#3).toNat ∧ 4 ≤ (7#3).toNat ∧ State.reset.regs.busy = false ∧
      ∀ t, exec (.startReserved 7#3 false true false 0#25) State.reset = .next t → EngineNext t t :=
  ⟨by decide, by decide, by decide, fun t h => by cases h; exact .inl ⟨rfl, rfl⟩⟩

/-- A run of `mode` at its configuration check, with these regions. -/
def atConfig (mode : BitVec 3) (ib il fb fc rb rc : Word) : State :=
  { run mode .config [] with
    regs := { (run mode .config []).regs with
      inBase := ib, inLen := il, inflBase := fb, inflCap := fc, reconBase := rb, reconCap := rc } }

/-- One run for each clause, in their order; regions that end at 2^32 or touch are the last that fit. -/
theorem witness_ConfigCheck :
    let wrapIn := atConfig 3#3 0xFFFFFFF0#32 0x11#32 0#32 0#32 0#32 0#32
    let wrapInfl := atConfig 0#3 0xFFFFFFF0#32 0x10#32 0xFFFFFFFF#32 2#32 0#32 0#32
    let wrapRecon := atConfig 2#3 0#32 0#32 0xFFFFFFFF#32 2#32 1#32 0xFFFFFFFF#32
    let wrapRecon2 := atConfig 2#3 0#32 0#32 0xFFFFFFFF#32 2#32 2#32 0xFFFFFFFF#32
    let inInfl := atConfig 1#3 0x1000#32 0x10#32 0x100F#32 0x10#32 0x1000#32 0x10#32
    let inRecon := atConfig 0#3 0x1000#32 0x10#32 0x1010#32 0x10#32 0xFF1#32 0x10#32
    let inflRecon := atConfig 0#3 0x1000#32 0x10#32 0x2000#32 0x10#32 0x200F#32 1#32
    let good := atConfig 0#3 0x1000#32 0x10#32 0x1010#32 0x10#32 0x1020#32 0#32
    (Turn (atConfig 4#3 0#32 0#32 0#32 0#32 0#32 0#32) ∧ 3 < (atConfig 4#3 0#32 0#32 0#32 0#32 0#32 0#32).regs.mode.toNat) ∧
    (Turn wrapIn ∧ wrapIn.regs.mode.toNat ≤ 3 ∧ Wraps wrapIn.regs.inBase wrapIn.regs.inLen) ∧
    (Turn wrapInfl ∧ ¬Wraps wrapInfl.regs.inBase wrapInfl.regs.inLen ∧ UsesInfl wrapInfl.regs ∧
      Wraps wrapInfl.regs.inflBase wrapInfl.regs.inflCap) ∧
    (¬UsesInfl wrapRecon.regs ∧ ¬Wraps wrapRecon.regs.reconBase wrapRecon.regs.reconCap ∧ Turn wrapRecon2 ∧
      ¬Wraps wrapRecon2.regs.inBase wrapRecon2.regs.inLen ∧ ¬UsesInfl wrapRecon2.regs ∧ UsesRecon wrapRecon2.regs ∧
      Wraps wrapRecon2.regs.reconBase wrapRecon2.regs.reconCap) ∧
    (Turn inInfl ∧ RegionsFit inInfl.regs ∧ UsesInfl inInfl.regs ∧
      Overlap inInfl.regs.inBase inInfl.regs.inLen inInfl.regs.inflBase inInfl.regs.inflCap) ∧
    (Turn inRecon ∧ RegionsFit inRecon.regs ∧ UsesRecon inRecon.regs ∧
      ¬Overlap inRecon.regs.inBase inRecon.regs.inLen inRecon.regs.inflBase inRecon.regs.inflCap ∧
      Overlap inRecon.regs.inBase inRecon.regs.inLen inRecon.regs.reconBase inRecon.regs.reconCap) ∧
    (Turn inflRecon ∧ RegionsFit inflRecon.regs ∧ inflRecon.regs.mode = 0#3 ∧
      ¬Overlap inflRecon.regs.inBase inflRecon.regs.inLen inflRecon.regs.inflBase inflRecon.regs.inflCap ∧
      ¬Overlap inflRecon.regs.inBase inflRecon.regs.inLen inflRecon.regs.reconBase inflRecon.regs.reconCap ∧
      Overlap inflRecon.regs.inflBase inflRecon.regs.inflCap inflRecon.regs.reconBase inflRecon.regs.reconCap) ∧
    (Turn good ∧ RegionsFit good.regs ∧
      ¬Overlap good.regs.inBase good.regs.inLen good.regs.inflBase good.regs.inflCap ∧
      ¬Overlap good.regs.inBase good.regs.inLen good.regs.reconBase good.regs.reconCap ∧
      ¬Overlap good.regs.inflBase good.regs.inflCap good.regs.reconBase good.regs.reconCap) := by
  simp only [turn_iff, RegionsFit, UsesInfl, UsesRecon, Wraps, Overlap]
  refine ⟨?_, ?_, ?_, ?_, ?_, ?_, ?_, ?_⟩ <;> decide +kernel

/-! ### Errors -/

theorem witness_RaiseRecords :
    (RunError.mk .busError 255 0xFFFFFFFF 1).sub < 256 ∧
      ({ State.reset with regs := { Regs.reset with irqEn := true } }).regs.irqEn = true := by decide

/-- The engine's turn by an empty list, and by its head. -/
theorem witness_AbortTurn :
    let s : State := { copying with eng := { copying.eng with abortReq := true } }
    EngineNext s s ∧ EngineNext { s with host := [.engine, .reset] } { s with host := [.reset] } ∧ s.regs.busy = true ∧
      s.eng.abortReq = true :=
  ⟨.inl ⟨rfl, rfl⟩, .inr ⟨_, rfl, rfl⟩, rfl, rfl⟩

/-- `s` on a platform that fails accesses of one byte. -/
def failingAt (d : Dir) (a : Nat) (s : State) : State :=
  { s with plat := { Platform.default with busError := true, failing := [⟨a, 1, d⟩] } }

/-- The signature's last byte; a chunk head's; the last byte of a chunk's data and of its CRC; the header's last; the first byte of a CRC32
run. -/
theorem witness_BusErrorAccess_in :
    let sg := failingAt .read 0x1007 (run 0#3 .sig pngHead)
    let hd := failingAt .read 0x100F walking
    let dt := failingAt .read 0x101C walking
    let cr := failingAt .read 0x1020 walking
    let h0 : State := run 0#3 .header pngHead
    let h := failingAt .read 0x101C { h0 with eng := { h0.eng with chunks := [⟨8, 13, typIHDR⟩] } }
    let c := failingAt .read 0x1000 (run 3#3 .crc [0x49])
    (7 < sg.regs.inLen.toNat ∧ InBytes sg 0 7 (nth pngHead) ∧ bytesOf 7 (nth pngHead) = sigBytes.take 7 ∧
      Fails sg .read (sg.regs.inBase.toNat + 7)) ∧
    (Turn hd ∧ hd.eng.phase = .chunk ∧ hd.eng.p + 8 ≤ hd.regs.inLen.toNat ∧ InBytes hd hd.eng.p 7 (nth (pngHead.drop 8)) ∧
      Fails hd .read (hd.regs.inBase.toNat + (hd.eng.p + 7))) ∧
    (dt.eng.phase = .chunk ∧ dt.eng.p + 12 + (13#32).toNat ≤ dt.regs.inLen.toNat ∧
      InBytes dt (dt.eng.p + 4) 16 (nth (pngHead.drop 12)) ∧ Fails dt .read (dt.regs.inBase.toNat + (dt.eng.p + 4 + 16))) ∧
    (cr.eng.phase = .chunk ∧ 20 < 8 + (13#32).toNat ∧ InBytes cr (cr.eng.p + 4) 20 (nth (pngHead.drop 12)) ∧
      Fails cr .read (cr.regs.inBase.toNat + (cr.eng.p + 4 + 20))) ∧
    (h.eng.phase = .header ∧ firstKey h.eng.chunks = some ⟨8, 13, typIHDR⟩ ∧ InBytes h (8 + 8) 12 (nth (pngHead.drop 16)) ∧
      Fails h .read (h.regs.inBase.toNat + (8 + 8 + 12))) ∧
    (Turn c ∧ c.eng.phase = .crc ∧ 0 < c.regs.inLen.toNat ∧ InBytes c 0 0 (nth []) ∧ Fails c .read (c.regs.inBase.toNat + 0)) := by
  simp only [turn_iff, InBytes, Fails]
  refine ⟨?_, ?_, ?_, ?_, ?_, ?_⟩ <;> decide +kernel

/-- A literal, a stored byte, a copy's read and its write. -/
theorem witness_BusErrorAccess_infl :
    let l := failingAt .write 0x2000 atSymbol
    let b := failingAt .write 0x2000 (run 1#3 (.stored 1) [0x61])
    let cr := failingAt .read 0x2000 copying
    let cw := failingAt .write 0x2001 copying
    (l.eng.out < l.regs.inflCap.toNat ∧ Fails l .write (l.regs.inflBase.toNat + l.eng.out)) ∧
    (Turn b ∧ b.eng.phase = .stored (0 + 1) ∧ b.eng.bitpos = 8 * 0 ∧ 0 < streamLen b ∧ streamByte b 0 = .ok 0x61#8 ∧
      b.eng.out < b.regs.inflCap.toNat ∧ Fails b .write (b.regs.inflBase.toNat + b.eng.out)) ∧
    (Turn cr ∧ cr.eng.phase = .copy (4 + 1) 1 ∧ Fails cr .read (cr.regs.inflBase.toNat + cr.eng.out - 1)) ∧
    (Turn cw ∧ Readable cw (cw.regs.inflBase.toNat + cw.eng.out - 1) ∧ cw.eng.out < cw.regs.inflCap.toNat ∧
      Fails cw .write (cw.regs.inflBase.toNat + cw.eng.out)) := by
  simp only [turn_iff, Readable, Fails]
  refine ⟨?_, ?_, ?_, ?_⟩ <;> decide +kernel

/-- The filter byte of a row; then at P4's last byte x, a, b and c and the byte written. -/
theorem witness_BusErrorAccess_rows :
    let u : State := { unfiltering with eng := { unfiltering.eng with phase := .row } }
    let f := failingAt .read 0x1003 u
    let at_ (d : Dir) (a : Nat) := failingAt d a unfiltering
    (Turn f ∧ f.eng.phase = .row ∧ (f.eng.row + 1) * stride f ≤ filteredLen f ∧
      0x1003 = (if f.regs.mode = 0#3 then f.regs.inflBase.toNat else f.regs.inBase.toNat) + f.eng.row * stride f ∧
      Fails f .read 0x1003) ∧
    (unfiltering.eng.phase = .rowByte 4#8 1 ∧
      0x1005 = (if unfiltering.regs.mode = 0#3 then unfiltering.regs.inflBase.toNat else unfiltering.regs.inBase.toNat) +
        (unfiltering.eng.row * stride unfiltering + 1 + 1) ∧ Fails (at_ .read 0x1005) .read 0x1005) ∧
    (0x3002 = unfiltering.regs.reconBase.toNat + (unfiltering.eng.row * rb unfiltering + 1 - bpp unfiltering) ∧
      filtX (at_ .read 0x3002) = .ok 5#8 ∧ bpp unfiltering ≤ 1 ∧ Fails (at_ .read 0x3002) .read 0x3002) ∧
    (0x3001 = unfiltering.regs.reconBase.toNat + ((unfiltering.eng.row - 1) * rb unfiltering + 1) ∧ 1 ≤ unfiltering.eng.row ∧
      filtX (at_ .read 0x3001) = .ok 5#8 ∧ filtA (at_ .read 0x3001) = .ok 0x0F#8 ∧ Fails (at_ .read 0x3001) .read 0x3001) ∧
    (0x3000 = unfiltering.regs.reconBase.toNat + ((unfiltering.eng.row - 1) * rb unfiltering + 1 - bpp unfiltering) ∧
      filtB (at_ .read 0x3000) = .ok 0x14#8 ∧ filtA (at_ .read 0x3000) = .ok 0x0F#8 ∧ Fails (at_ .read 0x3000) .read 0x3000) ∧
    (0x3003 = unfiltering.regs.reconBase.toNat + unfiltering.eng.row * rb unfiltering + 1 ∧
      filtX (at_ .write 0x3003) = .ok 5#8 ∧ filtA (at_ .write 0x3003) = .ok 0x0F#8 ∧ filtB (at_ .write 0x3003) = .ok 0x14#8 ∧
      filtC (at_ .write 0x3003) = .ok 0x0A#8 ∧ Fails (at_ .write 0x3003) .write 0x3003) := by
  simp only [turn_iff, Fails]
  refine ⟨?_, ?_, ?_, ?_, ?_, ?_⟩ <;> decide +kernel

/-! ### Memory as the host sees it -/

/-- The borders of the window, of an unmapped range, of the running mode's regions and of the output nobody has observed; on a platform
that is not coherent, the sets a clean and an invalidate work on. -/
theorem witness_HostAccess :
    let p : Platform := { Platform.default with
      windowOnBus := true, regBase := 0x4000#32, coherent := false, unmapped := [(0x5000, 0x10)] }
    let s : State := { copying with plat := p, unseen := copying.regs.outputs, stale := [0x2000], uncleaned := [0x1000], hidden := [0x1000] }
    let r : State := { s with regs := { s.regs with busy := false }, eng := { s.eng with phase := .idle }, unseen := [] }
    ({ s with host := [.memWrite 0x4000#32 1#8] }).host = .memWrite 0x4000#32 1#8 :: [] ∧ inWindow p 0x3FFF = false ∧
    inWindow p 0x4000 = true ∧ inWindow p 0x40FF = true ∧ inWindow p 0x4100 = false ∧
    (noMemory p 0x4FFF = false ∧ noMemory p 0x5000 = true ∧ noMemory p 0x500F = true ∧ noMemory p 0x5010 = false) ∧
    (s.regs.busy = true ∧ (∃ q ∈ s.regs.used, q.contains 0x1005 = true) ∧ (∃ q ∈ s.regs.used, q.contains 0x203F = true) ∧
      Outside s.regs.used 0x1006 ∧ Outside s.regs.used 0x2040) ∧
    ({ s with host := [.memRead 0x1000#32] }).host = .memRead 0x1000#32 :: [] ∧
    (s.regs.inflRegion.contains 0x2000 = true ∧ s.regs.inRegion.contains 0x2000 = false ∧ s.regs.reconRegion.contains 0x303F = true) ∧
    (∃ q ∈ s.regs.outputs, q.contains 0x203F = true) ∧ (∃ q ∈ s.unseen, q.contains 0x2000 = true) ∧
    (s.plat.coherent = false ∧ 0x2000 ∈ s.stale) ∧
    (Outside s.unseen 0x1000 ∧ 0x1000 ∉ s.stale ∧ Outside s.regs.outputs 0x1000 ∧ s.regs.inRegion.contains 0x1000 = true ∧
      Outside [s.regs.inflRegion, s.regs.reconRegion] 0x2040) ∧
    (Outside r.unseen 0x203F ∧ 0x203F ∉ r.stale ∧ r.regs.busy = false) ∧
    (AccessSize.half ≠ .word ∧ (0x42#8).toNat % 4 ≠ 0 ∧ ({ s with host := [.read .half 0x40#8] }).host = .read .half 0x40#8 :: []) ∧
    (∃ q ∈ s.unseen, q.contains 0x2000 = true) ∧ (Readable s 0x1001 ∧ 0x1001 ∉ s.hidden) ∧ (Readable s 0x1000 ∧ 0x1000 ∈ s.hidden) ∧
    Writable s 0x1000 := by
  simp only [Outside, Readable, Writable]
  refine ⟨?_, ?_, ?_, ?_, ?_, ?_, ?_, ?_, ?_, ?_, ?_, ?_, ?_, ?_, ?_, ?_, ?_, ?_, ?_⟩ <;> decide +kernel

/-! ### Rules about the whole machine -/

theorem witness_StatusInvStep : StatusInv copying ∧ ErrCodeInv copying ∧ ∃ t, step copying = .next t :=
  ⟨inv_copying.status, inv_copying.errCode, steps_on.2.1⟩

theorem witness_RunInvStep : Inv walking ∧ ∃ t, step walking = .next t := ⟨inv_walking, steps_on.1⟩

theorem witness_InflateInvStep :
    (Inv copying ∧ ∃ t, step copying = .next t) ∧ Inv readingLengths ∧ ∃ t, step readingLengths = .next t :=
  ⟨⟨inv_copying, steps_on.2.1⟩, inv_readingLengths, steps_on.2.2.2⟩

theorem witness_RowInvStep : Inv unfiltering ∧ ∃ t, step unfiltering = .next t := ⟨inv_unfiltering, steps_on.2.2.1⟩

theorem witness_WalkInvStep : Inv walking ∧ ∃ t, step walking = .next t := ⟨inv_walking, steps_on.1⟩

theorem witness_MemoryWfStep : copying.mem.wf ∧ ∃ t, step copying = .next t := ⟨inv_copying.mem, steps_on.2.1⟩

/-- The bytes right below and right above INFL, and the first and the last byte of IN. -/
theorem witness_WritesConfined :
    Inv copying ∧ copying.host = [] ∧ (∃ t, step copying = .next t) ∧ Outside copying.regs.outputs 0x1FFF ∧
      Outside copying.regs.outputs 0x2040 ∧ copying.eng.phase ≠ .config ∧ copying.regs.inRegion.contains 0x1000 = true ∧
      copying.regs.inRegion.contains 0x1005 = true :=
  ⟨inv_copying, rfl, steps_on.2.1, by unfold Outside; decide +kernel, by unfold Outside; decide +kernel, by decide +kernel,
    by decide +kernel, by decide +kernel⟩

/-- A memory that differs from `copying`'s at 0x5000 only. -/
theorem witness_ReadsConfined :
    Inv copying ∧ copying.host = [] ∧ (∃ t, step copying = .next t) ∧
      ∀ a, MayRead copying a → State.byteAt { copying with mem := copying.mem.write 0x5000 7#8 } a = copying.byteAt a := by
  refine ⟨inv_copying, rfl, steps_on.2.1, fun a h => ?_⟩
  have hin : copying.regs.inBase.toNat = 0x1000 := by decide +kernel
  have hlen : copying.regs.inLen.toNat = 6 := by decide +kernel
  have hb : copying.regs.inflBase.toNat = 0x2000 := by decide +kernel
  have hl : copying.regs.inflLen.toNat = 1 := by decide +kernel
  have ha : a < 0x5000 := by
    rcases h with h | ⟨_, _, h⟩ | ⟨h, _⟩
    · simp only [Region.contains, Regs.inRegion, hin, hlen, Bool.and_eq_true, decide_eq_true_eq] at h; omega
    · rw [hb, hl] at h; omega
    · cases h
  simp only [State.byteAt]
  rw [Memory.read_write_other _ _ (by omega)]

theorem witness_ConfigStable :
    let s : State := { copying with host := [.write .word 0x24#8 0#32] }
    s.regs.busy = true ∧ (∀ rest, s.host ≠ .reset :: rest) ∧ ∃ t, step s = .next t := by
  intro s
  exact ⟨rfl, by simp [s], goes_on (by decide +kernel)⟩

/-- BUSY, DONE and ERR after a step. -/
def flagsAfter (s : State) : Option (Bool × Bool × Bool) := (after (step s)).map fun t => (t.regs.busy, t.regs.done, t.regs.err)

/-- A step for each clause: START; the end of a run; an error; the three ways DONE is cleared, and the three ways ERR is. -/
theorem witness_FlagsChangeOnlyAt :
    let idle (done err : Bool) (op : HostOp) : State :=
      { State.reset with regs := { Regs.reset with done := done, err := err }, host := [op] }
    flagsAfter (idle false false (.write .word 0x04#8 0x41#32)) = some (true, false, false) ∧
    flagsAfter (run 3#3 .crc []) = some (false, true, false) ∧ flagsAfter (run 0#3 .sig []) = some (false, false, true) ∧
    flagsAfter { copying with host := [.reset] } = some (false, false, false) ∧
    flagsAfter (idle true false .reset) = some (false, false, false) ∧
    flagsAfter (idle true false (.write .word 0x08#8 2#32)) = some (false, false, false) ∧
    flagsAfter (idle true false (.write .word 0x04#8 0x4D#32)) = some (true, false, false) ∧
    flagsAfter (idle false true .reset) = some (false, false, false) ∧
    flagsAfter (idle false true (.write .word 0x08#8 4#32)) = some (false, false, false) ∧
    flagsAfter (idle false true (.write .word 0x04#8 0x4D#32)) = some (true, false, false) := by
  decide +kernel

theorem witness_StageMonotone :
    Inv copying ∧ copying.regs.busy = true ∧ flagsAfter copying = some (true, false, false) ∧ (∀ rest, copying.host ≠ .reset :: rest) :=
  ⟨inv_copying, rfl, by decide +kernel, fun _ h => nomatch h⟩

/-- A store with its neighbours; an error with an address outside INFL. -/
theorem witness_FrameMemory :
    (∃ t, exec (.litFixed8 0x61#8) atSymbol = .next t) ∧ storeAddr (.litFixed8 0x61#8) atSymbol = some 0x2000 ∧
      storeAddr (.litFixed8 0x61#8) atSymbol ≠ some 0x2001 ∧
      (after (exec (.litFixed8 0x61#8) atSymbol)).map (fun t => t.regs.err) = some false ∧
      (∃ t, exec (.litlenInvalid 0#1) atSymbol = .next t) ∧ storeAddr (.litlenInvalid 0#1) atSymbol = none ∧
      Outside atSymbol.regs.outputs 0x1FFF ∧ Outside atSymbol.regs.outputs 0x2040 :=
  ⟨goes_on (by decide +kernel), by decide +kernel, by decide +kernel, by decide +kernel, goes_on (by decide +kernel), by decide +kernel,
    by unfold Outside; decide +kernel, by unfold Outside; decide +kernel⟩

/-- A register beside INFL_LEN behind a literal; an error register behind an acknowledge. -/
theorem witness_FrameRegisters :
    (∃ t, exec (.litFixed8 0x61#8) atSymbol = .next t) ∧ 0x5C#8 ∉ mayWrite (.litFixed8 0x61#8) ∧ 0x5C#8 ∉ errOffsets ∧
      (∃ t, exec (.wrStatus 6#32) State.reset = .next t) ∧ 0x0C#8 ∉ mayWrite (.wrStatus 6#32) ∧
      (after (exec (.wrStatus 6#32) State.reset)).map (fun t => t.regs.err) = some false ∧
      (∀ off, Instr.wrStatus 6#32 ≠ .rdReg off) ∧ storeAddr (.wrStatus 6#32) State.reset = none ∧ 0x04#8 ∉ mayWrite (.wrStatus 6#32) :=
  ⟨goes_on (by decide +kernel), by decide, by decide, goes_on (by decide +kernel), by decide, by decide +kernel, by simp, rfl, by decide⟩

/-! ### Signature and chunks -/

/-- The stage's entry; the whole signature; a wrong first and a wrong last byte; buffers of 7 and of 0 bytes. -/
theorem witness_SignatureCheck :
    (Turn (run 0#3 (.enter .signature) []) ∧ (run 0#3 (.enter .signature) []).eng.phase = .enter .signature) ∧
    (InBytes (run 0#3 .sig pngHead) 0 8 (nth pngHead) ∧ bytesOf 8 (nth pngHead) = bytes (pngHead.take 8)) ∧
    (InBytes (run 0#3 .sig [0x88]) 0 1 (nth [0x88]) ∧ bytesOf 0 (nth [0x88]) = sigBytes.take 0 ∧ sigBytes[0]? ≠ some (nth [0x88] 0)) ∧
    (let w := [0x89, 0x50, 0x4E, 0x47, 0x0D, 0x0A, 0x1A, 0x0B];
      InBytes (run 0#3 .sig w) 0 8 (nth w) ∧ bytesOf 7 (nth w) = sigBytes.take 7 ∧ sigBytes[7]? ≠ some (nth w 7)) ∧
    (InBytes (run 0#3 .sig (pngHead.take 7)) 0 7 (nth pngHead) ∧ bytesOf 7 (nth pngHead) = sigBytes.take 7) ∧
    (InBytes (run 0#3 .sig []) 0 0 (nth []) ∧ bytesOf 0 (nth []) = sigBytes.take 0) := by
  simp only [turn_iff, InBytes]; decide +kernel

/-- The stage's entry; the buffer's exact end; one and seven bytes left; eight bytes left. -/
theorem witness_ChunkWalk :
    (Turn (run 0#3 (.enter .chunks) pngHead) ∧ (run 0#3 (.enter .chunks) pngHead).eng.phase = .enter .chunks) ∧
    (Turn (atChunk 8 (pngHead.take 8)) ∧ (atChunk 8 (pngHead.take 8)).eng.p = (atChunk 8 (pngHead.take 8)).regs.inLen.toNat) ∧
    (8 < (atChunk 8 (pngHead.take 9)).regs.inLen.toNat ∧ (atChunk 8 (pngHead.take 15)).regs.inLen.toNat < 8 + 8) ∧
    (8 + 8 ≤ (atChunk 8 (pngHead.take 16)).regs.inLen.toNat ∧
      InBytes (atChunk 8 (pngHead.take 16)) 8 8 (nth (pngHead.drop 8))) := by
  simp only [turn_iff, InBytes]; decide +kernel

/-- PNG1's IHDR, its IDAT, PNG2's PLTE and PNG3's tEXt, each up to the last byte of IN. -/
theorem witness_ChunkAccepted :
    let ok (len typ : Word) (c : List Nat) : Prop :=
      (atChunk 8 (List.replicate 8 0 ++ c)).eng.phase = .chunk ∧ typ ≠ typIEND ∧ (isCritical typ = true → isKnownType typ = true) ∧
      8 + 12 + len.toNat = (atChunk 8 (List.replicate 8 0 ++ c)).regs.inLen.toNat ∧
      InBytes (atChunk 8 (List.replicate 8 0 ++ c)) (8 + 4) (8 + len.toNat) (nth (c.drop 4)) ∧
      (crc32 (bytesOf (4 + len.toNat) (nth (c.drop 4)))).toNat = be32At (nth (c.drop 4)) (4 + len.toNat)
    ok 13#32 typIHDR (pngHead.drop 8) ∧ ok 16#32 typIDAT pngIdat ∧ ok 12#32 typPLTE pngPlte ∧
      ok 3#32 0x74455874#32 [0, 0, 0, 3, 0x74, 0x45, 0x58, 0x74, 0x6B, 0, 0x76, 0xCB, 4, 0xF3, 0x90] := by
  simp only [InBytes]; decide +kernel

/-- CHUNK_IEND. -/
theorem witness_ChunkAccepted_end :
    let s := atChunk 8 (List.replicate 8 0 ++ pngIend)
    s.eng.p + 12 + (0#32).toNat ≤ s.regs.inLen.toNat ∧ InBytes s (s.eng.p + 4) (8 + (0#32).toNat) (nth (pngIend.drop 4)) ∧
      (crc32 (bytesOf (4 + (0#32).toNat) (nth (pngIend.drop 4)))).toNat = be32At (nth (pngIend.drop 4)) (4 + (0#32).toNat) := by
  simp only [InBytes]; decide +kernel

/-- One byte too few; P5's bad CRC; the chunk ABCD of vectors 4.2. -/
theorem witness_ChunkRejected :
    let short := atChunk 8 (List.replicate 8 0 ++ pngIend.take 11)
    let bad := List.replicate 8 0 ++ pngIend.take 11 ++ [0x83]
    let abcd := [0, 0, 0, 0, 0x41, 0x42, 0x43, 0x44, 0xDB, 0x17, 0x20, 0xA5]
    (short.eng.phase = .chunk ∧ short.regs.inLen.toNat < short.eng.p + 12 + (0#32).toNat) ∧
    (8 + 12 + 0 ≤ (atChunk 8 bad).regs.inLen.toNat ∧ InBytes (atChunk 8 bad) (8 + 4) 8 (nth (bad.drop 12)) ∧
      (crc32 (bytesOf 4 (nth (bad.drop 12)))).toNat ≠ be32At (nth (bad.drop 12)) 4) ∧
    (8 + 12 + 0 ≤ (atChunk 8 (List.replicate 8 0 ++ abcd)).regs.inLen.toNat ∧
      InBytes (atChunk 8 (List.replicate 8 0 ++ abcd)) (8 + 4) 8 (nth (abcd.drop 4)) ∧
      (crc32 (bytesOf 4 (nth (abcd.drop 4)))).toNat = be32At (nth (abcd.drop 4)) 4 ∧ isCritical 0x41424344#32 = true ∧
      isKnownType 0x41424344#32 = false) := by
  simp only [InBytes]; decide +kernel

/-- A run in the header stage with these chunks. -/
def atHeader (inp : List Nat) (cs : List ChunkRec) : State :=
  let s := run 0#3 .header inp
  { s with eng := { s.eng with chunks := cs } }

/-- An IHDR body behind eight bytes, with these seven fields' bytes. -/
def headerBody (b : List Nat) : List Nat := List.replicate 8 0 ++ b

/-- The stage's entry; IDAT first; no key chunk; a length of 12; and a body for each of the seven checks and for none of them. -/
theorem witness_HeaderChecks :
    let ihdr : ChunkRec := ⟨0, 13, typIHDR⟩
    let body (b : List Nat) : Prop :=
      firstKey (atHeader (headerBody b) [ihdr]).eng.chunks = some ihdr ∧
        InBytes (atHeader (headerBody b) [ihdr]) (ihdr.off + 8) 13 (nth b)
    let f (b : List Nat) := nth b
    let w0 := [0, 0, 0, 0, 0, 0, 0, 1, 8, 6, 0, 0, 0]
    let h0 := [0, 0, 0, 1, 0, 0, 0, 0, 8, 6, 0, 0, 0]
    let pair := [0, 0, 0, 1, 0, 0, 0, 1, 16, 3, 0, 0, 0]
    let cm := [0, 0, 0, 1, 0, 0, 0, 1, 16, 6, 1, 0, 0]
    let fm := [0, 0, 0, 1, 0, 0, 0, 1, 1, 0, 0, 1, 0]
    let im := [0, 0, 0, 1, 0, 0, 0, 1, 1, 3, 0, 0, 2]
    let good := [0xFF, 0xFF, 0xFF, 0xFF, 0, 0, 0, 1, 8, 6, 0, 0, 0]
    (Turn (run 0#3 (.enter .header) []) ∧ (run 0#3 (.enter .header) []).eng.phase = .enter .header) ∧
    (Turn (atHeader [] [⟨8, 0, typIDAT⟩]) ∧ firstKey (atHeader [] [⟨8, 0, typIDAT⟩]).eng.chunks = some ⟨8, 0, typIDAT⟩ ∧
      typIDAT ≠ typIHDR) ∧
    (Turn (atHeader [] [⟨8, 0, typIEND⟩]) ∧ firstKey (atHeader [] [⟨8, 0, typIEND⟩]).eng.chunks = none) ∧ 12#32 ≠ 13#32 ∧
    (body w0 ∧ be32At (f w0) 0 = 0) ∧ (body h0 ∧ be32At (f h0) 0 ≠ 0 ∧ be32At (f h0) 4 = 0) ∧
    (body pair ∧ be32At (f pair) 0 ≠ 0 ∧ be32At (f pair) 4 ≠ 0 ∧ ((f pair 9).toNat, (f pair 8).toNat) ∉ permittedPairs) ∧
    (body cm ∧ ((f cm 9).toNat, (f cm 8).toNat) ∈ permittedPairs ∧ f cm 10 ≠ 0#8) ∧
    (body fm ∧ ((f fm 9).toNat, (f fm 8).toNat) ∈ permittedPairs ∧ f fm 10 = 0#8 ∧ f fm 11 ≠ 0#8) ∧
    (body im ∧ ((f im 9).toNat, (f im 8).toNat) ∈ permittedPairs ∧ f im 10 = 0#8 ∧ f im 11 = 0#8 ∧ f im 12 ≠ 0#8) ∧
    (body good ∧ be32At (f good) 0 = 0xFFFFFFFF ∧ be32At (f good) 4 ≠ 0 ∧ ((f good 9).toNat, (f good 8).toNat) ∈ permittedPairs ∧
      f good 10 = 0#8 ∧ f good 11 = 0#8 ∧ f good 12 = 0#8) := by
  simp only [InBytes, turn_iff]
  refine ⟨?_, ?_, ?_, ?_, ?_, ?_, ?_, ?_, ?_, ?_, ?_⟩ <;> decide +kernel

/-- The stage's entry; no palette; lengths 1, 771 and 768; an IDAT before the palette, and behind it. -/
theorem witness_PaletteChecks :
    let s (cs : List ChunkRec) : State := { run 0#3 .palette [] with eng := { (run 0#3 .palette []).eng with chunks := cs } }
    let q : ChunkRec := ⟨0x21, 768, typPLTE⟩
    (Turn (run 0#3 (.enter .palette) []) ∧ (run 0#3 (.enter .palette) []).eng.phase = .enter .palette) ∧
    (Turn (s [⟨8, 0, typIDAT⟩]) ∧ firstPlte (s [⟨8, 0, typIDAT⟩]).eng.chunks = none) ∧
    (s [q]).eng.phase = .palette ∧ firstPlte (s [q]).eng.chunks = some q ∧ (1#32).toNat % 3 ≠ 0 ∧
      ((771#32).toNat % 3 = 0 ∧ 768 < (771#32).toNat) ∧ ((768#32).toNat % 3 = 0 ∧ (768#32).toNat ≤ 768) ∧
      (firstPlte (s [⟨8, 0, typIDAT⟩, q]).eng.chunks = some q ∧
        ∃ c ∈ (s [⟨8, 0, typIDAT⟩, q]).eng.chunks, c.typ = typIDAT ∧ c.off < q.off) ∧
      ∀ c ∈ (s [q, ⟨0x400, 0, typIDAT⟩]).eng.chunks, c.typ = typIDAT → q.off ≤ c.off := by
  simp only [turn_iff]; decide +kernel

/-- PNG3's records (vectors 4.1): S has 16 bytes, the first at 0x29, the fifth, of the second IDAT, at 0x48. -/
theorem witness_StreamAssembly :
    let s : State := atHeader [] [⟨8, 13, typIHDR⟩, ⟨0x21, 4, typIDAT⟩, ⟨0x31, 3, 0x74455874#32⟩, ⟨0x40, 12, typIDAT⟩, ⟨0x58, 0, typIEND⟩]
    let offs := (s.eng.chunks.filter fun c => c.typ == typIDAT).flatMap fun c => (List.range c.len).map fun k => c.off + 8 + k
    s.regs.mode = 0#3 ∧ offs.length = 16 ∧ offs[0]? = some 0x29 ∧ offs[3]? = some 0x2C ∧ offs[4]? = some 0x48 ∧
      offs[15]? = some 0x53 := by
  decide +kernel

theorem witness_CrcRun :
    (Turn (run 3#3 (.enter .crc) []) ∧ (run 3#3 (.enter .crc) []).eng.phase = .enter .crc) ∧
    Turn (run 3#3 .crc [0x49, 0x45, 0x4E, 0x44]) ∧ InBytes (run 3#3 .crc [0x49, 0x45, 0x4E, 0x44]) 0 4 (nth [0x49, 0x45, 0x4E, 0x44]) ∧
      Turn (run 3#3 .crc []) ∧ InBytes (run 3#3 .crc []) 0 0 (nth []) := by
  simp only [turn_iff, InBytes]; decide +kernel

/-! ### Inflate -/

/-- The two entries; a stream of one byte; and both answers of each check. -/
theorem witness_ZlibHeader :
    (Turn (run 1#3 (.enter .zlibHeader) []) ∧ (run 1#3 (.enter .zlibHeader) []).eng.phase = .enter .zlibHeader) ∧
    (Turn (run 1#3 .inflate [0x78]) ∧ streamLen (run 1#3 .inflate [0x78]) < 2) ∧
    (Turn (run 1#3 (.enter .blocks) []) ∧ (run 1#3 (.enter .blocks) []).eng.phase = .enter .blocks) ∧
    (0x77#8).extractLsb' 0 4 ≠ 8#4 ∧ (0x78#8).extractLsb' 0 4 = 8#4 ∧ 0x20#8 &&& 0x20#8 ≠ 0#8 ∧ 0x9C#8 &&& 0x20#8 = 0#8 ∧
      (copying.regs.fcheckEn = true ∧ ((0x78#8).toNat * 256 + (0#8).toNat) % 31 ≠ 0) ∧
      ((0x78#8).toNat * 256 + (0xDA#8).toNat) % 31 = 0 := by
  simp only [turn_iff]; decide

/-- The first bit behind S; a byte of S that cannot be read, in INFLATE and in FULL mode; S at its end inside a block header, a coded symbol
of each kind and a stored byte; patterns no codeword begins; the empty code; S at its end inside LEN, NLEN, HLIT and the code-length
lengths; a zlib header and a trailer that cannot be read. -/
theorem witness_StreamStops :
    let one (ph : Phase) (b : Nat) : State := run 1#3 ph [b]
    let t : State := { one .litLen 0x30 with eng := { (one .litLen 0x30).eng with bitpos := 4, litlen := fixedLitLen, dist := fixedDist } }
    let d : State := { t with eng := { t.eng with phase := .dist 3 } }
    let c : State := { t with eng := { t.eng with phase := .clSym, bitpos := 7, cl := abcCl } }
    let u : State := { one .litLen 1 with eng := { (one .litLen 1).eng with litlen := List.replicate 256 0 ++ [1] ++ List.replicate 31 0 } }
    let b : State := { one .block 1 with eng := { (one .block 1).eng with bitpos := 6 } }
    let sb : State := { one (.stored 1) 1 with eng := { (one (.stored 1) 1).eng with bitpos := 1 } }
    let f0 : State := { one .inflate 0x78 with regs := { (one .inflate 0x78).regs with inLen := 2#32 } }
    let f := failingAt .read 0x1001 f0
    let full : State := { f with
      regs := { f.regs with mode := 0#3, inLen := 9#32, inBase := 0xFF8#32 }, eng := { f.eng with chunks := [⟨0, 2, typIDAT⟩] } }
    let h : State := { run 1#3 .block [0x78, 1, 5, 0, 0x92] with eng := { (run 1#3 .block []).eng with hpos := 16, bitpos := 19 } }
    (8 * streamLen t ≤ 8 ∧ streamBit t (4 + 4) = .error (.raise ⟨.streamExhausted, 2, 8, 0⟩)) ∧
    (0x1001 = f.regs.inBase.toNat + 1 ∧ Fails f .read 0x1001 ∧ 1 < streamLen f ∧ full.regs.mode = 0#3 ∧
      0x1001 = full.regs.inBase.toNat + idatOffset full.eng.chunks 1 ∧ 1 < streamLen full) ∧
    (Turn b ∧ decode .block (bits [0, 0]) = .error .tooShort ∧ b.eng.bitpos + 2 = 8 ∧
      ∀ k < 2, some (streamBit b (6 + k)) = (bits [0, 0])[k]?.map .ok) ∧
    (Turn t ∧ decode (.litLen t.eng.dyn t.eng.litlen) (bits [1, 1, 0, 0]) = .error .tooShort ∧
      ∀ k < 4, some (streamBit t (4 + k)) = (bits [1, 1, 0, 0])[k]?.map .ok) ∧
    (Turn d ∧ d.eng.phase = .dist 3 ∧ decode (.dist d.eng.dist) (bits [1, 1, 0, 0]) = .error .tooShort) ∧
    (Turn c ∧ c.eng.phase = .clSym ∧ decode (.cl c.eng.lens.isEmpty c.eng.cl) (bits [0]) = .error .tooShort ∧
      streamBit c 7 = .ok false) ∧
    (Turn sb ∧ sb.eng.phase = .stored (0 + 1) ∧ (bits [0, 0, 0, 0, 0, 0, 0]).length < 8 ∧
      ∀ k < 7, some (streamBit sb (1 + k)) = (bits [0, 0, 0, 0, 0, 0, 0])[k]?.map .ok) ∧
    (Turn u ∧ streamBit u 0 = .ok true ∧ decode (.litLen u.eng.dyn u.eng.litlen) (bits [1]) = .error .undecodable) ∧
    (occupancy (List.replicate 32 0) = 0 ∧ decode (.dist (List.replicate 32 0)) [] = .error .undecodable ∧
      decode (.cl true (List.replicate 19 0)) [] = .error .undecodable) ∧
    (3 = (h.eng.bitpos + 7) / 8 ∧ (∀ i < 16, (streamBit h (8 * 3 + i)).toBool = true) ∧
      streamBit h (8 * 3 + 16) = .error (.raise ⟨.streamExhausted, 2, 40, 0⟩)) ∧
    (readBits (streamBit h) 19 5 = .ok 0 ∧ readBits (streamBit h) 24 5 = .ok 0 ∧ readBits (streamBit h) 29 4 = .ok 0 ∧
      21 < 14 + 3 * (0 + 4) ∧ (∀ i < 21, (streamBit h (19 + i)).toBool = true) ∧
      streamBit h (19 + 21) = .error (.raise ⟨.streamExhausted, 2, 40, 0⟩)) ∧
    (Turn f ∧ 2 ≤ streamLen f ∧ streamByte f 0 = .ok 0x78#8 ∧ streamByte f 1 = .error (.raise ⟨.busError, 0, 0x1001, 0⟩)) ∧
    (let r := failingAt .read 0x1003 (run 1#3 .trailer [0, 0, 0, 0]);
      Turn r ∧ r.eng.bitpos / 8 + 4 ≤ streamLen r ∧ (∀ i < 3, (streamByte r (r.eng.bitpos / 8 + i)).toBool = true) ∧
        streamByte r (r.eng.bitpos / 8 + 3) = .error (.raise ⟨.busError, 0, 0x1003, 0⟩)) := by
  simp only [turn_iff, Fails]
  refine ⟨?_, ?_, ?_, ?_, ?_, ?_, ?_, ?_, ?_, ?_, ?_, ?_, ?_⟩ <;> decide +kernel

/-- LEN 3 and its complement at the very end of S, a NLEN that does not fit, one byte of a stored block with room for it and with none, and its end. -/
theorem witness_StoredBlock :
    let s (x : Nat) : State := { run 1#3 .block [0x78, 1, 1, 3, 0, x, 0xFF] with
      eng := { (run 1#3 .block []).eng with hpos := 16, bitpos := 19 } }
    let u : State := { run 1#3 (.stored 1) [0x78, 1, 1, 3, 0, 0xFC, 0xFF, 0x61] with
      eng := { (run 1#3 (.stored 1) []).eng with bitpos := 8 * 7, out := 0x3F } }
    (3 = ((s 0xFC).eng.bitpos + 7) / 8 ∧ 3 + 4 ≤ streamLen (s 0xFC) ∧ streamByte (s 0xFC) 3 = .ok 3#8 ∧ streamByte (s 0xFC) 4 = .ok 0#8 ∧
      streamByte (s 0xFC) 5 = .ok 0xFC#8 ∧ streamByte (s 0xFC) 6 = .ok 0xFF#8 ∧
      (0xFC#8).toNat + 256 * (0xFF#8).toNat = 65535 - ((3#8).toNat + 256 * (0#8).toNat)) ∧
    (streamByte (s 0xFD) 5 = .ok 0xFD#8 ∧ (0xFD#8).toNat + 256 * (0xFF#8).toNat ≠ 65535 - ((3#8).toNat + 256 * (0#8).toNat)) ∧
    (Turn u ∧ u.eng.bitpos = 8 * 7 ∧ 7 < streamLen u ∧ streamByte u 7 = .ok 0x61#8 ∧ u.eng.out < u.regs.inflCap.toNat ∧
      Writable u (u.regs.inflBase.toNat + u.eng.out)) ∧
    ({ u with eng := { u.eng with out := 0x40 } }).eng.out = u.regs.inflCap.toNat ∧
    (Turn (run 1#3 (.stored 0) []) ∧ (run 1#3 (.stored 0) []).eng.phase = .stored 0) := by
  simp only [turn_iff, Writable]; decide +kernel

/-- The borders of the four ranges of symbols. -/
theorem witness_FixedBlock : 143 < 144 ∧ 144 + 111 = 255 ∧ 256 + 23 = 279 ∧ 280 + 7 = 287 ∧ 31 < 32 := by decide

/-- The counts of HLIT 30 (R344) and HDIST 30 (R345), of the over-subscribed code of R348, and of the "abccccc" header (vectors 3.3). -/
theorem witness_DynamicHeader :
    let s (inp : List Nat) : State := { run 1#3 .block inp with eng := { (run 1#3 .block []).eng with hpos := 16, bitpos := 19 } }
    let rd (inp : List Nat) := streamBit (s inp)
    let good := [0x78, 1, 0x15, 0xC0, 1, 0x0D, 0, 0, 0, 0x82, 0xB0]
    readBits (rd [0x78, 1, 0xF5, 0, 0, 0]) 19 5 = .ok 30 ∧ readBits (rd [0x78, 1, 0xF5, 0, 0, 0]) 24 5 = .ok 0 ∧
    readBits (rd [0x78, 1, 0xF5, 0, 0, 0]) 29 4 = .ok 0 ∧
    readBits (rd [0x78, 1, 5, 0x1E, 0, 0]) 19 5 = .ok 0 ∧ readBits (rd [0x78, 1, 5, 0x1E, 0, 0]) 24 5 = .ok 30 ∧
    (readBits (rd [0x78, 1, 5, 0, 0x92, 0]) 29 4 = .ok 0 ∧
      (∀ i < 0 + 4, readBits (rd [0x78, 1, 5, 0, 0x92, 0]) (19 + 14 + 3 * i) 3 = .ok ([1, 1, 1, 0].getD i 0)) ∧
      2 ^ 15 < occupancy ((List.replicate 16 0) ++ [1, 1, 1])) ∧
    (readBits (rd good) 19 5 = .ok 2 ∧ readBits (rd good) 24 5 = .ok 0 ∧ readBits (rd good) 29 4 = .ok 14 ∧
      (∀ i < 14 + 4, readBits (rd good) (19 + 14 + 3 * i) 3 =
        .ok ([0, 0, 2, 3, 0, 0, 0, 0, 0, 0, 0, 0, 0, 2, 0, 2, 0, 3].getD i 0)) ∧ occupancy abcCl ≤ 2 ^ 15) := by
  decide +kernel

/-- Repeats that leave exactly one length to come, and that run one past the end. -/
theorem witness_CodeLengthSymbols :
    let s (ls : List Nat) : State := { run 1#3 .clSym [] with
      eng := { (run 1#3 .clSym []).eng with lens := ls, nlit := 257, ndist := 1 } }
    let n := (s []).eng.nlit + (s []).eng.ndist
    (s (List.replicate 256 7)).eng.lens.length + 1 < n ∧
    ((s (List.replicate 251 7)).eng.lens = List.replicate 250 7 ++ [7] ∧
      (s (List.replicate 251 7)).eng.lens.length + (3 + (3#2).toNat) < n) ∧
    (s (List.replicate 247 7)).eng.lens.length + (3 + (7#3).toNat) < n ∧
    (s (List.replicate 119 7)).eng.lens.length + (11 + (127#7).toNat) < n ∧ (s []).eng.lens = [] ∧
    ((s (List.replicate 256 7)).eng.lens ≠ [] ∧ n < (s (List.replicate 256 7)).eng.lens.length + (3 + (0#2).toNat)) ∧
    n < (s (List.replicate 256 7)).eng.lens.length + (3 + (0#3).toNat) ∧
    n < (s (List.replicate 248 7)).eng.lens.length + (11 + (0#7).toNat) := by
  decide +kernel

/-- By the last row, CL_LEN 1 (or CL_17): three codewords of length 1; no symbol 256; three distances of length 1; and a code that is
taken. -/
theorem witness_SplitCodes :
    (clAdds (.clLen 1#4) ([1, 1] ++ List.replicate 254 0 ++ [1]) = some (1, 1) ∧
      ([1, 1] ++ List.replicate 254 0 ++ [1] ++ List.replicate 1 1).length = 257 + 1 ∧
      2 ^ 15 < occupancy ([1, 1] ++ List.replicate 254 0 ++ [1] ++ List.replicate (288 - 257) 0)) ∧
    (clAdds (.cl17 0#3) ([1, 1] ++ List.replicate 253 0) = some (3, 0) ∧
      ([1, 1] ++ List.replicate 253 0 ++ List.replicate 3 0).length = 257 + 1 ∧
      occupancy (([1, 1] ++ List.replicate 253 0 ++ List.replicate 3 0).take 257 ++ List.replicate (288 - 257) 0) ≤ 2 ^ 15 ∧
      (([1, 1] ++ List.replicate 253 0 ++ List.replicate 3 0).take 257 ++ List.replicate (288 - 257) 0).getD 256 0 = 0) ∧
    (clAdds (.cl16 0#2) (List.replicate 256 0 ++ [1]) = some (3, 1) ∧
      (List.replicate 256 0 ++ [1] ++ List.replicate 3 1).length = 257 + 3 ∧
      ((List.replicate 256 0 ++ [1] ++ List.replicate 3 1).take 257 ++ List.replicate (288 - 257) 0).getD 256 0 ≠ 0 ∧
      2 ^ 15 < occupancy ((List.replicate 256 0 ++ [1] ++ List.replicate 3 1).drop 257 ++ List.replicate (32 - 3) 0)) ∧
    (clAdds (.clLen 1#4) (List.replicate 256 0 ++ [1]) = some (1, 1) ∧
      (List.replicate 256 0 ++ [1] ++ List.replicate 1 1).length = 257 + 1 ∧
      occupancy ((List.replicate 256 0 ++ [1] ++ List.replicate 1 1).take 257 ++ List.replicate (288 - 257) 0) ≤ 2 ^ 15 ∧
      occupancy ((List.replicate 256 0 ++ [1] ++ List.replicate 1 1).drop 257 ++ List.replicate (32 - 1) 0) ≤ 2 ^ 15) := by
  decide +kernel

/-- The last byte with room, and the full output. -/
theorem witness_Literals :
    let s (n : Nat) : State := { atSymbol with eng := { atSymbol.eng with out := n } }
    ((s 0x3F).eng.out < (s 0x3F).regs.inflCap.toNat ∧ Writable (s 0x3F) ((s 0x3F).regs.inflBase.toNat + (s 0x3F).eng.out)) ∧
      (s 0x40).eng.out = (s 0x40).regs.inflCap.toNat := by
  simp only [Writable]; decide +kernel

/-- The last length code, and the last extra value of code 284; the farthest distance with exactly that much output, and with one byte
less. -/
theorem witness_MatchSymbols :
    (28 < 29 ∧ 0 < 2 ^ lenExtra (257 + 28) ∧ 31 < 2 ^ lenExtra (257 + 27)) ∧
    29 < 30 ∧ 8191 < 2 ^ distExtra 29 ∧ atDistance.eng.phase = .dist 3 ∧ 32768 = distBaseTable.getD 29 0 + 8191 ∧
      32768 ≤ atDistance.eng.out ∧ ({ atDistance with eng := { atDistance.eng with out := 32767 } }).eng.out < 32768 := by
  decide +kernel

/-- Five bytes at distance 1 behind one byte, up to the last byte of INFL, with the engine alone and with the turns at the head of the
host's list; none left; and no room for the next. -/
theorem witness_CopyRun :
    let s : State := { copying with regs := { copying.regs with inflCap := 6#32 } }
    (s.host = List.replicate 0 .engine ++ [] ∧ ({ s with host := [.engine, .engine, .engine, .engine, .engine, .reset] }).host =
      List.replicate 5 .engine ++ [.reset] ∧ s.regs.busy = true ∧ s.eng.abortReq = false) ∧
    s.eng.phase = .copy 5 1 ∧ 1 ≤ 1 ∧ 1 ≤ s.eng.out ∧ s.eng.out + 5 ≤ s.regs.inflCap.toNat ∧
      (∀ k < s.regs.inflCap.toNat, Readable s (s.regs.inflBase.toNat + k) ∧ Writable s (s.regs.inflBase.toNat + k) ∧
        s.regs.inflBase.toNat + k ∉ s.hidden) ∧
    (Turn { s with eng := { s.eng with phase := .copy 0 1 } } ∧ TurnOf { s with eng := { s.eng with phase := .copy 0 1 } }) ∧
    (Turn { s with eng := { s.eng with out := 6 } } ∧ Readable s (s.regs.inflBase.toNat + 6 - 1) ∧ 6 = s.regs.inflCap.toNat) := by
  simp only [turn_iff, turnOf_iff, Readable, Writable]; decide +kernel

/-- Vectors 3.5: the entry behind bit 34; three bytes of trailer; a right one in FULL and in INFLATE mode; a wrong one. -/
theorem witness_Trailer :
    let s (m : BitVec 3) (inp : List Nat) : State := { run m .trailer inp with
      regs := { (run m .trailer inp).regs with adlerResult := 0x00620062#32 }
      eng := { (run m .trailer []).eng with
        bitpos := 40, block := 1, out := 1, s1 := 0x62, s2 := 0x62, chunks := [⟨0, inp.length - 8, typIDAT⟩] } }
    let good := [0x78, 1, 0x4B, 4, 0, 0, 0x62, 0, 0x62]
    let bad := [0x78, 1, 0x4B, 4, 0, 0, 0x62, 0, 0x63]
    (Turn (run 1#3 (.enter .trailer) []) ∧ (run 1#3 (.enter .trailer) []).eng.phase = .enter .trailer) ∧
    (Turn (s 1#3 good) ∧ 5 = (s 1#3 good).eng.bitpos / 8 ∧ streamLen (s 1#3 (good.take 8)) < 5 + 4) ∧
    (5 + 4 ≤ streamLen (s 1#3 good) ∧ (∀ k < 4, streamByte (s 1#3 good) (5 + k) = .ok (nth (good.drop 5) k)) ∧
      be32At (nth (good.drop 5)) 0 = (s 1#3 good).regs.adlerResult.toNat ∧ (s 1#3 good).regs.mode ≠ 0#3) ∧
    ((∀ k < 4, streamByte (s 1#3 bad) (5 + k) = .ok (nth (bad.drop 5) k)) ∧
      be32At (nth (bad.drop 5)) 0 ≠ (s 1#3 bad).regs.adlerResult.toNat) ∧
    (Turn (s 0#3 (List.replicate 8 0 ++ good)) ∧ (s 0#3 (List.replicate 8 0 ++ good)).regs.mode = 0#3 ∧
      5 + 4 ≤ streamLen (s 0#3 (List.replicate 8 0 ++ good)) ∧
      ∀ k < 4, streamByte (s 0#3 (List.replicate 8 0 ++ good)) (5 + k) = .ok (nth (good.drop 5) k)) := by
  simp only [turn_iff]
  refine ⟨?_, ?_, ?_, ?_, ?_⟩ <;> decide +kernel

/-! ### Unfilter -/

/-- The stage's entry in both modes; the checks in turn; a capacity one byte short and one that just fits; no byte and one byte too few of a row, and a whole row. -/
theorem witness_UnfilterEntry :
    let p (w h f : Word) : State := { run 2#3 .ufParams [] with
      regs := { (run 2#3 .ufParams []).regs with ufWidth := w, ufHeight := h, ufFormat := f } }
    let g (c : Word) : State := { run 2#3 .geometry [] with
      regs := { (run 2#3 .geometry []).regs with ufWidth := 2#32, ufHeight := 2#32, ufFormat := 0x0008#32, reconCap := c } }
    let r (inp : List Nat) : State := { atRow 0#8 1 0 inp [] with eng := { (atRow 0#8 1 0 inp []).eng with phase := .row } }
    (Turn (run 2#3 (.enter .unfilter) []) ∧ Turn (run 0#3 (.enter .unfilter) []) ∧
      (run 2#3 (.enter .unfilter) []).eng.phase = .enter .unfilter) ∧
    (Turn (p 0#32 0#32 0#32) ∧ (p 0#32 0#32 0#32).regs.ufWidth = 0#32) ∧
    ((p 1#32 0#32 0#32).regs.ufWidth ≠ 0#32 ∧ (p 1#32 0#32 0#32).regs.ufHeight = 0#32) ∧
    ((p 1#32 1#32 0x0310#32).regs.ufHeight ≠ 0#32 ∧
      (((0x0310#32).extractLsb' 8 8).toNat, ((0x0310#32).extractLsb' 0 8).toNat) ∉ permittedPairs) ∧
    ((p 1#32 1#32 0x0610#32).regs.ufHeight ≠ 0#32 ∧
      (((0x0610#32).extractLsb' 8 8).toNat, ((0x0610#32).extractLsb' 0 8).toNat) ∈ permittedPairs) ∧
    (Turn (g 3#32) ∧ geomHeight (g 3#32) ≠ 0 ∧ (g 3#32).regs.reconCap.toNat < geomHeight (g 3#32) * rb (g 3#32)) ∧
    (Turn (g 4#32) ∧ geomHeight (g 4#32) * rb (g 4#32) ≤ (g 4#32).regs.reconCap.toNat) ∧
    (Turn (r [0, 1, 2]) ∧ (r [0, 1, 2]).eng.row * stride (r [0, 1, 2]) ≤ filteredLen (r [0, 1, 2]) ∧
      filteredLen (r [0, 1, 2, 0, 1]) < ((r [0, 1, 2, 0, 1]).eng.row + 1) * stride (r [0, 1, 2, 0, 1])) ∧
    (((r [0, 1, 2, 9, 1, 2]).eng.row + 1) * stride (r [0, 1, 2, 9, 1, 2]) ≤ filteredLen (r [0, 1, 2, 9, 1, 2]) ∧
      filteredByte (r [0, 1, 2, 9, 1, 2]) ((r [0, 1, 2, 9, 1, 2]).eng.row * stride (r [0, 1, 2, 9, 1, 2])) = .ok 9#8) ∧
    ((3, 1) ∈ permittedPairs ∧ channels 3 * 1 < 8 ∧ (6, 16) ∈ permittedPairs ∧ 8 ≤ channels 6 * 16) ∧
    ((run 0#3 .geometry []).regs.mode = 0#3 ∧ (g 3#32).regs.mode ≠ 0#3) := by
  simp only [turn_iff]; decide +kernel

/-- The last byte of P4, with all four operands read; and the first byte of row 0, where a, b and c are 0. -/
theorem witness_FiltersReconstruct :
    (unfiltering.eng.phase = .rowByte 4#8 1 ∧
      Writable unfiltering (unfiltering.regs.reconBase.toNat + unfiltering.eng.row * rb unfiltering + 1) ∧
      filteredByte unfiltering (unfiltering.eng.row * stride unfiltering + 1 + 1) = .ok 5#8 ∧ bpp unfiltering ≤ 1 ∧
      reconByte unfiltering (unfiltering.eng.row * rb unfiltering + 1 - bpp unfiltering) = .ok 0x0F#8 ∧
      reconByte unfiltering ((unfiltering.eng.row - 1) * rb unfiltering + 1) = .ok 0x14#8 ∧
      reconByte unfiltering ((unfiltering.eng.row - 1) * rb unfiltering + 1 - bpp unfiltering) = .ok 0x0A#8) ∧
    (let s := atRow 1#8 0 0 [1, 0x80, 0x80] [];
      s.eng.phase = .rowByte 1#8 0 ∧ Writable s (s.regs.reconBase.toNat + s.eng.row * rb s + 0) ∧
        filteredByte s (s.eng.row * stride s + 1 + 0) = .ok 0x80#8 ∧ 0 < bpp s ∧ s.eng.row = 0) := by
  simp only [Writable]; decide +kernel

/-- R502's tie (Paeth(100, 100, 50) of vectors 5), and a strictly nearer b (Paeth(0, 255, 0)). -/
theorem witness_PaethPredictor :
    (150 : Int) = ((100#8).toNat : Int) + (100#8).toNat - (50#8).toNat ∧
      |(150 : Int) - (100#8).toNat| ≤ |(150 : Int) - (100#8).toNat| ∧ |(150 : Int) - (100#8).toNat| ≤ |(150 : Int) - (50#8).toNat| ∧
      |(255 : Int) - (255#8).toNat| < |(255 : Int) - (0#8).toNat| ∧ |(255 : Int) - (255#8).toNat| ≤ |(255 : Int) - (0#8).toNat| := by
  decide

/-- P4's raw rows 0A 14 and 0F 19, at the last byte (Paeth). -/
theorem witness_RoundTripByte :
    let raw (y x : Nat) : Byte := nth [0x0A, 0x14, 0x0F, 0x19] (2 * y + x)
    let s := unfiltering
    (4#8).toNat ≤ 4 ∧ s.eng.phase = .rowByte 4#8 1 ∧ (∀ j < 1, reconByte s (s.eng.row * rb s + j) = .ok (raw s.eng.row j)) ∧
      (1 ≤ s.eng.row ∧ ∀ j ≤ 1, reconByte s ((s.eng.row - 1) * rb s + j) = .ok (raw (s.eng.row - 1) j)) ∧
      0x0F#8 = (if 1 < bpp s then 0#8 else raw s.eng.row (1 - bpp s)) ∧ 0x14#8 = (if s.eng.row = 0 then 0#8 else raw (s.eng.row - 1) 1) ∧
      0x0A#8 = (if s.eng.row = 0 ∨ 1 < bpp s then 0#8 else raw (s.eng.row - 1) (1 - bpp s)) ∧
      filteredByte s (s.eng.row * stride s + 1 + 1) =
        .ok (BitVec.ofNat 8 ((raw s.eng.row 1).toNat + 256 - (predictor (4#8).toNat 0x0F#8 0x14#8 0x0A#8).toNat)) ∧
      Writable s (s.regs.reconBase.toNat + s.eng.row * rb s + 1) := by
  simp only [Writable]; decide +kernel

/-! ### Decoding -/

/-- The bits at the cursor of a state, read from its stream. -/
theorem witness_StepRunsDecoded_stream :
    let s : State := { run 1#3 .block [0x78, 1, 0x4B, 0x4C] with eng := { (run 1#3 .block []).eng with bitpos := 16 } }
    let u : State := { run 1#3 .litLen [0x78, 1, 0x4B, 0x4C] with
      eng := { (run 1#3 .litLen []).eng with bitpos := 19, litlen := fixedLitLen, dist := fixedDist } }
    let d : State := { run 1#3 (.dist 3) [0x20] with eng := { (run 1#3 (.dist 3) []).eng with dist := fixedDist } }
    let c : State := { run 1#3 .clSym [0x0B] with eng := { (run 1#3 .clSym []).eng with cl := abcCl } }
    (Turn s ∧ (∀ k < 3, some (streamBit s (16 + k)) = (bits [1, 1, 0])[k]?.map .ok) ∧
      decode .block (bits [1, 1, 0]) = .ok (.blockFixed true, 3)) ∧
    (Turn u ∧ (∀ k < 8, some (streamBit u (19 + k)) = (bits [1, 0, 0, 1, 0, 0, 0, 1])[k]?.map .ok) ∧
      decode (.litLen u.eng.dyn u.eng.litlen) (bits [1, 0, 0, 1, 0, 0, 0, 1]) = .ok (.litFixed8 0x61#8, 8)) ∧
    (Turn d ∧ (∀ k < 6, some (streamBit d (0 + k)) = (bits [0, 0, 0, 0, 0, 1])[k]?.map .ok) ∧
      decode (.dist d.eng.dist) (bits [0, 0, 0, 0, 0, 1]) = .ok (.dist0, 5)) ∧
    (Turn c ∧ (∀ k < 2, some (streamBit c (0 + k)) = (bits [1, 1])[k]?.map .ok) ∧
      decode (.cl c.eng.lens.isEmpty c.eng.cl) (bits [1, 1, 0]) = .ok (.clLen 0#4, 3)) := by
  simp only [turn_iff]; decide +kernel

/-- The other clauses: host accesses, the signature, a chunk, header and palette, the zlib header, a row and a row byte. -/
theorem witness_StepRunsDecoded :
    let zl : State := run 1#3 .inflate [0x78, 0x9C]
    (decode (.hostWrite 0x04#8 State.reset.regs.busy) (fieldBits 32 (0x41#32).toNat) = .ok (.startFull false false true 0#25, 32)) ∧
    (decode (.hostRead 0x68#8) [] = .ok (.rdReg 0x68#8, 0)) ∧ Turn (run 0#3 .sig []) ∧
    (Turn walking ∧ walking.eng.p + 8 ≤ walking.regs.inLen.toNat ∧ InBytes walking walking.eng.p 8 (nth (pngHead.drop 8)) ∧
      decode .chunk (byteBits (bytesOf 8 (nth (pngHead.drop 8)))) = .ok (.chunkIhdr 13#32, 64)) ∧
    (Turn (atHeader [] [⟨8, 13, typIHDR⟩]) ∧
      firstKey (atHeader [] [⟨8, 13, typIHDR⟩]).eng.chunks = some ⟨8, 13, typIHDR⟩) ∧
    firstPlte [⟨8, 13, typIHDR⟩, ⟨0x21, 3, typPLTE⟩] = some ⟨0x21, 3, typPLTE⟩ ∧
    (Turn zl ∧ 2 ≤ streamLen zl ∧ streamByte zl 0 = .ok 0x78#8 ∧ streamByte zl 1 = .ok 0x9C#8) ∧
    (Turn (run 1#3 (.zlibFdict 0x78#8 0x9C#8) []) ∧ Turn (run 1#3 (.zlibFcheck 0x78#8 0x9C#8) [])) ∧
    (let r : State := { unfiltering with eng := { unfiltering.eng with phase := .row } };
      Turn r ∧ (r.eng.row + 1) * stride r ≤ filteredLen r ∧ filteredByte r (r.eng.row * stride r) = .ok 4#8) ∧
    (Turn unfiltering ∧ unfiltering.eng.phase = .rowByte 4#8 1) := by
  simp only [turn_iff, InBytes]; decide +kernel

/-- Well-formed terms at the borders of their checks. -/
theorem witness_DecodeEncode :
    (Instr.startReserved 4#3 true true true 0x1FFFFFF#25).wf = true ∧ (Instr.wrReg 0xFC#8 0xFFFFFFFF#32).wf = true ∧
      (Instr.litFixed8 143#8).wf = true ∧ (Instr.litFixed9 144#8).wf = true ∧ (Instr.filtInvalid 5#8).wf = true ∧
      (Instr.chunkUnknownCritical 0#32 0x5A000000#32).wf = true ∧ (Instr.chunkAncillary 0#32 0x5B000000#32).wf = true ∧
      (Instr.dist29 8191#13).wf = true := by decide

theorem witness_EncodeDecode :
    encoderLayer (.litLen true fixedLitLen) ∧
      decode (.litLen true fixedLitLen) (bits [1, 0, 0, 1, 0, 0, 0, 1, 1]) = .ok (.litDyn 97#8, 8) ∧
      encoderLayer (.cl false encoderCl) ∧ decode (.cl false encoderCl) (bits [1, 0, 0, 0, 0, 1, 0]) = .ok (.cl16 1#2, 7) ∧
      encoderLayer .filter ∧ decode .filter (byteBits (bytes [0xFF])) = .ok (.filtInvalid 0xFF#8, 8) := by
  simp only [encoderLayer]; decide +kernel

/-- The incomplete code of R359 (256: 0), and the last symbol of the "abccccc" code. -/
theorem witness_CanonicalDecode :
    (258 < abcCode.length ∧ abcCode.getD 258 0 = 3 ∧ occupancy abcCode ≤ 2 ^ 15 ∧
      ∀ k < 3, listBits (bits [1, 1, 1]) (0 + k) = .ok ((codeword abcCode 258).testBit (3 - 1 - k))) ∧
    (let lens := List.replicate 256 0 ++ [1];
      256 < lens.length ∧ lens.getD 256 0 = 1 ∧ occupancy lens ≤ 2 ^ 15 ∧
        ∀ k < 1, listBits (bits [0]) (0 + k) = .ok ((codeword lens 256).testBit (1 - 1 - k))) := by
  decide +kernel

end Sys2Proof.Tests
end

section
/-! The window under every step: which registers and flags an engine step and a move of the host can change, and the statements about
them (10_state.md section 2, R47, R53). -/

namespace Sys2Proof.Machine

/-! ## Reset and single registers -/

/-- Settles O1, offset by offset. -/
theorem resetRegisters : Obligations.ResetRegisters := by
  unfold Obligations.ResetRegisters
  exact ⟨by decide, rfl, rfl, rfl⟩

/-- The offsets that hold no register read 0 (R46). -/
theorem readReg_reserved (r : Regs) {off : BitVec 8} (h : off = 0x3C#8 ∨ 0x80 ≤ off.toNat) : readReg r off = 0#32 := by
  rcases h with rfl | h
  · rfl
  · unfold readReg
    split <;> simp_all

theorem Stage.code_le (g : Stage) : g.code ≤ 10 := by
  cases g <;> decide

/-- Settles O3, from the bits of CTRL and of STATUS. -/
theorem registerFields : Obligations.RegisterFields := by
  unfold Obligations.RegisterFields
  intro s
  obtain ⟨c0, c1, cMode, c5, c6, cHigh⟩ := ctrlValue_bits s.regs
  obtain ⟨s0, s1, s2, s3, sStage, sHigh⟩ := statusValue_bits s.regs
  refine ⟨rfl, c0, c1, cMode, c5, c6, cHigh, s0, s1, s2, s3, sStage, s.regs.stage.code_le, sHigh,
    fun off h => readReg_reserved s.regs h, ?_⟩
  change irqLine s = ((ctrlValue s.regs).getLsbD 5 && ((statusValue s.regs).getLsbD 1 || (statusValue s.regs).getLsbD 2))
  rw [c5, s1, s2]
  rfl

/-! ## An engine step -/

theorem enterStage_phase_ne_idle {g : Stage} {s : State} (hp : s.eng.phase = .enter g) : (enterStage g s).eng.phase ≠ .idle := by
  cases g <;> simp [enterStage, hp]
  split <;> simp

theorem afterBlock_ne_idle (f : Bool) : afterBlock f ≠ .idle := by
  cases f <;> simp [afterBlock]

/-- How an engine step leaves the window: STAGE and the result registers aside it goes on unchanged, or the run ends, successfully
(R211) or with an error of the table (R542). -/
def RunWindow (s t : State) : Prop :=
  (t.regs.kept = s.regs.kept ∧ (t.eng.phase = .idle → s.eng.phase = .idle)) ∨
    (t.eng.phase = .idle ∧ ∃ r : Regs, r.kept = s.regs.kept ∧
      (t.regs = { r with done := true, busy := false } ∨ ∃ e : RunError, e.codeWord ∈ legalErrCodes ∧ t.regs = r.withError e))

theorem RunWindow.on {s t : State} (hr : t.regs.kept = s.regs.kept) (hp : t.eng.phase ≠ .idle) : RunWindow s t :=
  .inl ⟨hr, fun h => absurd h hp⟩

theorem RunWindow.done {s t : State} (r : Regs) (hr : t.regs = { r with done := true, busy := false }) (hk : r.kept = s.regs.kept)
    (hp : t.eng.phase = .idle) : RunWindow s t :=
  .inr ⟨hp, r, hk, .inl hr⟩

/-- Window and engine after a row's byte: the next byte of the row, the next row, or the end of the run (R503, R505). -/
theorem rowWritten_cases (ft v : Byte) (s : State) :
    (rowIndex s + 1 < rb s ∧ (rowWritten ft v s).regs = s.regs ∧
        (rowWritten ft v s).eng = { s.eng with phase := .rowByte ft (rowIndex s + 1) }) ∨
      (s.eng.row + 1 < geomHeight s ∧
        (rowWritten ft v s).regs = { s.regs with reconLen := trunc32 ((s.eng.row + 1) * rb s) } ∧
        (rowWritten ft v s).eng = { s.eng with row := s.eng.row + 1, phase := .row }) ∨
      ((rowWritten ft v s).regs = { s.regs with reconLen := trunc32 ((s.eng.row + 1) * rb s), done := true, busy := false } ∧
        (rowWritten ft v s).eng.phase = .idle) := by
  rw [rowWritten_regs, rowWritten_eng]
  split
  · exact .inl ⟨‹_›, rfl, rfl⟩
  · split
    · exact .inr (.inl ⟨‹_›, rfl, rfl⟩)
    · exact .inr (.inr ⟨rfl, rfl⟩)

/-- A row's byte leaves STATUS as it is unless it completes the last row. -/
theorem rowWritten_window (ft v : Byte) {s u : State} (hr : u.regs = s.regs) : RunWindow s (rowWritten ft v u) := by
  rcases rowWritten_cases ft v u with ⟨-, h1, h2⟩ | ⟨-, h1, h2⟩ | ⟨h1, h2⟩
  · exact .on (by rw [h1, hr]) (by simp [h2])
  · exact .on (by rw [h1, hr]; rfl) (by simp [h2])
  · exact .done { u.regs with reconLen := trunc32 ((u.eng.row + 1) * rb u) } h1 (by rw [hr]; rfl) h2

/-- R47, R53: what an engine step does to the window. -/
theorem EngineMove.window {s t : State} (h : EngineMove s t) : RunWindow s t := by
  cases h with
  | idle hp => exact .inl ⟨rfl, id⟩
  | raised h =>
    obtain ⟨e, r, he, hk, hr, hp, -⟩ := h.shape
    exact .inr ⟨hp, r, hk, .inr ⟨e, he, hr⟩⟩
  | enter g hp => exact .on (enterStage_kept g s) (enterStage_phase_ne_idle hp)
  | storedDone hp => exact .on rfl (afterBlock_ne_idle _)
  | endOfBlock n hp hb => exact .on rfl (afterBlock_ne_idle _)
  | trailerDone hp hm => exact .done s.regs rfl rfl rfl
  | noRows hp hh => exact .done { s.regs with rowBytes := trunc32 (rb s), bpp := trunc32 (bpp s) } rfl rfl rfl
  | crc c hp => exact .done { s.regs with crcResult := crcFinal c } rfl rfl rfl
  | rowStart ft v hp ha hf hw => exact rowWritten_window ft v (atRowStart_regs ft s)
  | rowByte ft v i hp hf hw => exact rowWritten_window ft v rfl
  | _ => exact .on rfl Phase.noConfusion

/-! ## A CTRL write (R200) -/

theorem ctrlWrite_busy {s : State} (h : s.regs.busy = true) (st ab : Bool) (m : BitVec 3) (q f : Bool) :
    ctrlWrite st ab m q f s =
      { s with regs := { s.regs with irqEn := q }, eng := { s.eng with abortReq := s.eng.abortReq || ab } } := by
  unfold ctrlWrite
  rw [if_pos h]

theorem ctrlWrite_start {s : State} (h : s.regs.busy = false) (ab : Bool) (m : BitVec 3) (q f : Bool) :
    ctrlWrite true ab m q f s = startRun { s with regs := { s.regs with mode := m, irqEn := q, fcheckEn := f } } := by
  simp [ctrlWrite, h]

theorem ctrlWrite_store {s : State} (h : s.regs.busy = false) (ab : Bool) (m : BitVec 3) (q f : Bool) :
    ctrlWrite false ab m q f s = { s with regs := { s.regs with mode := m, irqEn := q, fcheckEn := f } } := by
  simp [ctrlWrite, h]

/-! ## The configuration of a run (R47) -/

/-- MODE, FCHECK_EN and the read-write registers are the same. -/
def SameConfig (r q : Regs) : Prop :=
  q.mode = r.mode ∧ q.fcheckEn = r.fcheckEn ∧ ∀ off ∈ rwOffsets, readReg q off = readReg r off

theorem SameConfig.refl (r : Regs) : SameConfig r r := ⟨rfl, rfl, fun _ _ => rfl⟩

/-- STATUS, STAGE and the result registers are none of the configuration. -/
theorem Regs.kept_sameConfig {r q : Regs} (h : q.kept = r.kept) : SameConfig r q := by
  obtain ⟨hm, -, hf, -, -, -, -, -, -, h1, h2, h3, h4, h5, h6, h7, h8, h9⟩ := Regs.kept_fields h
  refine ⟨hm, hf, ?_⟩
  simp [rwOffsets, readReg, h1, h2, h3, h4, h5, h6, h7, h8, h9]

theorem RunWindow.sameConfig {s t : State} (h : RunWindow s t) : SameConfig s.regs t.regs := by
  rcases h with ⟨hk, -⟩ | ⟨-, r, hk, hr | ⟨e, -, hr⟩⟩
  · exact Regs.kept_sameConfig hk
  all_goals
    obtain ⟨hm, hf, ho⟩ := Regs.kept_sameConfig hk
    rw [hr]
    exact ⟨hm, hf, by simpa [rwOffsets, readReg] using ho⟩

/-- Busy, a move of the host other than the reset stores to none of the configuration (R200, R201). -/
theorem HostMove.sameConfig {s t : State} {op : HostOp} (h : HostMove s op t) (hb : s.regs.busy = true) (ho : op ≠ .reset) :
    SameConfig s.regs t.regs := by
  cases h with
  | ctrl v =>
    rw [ctrlWrite_busy hb]
    exact ⟨rfl, rfl, by simp [rwOffsets, readReg]⟩
  | status v => exact ⟨rfl, rfl, by simp [rwOffsets, readReg]⟩
  | reg off v h4 h8 =>
    rw [if_pos hb]
    exact SameConfig.refl _
  | read op off rest hr => exact SameConfig.refl _
  | memWrite addr b t hu hr he hm ho =>
    rw [hr]
    exact SameConfig.refl _
  | quiet op t hr he hm ho h =>
    rw [hr]
    exact SameConfig.refl _
  | reset t hr he hm ho' => exact absurd rfl ho

/-- Settles O24: an engine step keeps all but STATUS, STAGE and the result registers, and the host's stores are ignored. -/
theorem configStable : Obligations.ConfigStable := by
  unfold Obligations.ConfigStable
  intro s t hb hn h
  rcases step_next h with ⟨rest, -, ⟨hi, -⟩ | ⟨-, n, hm⟩⟩ | ⟨op, rest, hh, -, hm⟩
  · rw [hb] at hi
    cases hi
  · exact hm.window.sameConfig
  · exact hm.sameConfig hb fun ho => hn rest (ho ▸ hh)

end Sys2Proof.Machine
end

section
/-! The flags of STATUS and the ERR registers: where they change (R53), and what they keep to (R34, R541, R544). -/

namespace Sys2Proof.Machine

/-! ## Where the flags change -/

/-- BUSY, DONE and ERR are the same. -/
def SameFlags (r q : Regs) : Prop := q.busy = r.busy ∧ q.done = r.done ∧ q.err = r.err

/-- A WR_REG leaves the flags as they are. -/
theorem writeRegs_sameFlags (r : Regs) (off : BitVec 8) (v : Word) : SameFlags r (writeRegs r off v) := by
  unfold writeRegs
  split <;> exact ⟨rfl, rfl, rfl⟩

/-- How a move of the host that is no reset leaves the flags: as they are, as a STATUS write clears them (R205), or as a START while idle
sets them (R202). -/
theorem HostMove.flags {s t : State} {op : HostOp} (h : HostMove s op t) :
    SameFlags s.regs t.regs ∨ op = .reset ∨
      (∃ v, op = .write .word 0x08#8 v ∧ t.regs.busy = s.regs.busy ∧ t.regs.done = (s.regs.done && !v.getLsbD 1) ∧
        t.regs.err = (s.regs.err && !v.getLsbD 2)) ∨
      ∃ v, op = .write .word 0x04#8 v ∧ v.getLsbD 0 = true ∧ s.regs.busy = false ∧ t.regs.done = false ∧ t.regs.err = false := by
  cases h with
  | ctrl v =>
    cases hb : s.regs.busy with
    | true =>
      rw [ctrlWrite_busy hb]
      exact .inl ⟨rfl, rfl, rfl⟩
    | false =>
      cases h0 : v.getLsbD 0 with
      | true =>
        rw [ctrlWrite_start hb]
        exact .inr (.inr (.inr ⟨v, rfl, h0, rfl, rfl, rfl⟩))
      | false =>
        rw [ctrlWrite_store hb]
        exact .inl ⟨rfl, rfl, rfl⟩
  | status v => exact .inr (.inr (.inl ⟨v, rfl, rfl, rfl, rfl⟩))
  | reg off v h4 h8 =>
    split
    · exact .inl ⟨rfl, rfl, rfl⟩
    · exact .inl (writeRegs_sameFlags _ _ _)
  | read op off rest hr => exact .inl ⟨rfl, rfl, rfl⟩
  | memWrite addr b t hu hr he hm ho =>
    rw [hr]
    exact .inl ⟨rfl, rfl, rfl⟩
  | quiet op t hr he hm ho h =>
    rw [hr]
    exact .inl ⟨rfl, rfl, rfl⟩
  | reset t hr he hm ho => exact .inr (.inl rfl)

/-- How an engine step leaves the flags: as they are, or with BUSY going down and DONE or ERR set. -/
theorem RunWindow.flags {s t : State} (h : RunWindow s t) :
    SameFlags s.regs t.regs ∨
      (t.regs.busy = false ∧ t.regs.done = true ∧ t.regs.err = s.regs.err) ∨
      (t.regs.busy = false ∧ t.regs.done = s.regs.done ∧ t.regs.err = true) := by
  rcases h with ⟨hk, -⟩ | ⟨-, r, hk, hr | ⟨e, -, hr⟩⟩ <;> obtain ⟨-, -, -, hb, hd, he, -⟩ := Regs.kept_fields hk
  · exact .inl ⟨hb, hd, he⟩
  · rw [hr]
    exact .inr (.inl ⟨rfl, rfl, he⟩)
  · rw [hr]
    exact .inr (.inr ⟨rfl, hd, rfl⟩)

/-- A reset clears all three flags (R600). -/
theorem HostMove.reset_flags {s t : State} (h : HostMove s .reset t) :
    t.regs.busy = false ∧ t.regs.done = false ∧ t.regs.err = false := by
  cases h with
  | reset t hr _ hm ho =>
    rw [hr]
    exact ⟨rfl, rfl, rfl⟩
  | read _ off rest h => simp at h
  | quiet _ _ hr he hm ho h => simp at h

/-- Settles O25: each rise and fall is one of the engine's ends of a run or one of the host's writes. -/
theorem flagsChangeOnlyAt : Obligations.FlagsChangeOnlyAt := by
  unfold Obligations.FlagsChangeOnlyAt
  intro s t h
  rcases step_next h with ⟨rest, -, ⟨-, rfl⟩ | ⟨hb, n, hm⟩⟩ | ⟨op, rest, hh, -, hm⟩
  · simp_all
  · rcases hm.window.flags with ⟨tb, td, te⟩ | ⟨tb, td, te⟩ | ⟨tb, td, te⟩ <;> simp_all
  · rcases hm.flags with ⟨tb, td, te⟩ | rfl | ⟨v, rfl, tb, td, te⟩ | ⟨v, rfl, h0, hb, td, te⟩
    · simp_all
    · obtain ⟨tb, td, te⟩ := hm.reset_flags
      simp_all
    · simp_all
    · simp_all

/-! ## What the flags and the ERR registers keep to -/

/-- An engine step of a run keeps the status invariant, and an error it raises has a word of the table. -/
theorem RunWindow.statusInv {s t : State} (h : RunWindow s t) (hb : s.regs.busy = true) (hs : StatusInv s) :
    StatusInv t ∧ ErrCodeInv t := by
  obtain ⟨sd, se⟩ := hs.busyClear hb
  obtain ⟨sc, sp, sa⟩ := hs.errRegs (.inl hb)
  rcases h with ⟨hk, hp⟩ | ⟨hp, r, hk, hr | ⟨e, hl, hr⟩⟩ <;>
    obtain ⟨-, -, -, kb, kd, ke, kc, kp, ka, -⟩ := Regs.kept_fields hk
  · have tp : t.eng.phase ≠ .idle := fun h => hs.busyPhase.1 hb (hp h)
    exact ⟨⟨by simp [kd, sd], by simp [kd, ke, sd, se], by simp [kb, hb, tp], by simp [kc, kp, ka, sc, sp, sa]⟩,
      .inl (kc.trans sc)⟩
  · exact ⟨⟨by simp [hr, ke, se], by simp [hr], by simp [hr, hp], by simp [hr, kc, kp, ka, sc, sp, sa]⟩,
      .inl (by simp [hr, kc, sc])⟩
  · exact ⟨⟨by simp [hr, kd, sd], by simp [hr], by simp [hr, hp], by simp [hr, kd, sd]⟩, .inr (by rw [hr]; exact hl)⟩

theorem StatusInv.congr {s t : State} (hs : StatusInv s) (hf : SameFlags s.regs t.regs)
    (hc : t.regs.errCode = s.regs.errCode ∧ t.regs.errPos = s.regs.errPos ∧ t.regs.errAux = s.regs.errAux)
    (hp : t.eng.phase = s.eng.phase) : StatusInv t := by
  obtain ⟨fb, fd, fe⟩ := hf
  obtain ⟨cc, cp, ca⟩ := hc
  obtain ⟨h1, h2, h3, h4⟩ := hs
  constructor <;> simp only [fb, fd, fe, cc, cp, ca, hp] <;> assumption

/-- A WR_REG leaves the ERR registers as they are. -/
theorem writeRegs_errRegs (r : Regs) (off : BitVec 8) (v : Word) :
    (writeRegs r off v).errCode = r.errCode ∧ (writeRegs r off v).errPos = r.errPos ∧ (writeRegs r off v).errAux = r.errAux := by
  unfold writeRegs
  split <;> exact ⟨rfl, rfl, rfl⟩

/-- Of the host's moves only a START and a reset write an ERR register, and they clear it. -/
theorem HostMove.errCode {s t : State} {op : HostOp} (h : HostMove s op t) :
    t.regs.errCode = s.regs.errCode ∨ t.regs.errCode = 0#32 := by
  cases h with
  | ctrl v =>
    unfold ctrlWrite
    split
    · exact .inl rfl
    · dsimp only
      split
      · exact .inr rfl
      · exact .inl rfl
  | reg off v h4 h8 =>
    split
    · exact .inl rfl
    · exact .inl (writeRegs_errRegs s.regs off v).1
  | memWrite addr b t hu hr => exact .inl (by rw [hr])
  | quiet op t hr => exact .inl (by rw [hr])
  | reset t hr => exact .inr (by rw [hr]; rfl)
  | _ => exact .inl rfl

/-- A move of the host keeps the status invariant. -/
theorem HostMove.statusInv {s t : State} {op : HostOp} (h : HostMove s op t) (hs : StatusInv s) : StatusInv t := by
  cases h with
  | ctrl v =>
    cases hb : s.regs.busy with
    | true =>
      rw [ctrlWrite_busy hb]
      exact hs.congr ⟨rfl, rfl, rfl⟩ ⟨rfl, rfl, rfl⟩ rfl
    | false =>
      cases v.getLsbD 0 with
      | true =>
        rw [ctrlWrite_start hb]
        constructor <;> simp
      | false =>
        rw [ctrlWrite_store hb]
        exact hs.congr ⟨rfl, rfl, rfl⟩ ⟨rfl, rfl, rfl⟩ rfl
  | status v =>
    obtain ⟨h1, h2, h3, h4⟩ := hs
    exact ⟨fun h => h1 (by simp_all), fun h => by simp [h2 h], h3, fun h => h4 (h.imp_right (by simp_all))⟩
  | reg off v h4 h8 =>
    split
    · exact hs
    · exact hs.congr (writeRegs_sameFlags _ _ _) (writeRegs_errRegs _ _ _) rfl
  | read op off rest hr => exact hs.congr ⟨rfl, rfl, rfl⟩ ⟨rfl, rfl, rfl⟩ rfl
  | memWrite addr b t hu hr he hm ho =>
    exact hs.congr (by rw [hr]; exact ⟨rfl, rfl, rfl⟩) (by rw [hr]; exact ⟨rfl, rfl, rfl⟩) (by rw [he])
  | quiet op t hr he hm ho h =>
    exact hs.congr (by rw [hr]; exact ⟨rfl, rfl, rfl⟩) (by rw [hr]; exact ⟨rfl, rfl, rfl⟩) (by rw [he])
  | reset t hr he hm ho => constructor <;> simp [hr, he, Regs.reset, Engine.reset]

/-- Settles O15, by the two kinds of move. -/
theorem statusInvStep : Obligations.StatusInvStep := by
  unfold Obligations.StatusInvStep
  intro s t hs he h
  have keep : ∀ (rest : List HostOp) (n : Nat), StatusInv { s with host := rest, draws := n } := fun rest n =>
    hs.congr ⟨rfl, rfl, rfl⟩ ⟨rfl, rfl, rfl⟩ rfl
  rcases step_next h with ⟨rest, -, ⟨-, rfl⟩ | ⟨hb, n, hm⟩⟩ | ⟨op, rest, -, -, hm⟩
  · exact ⟨keep rest s.draws, he⟩
  · exact hm.window.statusInv hb (keep rest n)
  · refine ⟨hm.statusInv (keep rest s.draws), ?_⟩
    rcases hm.errCode with h | h
    · rw [ErrCodeInv, h]
      exact he
    · exact .inl h

end Sys2Proof.Machine
end

section
/-! How an invariant of the run is kept by every step: the host changes nothing of a run, a START begins one in its first phase, and the
rest are engine steps. -/

namespace Sys2Proof.Machine

/-! ## Moves of the host during a run -/

/-- IRQ_EN, DONE, ERR and the abort request aside, window and engine are the same: the run stands where it stood. -/
def SameRun (s t : State) : Prop :=
  ∃ q d e a, t.regs = { s.regs with irqEn := q, done := d, err := e } ∧ t.eng = { s.eng with abortReq := a }

theorem SameRun.of_eq {s t : State} (hr : t.regs = s.regs) (he : t.eng = s.eng) : SameRun s t :=
  ⟨_, _, _, _, hr, he⟩

/-- No run is under way. -/
def NoRun (s : State) : Prop := s.regs.busy = false ∧ s.eng.phase = .idle

/-- A run has just begun (R202). -/
def Begun (s : State) : Prop := (∃ r : Regs, s.regs = r.started) ∧ s.eng.phase = .config

theorem writeRegs_busy (r : Regs) (off : BitVec 8) (v : Word) : (writeRegs r off v).busy = r.busy :=
  (writeRegs_sameFlags r off v).1

/-- A move of the host leaves the run where it stood, finds and leaves no run, or begins one. -/
theorem HostMove.run {s t : State} {op : HostOp} (h : HostMove s op t) (hs : StatusInv s) : SameRun s t ∨ NoRun t ∨ Begun t := by
  have idle : s.regs.busy = false → s.eng.phase = .idle := fun hb => by
    by_contra hp
    rw [hs.busyPhase.2 hp] at hb
    cases hb
  cases h with
  | ctrl v =>
    cases hb : s.regs.busy with
    | true =>
      rw [ctrlWrite_busy hb]
      exact .inl ⟨_, _, _, _, rfl, rfl⟩
    | false =>
      cases v.getLsbD 0 with
      | true =>
        rw [ctrlWrite_start hb]
        exact .inr (.inr ⟨⟨_, rfl⟩, rfl⟩)
      | false =>
        rw [ctrlWrite_store hb]
        exact .inr (.inl ⟨hb, idle hb⟩)
  | status v => exact .inl ⟨_, _, _, _, rfl, rfl⟩
  | reg off v h4 h8 =>
    cases hb : s.regs.busy with
    | true =>
      rw [if_pos rfl]
      exact .inl (.of_eq rfl rfl)
    | false =>
      rw [if_neg (by decide)]
      exact .inr (.inl ⟨(writeRegs_busy s.regs off v).trans hb, idle hb⟩)
  | read op off rest hr => exact .inl (.of_eq rfl rfl)
  | memWrite addr b t hu hr he hm ho => exact .inl (.of_eq hr he)
  | quiet op t hr he hm ho h => exact .inl (.of_eq hr he)
  | reset t hr he hm ho => exact .inr (.inl ⟨by rw [hr]; rfl, by rw [he]; rfl⟩)

/-! ## What the invariants look at -/

theorem RunInv.same {s t : State} (h : SameRun s t) (hs : RunInv s) : RunInv t := by
  obtain ⟨q, d, e, a, hr, he⟩ := h
  cases t
  subst hr he
  exact ⟨hs.mode, hs.stage, hs.config⟩

theorem InflateInv.same {s t : State} (h : SameRun s t) (hs : InflateInv s) : InflateInv t := by
  obtain ⟨q, d, e, a, hr, he⟩ := h
  cases t
  subst hr he
  exact ⟨hs.adler, hs.fresh, hs.output, hs.blocks, hs.header, hs.cursor, hs.stored, hs.length, hs.copy, hs.lengths, hs.codes⟩

theorem RowInv.same {s t : State} (h : SameRun s t) (hs : RowInv s) : RowInv t := by
  obtain ⟨q, d, e, a, hr, he⟩ := h
  cases t
  subst hr he
  exact ⟨hs.geom, hs.room, hs.byte, hs.none⟩

theorem WalkInv.same {s t : State} (h : SameRun s t) (hs : WalkInv s) : WalkInv t := by
  obtain ⟨q, d, e, a, hr, he⟩ := h
  cases t
  subst hr he
  exact ⟨hs.entry, hs.cursor, hs.walked, hs.chunks⟩

/-- The whole invariant looks at the window, the engine and memory alone. -/
theorem Inv.congr {s t : State} (hr : t.regs = s.regs) (he : t.eng = s.eng) (hm : t.mem = s.mem) (hs : Inv s) : Inv t where
  status := hs.status.congr (by rw [hr]; exact ⟨rfl, rfl, rfl⟩) (by rw [hr]; exact ⟨rfl, rfl, rfl⟩) (by rw [he])
  errCode := by rw [ErrCodeInv, hr]; exact hs.errCode
  run := hs.run.same (.of_eq hr he)
  inflate := hs.inflate.same (.of_eq hr he)
  row := hs.row.same (.of_eq hr he)
  walk := hs.walk.same (.of_eq hr he)
  mem := hm ▸ hs.mem

/-- An engine step from inside a run to inside the same run. -/
structure Goes (s t : State) : Prop where
  move : EngineMove s t
  inv : Inv s
  regs : t.regs.kept = s.regs.kept
  busy : s.regs.busy = true
  from_run : s.eng.phase ≠ .idle
  to_run : t.eng.phase ≠ .idle

/-- An engine step of a run goes on with it or ends it. -/
theorem EngineMove.goes_or_ends {s t : State} (h : EngineMove s t) (hs : Inv s) (hb : s.regs.busy = true) :
    Goes s t ∨ NoRun t := by
  have hp := hs.status.busyPhase.1 hb
  rcases h.window with ⟨hk, ht⟩ | ⟨ht, r, -, hr | ⟨e, -, hr⟩⟩
  · exact .inl ⟨h, hs, hk, hb, hp, fun h => hp (ht h)⟩
  all_goals exact .inr ⟨by simp [hr], ht⟩

/-- An invariant of the run holds behind every step if it holds without a run and at a run's begin, depends on the run alone, and is kept
by the engine's steps inside a run. -/
theorem step_keeps {P : State → Prop} {s t : State} (noRun : ∀ u, NoRun u → P u) (begun : ∀ u, Begun u → P u)
    (same : ∀ s u, SameRun s u → P s → P u) (goes : ∀ s u, Goes s u → P u) (hs : Inv s) (hP : P s) (h : step s = .next t) : P t := by
  have hs' : ∀ (rest : List HostOp) (n : Nat), Inv { s with host := rest, draws := n } := fun rest n =>
    Inv.congr (s := s) rfl rfl rfl hs
  rcases step_next h with ⟨rest, -, ⟨-, rfl⟩ | ⟨hb, n, hm⟩⟩ | ⟨op, rest, -, -, hm⟩
  · exact same s _ (.of_eq rfl rfl) hP
  · rcases hm.goes_or_ends (hs' rest n) hb with h | h
    · exact goes _ t h
    · exact noRun t h
  · rcases hm.run (hs' rest s.draws).status with h | h | h
    · exact same _ t h (same s _ (.of_eq rfl rfl) hP)
    · exact noRun t h
    · exact begun t h

/-- A row's byte inside a run: the next byte of the row, or the next row. -/
theorem rowWritten_goes {ft v : Byte} {s : State} (h : (rowWritten ft v s).eng.phase ≠ .idle) :
    (rowIndex s + 1 < rb s ∧ (rowWritten ft v s).regs = s.regs ∧
        (rowWritten ft v s).eng = { s.eng with phase := .rowByte ft (rowIndex s + 1) }) ∨
      (s.eng.row + 1 < geomHeight s ∧
        (rowWritten ft v s).regs = { s.regs with reconLen := trunc32 ((s.eng.row + 1) * rb s) } ∧
        (rowWritten ft v s).eng = { s.eng with row := s.eng.row + 1, phase := .row }) := by
  rcases rowWritten_cases ft v s with hc | hc | ⟨-, he⟩
  · exact .inl hc
  · exact .inr hc
  · exact absurd he h

theorem Raised.noRun {s t : State} (h : Raised s t) : t.eng.phase = .idle := by
  obtain ⟨-, -, -, -, -, hp, -⟩ := h.shape
  exact hp

/-! ## Configuration behind an engine step -/

theorem configError_congr {r q : Regs} (h : q.kept = r.kept) : configError q = configError r :=
  show configError q.kept = configError r.kept from congrArg _ h

theorem Goes.mode {s t : State} (h : Goes s t) : t.regs.mode = s.regs.mode := (Regs.kept_fields h.regs).1

theorem Goes.full {s t : State} (h : Goes s t) : isFull t = isFull s := by
  simp [isFull, h.mode]

end Sys2Proof.Machine
end

section
/-! The way of a run through its phases (R207 to R210): which phase follows which in which mode. -/

namespace Sys2Proof.Machine

/-- Phase `q` can follow phase `p` within a run of mode `m`. -/
inductive Follows (m : BitVec 3) : Phase → Phase → Prop
  /-- Behind the configuration check each mode's first stage (R206). -/
  | full (hm : m = 0#3) : Follows m .config (.enter .signature)
  | inflate (hm : m = 1#3) : Follows m .config (.enter .zlibHeader)
  | unfilter (hm : m = 2#3) : Follows m .config (.enter .unfilter)
  | crc (hm : m = 3#3) : Follows m .config (.enter .crc)
  /-- The stages' entries (R35). -/
  | enterSignature : Follows m (.enter .signature) .sig
  | enterChunks : Follows m (.enter .chunks) .chunk
  | enterHeader : Follows m (.enter .header) .header
  | enterPalette : Follows m (.enter .palette) .palette
  | enterZlib : Follows m (.enter .zlibHeader) .inflate
  | enterBlocks : Follows m (.enter .blocks) .block
  | enterTrailer : Follows m (.enter .trailer) .trailer
  | enterRows (hm : m = 0#3) : Follows m (.enter .unfilter) .geometry
  | enterParams (hm : m ≠ 0#3) : Follows m (.enter .unfilter) .ufParams
  | enterCrc : Follows m (.enter .crc) .crc
  /-- Signature, walk, header and palette (R252 to R272). -/
  | signature : Follows m .sig (.enter .chunks)
  | chunk : Follows m .chunk .chunk
  | walked : Follows m .chunk (.enter .header)
  | header : Follows m .header (.enter .palette)
  | palette : Follows m .palette (.enter .zlibHeader)
  /-- The zlib header's checks (R330 to R333). -/
  | zlibCm (cmf flg : Byte) : Follows m .inflate (.zlibFdict cmf flg)
  | zlibFdict (cmf flg : Byte) : Follows m (.zlibFdict cmf flg) (.zlibFcheck cmf flg)
  | zlibFcheck (cmf flg : Byte) : Follows m (.zlibFcheck cmf flg) (.enter .blocks)
  /-- The blocks (R336 to R362, R430 to R439). -/
  | storedBlock (n : Nat) : Follows m .block (.stored n)
  | fixedBlock : Follows m .block .litLen
  | dynamicBlock : Follows m .block .clSym
  | storedByte (n : Nat) : Follows m (.stored (n + 1)) (.stored n)
  | storedDone : Follows m (.stored 0) .block
  | storedLast : Follows m (.stored 0) (.enter .trailer)
  | clMore : Follows m .clSym .clSym
  | clDone : Follows m .clSym .litLen
  | literal : Follows m .litLen .litLen
  | length (n : Nat) : Follows m .litLen (.dist n)
  | endOfBlock : Follows m .litLen .block
  | endOfLast : Follows m .litLen (.enter .trailer)
  | distance (n d : Nat) : Follows m (.dist n) (.copy n d)
  | copyByte (n d : Nat) : Follows m (.copy (n + 1) d) (.copy n d)
  | copyDone (d : Nat) : Follows m (.copy 0 d) .litLen
  /-- The trailer of a FULL run, and the rows (R443, R490 to R505). -/
  | trailer (hm : m = 0#3) : Follows m .trailer (.enter .unfilter)
  | ufParams : Follows m .ufParams .geometry
  | geometry : Follows m .geometry .row
  | rowStart (ft : Byte) (i : Nat) : Follows m .row (.rowByte ft i)
  | rowByte (ft : Byte) (i : Nat) : Follows m (.rowByte ft i) (.rowByte ft (i + 1))
  | rowOfOne : Follows m .row .row
  | rowDone (ft : Byte) (i : Nat) : Follows m (.rowByte ft i) .row

theorem isFull_iff (s : State) : isFull s = true ↔ s.regs.mode = 0#3 := by
  simp [isFull, ← BitVec.toNat_inj]

/-- The stage an entry phase names is one that runs enter. -/
theorem Goes.enters {s t : State} (h : Goes s t) {g : Stage} (hp : s.eng.phase = .enter g) : g ≠ .idle ∧ g ≠ .config := by
  have hs := h.inv.run.stage
  constructor <;> (rintro rfl; simp [hp, Phase.stages, Stage.before] at hs)

/-- R206: the mode's own first stage. -/
theorem follows_modeEntry {r : Regs} (h : r.mode.toNat ≤ 3) : Follows r.mode .config (.enter (modeEntry r)) := by
  have hc : r.mode = 0#3 ∨ r.mode = 1#3 ∨ r.mode = 2#3 ∨ r.mode = 3#3 := by
    simp only [← BitVec.toNat_inj, BitVec.toNat_ofNat]
    omega
  rcases hc with hm | hm | hm | hm <;> simp only [modeEntry, hm, BitVec.toNat_ofNat]
  · exact .full rfl
  · exact .inflate rfl
  · exact .unfilter rfl
  · exact .crc rfl

/-- R35: where a stage begins. -/
theorem follows_enterStage {g : Stage} (hg : g ≠ .idle ∧ g ≠ .config) (s : State) :
    Follows s.regs.mode (.enter g) (enterStage g s).eng.phase := by
  cases g with
  | idle => exact absurd rfl hg.1
  | config => exact absurd rfl hg.2
  | unfilter =>
    cases hf : isFull s with
    | true => simpa [enterStage, hf] using .enterRows ((isFull_iff s).1 hf)
    | false => simpa [enterStage, hf] using .enterParams fun hm => by simp [(isFull_iff s).2 hm] at hf
  | _ => constructor

/-- An engine step within a run goes the run's way. -/
theorem Goes.follows {s t : State} (h : Goes s t) : Follows s.regs.mode s.eng.phase t.eng.phase := by
  have ht := h.to_run
  cases h.move with
  | idle hp => exact absurd hp ht
  | raised hr => exact absurd hr.noRun ht
  | enter g hp => exact hp ▸ follows_enterStage (h.enters hp) s
  | config hp hc => exact hp ▸ follows_modeEntry (configError_none_mode hc)
  | storedDone hp | endOfBlock n hp =>
    rw [hp]
    cases hf : s.eng.bfinal <;> (simp only [endBlock_eng, behindSymbol_eng, afterBlock, hf]; constructor)
  | trailerFull hp hf => exact hp ▸ .trailer ((isFull_iff s).1 hf)
  | rowStart ft v hp ha hf hw =>
    rcases rowWritten_goes ht with ⟨-, -, he⟩ | ⟨-, -, he⟩ <;> rw [hp, he]
    · exact .rowStart ft _
    · exact .rowOfOne
  | rowByte ft v i hp hf hw =>
    have hi : rowIndex s = i := by simp [rowIndex, hp]
    rcases rowWritten_goes ht with ⟨-, -, he⟩ | ⟨-, -, he⟩ <;> rw [hp, he]
    · exact hi ▸ .rowByte ft _
    · exact .rowDone ft i
  | trailerDone hp | noRows hp | crc c hp => exact absurd rfl ht
  | _ => simp only [*]; constructor

end Sys2Proof.Machine
end

section
/-! Mode, STAGE and regions fit where the engine stands (R35, R206 to R210), and STAGE never goes back within a run (R55). -/

namespace Sys2Proof.Machine

/-! ## Mode -/

/-- A run's mode passes through every phase its way leads to. -/
theorem Follows.modes {m : BitVec 3} {p q : Phase} (h : Follows m p q) (hm : m.toNat ∈ p.modes) : m.toNat ∈ q.modes := by
  cases h with
  | enterParams h0 =>
    have h0 : m.toNat ≠ 0 := fun h => h0 (BitVec.eq_of_toNat_eq h)
    simpa [Phase.modes, Stage.modes, h0] using hm
  | _ => simp_all [Phase.modes, Stage.modes]

theorem Goes.mode_mem {s t : State} (h : Goes s t) : t.regs.mode.toNat ∈ t.eng.phase.modes := by
  rw [h.mode]
  exact h.follows.modes h.inv.run.mode

/-! ## STAGE -/

/-- Inside a run a stage entry does what R35 says and nothing else. -/
theorem Goes.entered {s t : State} (h : Goes s t) {g : Stage} (hp : s.eng.phase = .enter g) : t = enterStage g s := by
  have ht := h.to_run
  cases h.move with
  | raised hr => exact absurd hr.noRun ht
  | enter g' hp' =>
    rw [hp] at hp'
    cases hp'
    rfl
  | _ => simp_all

/-- A stage's entry writes STAGE (R35). -/
theorem Goes.stage_entered {s t : State} (h : Goes s t) {g : Stage} (hp : s.eng.phase = .enter g) : t.regs.stage = g := by
  rw [h.entered hp]
  cases g with
  | idle => exact absurd rfl (h.enters hp).1
  | _ => rfl

/-- No other step of a run changes STAGE: the configuration and signature steps write what stands there. -/
theorem Goes.stage_same {s t : State} (h : Goes s t) (hn : ∀ g, s.eng.phase ≠ .enter g) : t.regs.stage = s.regs.stage := by
  have hs := h.inv.run.stage
  have ht := h.to_run
  cases h.move with
  | raised hr => exact absurd hr.noRun ht
  | enter g hp => exact absurd hp (hn g)
  | config hp hc | signature hp hl => simp_all [Phase.stages]
  | rowStart ft v hp | rowByte ft v i hp => rcases rowWritten_goes ht with ⟨-, hr, -⟩ | ⟨-, hr, -⟩ <;> simp [hr]
  | _ => rfl

/-- A stage that was entered is STAGE's value at the phase behind its entry. -/
theorem Follows.stages_entered {m : BitVec 3} {g : Stage} {q : Phase} (h : Follows m (.enter g) q) : g ∈ q.stages := by
  cases h <;> exact List.mem_singleton_self _

/-- Between two entries STAGE's value is kept. -/
theorem Follows.stages_kept {m : BitVec 3} {p q : Phase} (h : Follows m p q) (hn : ∀ g, p ≠ .enter g) {g : Stage}
    (hg : g ∈ p.stages) : g ∈ q.stages := by
  cases h <;> simp_all [Phase.stages, Stage.before]

theorem Goes.stage_mem {s t : State} (h : Goes s t) : t.regs.stage ∈ t.eng.phase.stages := by
  have hf := h.follows
  by_cases hp : ∃ g, s.eng.phase = .enter g
  · obtain ⟨g, hp⟩ := hp
    rw [h.stage_entered hp]
    rw [hp] at hf
    exact hf.stages_entered
  · have hn : ∀ g, s.eng.phase ≠ .enter g := not_exists.1 hp
    rw [h.stage_same hn]
    exact hf.stages_kept hn h.inv.run.stage

/-! ## Regions -/

/-- Behind the configuration check its tests still pass: the regions hold what they held (R47, R206). -/
theorem Goes.configError_none {s t : State} (h : Goes s t) : configError t.regs = none := by
  rw [configError_congr h.regs]
  by_cases hp : s.eng.phase = .config
  · have ht := h.to_run
    cases h.move with
    | raised hr => exact absurd hr.noRun ht
    | config hp' hc => exact hc
    | _ => simp_all
  · exact h.inv.run.config h.from_run hp

theorem Goes.runInv {s t : State} (h : Goes s t) : RunInv t := ⟨h.mode_mem, h.stage_mem, fun _ _ => h.configError_none⟩

theorem mode_mem_all (m : BitVec 3) : m.toNat ∈ [0, 1, 2, 3, 4, 5, 6, 7] := by
  revert m
  decide

theorem NoRun.runInv {s : State} (h : NoRun s) : RunInv s where
  mode := by rw [h.2]; exact mode_mem_all s.regs.mode
  stage := by rw [h.2]; cases s.regs.stage <;> decide
  config := fun hp _ => absurd h.2 hp

theorem Begun.runInv {s : State} (h : Begun s) : RunInv s where
  mode := by rw [h.2]; exact mode_mem_all s.regs.mode
  stage := by
    obtain ⟨⟨r, hr⟩, hp⟩ := h
    rw [hr, hp]
    exact List.mem_singleton_self _
  config := fun _ hp => absurd h.2 hp

/-- Settles O16: the mode's way through the phases, the entries of the stages, and regions no step of a run changes. -/
theorem runInvStep : Obligations.RunInvStep := by
  unfold Obligations.RunInvStep
  intro s t hs h
  exact step_keeps (fun _ => NoRun.runInv) (fun _ => Begun.runInv) (fun _ _ => RunInv.same) (fun _ _ => Goes.runInv) hs hs.run h

/-! ## STAGE within a run -/

/-- A stage's number is above those of the stages it comes behind (R35, R55). -/
theorem Stage.code_before {g q : Stage} (h : q ∈ g.before) : q.code ≤ g.code := by
  cases g <;> revert h <;> cases q <;> decide

theorem Goes.stage_code {s t : State} (h : Goes s t) : s.regs.stage.code ≤ t.regs.stage.code := by
  by_cases hp : ∃ g, s.eng.phase = .enter g
  · obtain ⟨g, hp⟩ := hp
    have hs := h.inv.run.stage
    rw [hp] at hs
    rw [h.stage_entered hp]
    exact Stage.code_before hs
  · rw [h.stage_same (not_exists.1 hp)]

/-- A move of the host but a reset leaves STAGE as it is while busy. -/
theorem HostMove.stage {s t : State} {op : HostOp} (h : HostMove s op t) (hb : s.regs.busy = true) (ho : op ≠ .reset) :
    t.regs.stage = s.regs.stage := by
  cases h with
  | ctrl v => rw [ctrlWrite_busy hb]
  | reg off v h4 h8 => rw [if_pos hb]
  | memWrite addr b t hu hr => rw [hr]
  | quiet op t hr => rw [hr]
  | reset t hr => exact absurd rfl ho
  | _ => rfl

/-- Settles O26: the host leaves STAGE, and the engine only enters later stages. -/
theorem stageMonotone : Obligations.StageMonotone := by
  unfold Obligations.StageMonotone
  intro s t hs hb tb hn h
  rcases step_next h with ⟨rest, -, ⟨hi, -⟩ | ⟨-, n, hm⟩⟩ | ⟨op, rest, hh, -, hm⟩
  · rw [hb] at hi
    cases hi
  · rcases hm.goes_or_ends (Inv.congr (s := s) rfl rfl rfl hs) hb with hg | hg
    · exact hg.stage_code
    · rw [hg.1] at tb
      cases tb
  · rw [hm.stage hb fun ho => hn rest (ho ▸ hh)]

end Sys2Proof.Machine
end

section
/-! The chunk walk and its records stay inside IN (R48, R50, R254, R258). -/

namespace Sys2Proof.Machine

/-- The phases at which the records of this run are not there yet: the run is idle or before the entry of the chunk stage. -/
def beforeWalk : List Phase := [.idle, .config, .enter .signature, .sig, .enter .chunks]

/-- The record lies behind the signature and inside IN (R253, R254). -/
def ChunkRec.Inside (s : State) (c : ChunkRec) : Prop := 8 ≤ c.off ∧ c.off + 12 + c.len ≤ s.regs.inLen.toNat

theorem NoRun.walkInv {s : State} (h : NoRun s) : WalkInv s := by
  constructor <;> simp [h.2]

theorem Begun.walkInv {s : State} (h : Begun s) : WalkInv s := by
  constructor <;> simp [h.2]

theorem Goes.inLen {s t : State} (h : Goes s t) : t.regs.inLen = s.regs.inLen := by
  obtain ⟨-, -, -, -, -, -, -, -, -, -, hl, -⟩ := Regs.kept_fields h.regs
  exact hl

/-- Away from the walk itself its invariant speaks of the records alone. -/
theorem WalkInv.of_records {s : State} (he : s.eng.phase ≠ .enter .chunks) (hc : s.eng.phase ≠ .chunk)
    (hr : s.regs.mode = 0#3 → s.eng.phase ∉ beforeWalk → ∀ c ∈ s.eng.chunks, c.Inside s) : WalkInv s :=
  ⟨fun h => absurd h he, fun h => absurd h hc, fun h => absurd h hc, hr⟩

/-- The walk and its entry come behind the signature and the walk alone (R207, R258). -/
theorem Follows.not_walk {m : BitVec 3} {p q : Phase} (h : Follows m p q) (hp : p ∉ beforeWalk) (hc : p ≠ .chunk) :
    q ≠ .enter .chunks ∧ q ≠ .chunk := by
  cases h <;> simp_all [beforeWalk]

/-- Behind the walk an engine step that keeps the records keeps the invariant. -/
theorem Goes.walkInv_of_same {s t : State} (h : Goes s t) (hc : t.eng.chunks = s.eng.chunks) (hp : s.eng.phase ∉ beforeWalk)
    (hn : s.eng.phase ≠ .chunk) : WalkInv t := by
  obtain ⟨he, hw⟩ := h.follows.not_walk hp hn
  refine .of_records he hw fun hm _ => ?_
  rw [h.mode] at hm
  unfold ChunkRec.Inside
  rw [hc, h.inLen]
  exact h.inv.walk.chunks hm hp

/-- The end of the walk: every record up to the cursor lies inside IN. -/
theorem Goes.walkInv_of_end {s t : State} (h : Goes s t) (hp : t.eng.phase = .enter .header)
    (hc : ∀ c ∈ t.eng.chunks, c.Inside s) : WalkInv t := by
  refine .of_records (by simp [hp]) (by simp [hp]) fun _ _ => ?_
  unfold ChunkRec.Inside
  rw [h.inLen]
  exact hc

/-- During the walk the records lie inside IN. -/
theorem Goes.walk_records {s t : State} (h : Goes s t) (hp : s.eng.phase = .chunk) : ∀ c ∈ s.eng.chunks, c.Inside s := by
  have hm := h.inv.run.mode
  simp only [hp, Phase.modes, List.mem_singleton] at hm
  exact h.inv.walk.chunks (BitVec.eq_of_toNat_eq hm) (by simp [hp])

/-- During the walk the records with the chunk at the cursor lie inside IN, where that chunk does (R254). -/
theorem Goes.walk_append {s t : State} (h : Goes s t) (hp : s.eng.phase = .chunk) {len : Nat} (typ : Word)
    (hl : s.eng.p + 12 + len ≤ s.regs.inLen.toNat) : ∀ c ∈ s.eng.chunks ++ [⟨s.eng.p, len, typ⟩], c.Inside s := by
  intro c hc
  rcases List.mem_append.1 hc with hc | hc
  · exact h.walk_records hp c hc
  · rw [List.mem_singleton.1 hc]
    exact ⟨(h.inv.walk.cursor hp).1, hl⟩

/-- In FULL mode the configuration check leads to the signature stage (R207). -/
theorem Follows.full_before {p : Phase} (h : Follows 0#3 .config p) : p = .enter .signature := by
  cases h <;> simp_all

theorem Goes.walkInv {s t : State} (h : Goes s t) : WalkInv t := by
  have ht := h.to_run
  have hf := h.follows
  cases h.move with
  | idle hp => exact absurd hp ht
  | raised hr => exact absurd hr.noRun ht
  | enter g hp =>
    cases g with
    | signature => exact .of_records (by simp [enterStage]) (by simp [enterStage]) (by simp [enterStage, beforeWalk])
    | chunks =>
      have hl := h.inv.walk.entry hp
      exact ⟨by simp [enterStage], fun _ => ⟨Nat.le_refl 8, hl⟩, by simp [enterStage], by simp [enterStage]⟩
    | idle => exact absurd rfl (h.enters hp).1
    | _ => exact h.walkInv_of_same rfl (by simp [hp, beforeWalk]) (by simp [hp])
  | config hp hc =>
    rw [hp] at hf
    refine .of_records (by rintro he; rw [he] at hf; cases hf) (by simp) fun hm hb => ?_
    rw [show s.regs.mode = 0#3 from hm] at hf
    exact absurd (hf.full_before ▸ by decide) hb
  | signature hp hl => exact ⟨fun _ => hl, by simp, by simp, by simp⟩
  | chunk len typ c hp hl =>
    have hi := h.walk_append hp typ hl
    obtain ⟨h8, -⟩ := h.inv.walk.cursor hp
    refine ⟨by simp, fun _ => ⟨?_, hl⟩, fun _ r hr => ?_, fun _ _ => hi⟩
    · change 8 ≤ s.eng.p + 12 + len.toNat
      omega
    · change r.off + 12 + r.len ≤ s.eng.p + 12 + len.toNat
      rcases List.mem_append.1 hr with hr | hr
      · have := h.inv.walk.walked hp r hr
        omega
      · rw [List.mem_singleton.1 hr]
  | lastChunk len c hp hl => exact h.walkInv_of_end rfl (h.walk_append hp typIEND hl)
  | walkEnd hp hl => exact h.walkInv_of_end rfl (h.walk_records hp)
  | rowStart ft v hp | rowByte ft v i hp =>
    rcases rowWritten_goes ht with ⟨-, -, he⟩ | ⟨-, -, he⟩ <;>
      exact h.walkInv_of_same (by simp [he]) (by simp [hp, beforeWalk]) (by simp [hp])
  | _ => exact h.walkInv_of_same rfl (by simp [beforeWalk, *]) (by simp [*])

/-- Settles O19: the walk appends a record only where R254 found it inside IN, and nothing else changes one. -/
theorem walkInvStep : Obligations.WalkInvStep := by
  unfold Obligations.WalkInvStep
  intro s t hs h
  exact step_keeps (fun _ => NoRun.walkInv) (fun _ => Begun.walkInv) (fun _ _ => WalkInv.same) (fun _ _ => Goes.walkInv) hs hs.walk h

end Sys2Proof.Machine
end

section
/-! The unfilterer's geometry, capacity and cursor (R45, R48, R491 to R495, R503). -/

namespace Sys2Proof.Machine

/-! ## Geometry -/

theorem permitted_pairs {bd ct : Nat} (h : permitted bd ct = true) : (ct, bd) ∈ permittedPairs := by
  unfold permitted at h
  split at h <;> simp at h <;> simp [permittedPairs] <;> omega

/-- The packed format register of a header with CM, FM and IM zero gives back its bit depth (R267). -/
theorem formatDepth_pack {bd ct : Nat} (hb : bd < 256) :
    formatDepth (trunc32 (bd + ct * 256 + 0 * 65536 + 0 * 16777216)) = bd := by
  simp only [formatDepth, BitVec.extractLsb'_toNat, BitVec.toNat_ofNat, Nat.shiftRight_eq_div_pow]
  omega

/-- It gives back its color type (R267). -/
theorem formatColor_pack {bd ct : Nat} (hb : bd < 256) (hc : ct < 256) :
    formatColor (trunc32 (bd + ct * 256 + 0 * 65536 + 0 * 16777216)) = ct := by
  simp only [formatColor, BitVec.extractLsb'_toNat, BitVec.toNat_ofNat, Nat.shiftRight_eq_div_pow]
  omega

theorem ufError_none {w h bd ct : Nat} (he : ufError w h bd ct = none) : w ≠ 0 ∧ h ≠ 0 ∧ permitted bd ct = true := by
  unfold ufError at he
  split at he
  · cases he
  split at he
  · cases he
  split at he
  · cases he
  exact ⟨‹_›, ‹_›, by simpa using ‹¬permitted bd ct = false›⟩

/-- A permitted header gives the run a permitted geometry (R262, R263). -/
theorem writeHeader_geomOk {w ht bd ct : Nat} {s : State} (hf : isFull s = true) (hw : w ≠ 0 ∧ w < 2 ^ 32) (hh : ht ≠ 0 ∧ ht < 2 ^ 32)
    (hb : bd < 256 ∧ ct < 256) (hp : permitted bd ct = true) : GeomOk (writeHeader w ht bd ct 0 0 0 s) := by
  have hf' : isFull (writeHeader w ht bd ct 0 0 0 s) = true := hf
  unfold GeomOk geomWidth geomHeight geomFormat
  simp only [hf', if_true, writeHeader_regs, formatDepth_pack hb.1, formatColor_pack hb.1 hb.2, BitVec.toNat_ofNat]
  exact ⟨by omega, by omega, permitted_pairs hp⟩

/-- Parameters that pass the check give an UNFILTER run a permitted geometry (R491). -/
theorem ufError_geomOk {s : State} (hf : isFull s = false)
    (hu : ufError s.regs.ufWidth.toNat s.regs.ufHeight.toNat (formatDepth s.regs.ufFormat) (formatColor s.regs.ufFormat) = none) :
    GeomOk s := by
  obtain ⟨h1, h2, h3⟩ := ufError_none hu
  unfold GeomOk geomWidth geomHeight geomFormat
  simp only [hf]
  exact ⟨h1, h2, permitted_pairs h3⟩

/-- Four channels of at most 255 bits each: the distance to the left neighbour fits a register (R493). -/
theorem bpp_lt (s : State) : bpp s < 2 ^ 32 := by
  have hd : formatDepth (geomFormat s) < 256 := BitVec.isLt _
  have hc : channels (formatColor (geomFormat s)) ≤ 4 := by
    unfold channels
    split <;> omega
  have : channels (formatColor (geomFormat s)) * formatDepth (geomFormat s) ≤ 4 * 256 := Nat.mul_le_mul hc (by omega)
  unfold bpp bppOf
  omega

/-- Width, height and format of the run are the same. -/
def SameGeom (s t : State) : Prop := geomWidth t = geomWidth s ∧ geomHeight t = geomHeight s ∧ geomFormat t = geomFormat s

theorem SameGeom.rb {s t : State} (h : SameGeom s t) : rb t = rb s := by
  obtain ⟨hw, hh, hf⟩ := h
  rw [Machine.rb, Machine.rb, hw, hf]

theorem SameGeom.stride {s t : State} (h : SameGeom s t) : stride t = stride s := congrArg (· + 1) h.rb

theorem SameGeom.bpp {s t : State} (h : SameGeom s t) : bpp t = bpp s := by
  obtain ⟨hw, hh, hf⟩ := h
  rw [Machine.bpp, Machine.bpp, hf]

theorem SameGeom.geomOk {s t : State} (h : SameGeom s t) (hs : GeomOk s) : GeomOk t := by
  obtain ⟨hw, hh, hf⟩ := h
  rw [GeomOk, hw, hh, hf]
  exact hs

/-- Only the header stage writes the image's registers (R267). -/
theorem Goes.image {s t : State} (h : Goes s t) (hn : s.eng.phase ≠ .header) :
    t.regs.imgWidth = s.regs.imgWidth ∧ t.regs.imgHeight = s.regs.imgHeight ∧ t.regs.imgFormat = s.regs.imgFormat := by
  have ht := h.to_run
  cases h.move with
  | raised hr => exact absurd hr.noRun ht
  | enter g hp => cases g <;> exact ⟨rfl, rfl, rfl⟩
  | header w ht bd ct hp => exact absurd hp hn
  | rowStart ft v hp ha hf hw | rowByte ft v i hp hf hw =>
    rcases rowWritten_goes ht with ⟨-, hr, -⟩ | ⟨-, hr, -⟩ <;> (rw [hr]; exact ⟨rfl, rfl, rfl⟩)
  | _ => exact ⟨rfl, rfl, rfl⟩

theorem Goes.sameGeom {s t : State} (h : Goes s t) (hn : s.eng.phase ≠ .header) : SameGeom s t := by
  obtain ⟨h1, h2, h3⟩ := h.image hn
  obtain ⟨-, -, -, -, -, -, -, -, -, -, -, -, -, -, -, h4, h5, h6⟩ := Regs.kept_fields h.regs
  simp only [SameGeom, geomWidth, geomHeight, geomFormat, h.full, h1, h2, h3, h4, h5, h6, and_self]

/-- The places of a run of mode `m` at which its geometry is known. -/
def NeedsGeom (m : BitVec 3) (p : Phase) : Prop :=
  p = .geometry ∨ p.inRows = true ∨ (m = 0#3 ∧ p.betweenHeaderAndRows = true)

/-- Where the geometry is known, it was known before, or the header or the parameters have just been checked. -/
theorem Follows.needsGeom {m : BitVec 3} {p q : Phase} (h : Follows m p q) (hn : NeedsGeom m q) :
    NeedsGeom m p ∨ p = .header ∨ p = .ufParams := by
  unfold NeedsGeom at hn ⊢
  cases h <;> simp_all [Phase.inRows, Phase.betweenHeaderAndRows, Phase.inInflate, Phase.inZlib, Phase.inBlocks]

theorem not_needsGeom_header (m : BitVec 3) : ¬NeedsGeom m .header := by
  simp [NeedsGeom, Phase.inRows, Phase.betweenHeaderAndRows, Phase.inInflate, Phase.inZlib, Phase.inBlocks]

/-- Where the geometry is known it is a permitted one. -/
theorem Goes.geomOk {s t : State} (h : Goes s t) (hn : NeedsGeom t.regs.mode t.eng.phase) : GeomOk t := by
  have hm := h.inv.run.mode
  have ht := h.to_run
  rw [h.mode] at hn
  rcases h.follows.needsGeom hn with hs | hp | hp
  · exact (h.sameGeom fun hp => not_needsGeom_header _ (hp ▸ hs)).geomOk (h.inv.row.geom hs)
  · have hf : isFull s = true := by simpa [isFull, hp, Phase.modes] using hm
    cases h.move with
    | raised hr => exact absurd hr.noRun ht
    | header w ht bd ct hp' hw hh hb hc => exact writeHeader_geomOk hf hw hh hb hc
    | _ => simp_all
  · have hf : isFull s = false := by simp_all [isFull, Phase.modes]
    cases h.move with
    | raised hr => exact absurd hr.noRun ht
    | ufParams hp' hu => exact ufError_geomOk (s := { s with eng := { s.eng with phase := .geometry } }) hf hu
    | _ => simp_all

/-! ## Rows -/

/-- The row's place in the image and the registers that show it (R45, R494, R503). -/
def RowRoom (s : State) : Prop :=
  s.eng.row < geomHeight s ∧ geomHeight s * rb s ≤ s.regs.reconCap.toNat ∧ s.regs.rowBytes.toNat = rb s ∧
    s.regs.bpp.toNat = bpp s ∧ s.regs.reconLen.toNat = s.eng.row * rb s

/-- An engine step in the rows: byte `i` under filter `ft`, then the next byte of the row, or the next row (R495, R503). -/
theorem Goes.row_step {s t : State} (h : Goes s t) (hr : s.eng.phase.inRows = true) :
    ∃ ft i, ft.toNat ≤ 4 ∧
      (s.eng.phase = .rowByte ft i ∨ s.eng.phase = .row ∧ stride s ≤ filteredLen s - s.eng.row * stride s) ∧
      ((i + 1 < rb s ∧ t.regs = s.regs ∧ t.eng = { s.eng with phase := .rowByte ft (i + 1) }) ∨
        (s.eng.row + 1 < geomHeight s ∧ t.regs = { s.regs with reconLen := trunc32 ((s.eng.row + 1) * rb s) } ∧
          t.eng = { s.eng with row := s.eng.row + 1, phase := .row })) := by
  have ht := h.to_run
  cases h.move with
  | raised hr => exact absurd hr.noRun ht
  | rowStart ft v hp ha hf hw => exact ⟨ft, 0, hf, .inr ⟨hp, ha⟩, rowWritten_goes ht⟩
  | rowByte ft v i hp hf hw =>
    have hi : rowIndex s = i := by simp [rowIndex, hp]
    exact ⟨ft, i, hf, .inl hp, hi ▸ rowWritten_goes ht⟩
  | _ => simp_all [Phase.inRows]

/-- The rows are entered behind the capacity check alone (R494). -/
theorem Follows.rows_from {m : BitVec 3} {p q : Phase} (h : Follows m p q) (hq : q.inRows = true) :
    p.inRows = true ∨ p = .geometry := by
  cases h <;> simp_all [Phase.inRows]

/-- The capacity check of a run that goes on leads to the first row (R490, R494). -/
theorem Goes.first_row {s t : State} (h : Goes s t) (hp : s.eng.phase = .geometry) :
    geomHeight s * rb s ≤ s.regs.reconCap.toNat ∧ geomHeight s ≠ 0 ∧
      t.regs = { s.regs with rowBytes := trunc32 (rb s), bpp := trunc32 (bpp s) } ∧ t.eng = { s.eng with row := 0, phase := .row } := by
  have ht := h.to_run
  cases h.move with
  | raised hr => exact absurd hr.noRun ht
  | geometry hp hc hh => exact ⟨hc, hh, rfl, rfl⟩
  | noRows hp hh => exact absurd rfl ht
  | _ => simp_all

/-- A number of bytes within RECON_CAP fits a register. -/
theorem toNat_trunc32_of_le {n : Nat} {w : Word} (h : n ≤ w.toNat) : (trunc32 n).toNat = n := by
  rw [BitVec.toNat_ofNat]
  exact Nat.mod_eq_of_lt (by have := w.isLt; omega)

theorem Goes.rowRoom {s t : State} (h : Goes s t) (hr : t.eng.phase.inRows = true) : RowRoom t := by
  rcases h.follows.rows_from hr with hs | hp
  · have hg := h.sameGeom (by rintro hp; simp [hp, Phase.inRows] at hs)
    obtain ⟨h1, h2, h3, h4, h5⟩ := h.inv.row.room hs
    obtain ⟨ft, i, -, -, ⟨-, tr, te⟩ | ⟨hlt, tr, te⟩⟩ := h.row_step hs
    · rw [RowRoom, hg.rb, hg.bpp, hg.2.1, tr, te]
      exact ⟨h1, h2, h3, h4, h5⟩
    · have hle : (s.eng.row + 1) * rb s ≤ geomHeight s * rb s := Nat.mul_le_mul_right _ (by omega)
      rw [RowRoom, hg.rb, hg.bpp, hg.2.1, tr, te]
      exact ⟨hlt, h2, h3, h4, toNat_trunc32_of_le (hle.trans h2)⟩
  · obtain ⟨hc, hh, tr, te⟩ := h.first_row hp
    have hg := h.sameGeom (by simp [hp])
    have hz : s.regs.reconLen = 0#32 := h.inv.row.none h.busy (by rw [hp]; rfl)
    have hle : rb s ≤ geomHeight s * rb s := Nat.le_mul_of_pos_left _ (by omega)
    rw [RowRoom, hg.rb, hg.bpp, hg.2.1, tr, te]
    refine ⟨by simp; omega, hc, toNat_trunc32_of_le (hle.trans hc), ?_, by simp [hz]⟩
    rw [BitVec.toNat_ofNat]
    exact Nat.mod_eq_of_lt (bpp_lt s)

/-- The byte's place in its row and the row's in the filtered data (R495). -/
theorem Goes.rowByte {s t : State} (h : Goes s t) {ft : Byte} {i : Nat} (hp : t.eng.phase = .rowByte ft i) :
    ft.toNat ≤ 4 ∧ i < rb t ∧ (t.eng.row + 1) * stride t ≤ filteredLen t := by
  have hr : t.eng.phase.inRows = true := by rw [hp]; rfl
  rcases h.follows.rows_from hr with hs | hg
  · obtain ⟨gt, j, hf, hfrom, ⟨hj, tr, te⟩ | ⟨-, -, te⟩⟩ := h.row_step hs
    · rw [te] at hp
      cases hp
      obtain ⟨grb, gstride, -, -, -, -, gflt⟩ := geom_congr tr
      rw [grb, gstride, gflt, te]
      refine ⟨hf, hj, ?_⟩
      rcases hfrom with hp | ⟨-, ha⟩
      · exact (h.inv.row.byte _ _ hp).2.2
      · change (s.eng.row + 1) * stride s ≤ _
        have : 1 ≤ stride s := Nat.le_add_left _ _
        rw [Nat.add_mul, Nat.one_mul]
        omega
    · rw [te] at hp
      cases hp
  · obtain ⟨-, -, -, te⟩ := h.first_row hg
    rw [te] at hp
    cases hp

/-- Outside the rows RECON_LEN is not written (R45). -/
theorem Goes.reconLen {s t : State} (h : Goes s t) (hr : s.eng.phase.inRows = false) : t.regs.reconLen = s.regs.reconLen := by
  have ht := h.to_run
  cases h.move with
  | raised hr => exact absurd hr.noRun ht
  | enter g hp => cases g <;> rfl
  | rowStart ft v hp | rowByte ft v i hp => simp [hp, Phase.inRows] at hr
  | _ => rfl

/-- A run in its rows stays there. -/
theorem Goes.stays_in_rows {s t : State} (h : Goes s t) (hr : s.eng.phase.inRows = true) : t.eng.phase.inRows = true := by
  obtain ⟨ft, i, -, -, ⟨-, -, te⟩ | ⟨-, -, te⟩⟩ := h.row_step hr <;> (rw [te]; rfl)

theorem Goes.rowInv {s t : State} (h : Goes s t) : RowInv t where
  geom := h.geomOk
  room := h.rowRoom
  byte _ _ := h.rowByte
  none _ hr := by
    cases hs : s.eng.phase.inRows with
    | true => rw [h.stays_in_rows hs] at hr; cases hr
    | false => rw [h.reconLen hs]; exact h.inv.row.none h.busy hs

theorem NoRun.rowInv {s : State} (h : NoRun s) : RowInv s := by
  constructor <;> simp [h.1, h.2, Phase.inRows, Phase.betweenHeaderAndRows, Phase.inInflate, Phase.inZlib, Phase.inBlocks]

theorem Begun.rowInv {s : State} (h : Begun s) : RowInv s := by
  obtain ⟨⟨r, hr⟩, hp⟩ := h
  constructor <;> simp [hr, hp, Phase.inRows, Phase.betweenHeaderAndRows, Phase.inInflate, Phase.inZlib, Phase.inBlocks]

/-- Settles O18: the header or the parameters give the geometry, the capacity check the room, and each byte keeps both. -/
theorem rowInvStep : Obligations.RowInvStep := by
  unfold Obligations.RowInvStep
  intro s t hs h
  exact step_keeps (fun _ => NoRun.rowInv) (fun _ => Begun.rowInv) (fun _ _ => RowInv.same) (fun _ _ => Goes.rowInv) hs hs.row h

end Sys2Proof.Machine
end

section
/-! The inflater's counters, cursor and codes (R44, R48, R49, R347, R355, R434 to R440). -/

namespace Sys2Proof.Machine

/-! ## Where the inflater stands -/

/-- The phases of the blocks belong to the modes that inflate (R207, R208). -/
theorem Phase.inBlocks_modes {p : Phase} (h : p.inBlocks = true) : p.modes = [0, 1] := by
  cases p <;> simp_all [Phase.inBlocks, Phase.modes, Stage.modes]

theorem Phase.not_inBlocks_of_before {p : Phase} (h : p.beforeInflate = true) : p.inBlocks = false := by
  cases p with
  | enter g => cases g <;> simp_all [Phase.beforeInflate, Phase.inBlocks]
  | _ => simp_all [Phase.beforeInflate, Phase.inBlocks]

/-- `Inflate(S)` is entered through the zlib header's stage alone (R330). -/
theorem Follows.inflate_from {m : BitVec 3} {p q : Phase} (h : Follows m p q) (hq : q.inInflate = true) :
    p.inInflate = true ∨ p = .enter .zlibHeader := by
  cases h <;> simp_all [Phase.inInflate, Phase.inZlib, Phase.inBlocks]

/-- The zlib header's checks begin behind the test of the stream's length (R330). -/
theorem Follows.zlib_from {m : BitVec 3} {p q : Phase} (h : Follows m p q) (hq : q.inZlib = true) :
    p.inZlib = true ∨ p = .inflate := by
  cases h <;> simp_all [Phase.inZlib]

/-- The blocks are entered through their stage alone (R336). -/
theorem Follows.blocks_from {m : BitVec 3} {p q : Phase} (h : Follows m p q) (hq : q.inBlocks = true) :
    p.inBlocks = true ∨ p = .enter .blocks := by
  cases h <;> simp_all [Phase.inBlocks]

/-- Before the inflater's first byte the run stood there already (R207). -/
theorem Follows.before_from {m : BitVec 3} {p q : Phase} (h : Follows m p q) (hq : q.beforeInflate = true) :
    p.beforeInflate = true := by
  cases h <;> simp_all [Phase.beforeInflate]

/-- The places of a run of mode `m` at which INFL_LEN counts the output. -/
def CountsOutput (m : BitVec 3) (p : Phase) : Prop :=
  p.inInflate = true ∨ (m = 0#3 ∧ (p = .enter .unfilter ∨ p = .geometry ∨ p.inRows = true))

theorem not_countsOutput_entry (m : BitVec 3) : ¬CountsOutput m (.enter .zlibHeader) := by
  simp [CountsOutput, Phase.inInflate, Phase.inZlib, Phase.inBlocks, Phase.inRows]

/-- INFL_LEN counts from the zlib header's stage on, through the rows of a FULL run. -/
theorem Follows.counts_from {m : BitVec 3} {p q : Phase} (h : Follows m p q) (hp : m.toNat ∈ p.modes) (hq : CountsOutput m q) :
    CountsOutput m p ∨ p = .enter .zlibHeader := by
  unfold CountsOutput at hq ⊢
  cases h <;> simp_all [Phase.modes, Phase.inInflate, Phase.inZlib, Phase.inBlocks, Phase.inRows]

/-! ## Counters -/

/-- What an engine step does to the output's counters: nothing, or one byte more (R431, R440). -/
theorem Goes.output_step {s t : State} (h : Goes s t) (hn : s.eng.phase ≠ .enter .zlibHeader) :
    (t.regs.inflLen = s.regs.inflLen ∧ t.eng.out = s.eng.out ∧ t.eng.s1 = s.eng.s1 ∧ t.eng.s2 = s.eng.s2) ∨
      (s.eng.phase.inBlocks = true ∧ s.eng.out < s.regs.inflCap.toNat ∧ t.regs.inflLen = trunc32 (s.eng.out + 1) ∧
        t.eng.out = s.eng.out + 1 ∧ t.eng.s1 < 65521 ∧ t.eng.s2 < 65521) := by
  have ht := h.to_run
  have lt : ∀ n : Nat, n % 65521 < 65521 := fun n => Nat.mod_lt n (by decide)
  cases h.move with
  | raised hr => exact absurd hr.noRun ht
  | enter g hp =>
    cases g with
    | zlibHeader => exact absurd hp hn
    | _ => exact .inl ⟨rfl, rfl, rfl, rfl⟩
  | storedByte n b hp hb hr hw | literal n b hp hb hr hw | copyByte n d b hp hb hr hw =>
    exact .inr ⟨by rw [hp]; rfl, hr, rfl, rfl, lt _, lt _⟩
  | rowStart ft v hp | rowByte ft v i hp =>
    left
    rcases rowWritten_goes ht with ⟨-, hr, he⟩ | ⟨-, hr, he⟩ <;> (rw [hr, he]; exact ⟨rfl, rfl, rfl, rfl⟩)
  | _ => exact .inl ⟨rfl, rfl, rfl, rfl⟩

/-- What an engine step does to the block counters: nothing, or one block more (R362). -/
theorem Goes.block_step {s t : State} (h : Goes s t) (hn : s.eng.phase ≠ .enter .zlibHeader) :
    (t.regs.blockCount = s.regs.blockCount ∧ t.eng.block = s.eng.block) ∨
      (s.eng.phase.inBlocks = true ∧ t.regs.blockCount = trunc32 t.eng.block) := by
  have ht := h.to_run
  cases h.move with
  | raised hr => exact absurd hr.noRun ht
  | enter g hp =>
    cases g with
    | zlibHeader => exact absurd hp hn
    | _ => exact .inl ⟨rfl, rfl⟩
  | storedDone hp | endOfBlock n hp hb => exact .inr ⟨by rw [hp]; rfl, rfl⟩
  | rowStart ft v hp | rowByte ft v i hp =>
    left
    rcases rowWritten_goes ht with ⟨-, hr, he⟩ | ⟨-, hr, he⟩ <;> (rw [hr, he]; exact ⟨rfl, rfl⟩)
  | _ => exact .inl ⟨rfl, rfl⟩

/-- What the entry of the zlib header's stage begins with (R330, R440). -/
theorem enterZlib_counters (s : State) :
    (enterStage .zlibHeader s).eng.out = 0 ∧ (enterStage .zlibHeader s).eng.block = 0 ∧
      (enterStage .zlibHeader s).eng.s1 = 1 ∧ (enterStage .zlibHeader s).eng.s2 = 0 := ⟨rfl, rfl, rfl, rfl⟩

theorem Goes.inflCap {s t : State} (h : Goes s t) : t.regs.inflCap = s.regs.inflCap := by
  obtain ⟨-, -, -, -, -, -, -, -, -, -, -, -, hc, -⟩ := Regs.kept_fields h.regs
  exact hc

/-- The two Adler sums stay below the modulus (R440). -/
theorem Goes.adler {s t : State} (h : Goes s t) (hi : t.eng.phase.inInflate = true) : t.eng.s1 < 65521 ∧ t.eng.s2 < 65521 := by
  rcases h.follows.inflate_from hi with hs | hp
  · rcases h.output_step (fun hp => not_countsOutput_entry s.regs.mode (.inl (hp ▸ hs))) with
      ⟨-, -, h1, h2⟩ | ⟨-, -, -, -, h1, h2⟩
    · rw [h1, h2]
      exact h.inv.inflate.adler hs
    · exact ⟨h1, h2⟩
  · rw [h.entered hp]
    obtain ⟨-, -, h1, h2⟩ := enterZlib_counters s
    omega

/-- INFL_LEN is the output count, within INFL_CAP (R44, R431). -/
theorem Goes.output {s t : State} (h : Goes s t) (hc : CountsOutput t.regs.mode t.eng.phase) :
    t.regs.inflLen.toNat = t.eng.out ∧ t.eng.out ≤ t.regs.inflCap.toNat := by
  rw [h.mode] at hc
  rw [h.inflCap]
  rcases h.follows.counts_from h.inv.run.mode hc with hs | hp
  · obtain ⟨h1, h2⟩ := h.inv.inflate.output hs
    rcases h.output_step (fun hp => not_countsOutput_entry _ (hp ▸ hs)) with
      ⟨hl, ho, -, -⟩ | ⟨-, hr, hl, ho, -, -⟩
    · rw [hl, ho]
      exact ⟨h1, h2⟩
    · rw [hl, ho]
      exact ⟨toNat_trunc32_of_le hr, hr⟩
  · have hz := (h.inv.inflate.fresh (.inl (by rw [hp]; rfl))).1
    rw [h.entered hp]
    exact ⟨congrArg BitVec.toNat hz, Nat.zero_le _⟩

/-- BLOCK_COUNT is the block count (R44, R362). -/
theorem Goes.blocks {s t : State} (h : Goes s t) (hi : t.eng.phase.inInflate = true) : t.regs.blockCount = trunc32 t.eng.block := by
  rcases h.follows.inflate_from hi with hs | hp
  · rcases h.block_step (fun hp => not_countsOutput_entry s.regs.mode (.inl (hp ▸ hs))) with ⟨h1, h2⟩ | ⟨-, h1⟩
    · rw [h1, h2]
      exact h.inv.inflate.blocks hs
    · exact h1
  · rw [h.entered hp]
    exact (h.inv.inflate.fresh (.inl (by rw [hp]; rfl))).2

/-- Before the inflater, and in a run without it, INFL_LEN and BLOCK_COUNT are 0 (R202, R209, R210). -/
theorem Goes.fresh {s t : State} (h : Goes s t)
    (hf : t.eng.phase.beforeInflate = true ∨ (t.eng.phase ≠ .idle ∧ 2 ≤ t.regs.mode.toNat)) :
    t.regs.inflLen = 0#32 ∧ t.regs.blockCount = 0#32 := by
  have hs : s.eng.phase.beforeInflate = true ∨ (s.eng.phase ≠ .idle ∧ 2 ≤ s.regs.mode.toNat) :=
    hf.imp h.follows.before_from fun hm => ⟨h.from_run, h.mode ▸ hm.2⟩
  have hb : s.eng.phase.inBlocks = false := by
    by_contra hb
    rw [Bool.not_eq_false] at hb
    have hm := h.inv.run.mode
    rw [Phase.inBlocks_modes hb] at hm
    rcases hs with hs | ⟨-, hs⟩
    · rw [Phase.not_inBlocks_of_before hs] at hb
      cases hb
    · simp only [List.mem_cons, List.not_mem_nil, or_false] at hm
      omega
  obtain ⟨hl, hc⟩ := h.inv.inflate.fresh hs
  by_cases hp : s.eng.phase = .enter .zlibHeader
  · rw [h.entered hp]
    exact ⟨hl, hc⟩
  · rcases h.output_step hp with ⟨h1, -⟩ | ⟨hc, -⟩
    · rcases h.block_step hp with ⟨h2, -⟩ | ⟨hc, -⟩
      · exact ⟨h1.trans hl, h2.trans hc⟩
      · rw [hb] at hc
        cases hc
    · rw [hb] at hc
      cases hc

/-! ## The cursor -/

/-- The stream's length is fixed from the end of the walk on (R273). -/
theorem Goes.streamLen {s t : State} (h : Goes s t) (hc : s.eng.phase ≠ .chunk) (hn : s.eng.phase ≠ .enter .chunks) :
    streamLen t = streamLen s := by
  have hk : t.eng.chunks = s.eng.chunks := by
    have ht := h.to_run
    cases h.move with
    | raised hr => exact absurd hr.noRun ht
    | enter g hp =>
      cases g with
      | chunks => exact absurd hp hn
      | _ => rfl
    | chunk len typ c hp | lastChunk len c hp => exact absurd hp hc
    | rowStart ft v hp | rowByte ft v i hp => rcases rowWritten_goes ht with ⟨-, -, he⟩ | ⟨-, -, he⟩ <;> simp [he]
    | _ => rfl
  unfold Machine.streamLen
  rw [h.full, hk, h.inLen]

/-- In the blocks the cursor only moves on, and never past the stream's end (R335, R48). -/
theorem Goes.cursor_step {s t : State} (h : Goes s t) (hb : s.eng.phase.inBlocks = true)
    (hle : s.eng.bitpos ≤ 8 * Machine.streamLen s) :
    s.eng.bitpos ≤ t.eng.bitpos ∧ t.eng.bitpos ≤ 8 * Machine.streamLen s := by
  have ht := h.to_run
  have hal : ∀ k, k ≤ alignBit k ∧ (k ≤ 8 * Machine.streamLen s → alignBit k ≤ 8 * Machine.streamLen s) := fun k => by
    unfold alignBit
    omega
  cases h.move with
  | raised hr => exact absurd hr.noRun ht
  | enter g hp =>
    rw [hp] at hb
    cases g with
    | trailer => exact ⟨(hal _).1, (hal _).2 hle⟩
    | _ => cases hb
  | storedBlock f len hp hl hs =>
    change s.eng.bitpos ≤ alignBit (s.eng.bitpos + 3) + 32 ∧ alignBit (s.eng.bitpos + 3) + 32 ≤ _
    have := (hal (s.eng.bitpos + 3)).1
    omega
  | fixedBlock f hp hs => exact ⟨Nat.le_add_right _ _, hs⟩
  | dynamicBlock f cl nlit ndist pos hp hc hn hd hs => exact ⟨by change s.eng.bitpos ≤ pos; omega, hs.2⟩
  | storedByte n b hp hs => exact ⟨Nat.le_add_right _ _, hs⟩
  | clMore n ls hp hs | clDone n ls ll dd hp hs | literal n b hp hs | endOfBlock n hp hs | length n l hp hs | distance n l d hp hs =>
    exact ⟨Nat.le_add_right _ _, hs⟩
  | storedDone hp | copyDone d hp | copyByte n d b hp | trailerFull hp hf => exact ⟨Nat.le_refl _, hle⟩
  | rowStart ft v hp | rowByte ft v i hp => simp [hp, Phase.inBlocks] at hb
  | _ => simp_all [Phase.inBlocks]

theorem Goes.cursor {s t : State} (h : Goes s t) (hb : t.eng.phase.inBlocks = true) :
    16 ≤ t.eng.bitpos ∧ t.eng.bitpos ≤ 8 * Machine.streamLen t := by
  rcases h.follows.blocks_from hb with hs | hp
  · rw [h.streamLen (by rintro hp; simp [hp, Phase.inBlocks] at hs) (by rintro hp; simp [hp, Phase.inBlocks] at hs)]
    obtain ⟨h1, h2⟩ := h.inv.inflate.cursor hs
    obtain ⟨h3, h4⟩ := h.cursor_step hs h2
    exact ⟨h1.trans h3, h4⟩
  · have hl := h.inv.inflate.header (by rw [hp]; rfl)
    rw [h.streamLen (by simp [hp]) (by simp [hp]), h.entered hp]
    change 16 ≤ 16 ∧ 16 ≤ _
    omega

/-- The zlib header's two bytes are there once they were read (R330). -/
theorem Goes.header {s t : State} (h : Goes s t) (hz : t.eng.phase.inZlib = true) : 2 ≤ Machine.streamLen t := by
  rcases h.follows.zlib_from hz with hs | hp
  · rw [h.streamLen (by rintro hp; simp [hp, Phase.inZlib] at hs) (by rintro hp; simp [hp, Phase.inZlib] at hs)]
    exact h.inv.inflate.header hs
  · have ht := h.to_run
    cases h.move with
    | raised hr => exact absurd hr.noRun ht
    | zlibCm cmf flg hp' hl => exact hl
    | _ => simp_all

/-! ## Inside a block -/

/-- The two codes of a Huffman block are in order (R49, R347). -/
def CodesOk (s : State) : Prop := CodeOk 288 15 s.eng.litlen ∧ CodeOk 32 15 s.eng.dist

/-- What holds inside a block, by where the engine stands in it (R341, R349, R434, R436, R438, R439). -/
def BlockOk (s : State) : Prop :=
  match s.eng.phase with
  | .stored n => n ≤ 65535
  | .clSym =>
    CodeOk 19 7 s.eng.cl ∧ 257 ≤ s.eng.nlit ∧ s.eng.nlit ≤ 286 ∧ 1 ≤ s.eng.ndist ∧ s.eng.ndist ≤ 30 ∧
      s.eng.lens.length < s.eng.nlit + s.eng.ndist ∧ ∀ l ∈ s.eng.lens, l ≤ 15
  | .litLen => CodesOk s
  | .dist n => (3 ≤ n ∧ n ≤ 258) ∧ CodesOk s
  | .copy n d => (n ≤ 258 ∧ 1 ≤ d ∧ d ≤ 32768 ∧ d ≤ s.eng.out) ∧ CodesOk s
  | _ => True

theorem fixedLitLen_ok : CodeOk 288 15 fixedLitLen := by
  refine ⟨by simp only [fixedLitLen, List.length_append, List.length_replicate], fun l hl => ?_, by decide +kernel⟩
  simp only [fixedLitLen, List.mem_append, List.mem_replicate] at hl
  omega

theorem fixedDist_ok : CodeOk 32 15 fixedDist := by
  unfold CodeOk
  decide

/-- Behind a block's end the engine stands in no block (R362). -/
theorem endBlock_blockOk (s : State) : BlockOk (endBlock s) := by
  cases hf : s.eng.bfinal <;> simp [BlockOk, afterBlock, hf]

theorem Goes.blockOk {s t : State} (h : Goes s t) : BlockOk t := by
  have hs := h.inv.inflate
  have ht := h.to_run
  cases h.move with
  | idle hp => exact absurd hp ht
  | raised hr => exact absurd hr.noRun ht
  | enter g hp =>
    cases g with
    | idle => exact absurd rfl (h.enters hp).1
    | unfilter => cases hf : isFull s <;> simp [BlockOk, enterStage, hf]
    | _ => trivial
  | storedBlock f len hp hl hb => exact Nat.le_of_lt_succ hl
  | fixedBlock f hp hb => exact ⟨fixedLitLen_ok, fixedDist_ok⟩
  | dynamicBlock f cl nlit ndist pos hp hc hn hd hb =>
    refine ⟨hc, hn.1, hn.2, hd.1, hd.2, ?_, by simp⟩
    change 0 < nlit + ndist
    omega
  | storedDone hp => exact endBlock_blockOk s
  | endOfBlock n hp hb => exact endBlock_blockOk _
  | storedByte n b hp hb hr hw =>
    have := hs.stored _ hp
    change n ≤ 65535
    omega
  | clMore n ls hp hb hl hm =>
    obtain ⟨h1, h2, h3, h4, h5, h6, h7⟩ := hs.lengths hp
    refine ⟨h1, h2, h3, h4, h5, by simpa using hm, fun l hm => ?_⟩
    rcases List.mem_append.1 hm with hm | hm
    · exact h7 l hm
    · exact (hl l hm).elim id (h7 l)
  | clDone n ls litlen dist hp hb h15 hl hd =>
    obtain ⟨h1, h2, h3, h4, h5, h6, h7⟩ := hs.lengths hp
    exact ⟨⟨hl.2 (by omega), (h15 h7).1, hl.1⟩, ⟨hd.2 (by omega), (h15 h7).2, hd.1⟩⟩
  | literal n b hp hb hr hw => exact hs.codes (.inl hp)
  | length n l hp hb hl => exact ⟨hl, hs.codes (.inl hp)⟩
  | distance n l d hp hb hd ho => exact ⟨⟨(hs.length l hp).2, hd.1, hd.2, ho⟩, hs.codes (.inr (.inl ⟨l, hp⟩))⟩
  | copyDone d hp => exact hs.codes (.inr (.inr ⟨0, d, hp⟩))
  | copyByte n d b hp hb hr hw =>
    obtain ⟨h1, h2, h3, h4⟩ := hs.copy _ _ hp
    exact ⟨⟨by omega, h2, h3, Nat.le_succ_of_le h4⟩, hs.codes (.inr (.inr ⟨n + 1, d, hp⟩))⟩
  | rowStart ft v hp | rowByte ft v i hp =>
    rcases rowWritten_goes ht with ⟨-, -, he⟩ | ⟨-, -, he⟩ <;> simp [BlockOk, he]
  | _ => trivial

theorem Goes.inflateInv {s t : State} (h : Goes s t) : InflateInv t where
  adler := h.adler
  fresh := h.fresh
  output := h.output
  blocks := h.blocks
  header := h.header
  cursor := h.cursor
  stored n hp := by simpa [BlockOk, hp] using h.blockOk
  length n hp := by
    have hb := h.blockOk
    simp only [BlockOk, hp] at hb
    exact hb.1
  copy n d hp := by
    have hb := h.blockOk
    simp only [BlockOk, hp] at hb
    exact hb.1
  lengths hp := by simpa only [BlockOk, hp] using h.blockOk
  codes hp := by
    have hb := h.blockOk
    rcases hp with hp | ⟨n, hp⟩ | ⟨n, d, hp⟩ <;> simp only [BlockOk, hp] at hb
    · exact hb
    · exact hb.2
    · exact hb.2

theorem NoRun.inflateInv {s : State} (h : NoRun s) : InflateInv s := by
  constructor <;> simp [h.2, Phase.beforeInflate, Phase.inInflate, Phase.inZlib, Phase.inBlocks, Phase.inRows]

theorem Begun.inflateInv {s : State} (h : Begun s) : InflateInv s := by
  obtain ⟨⟨r, hr⟩, hp⟩ := h
  constructor <;> simp [hr, hp, Phase.inInflate, Phase.inZlib, Phase.inBlocks, Phase.inRows]

/-- Settles O17: the counters by what a step adds to them, the cursor by its bounds, the rest by the place in the block. -/
theorem inflateInvStep : Obligations.InflateInvStep := by
  unfold Obligations.InflateInvStep
  intro s t hs h
  exact step_keeps (fun _ => NoRun.inflateInv) (fun _ => Begun.inflateInv) (fun _ _ => InflateInv.same) (fun _ _ => Goes.inflateInv)
    hs hs.inflate h

/-- Settles O21: after reset there is no run. -/
theorem resetInv : Obligations.ResetInv := by
  unfold Obligations.ResetInv
  have h : NoRun State.reset := ⟨rfl, rfl⟩
  exact
    { status := by constructor <;> decide
      errCode := .inl rfl
      run := h.runInv
      inflate := h.inflateInv
      row := h.rowInv
      walk := h.walkInv
      mem := reset_mem_wf }

end Sys2Proof.Machine
end

section
/-! Where the engine stores: a step of a run writes at most one byte, in a region its mode writes (R102, R115), and memory keeps its
canonical form (R100). -/

namespace Sys2Proof.Machine

/-! ## The byte an engine step stores -/

/-- The two places the engine stores to: the next byte of INFL where it still has room (R431), the current byte of the current row
(R503). -/
inductive StorePlace (s : State) : Nat → Prop
  | infl (hp : s.eng.phase.inBlocks = true) (hr : s.eng.out < s.regs.inflCap.toNat) :
      StorePlace s (s.regs.inflBase.toNat + s.eng.out)
  | recon (hp : s.eng.phase.inRows = true) : StorePlace s (s.regs.reconBase.toNat + s.eng.row * rb s + rowIndex s)

/-- An engine step raises an error, keeps memory, or stores one byte. -/
theorem EngineMove.memory {s t : State} (h : EngineMove s t) :
    Raised s t ∨ t.mem = s.mem ∨ ∃ x b, StorePlace s x ∧ Writable s x ∧ t.mem = s.mem.write x b := by
  cases h with
  | raised h => exact .inl h
  | enter g hp => exact .inr (.inl (enterStage_mem g s))
  | storedByte n b hp hb hr hw | literal n b hp hb hr hw | copyByte n d b hp hb hr hw =>
    exact .inr (.inr ⟨_, b, .infl (by rw [hp]; rfl) hr, hw, emitted_mem b _⟩)
  | rowStart ft v hp ha hf hw =>
    have hi : rowIndex s = 0 := by simp [rowIndex, hp]
    refine .inr (.inr ⟨_, v, .recon (by rw [hp]; rfl), ?_, ?_⟩) <;> rw [hi]
    · exact hw
    · exact rowWritten_mem ft v (atRowStart ft s)
  | rowByte ft v i hp hf hw =>
    have hi : rowIndex s = i := by simp [rowIndex, hp]
    exact .inr (.inr ⟨_, v, .recon (by rw [hp]; rfl), hi ▸ hw, rowWritten_mem ft v s⟩)
  | _ => exact .inr (.inl rfl)

/-! ## The canonical form -/

/-- An engine access that goes through stays below 2^32 (R100). -/
theorem Writable.lt {s : State} {a : Nat} (h : Writable s a) : a < 2 ^ 32 := (busCheck_ok.1 h).1

theorem EngineMove.mem_wf {s t : State} (h : EngineMove s t) (hs : s.mem.wf) : t.mem.wf := by
  rcases h.memory with hr | hm | ⟨x, b, -, hw, hm⟩
  · obtain ⟨-, -, -, -, -, -, -, -, -, keeps, -⟩ := hr.shape
    exact keeps hs
  · exact hm ▸ hs
  · exact hm ▸ Memory.wf_write b hs hw.lt

theorem HostMove.mem_wf {s t : State} {op : HostOp} (h : HostMove s op t) (hs : s.mem.wf) : t.mem.wf := by
  cases h with
  | ctrl v =>
    unfold ctrlWrite
    split
    · exact hs
    · dsimp only
      split <;> exact hs
  | reg off v h4 h8 => split <;> exact hs
  | memWrite addr b t hu hr he hm ho => exact hm ▸ Memory.wf_write b hs addr.isLt
  | quiet op t hr he hm ho h => exact hm ▸ hs
  | reset t hr he hm ho =>
    rw [hm]
    split
    · exact havocOutputs_wf hs fun _ => outputs_base_lt
    · exact hs
  | _ => exact hs

/-- Settles O20: each move writes single bytes below 2^32 or frees regions that begin there. -/
theorem memoryWfStep : Obligations.MemoryWfStep := by
  unfold Obligations.MemoryWfStep
  intro s t hs h
  rcases step_next h with ⟨rest, -, ⟨-, rfl⟩ | ⟨-, n, hm⟩⟩ | ⟨op, rest, -, -, hm⟩
  · exact hs
  · exact hm.mem_wf hs
  · exact hm.mem_wf hs

/-! ## The regions a mode writes (R101) -/

theorem inflRegion_mem_outputs {r : Regs} (h : r.mode.toNat ∈ [0, 1]) : r.inflRegion ∈ r.outputs := by
  simp only [List.mem_cons, List.not_mem_nil, or_false] at h
  rcases h with h | h <;> simp [Regs.outputs, h]

theorem reconRegion_mem_outputs {r : Regs} (h : r.mode.toNat ∈ [0, 2]) : r.reconRegion ∈ r.outputs := by
  simp only [List.mem_cons, List.not_mem_nil, or_false] at h
  rcases h with h | h <;> simp [Regs.outputs, h]

/-- The phases of the rows belong to the modes that unfilter (R207, R209). -/
theorem Phase.inRows_modes {p : Phase} (h : p.inRows = true) : p.modes = [0, 2] := by
  cases p <;> simp_all [Phase.inRows, Phase.modes]

/-- A permitted geometry has at least one byte per row (R493). -/
theorem GeomOk.rb_pos {s : State} (h : GeomOk s) : 0 < rb s := by
  obtain ⟨hw, -, hp⟩ := h
  have bits : ∀ p ∈ permittedPairs, 0 < channels p.1 * p.2 := by decide
  have := Nat.mul_pos (Nat.pos_of_ne_zero hw) (bits _ hp)
  dsimp only at this
  unfold rb rowBytesOf
  omega

/-- In the rows the byte being reconstructed lies in its row (R495). -/
theorem Inv.rowIndex_lt {s : State} (hs : Inv s) (hr : s.eng.phase.inRows = true) : rowIndex s < rb s := by
  cases hp : s.eng.phase with
  | row => simpa [rowIndex, hp] using (hs.row.geom (.inr (.inl hr))).rb_pos
  | rowByte ft i => simpa [rowIndex, hp] using (hs.row.byte ft i hp).2.1
  | _ => simp [hp, Phase.inRows] at hr

/-- The place of a row's byte lies inside the image (R494, R503). -/
theorem Inv.row_lt {s : State} (hs : Inv s) (hr : s.eng.phase.inRows = true) :
    s.eng.row * rb s + rowIndex s < s.regs.reconCap.toNat := by
  obtain ⟨hrow, hcap, -⟩ := hs.row.room hr
  have hi := hs.rowIndex_lt hr
  have hle : (s.eng.row + 1) * rb s ≤ geomHeight s * rb s := Nat.mul_le_mul_right _ hrow
  rw [Nat.add_mul, Nat.one_mul] at hle
  omega

/-- The engine stores inside the regions its mode writes (R102). -/
theorem StorePlace.mem_outputs {s : State} {x : Nat} (h : StorePlace s x) (hs : Inv s) :
    ∃ r ∈ s.regs.outputs, r.contains x = true := by
  have hm := hs.run.mode
  cases h with
  | infl hp hr =>
    rw [Phase.inBlocks_modes hp] at hm
    refine ⟨_, inflRegion_mem_outputs hm, (Region.contains_iff _ _).2 ?_⟩
    simp only [Regs.inflRegion_base, Regs.inflRegion_len]
    omega
  | recon hp =>
    have := hs.row_lt hp
    rw [Phase.inRows_modes hp] at hm
    refine ⟨_, reconRegion_mem_outputs hm, (Region.contains_iff _ _).2 ?_⟩
    simp only [Regs.reconRegion_base, Regs.reconRegion_len]
    omega

/-! ## Writes of the engine -/

/-- R102, R115: an engine step changes no byte outside the regions its mode writes. -/
theorem EngineMove.byteAt_outside {s t : State} (h : EngineMove s t) (hs : Inv s) {a : Nat} (ha : Outside s.regs.outputs a) :
    t.byteAt a = s.byteAt a := by
  rcases h.memory with hr | hm | ⟨x, b, hx, -, hm⟩
  · obtain ⟨-, -, -, -, -, -, -, -, -, -, outside⟩ := hr.shape
    exact outside a ha
  · exact State.byteAt_congr hm a
  · obtain ⟨r, hr, hc⟩ := hx.mem_outputs hs
    have hne : a ≠ x := by
      rintro rfl
      rw [ha r hr] at hc
      cases hc
    rw [State.byteAt_write hm, if_neg hne]

/-- When the engine moves next, a step is its turn: nothing while idle, a move of the run while busy. -/
theorem step_engine_next {s t : State} (he : s.host = [] ∨ ∃ rest, s.host = .engine :: rest) (h : step s = .next t) :
    ∃ rest, (s.regs.busy = false ∧ t = { s with host := rest }) ∨
      (s.regs.busy = true ∧ ∃ n, EngineMove { s with host := rest, draws := n } t) := by
  rcases step_next h with ⟨rest, -, hm⟩ | ⟨op, rest, hh, ho, -⟩
  · exact ⟨rest, hm⟩
  · rcases he with he | ⟨rest', he⟩ <;> rw [he] at hh <;> cases hh
    exact absurd rfl ho

/-- Settles O22: the store of a step lies in an output region, and behind the configuration check no such region meets IN. -/
theorem writesConfined : Obligations.WritesConfined := by
  unfold Obligations.WritesConfined
  intro s t hs he h
  obtain ⟨rest, ⟨hb, rfl⟩ | ⟨hb, n, hm⟩⟩ := step_engine_next he h
  · exact ⟨fun _ _ => rfl, fun _ _ _ => rfl⟩
  · have outside : ∀ a, Outside s.regs.outputs a → t.byteAt a = s.byteAt a := fun a =>
      hm.byteAt_outside (Inv.congr (s := s) rfl rfl rfl hs)
    refine ⟨outside, fun hp a ha => outside a fun r hr => outputs_disjoint ?_ hr ha⟩
    exact hs.run.config (hs.status.busyPhase.1 hb) hp

end Sys2Proof.Machine
end

section
/-! What each row of the table stores (R431, R503): one byte at most, and that at the row's own address. -/

namespace Sys2Proof.Machine

/-- Memory after at most one store: with no address it is the same, else one byte was written there. -/
def Stores (x : Option Nat) (s t : State) : Prop :=
  match x with
  | none => t.mem = s.mem
  | some x => ∃ b, t.mem = s.mem.write x b

theorem Stores.byteAt {x : Option Nat} {s t : State} {a : Nat} (h : Stores x s t) (ha : x ≠ some a) : t.byteAt a = s.byteAt a := by
  cases x with
  | none => exact State.byteAt_congr h a
  | some x =>
    obtain ⟨b, hm⟩ := h
    rw [State.byteAt_write hm, if_neg fun hx => ha (congrArg some hx.symm)]

/-! ## The shared meanings -/

theorem ctrlWrite_mem (st ab : Bool) (m : BitVec 3) (q f : Bool) (s : State) : (ctrlWrite st ab m q f s).mem = s.mem := by
  unfold ctrlWrite
  split
  · rfl
  · dsimp only
    split <;> rfl

theorem readChunk_accept_stores {len typ : Word} {s t : State} (h : readChunk len typ (acceptChunk len typ) s = .next t) :
    Raised s t ∨ Stores none s t := by
  rcases accept_next h with h | ⟨-, c, rfl⟩
  · exact .inl h
  · exact .inr rfl

theorem execChunkIhdr_stores {len : Word} {s t : State} (h : execChunkIhdr len s = .next t) : Raised s t ∨ Stores none s t := by
  unfold execChunkIhdr at h
  split at h
  · rcases checkHeader_next h with h | ⟨w, ht, bd, ct, -, -, -, -, -, -, -, rfl⟩
    · exact .inl h
    · exact .inr rfl
  · exact readChunk_accept_stores h

theorem execChunkPlte_stores {len : Word} {s t : State} (h : execChunkPlte len s = .next t) : Raised s t ∨ Stores none s t := by
  unfold execChunkPlte at h
  split at h
  · rcases checkPalette_next h with h | rfl
    · exact .inl h
    · exact .inr rfl
  · exact readChunk_accept_stores h

theorem literal_stores {b : Byte} {s t : State} (h : literal b s = .next t) :
    Raised s t ∨ Stores (some (s.regs.inflBase.toNat + s.eng.out)) s t := by
  rcases literal_next h (Touched.refl s) with h | ⟨-, -, rfl⟩
  · exact .inl h
  · exact .inr ⟨b, emitted_mem b s⟩

theorem startMatch_stores {n : Nat} {s t : State} (h : startMatch n s = .next t) : Raised s t ∨ Stores none s t := by
  cases h
  exact .inr rfl

theorem startCopy_stores {d : Nat} {s t : State} (h : startCopy d s = .next t) : Raised s t ∨ Stores none s t := by
  rcases startCopy_next h (Touched.refl s) with h | ⟨-, rfl⟩
  · exact .inl h
  · exact .inr rfl

theorem appendLens_stores {ls : List Nat} {s t : State} (h : appendLens ls s = .next t) : Raised s t ∨ Stores none s t := by
  rcases appendLens_next h (Touched.refl s) with h | ⟨-, rfl⟩ | ⟨ll, dd, -, -, -, -, -, -, rfl⟩
  · exact .inl h
  · exact .inr rfl
  · exact .inr rfl

theorem repeatLens_stores {r v : Nat} {s t : State} (h : repeatLens r v s = .next t) : Raised s t ∨ Stores none s t := by
  rcases repeatLens_next h (Touched.refl s) with h | ⟨-, h⟩
  · exact .inl h
  · exact appendLens_stores h

theorem filter_stores {ft : Byte} {s t : State} (h : exec (instrOfFilter ft) s = .next t) :
    Raised s t ∨ Stores (some (s.regs.reconBase.toNat + s.eng.row * rb s + rowIndex s)) s t := by
  rcases exec_filter h (Touched.refl s) with h | ⟨v, -, -, rfl⟩
  · exact .inl h
  · exact .inr ⟨v, rowWritten_mem ft v s⟩

/-- A check that moves the engine on where it does not raise. -/
theorem checked_stores {c : Prop} [Decidable c] {kind : ErrorKind} {sub pos aux : Nat} {e : Engine} {s t : State}
    (h : (if c then raiseAt kind sub pos aux s else .next { s with eng := e }) = .next t)
    (hl : trunc32 (kind.code + classOfCode kind.code * 256 + sub * 65536) ∈ legalErrCodes) : Raised s t ∨ Stores none s t := by
  split at h
  · exact .inl (raiseAt_raised h (Touched.refl s) hl)
  · cases h
    exact .inr rfl

/-! ## The rows -/

/-- What a row does to memory: an error entry, or its own store and nothing else. -/
theorem exec_stores {i : Instr} {s t : State} (h : exec i s = .next t) : Raised s t ∨ Stores (storeAddr i s) s t := by
  cases i with
  | wrCtrl | startFull | startInflate | startUnfilter | startCrc32 | startReserved | abort =>
    cases h
    exact .inr (ctrlWrite_mem _ _ _ _ _ s)
  | wrReg off v =>
    cases h
    refine .inr ?_
    split <;> rfl
  | wrStatus | rdReg | blockFixed | eob =>
    cases h
    exact .inr rfl
  | sig =>
    rcases execSig_next h with h | ⟨-, rfl⟩
    · exact .inl h
    · exact .inr rfl
  | chunkIhdr len => exact execChunkIhdr_stores h
  | chunkPlte len => exact execChunkPlte_stores h
  | chunkIdat | chunkAncillary => exact readChunk_accept_stores h
  | chunkIend len =>
    rcases execChunkIend_next h with h | ⟨-, c, rfl⟩
    · exact .inl h
    · exact .inr rfl
  | chunkUnknownCritical len typ => exact .inl (execChunkUnknownCritical_next h)
  | zlibCm | zlibFdict | zlibFcheck => exact checked_stores h (by decide)
  | blockStored f =>
    rcases blockStored_next h (Touched.refl s) with h | ⟨len, -, -, rfl⟩
    · exact .inl h
    · exact .inr rfl
  | blockDynamic f =>
    rcases blockDynamic_next h (Touched.refl s) with h | ⟨cl, nlit, ndist, pos, -, -, -, -, -, -, -, rfl⟩
    · exact .inl h
    · exact .inr rfl
  | blockReserved f => exact .inl (blockReserved_raised h (Touched.refl s))
  | litFixed8 lit | litFixed9 lit | litDyn lit => exact literal_stores h
  | litlenInvalid low | distInvalid low => exact .inl (raiseCode_raised h (Touched.refl s) (by decide))
  | dist0 | dist1 | dist2 | dist3 | dist4 | dist5 | dist6 | dist7 | dist8 | dist9 | dist10 | dist11 | dist12 | dist13 | dist14
  | dist15 | dist16 | dist17 | dist18 | dist19 | dist20 | dist21 | dist22 | dist23 | dist24 | dist25 | dist26 | dist27 | dist28
  | dist29 => exact startCopy_stores h
  | clLen sym => exact appendLens_stores h
  | cl16 e =>
    simp only [exec, execCl16] at h
    split at h
    · exact .inl (raiseCode_raised h (Touched.refl s) (by decide))
    · exact repeatLens_stores h
  | cl17 e | cl18 e => exact repeatLens_stores h
  | filtNone => exact filter_stores (ft := 0#8) h
  | filtSub => exact filter_stores (ft := 1#8) h
  | filtUp => exact filter_stores (ft := 2#8) h
  | filtAvg => exact filter_stores (ft := 3#8) h
  | filtPaeth => exact filter_stores (ft := 4#8) h
  | filtInvalid ft => exact .inl (raiseAt_raised h (Touched.refl s) (by decide))
  | _ => exact startMatch_stores h

/-- Settles O27: a row stores one byte at its own address, or its error frees the output regions alone. -/
theorem frameMemory : Obligations.FrameMemory := by
  unfold Obligations.FrameMemory
  intro i s t a h hx herr
  rcases exec_stores h with hr | hs
  · obtain ⟨e, r, -, -, hregs, -, -, -, -, -, outside⟩ := hr.shape
    refine outside a (herr.resolve_left ?_)
    simp [hregs]
  · exact hs.byteAt hx

end Sys2Proof.Machine
end

section
/-! Two runs whose memories differ: answers that agree in all but memory, and the meanings that read no memory at all. -/

namespace Sys2Proof.Machine

/-- `s` with other contents of memory. -/
def State.withMem (s : State) (m : Memory) : State := { s with mem := m }

@[simp] theorem State.withMem_regs (s : State) (m : Memory) : (s.withMem m).regs = s.regs := rfl
@[simp] theorem State.withMem_eng (s : State) (m : Memory) : (s.withMem m).eng = s.eng := rfl
@[simp] theorem State.withMem_plat (s : State) (m : Memory) : (s.withMem m).plat = s.plat := rfl

/-- The same answer but for the contents of memory. -/
inductive SameAnswer : Result → Result → Prop
  | next (t : State) (m : Memory) : SameAnswer (.next t) (.next (t.withMem m))
  | fault (f : Fault) : SameAnswer (.fault f) (.fault f)
  | refused (r : Refusal) : SameAnswer (.refused r) (.refused r)

/-- The meaning reads no memory: with any other contents its answer is the same but for memory. -/
def MemBlind (k : State → Result) : Prop := ∀ s m, SameAnswer (k s) (k (s.withMem m))

theorem SameAnswer.ite {c : Prop} [Decidable c] {r r' q q' : Result} (hr : c → SameAnswer r r') (hq : ¬c → SameAnswer q q') :
    SameAnswer (if c then r else q) (if c then r' else q') := by
  by_cases h : c
  · simpa only [if_pos h] using hr h
  · simpa only [if_neg h] using hq h

/-- What is fetched leads to the same answer but for memory. -/
def SameFetched (f g : Fetched) : Prop := SameAnswer f.result g.result

theorem SameFetched.ite {c : Prop} [Decidable c] {f f' g g' : Fetched} (hf : c → SameFetched f f') (hg : ¬c → SameFetched g g') :
    SameFetched (if c then f else g) (if c then f' else g') := by
  by_cases h : c
  · simpa only [if_pos h] using hf h
  · simpa only [if_neg h] using hg h

/-! ## Errors -/

theorem havocOutputs_withMem (s : State) (m : Memory) : ∃ n, havocOutputs (s.withMem m) = (havocOutputs s).withMem n := by
  unfold havocOutputs
  rw [State.withMem_regs]
  generalize s.regs.outputs = rs
  induction rs generalizing s m with
  | nil => exact ⟨m, rfl⟩
  | cons r rs ih => exact ih (havocRegion s r) (havocRegion (s.withMem m) r).mem

theorem raise_memBlind (e : RunError) : MemBlind fun s => .next (raise e s) := fun s m => by
  obtain ⟨n, hn⟩ := havocOutputs_withMem s m
  simp only [raise, hn]
  exact .next _ n

theorem raiseAt_memBlind (kind : ErrorKind) (sub pos aux : Nat) : MemBlind (raiseAt kind sub pos aux) :=
  raise_memBlind ⟨kind, sub, pos, aux⟩

theorem raiseCode_memBlind (sub pos : Nat) : MemBlind (raiseCode sub pos) := fun s m =>
  raiseAt_memBlind .invalidHuffmanCode sub pos s.eng.block s m

theorem stopAt_memBlind (e : Stop) : MemBlind (stopAt e) := fun s m => by
  cases e with
  | raise e => exact raise_memBlind e s m
  | fault f => exact .fault f
  | refuse r => exact .refused r

/-! ## Going on with a value -/

theorem withVal_same {α : Type} {r r' : Except Stop α} {k k' : α → Result} (s : State) (m : Memory) (hr : r' = r)
    (hk : ∀ a, SameAnswer (k a) (k' a)) : SameAnswer (withVal r s k) (withVal r' (s.withMem m) k') := by
  subst hr
  cases r' with
  | error e => exact stopAt_memBlind e s m
  | ok a => exact hk a

theorem fetchVal_same {α : Type} {r r' : Except Stop α} {k k' : α → Fetched} (s : State) (m : Memory) (hr : r' = r)
    (hk : ∀ a, r = .ok a → SameFetched (k a) (k' a)) : SameFetched (fetchVal r s k) (fetchVal r' (s.withMem m) k') := by
  subst hr
  cases r' with
  | error e => exact stopAt_memBlind e s m
  | ok a => exact hk a rfl

/-! ## Stores -/

theorem putByte_withMem (s : State) (m : Memory) (a : Nat) (b : Byte) :
    putByte (s.withMem m) a b = (putByte s a b).withMem (m.write a b) := by
  unfold putByte
  rw [State.withMem_plat]
  split <;> rfl

/-- A store, then `k`: whether the platform completes it does not depend on memory. -/
theorem withVal_busWrite_same {a : Nat} {b : Byte} {k k' : State → Result} (s : State) (m : Memory)
    (hk : ∀ u n, SameAnswer (k u) (k' (u.withMem n))) :
    SameAnswer (withVal (busWrite s a b) s k) (withVal (busWrite (s.withMem m) a b) (s.withMem m) k') := by
  have hc : busCheck (s.withMem m) .write a = busCheck s .write a := busCheck_congr rfl .write a
  unfold busWrite
  rw [hc]
  cases busCheck s .write a with
  | error e => exact stopAt_memBlind e s m
  | ok u =>
    simp only [putByte_withMem]
    exact hk (putByte s a b) (m.write a b)

theorem emit_memBlind (b : Byte) {k : State → Result} (hk : MemBlind k) : MemBlind fun s => emit b s k := fun s m =>
  .ite (fun _ => raiseAt_memBlind .outputOverflow 1 s.eng.out s.eng.block s m) fun _ =>
    withVal_busWrite_same s m fun _ n => hk _ n

theorem literal_memBlind (b : Byte) : MemBlind (literal b) := emit_memBlind b fun _ m => .next _ m

/-- The end of a row looks at the window and the engine alone (R495, R503). -/
theorem endRow_memBlind : MemBlind fun s => .next (endRow s) := fun s m => by
  have h : (endRow s).withMem m = endRow (s.withMem m) := apply_ite (State.withMem · m) _ _ _
  dsimp only
  rw [← h]
  exact .next _ m

theorem writeRowByte_memBlind (ft v : Byte) : MemBlind (writeRowByte ft v) := fun s m =>
  withVal_busWrite_same s m fun u n => .ite (fun _ => .next _ n) fun _ => endRow_memBlind u n

/-! ## Symbols and code lengths -/

theorem startMatch_memBlind (n : Nat) : MemBlind (startMatch n) := fun _ m => .next _ m

theorem startCopy_memBlind (d : Nat) : MemBlind (startCopy d) := fun s m =>
  .ite (fun _ => raiseAt_memBlind .invalidBackReference 0 s.eng.sp s.eng.block s m) fun _ => .next _ m

theorem splitAndCheck_memBlind : MemBlind splitAndCheck := fun s m =>
  .ite (fun _ => raiseCode_memBlind 7 s.eng.hpos _ m) fun _ =>
    .ite (fun _ => raiseCode_memBlind 13 s.eng.hpos _ m) fun _ =>
      .ite (fun _ => raiseCode_memBlind 8 s.eng.hpos _ m) fun _ => .next _ m

theorem appendLens_memBlind (ls : List Nat) : MemBlind (appendLens ls) := fun _ m =>
  .ite (fun _ => .next _ m) fun _ => splitAndCheck_memBlind _ m

theorem repeatLens_memBlind (r v : Nat) : MemBlind (repeatLens r v) := fun s m =>
  .ite (fun _ => raiseCode_memBlind 12 s.eng.sp s m) fun _ => appendLens_memBlind _ s m

/-! ## The rows of coded symbols -/

/-- A literal/length row reads no memory (R432 to R435). -/
theorem exec_litLen_memBlind (dyn : Bool) (sym x : Nat) : MemBlind (exec (instrOfLitLen dyn sym x)) := fun s m => by
  unfold instrOfLitLen
  split
  · split
    · exact literal_memBlind _ s m
    · split <;> exact literal_memBlind _ s m
  split
  · exact .next _ m
  unfold instrOfLength
  split
  case h_30 | h_31 => exact raiseCode_memBlind 4 s.eng.sp s m
  all_goals exact startMatch_memBlind _ s m

/-- A distance row reads no memory (R436 to R438). -/
theorem exec_dist_memBlind (sym x : Nat) : MemBlind (exec (instrOfDist sym x)) := fun s m => by
  unfold instrOfDist
  split
  case h_31 | h_32 => exact raiseCode_memBlind 5 s.eng.sp s m
  all_goals exact startCopy_memBlind _ s m

/-- A code-length row reads no memory (R350 to R358). -/
theorem exec_cl_memBlind (sym x : Nat) : MemBlind (exec (instrOfCl sym x)) := fun s m => by
  unfold instrOfCl
  split
  · dsimp only [exec, execCl16, State.withMem_eng]
    split
    · exact raiseCode_memBlind 11 s.eng.sp s m
    · exact repeatLens_memBlind _ _ s m
  · exact repeatLens_memBlind _ _ s m
  · exact repeatLens_memBlind _ _ s m
  · exact appendLens_memBlind _ s m

end Sys2Proof.Machine
end

section
/-! What the engine reads lies in the bytes R102 lets it read: IN, the run's own output, the rows before the current byte. -/

namespace Sys2Proof.Machine

/-! ## Reads from two memories -/

/-- The memory `m` agrees with that of `s` on every byte the engine may read (R102). -/
def AgreesOnReads (s : State) (m : Memory) : Prop := ∀ a, MayRead s a → (s.withMem m).byteAt a = s.byteAt a

/-- Every byte of IN reads the same from `m`. -/
def SameIn (s : State) (m : Memory) : Prop := ∀ i < s.regs.inLen.toNat, inByte (s.withMem m) i = inByte s i

theorem busRead_withMem {s : State} {m : Memory} {a : Nat} (h : (s.withMem m).byteAt a = s.byteAt a) :
    busRead (s.withMem m) a = busRead s a := by
  have hc : busCheck (s.withMem m) .read a = busCheck s .read a := busCheck_congr rfl .read a
  have hb : engineByte (s.withMem m) a = engineByte s a := by
    unfold engineByte
    rw [h]
    rfl
  rw [busRead, busRead, hc, hb]

theorem AgreesOnReads.sameIn {s : State} {m : Memory} (h : AgreesOnReads s m) : SameIn s m := fun i hi =>
  busRead_withMem (h _ (.inl ((Region.contains_iff _ _).2 ⟨Nat.le_add_right _ i, Nat.add_lt_add_left hi _⟩)))

theorem be32From_congr {rd rd' : Nat → Except Stop Byte} {i : Nat} (h : ∀ k < 4, rd' (i + k) = rd (i + k)) :
    be32From rd' i = be32From rd i := by
  have h0 := h 0 (by omega)
  rw [Nat.add_zero] at h0
  rw [be32From, be32From, h0, h 1 (by omega), h 2 (by omega), h 3 (by omega)]

theorem SameIn.be32 {s : State} {m : Memory} (h : SameIn s m) {i : Nat} (hi : i + 4 ≤ s.regs.inLen.toNat) :
    inBe32 (s.withMem m) i = inBe32 s i :=
  be32From_congr fun k hk => h (i + k) (by omega)

theorem SameIn.crcOver {s : State} {m : Memory} (h : SameIn s m) {n i : Nat} (hi : i + n ≤ s.regs.inLen.toNat) (c : Word) :
    crcOver (s.withMem m) n i c = crcOver s n i c := by
  induction n generalizing i c with
  | zero => rfl
  | succ n ih =>
    rw [Machine.crcOver, Machine.crcOver, h i (by omega)]
    cases inByte s i with
    | error e => rfl
    | ok b => exact ih (by omega) _

theorem SameIn.checkSignature {s : State} {m : Memory} (h : SameIn s m) (bs : List Byte) (i : Nat) :
    checkSignature (s.withMem m) bs i = checkSignature s bs i := by
  induction bs generalizing i with
  | nil => rfl
  | cons b bs ih =>
    unfold Machine.checkSignature
    rw [State.withMem_regs]
    by_cases hl : s.regs.inLen.toNat ≤ i
    · rw [if_pos hl, if_pos hl]
    · rw [if_neg hl, if_neg hl, h i (by omega), ih]

/-! ## The compressed stream -/

/-- A byte of the concatenated IDAT bodies lies in one of them (R273). -/
theorem idatOffset_inside {cs : List ChunkRec} {j : Nat} (h : j < idatTotal cs) :
    ∃ c ∈ cs, ∃ i < c.len, idatOffset cs j = c.off + 8 + i := by
  induction cs generalizing j with
  | nil => simp [idatTotal] at h
  | cons c cs ih =>
    unfold idatOffset
    by_cases hc : c.isIdat = true
    · rw [if_pos hc]
      by_cases hj : j < c.len
      · rw [if_pos hj]
        exact ⟨c, List.mem_cons_self, j, hj, rfl⟩
      · rw [if_neg hj]
        obtain ⟨d, hd, hi⟩ := ih (j := j - c.len) (by simp [idatTotal, hc] at h ⊢; omega)
        exact ⟨d, List.mem_cons_of_mem _ hd, hi⟩
    · rw [if_neg hc]
      obtain ⟨d, hd, hi⟩ := ih (j := j) (by simpa [idatTotal, hc] using h)
      exact ⟨d, List.mem_cons_of_mem _ hd, hi⟩

/-- Inside the inflater the records are those of this run's walk (R207). -/
theorem Phase.walked_of_inInflate {p : Phase} (h : p.inInflate = true) : p ∉ beforeWalk := by
  cases p with
  | enter g => cases g <;> simp_all [Phase.inInflate, Phase.inZlib, Phase.inBlocks, beforeWalk]
  | _ => simp_all [Phase.inInflate, Phase.inZlib, Phase.inBlocks, beforeWalk]

/-- Every byte of S is a byte of IN (R273, R208). -/
theorem Inv.stream_inside {s : State} (hs : Inv s) (hp : s.eng.phase.inInflate = true) {j : Nat} (hj : j < streamLen s) :
    (if isFull s then idatOffset s.eng.chunks j else j) < s.regs.inLen.toNat := by
  unfold streamLen at hj
  cases hf : isFull s with
  | false => simpa [hf] using hj
  | true =>
    simp only [hf, if_true] at hj ⊢
    obtain ⟨c, hc, i, hi, he⟩ := idatOffset_inside hj
    have := hs.walk.chunks ((isFull_iff s).1 hf) (Phase.walked_of_inInflate hp) c hc
    omega

theorem streamByte_same {s : State} {m : Memory} (hs : Inv s) (hm : SameIn s m) (hp : s.eng.phase.inInflate = true) {j : Nat}
    (hj : j < streamLen s) : streamByte (s.withMem m) j = streamByte s j :=
  hm _ (hs.stream_inside hp hj)

/-- Every bit of the stream reads the same from both memories. -/
def SameStream (s : State) (m : Memory) : Prop := streamBit (s.withMem m) = streamBit s

theorem sameStream {s : State} {m : Memory} (hs : Inv s) (hm : SameIn s m) (hp : s.eng.phase.inInflate = true) : SameStream s m := by
  funext k
  unfold streamBit
  by_cases hk : 8 * streamLen s ≤ k
  · rw [if_pos (by exact hk), if_pos hk]
    rfl
  · rw [if_neg (by exact hk), if_neg hk, streamByte_same hs hm hp (by omega)]

/-! ## The run's own output -/

/-- A copy reads a byte the run has written (R438, R439). -/
theorem Inv.copy_mayRead {s : State} (hs : Inv s) {n d : Nat} (hp : s.eng.phase = .copy n d) :
    MayRead s (s.regs.inflBase.toNat + s.eng.out - d) := by
  have hm := hs.run.mode
  obtain ⟨ho, -⟩ := hs.inflate.output (.inl (by rw [hp]; rfl))
  obtain ⟨-, h1, -, hd⟩ := hs.inflate.copy n d hp
  simp only [hp, Phase.modes, List.mem_cons, List.not_mem_nil, or_false] at hm
  exact .inr (.inl ⟨by omega, by omega, by omega⟩)

/-- The filtered data are IN, or in FULL mode the bytes this run inflated (R207, R209). -/
theorem filteredByte_same {s : State} {m : Memory} (hm : AgreesOnReads s m) {j : Nat} (hj : j < filteredLen s) :
    filteredByte (s.withMem m) j = filteredByte s j := by
  have hf' : isFull (s.withMem m) = isFull s := rfl
  unfold filteredLen at hj
  unfold filteredByte
  rw [hf']
  cases hf : isFull s with
  | true =>
    have hmode : s.regs.mode.toNat ≤ 1 := by simp [(isFull_iff s).1 hf]
    rw [hf] at hj
    exact busRead_withMem (hm _ (.inr (.inl ⟨hmode, Nat.le_add_right _ _, Nat.add_lt_add_left hj _⟩)))
  | false =>
    rw [hf] at hj
    exact hm.sameIn j hj

/-- A row's neighbours are reconstructed bytes before the current one (R497). -/
theorem reconByte_same {s : State} {m : Memory} (hm : AgreesOnReads s m) (hr : s.eng.phase.inRows = true) {k : Nat}
    (hk : k < s.eng.row * rb s + rowIndex s) : reconByte (s.withMem m) k = reconByte s k :=
  busRead_withMem (hm _ (.inr (.inr ⟨hr, Nat.le_add_right _ _, by rw [Nat.add_assoc]; exact Nat.add_lt_add_left hk _⟩)))

end Sys2Proof.Machine
end

section
/-! The engine's step from two memories that agree on the bytes it may read (R102): the same answer but for memory, phase by phase. -/

namespace Sys2Proof.Machine

/-! ## Signature, chunks, header and palette -/

theorem execSig_same {s : State} {m : Memory} (hm : SameIn s m) : SameAnswer (execSig s) (execSig (s.withMem m)) :=
  withVal_same (s.atStage .signature) m (SameIn.checkSignature (s := s.atStage .signature) hm sigBytes 0) fun _ => .next _ m

theorem readChunk_same {len typ : Word} {k : State → Result} {s : State} {m : Memory} (hk : MemBlind k) (hm : SameIn s m)
    (hp : s.eng.p ≤ s.regs.inLen.toNat) : SameAnswer (readChunk len typ k s) (readChunk len typ k (s.withMem m)) := by
  refine .ite (fun _ => raiseAt_memBlind .truncatedStream 2 s.eng.p typ.toNat s m) fun hl => ?_
  have hl : s.eng.p + (12 + len.toNat) ≤ s.regs.inLen.toNat := by omega
  refine withVal_same s m (hm.crcOver (i := s.eng.p + 4) (by omega) crcInit) fun c => ?_
  refine withVal_same (withCrc c s) m (hm.be32 (i := s.eng.p + 8 + len.toNat) (by omega)) fun v => ?_
  exact .ite (fun _ => hk _ m) fun _ => raiseAt_memBlind .badCrc 0 s.eng.p typ.toNat _ m

theorem acceptChunk_memBlind (len typ : Word) : MemBlind (acceptChunk len typ) := fun _ m => .next _ m

theorem exec_chunk_same {len typ : Word} {s : State} {m : Memory} (hq : s.eng.phase = .chunk) (hm : SameIn s m)
    (hp : s.eng.p ≤ s.regs.inLen.toNat) :
    SameAnswer (exec (instrOfChunk len typ) s) (exec (instrOfChunk len typ) (s.withMem m)) := by
  unfold instrOfChunk
  split
  · simp only [exec, execChunkIhdr, State.withMem_eng, hq]
    exact readChunk_same (acceptChunk_memBlind _ _) hm hp
  split
  · simp only [exec, execChunkPlte, State.withMem_eng, hq]
    exact readChunk_same (acceptChunk_memBlind _ _) hm hp
  split
  · exact readChunk_same (acceptChunk_memBlind _ _) hm hp
  split
  · exact readChunk_same (k := fun u => .next (endWalk (recordChunk len typIEND u))) (fun _ n => .next _ n) hm hp
  split
  · exact readChunk_same (raiseAt_memBlind _ _ _ _) hm hp
  · exact readChunk_same (acceptChunk_memBlind _ _) hm hp

theorem fetchChunk_same {s : State} {m : Memory} (hq : s.eng.phase = .chunk) (hm : SameIn s m)
    (hp : s.eng.p ≤ s.regs.inLen.toNat) : SameFetched (fetchChunk s) (fetchChunk (s.withMem m)) := by
  refine .ite (fun _ => .next (endWalk s) m) fun _ => .ite (fun _ => raiseAt_memBlind .truncatedStream 1 s.eng.p 0 s m) fun hl => ?_
  refine fetchVal_same s m (hm.be32 (i := s.eng.p) (by omega)) fun len _ =>
    fetchVal_same s m (hm.be32 (i := s.eng.p + 4) (by omega)) fun typ _ => ?_
  exact exec_chunk_same hq hm hp

theorem checkHeader_same {len : Word} {s : State} {m : Memory} (hm : SameIn s m)
    (hp : len = 13#32 → headerOff s + 21 ≤ s.regs.inLen.toNat) : SameAnswer (checkHeader len s) (checkHeader len (s.withMem m)) := by
  refine .ite (fun _ => raiseAt_memBlind .malformedHeader 1 (headerOff s) len.toNat s m) fun hl => ?_
  have hp := hp (not_not.1 hl)
  have hb : ∀ k, k + 4 ≤ 21 → inBe32 (s.withMem m) (headerOff s + k) = inBe32 s (headerOff s + k) := fun k hk => hm.be32 (by omega)
  have hi : ∀ k < 21, inByte (s.withMem m) (headerOff s + k) = inByte s (headerOff s + k) := fun k hk => hm _ (by omega)
  refine withVal_same s m (hb 8 (by decide)) fun w => withVal_same s m (hb 12 (by decide)) fun h =>
    withVal_same s m (hi 16 (by decide)) fun bd => withVal_same s m (hi 17 (by decide)) fun ct =>
    withVal_same s m (hi 18 (by decide)) fun cm => withVal_same s m (hi 19 (by decide)) fun fm =>
    withVal_same s m (hi 20 (by decide)) fun im => ?_
  rw [show headerOff (s.withMem m) = headerOff s from rfl]
  cases headerError (headerOff s) w h bd.toNat ct.toNat cm.toNat fm.toNat im.toNat with
  | some e => exact raise_memBlind e s m
  | none => exact .next _ m

/-- A header record of length 13 lies inside IN (R260, R261). -/
theorem Inv.header_inside {s : State} (hs : Inv s) (hq : s.eng.phase = .header) {c : ChunkRec} (hc : firstKey s.eng.chunks = some c)
    (hl : trunc32 c.len = 13#32) : headerOff s + 21 ≤ s.regs.inLen.toNat := by
  have hm := hs.run.mode
  simp only [hq, Phase.modes, List.mem_singleton] at hm
  obtain ⟨-, hi⟩ := hs.walk.chunks (BitVec.eq_of_toNat_eq hm) (by simp [hq]) c (List.mem_of_find?_eq_some hc)
  have hlen := congrArg BitVec.toNat hl
  rw [toNat_trunc32_of_le (w := s.regs.inLen) (by omega)] at hlen
  simp only [headerOff, hc, Option.map_some, Option.getD_some]
  simp at hlen
  omega

theorem fetchHeader_same {s : State} {m : Memory} (hs : Inv s) (hq : s.eng.phase = .header) (hm : SameIn s m) :
    SameFetched (fetchHeader s) (fetchHeader (s.withMem m)) := by
  unfold fetchHeader
  rw [State.withMem_eng]
  cases hc : firstKey s.eng.chunks with
  | none => exact raiseAt_memBlind .missingHeader 0 0xFFFFFFFF 0 s m
  | some c =>
    refine .ite (fun _ => ?_) fun _ => raiseAt_memBlind .missingHeader 0 c.off c.typ.toNat s m
    simp only [SameFetched, Fetched.result, exec, execChunkIhdr, State.withMem_eng, hq]
    exact checkHeader_same hm (hs.header_inside hq hc)

theorem checkPalette_memBlind (len : Word) : MemBlind (checkPalette len) := fun s m => by
  have hp : paletteOff (s.withMem m) = paletteOff s := rfl
  unfold checkPalette
  rw [State.withMem_eng, hp]
  cases paletteError s.eng.chunks (paletteOff s) len.toNat with
  | some e => exact raise_memBlind e s m
  | none => exact .next _ m

theorem fetchPalette_same {s : State} {m : Memory} (hq : s.eng.phase = .palette) :
    SameFetched (fetchPalette s) (fetchPalette (s.withMem m)) := by
  unfold fetchPalette
  rw [State.withMem_eng]
  cases firstPlte s.eng.chunks with
  | none => exact .next _ m
  | some q =>
    simp only [SameFetched, Fetched.result, exec, execChunkPlte, State.withMem_eng, hq]
    exact checkPalette_memBlind _ s m

/-! ## The zlib header and the blocks -/

theorem fetchZlib_same {s : State} {m : Memory} (hs : Inv s) (hm : SameIn s m) (hp : s.eng.phase.inInflate = true) :
    SameFetched (fetchZlib s) (fetchZlib (s.withMem m)) := by
  refine .ite (fun _ => raiseAt_memBlind .streamExhausted 1 (8 * streamLen s) 0 s m) fun hl => ?_
  refine fetchVal_same s m (streamByte_same hs hm hp (by omega)) fun cmf _ =>
    fetchVal_same s m (streamByte_same hs hm hp (by omega)) fun flg _ => ?_
  exact SameAnswer.ite (fun _ => raiseAt_memBlind .unsupportedCompression 1 0 (zlibAux cmf flg) s m) fun _ => .next _ m

theorem execZlibFdict_memBlind (cmf flg : Byte) : MemBlind (execZlibFdict cmf flg) := fun s m =>
  .ite (fun _ => raiseAt_memBlind .unsupportedCompression 2 0 (zlibAux cmf flg) s m) fun _ => .next _ m

theorem execZlibFcheck_memBlind (cmf flg : Byte) : MemBlind (execZlibFcheck cmf flg) := fun s m =>
  .ite (fun _ => raiseAt_memBlind .unsupportedCompression 3 0 (zlibAux cmf flg) s m) fun _ => .next _ m

theorem SameStream.readBits {s : State} {m : Memory} (h : SameStream s m) (pos n : Nat) :
    readBits (streamBit (s.withMem m)) pos n = readBits (streamBit s) pos n := by
  rw [h]

theorem SameStream.readClLens {s : State} {m : Memory} (h : SameStream s m) (order : List Nat) (pos : Nat) (cl : List Nat) :
    readClLens (s.withMem m) order pos cl = readClLens s order pos cl := by
  induction order generalizing pos cl with
  | nil => rfl
  | cons x xs ih => simp only [Machine.readClLens, h.readBits, ih]

theorem execBlockStored_same {f : Bool} {s : State} {m : Memory} (h : SameStream s m) :
    SameAnswer (execBlockStored f s) (execBlockStored f (s.withMem m)) := by
  have h' : SameStream { s with eng := { s.eng with bfinal := f, bitpos := alignBit s.eng.bitpos } } m := h
  refine withVal_same _ m (h'.readBits _ 16) fun len => withVal_same _ m (h'.readBits _ 16) fun nlen => ?_
  exact .ite (fun _ => .next _ m) fun _ => raiseAt_memBlind .blockLengthMismatch 0 s.eng.hpos s.eng.block _ m

theorem execBlockDynamic_same {f : Bool} {s : State} {m : Memory} (h : SameStream s m) :
    SameAnswer (execBlockDynamic f s) (execBlockDynamic f (s.withMem m)) := by
  have h' : SameStream { s with eng := { s.eng with bfinal := f, dyn := true } } m := h
  refine withVal_same _ m (h'.readBits _ 5) fun hlit => withVal_same _ m (h'.readBits _ 5) fun hdist =>
    withVal_same _ m (h'.readBits _ 4) fun hclen => ?_
  refine .ite (fun _ => raiseCode_memBlind 9 (s.eng.hpos + 3) _ m) fun _ =>
    .ite (fun _ => raiseCode_memBlind 10 (s.eng.hpos + 8) _ m) fun _ => ?_
  refine withVal_same _ m (h'.readClLens _ _ _) fun cl => ?_
  exact .ite (fun _ => raiseCode_memBlind 6 (s.eng.hpos + 17) _ m) fun _ => .next _ m

theorem fetchBlock_same {s : State} {m : Memory} (h : SameStream s m) : SameFetched (fetchBlock s) (fetchBlock (s.withMem m)) := by
  refine fetchVal_same s m (h.readBits _ 3) fun v _ => ?_
  have h' : SameStream (behindHeader s) m := h
  change SameAnswer (exec (instrOfBlock v) (behindHeader s)) (exec (instrOfBlock v) ((behindHeader s).withMem m))
  unfold instrOfBlock
  split
  · exact execBlockStored_same h'
  · exact .next _ m
  · exact execBlockDynamic_same h'
  · exact raiseAt_memBlind .invalidBlockType 0 s.eng.bitpos s.eng.block _ m

theorem storedStep_same {n : Nat} {s : State} {m : Memory} (h : SameStream s m) :
    SameAnswer (storedStep n s) (storedStep n (s.withMem m)) := by
  cases n with
  | zero => exact .next _ m
  | succ n =>
    exact withVal_same s m (h.readBits _ 8) fun v => emit_memBlind _ (fun _ n => .next _ n) (atBit (s.eng.bitpos + 8) s) m

/-- A coded symbol: the decoder reads the stream alone, and its rows read no memory. -/
theorem fetchCoded_same {s : State} {m : Memory} {lens : List Nat} {extra : Nat → Nat} {mk : Nat → Nat → Instr} {sub : Nat}
    (h : SameStream s m) (hk : ∀ sym x, MemBlind (exec (mk sym x))) :
    SameFetched (fetchCoded (decodeCoded (streamBit s) lens extra mk s.eng.bitpos) sub s)
      (fetchCoded (decodeCoded (streamBit (s.withMem m)) lens extra mk s.eng.bitpos) sub (s.withMem m)) := by
  refine fetchVal_same s m (by rw [h]) fun a ha => ?_
  cases a with
  | none => exact raiseCode_memBlind sub s.eng.bitpos s m
  | some x =>
    obtain ⟨i, n⟩ := x
    obtain ⟨sym, e, -, -, rfl, -⟩ := decodeCoded_some ha
    exact hk sym e (behindSymbol n s) m

theorem copyStep_same {n d : Nat} {s : State} {m : Memory} (hs : Inv s) (hq : s.eng.phase = .copy n d) (hm : AgreesOnReads s m) :
    SameAnswer (copyStep n d s) (copyStep n d (s.withMem m)) := by
  cases n with
  | zero => exact .next _ m
  | succ n =>
    exact withVal_same s m (busRead_withMem (hm _ (hs.copy_mayRead hq))) fun b => emit_memBlind b (fun _ n => .next _ n) s m

theorem trailerStep_same {s : State} {m : Memory} (hs : Inv s) (hm : SameIn s m) (hp : s.eng.phase.inInflate = true) :
    SameAnswer (trailerStep s) (trailerStep (s.withMem m)) := by
  refine .ite (fun _ => raiseAt_memBlind .streamExhausted 3 (8 * streamLen s) s.eng.block s m) fun hl => ?_
  refine withVal_same s m (be32From_congr (i := s.eng.bitpos / 8) fun k hk => streamByte_same hs hm hp (by omega)) fun v => ?_
  refine .ite (fun _ => .ite (fun _ => .next _ m) fun _ => .next _ m) fun _ => ?_
  exact raiseAt_memBlind .checksumMismatch 0 (s.eng.bitpos / 8) v s m

end Sys2Proof.Machine
end

section
/-! The rows, the whole engine step, and the statement about its reads (R102). -/

namespace Sys2Proof.Machine

/-! ## The rows -/

/-- The filtered byte and the neighbours of R497 read the same from both memories. -/
structure SameOperands (s : State) (m : Memory) : Prop where
  x : filtX (s.withMem m) = filtX s
  a : filtA (s.withMem m) = filtA s
  b : filtB (s.withMem m) = filtB s
  c : filtC (s.withMem m) = filtC s

theorem bpp_pos (s : State) : 1 ≤ bpp s := Nat.le_max_left _ _

/-- The operands of a row's byte are filtered data of its row and reconstructed bytes before it (R495, R497). -/
theorem sameOperands {s : State} {m : Memory} (hm : AgreesOnReads s m) (hr : s.eng.phase.inRows = true) (hi : rowIndex s < rb s)
    (hl : (s.eng.row + 1) * stride s ≤ filteredLen s) : SameOperands s m := by
  have hb := bpp_pos s
  have above : 1 ≤ s.eng.row → (s.eng.row - 1) * rb s + rb s = s.eng.row * rb s := fun h => by
    rw [← Nat.succ_mul, Nat.succ_eq_add_one, Nat.sub_add_cancel h]
  have hx : s.eng.row * stride s + 1 + rowIndex s < filteredLen s := by
    rw [Nat.add_mul, Nat.one_mul] at hl
    have : stride s = rb s + 1 := rfl
    omega
  constructor
  · exact filteredByte_same hm hx
  · exact ite_congr rfl (fun _ => reconByte_same hm hr (k := s.eng.row * rb s + rowIndex s - bpp s) (by omega)) fun _ => rfl
  · refine ite_congr rfl (fun h => ?_) fun _ => rfl
    have := above h
    exact reconByte_same hm hr (k := (s.eng.row - 1) * rb s + rowIndex s) (by omega)
  · refine ite_congr rfl (fun h => ?_) fun _ => rfl
    have := above h.1
    exact reconByte_same hm hr (k := (s.eng.row - 1) * rb s + rowIndex s - bpp s) (by omega)

theorem exec_filter_same {s : State} {m : Memory} (h : SameOperands s m) (ft : Byte) :
    SameAnswer (exec (instrOfFilter ft) s) (exec (instrOfFilter ft) (s.withMem m)) := by
  unfold instrOfFilter
  split
  · exact withVal_same s m h.x fun x => writeRowByte_memBlind _ x s m
  · exact withVal_same s m h.x fun x => withVal_same s m h.a fun a => writeRowByte_memBlind _ (x + a) s m
  · exact withVal_same s m h.x fun x => withVal_same s m h.b fun b => writeRowByte_memBlind _ (x + b) s m
  · exact withVal_same s m h.x fun x => withVal_same s m h.a fun a => withVal_same s m h.b fun b =>
      writeRowByte_memBlind _ (x + average a b) s m
  · exact withVal_same s m h.x fun x => withVal_same s m h.a fun a => withVal_same s m h.b fun b => withVal_same s m h.c fun c =>
      writeRowByte_memBlind _ (x + paeth a b c) s m
  · exact raiseAt_memBlind .invalidFilterType 0 s.eng.row ft.toNat s m

theorem fetchRow_same {s : State} {m : Memory} (hs : Inv s) (hq : s.eng.phase = .row) (hm : AgreesOnReads s m) :
    SameFetched (fetchRow s) (fetchRow (s.withMem m)) := by
  have hr : s.eng.phase.inRows = true := by rw [hq]; rfl
  have h0 : rowIndex s = 0 := by simp [rowIndex, hq]
  refine .ite (fun _ => raiseAt_memBlind .truncatedScanline 0 s.eng.row (filteredLen s - s.eng.row * stride s) s m) fun hl => ?_
  have hpos : 1 ≤ stride s := Nat.le_add_left _ _
  have hlen : (s.eng.row + 1) * stride s ≤ filteredLen s := by
    rw [Nat.add_mul, Nat.one_mul]
    omega
  refine fetchVal_same s m (filteredByte_same hm (j := s.eng.row * stride s) (by omega)) fun ft _ => ?_
  have hread : AgreesOnReads (atRowStart ft s) m := fun a ha => hm a <| ha.imp id <| Or.imp id fun h => ⟨hr, h.2.1, h0 ▸ h.2.2⟩
  have hrb : 0 < rb s := h0 ▸ hs.rowIndex_lt hr
  exact exec_filter_same (sameOperands hread rfl hrb hlen) ft

theorem geometryStep_memBlind : MemBlind geometryStep := fun s m =>
  .ite (fun _ => raiseAt_memBlind .outputOverflow 2 0 (min (geomHeight s * rb s) 0xFFFFFFFF) s m) fun _ =>
    .ite (fun _ => .next _ m) fun _ => .next _ m

theorem ufParamsStep_memBlind : MemBlind ufParamsStep := fun s m => by
  unfold ufParamsStep
  rw [State.withMem_regs]
  cases ufError s.regs.ufWidth.toNat s.regs.ufHeight.toNat (formatDepth s.regs.ufFormat) (formatColor s.regs.ufFormat) with
  | some e => exact raise_memBlind e s m
  | none => exact .next _ m

/-! ## The other steps of a run -/

theorem enterStage_memBlind (g : Stage) : MemBlind fun s => .next (enterStage g s) := fun _ m => by
  cases g <;> exact .next _ m

theorem configStep_memBlind : MemBlind configStep := fun s m => by
  unfold configStep
  dsimp only [State.withMem_regs]
  cases configError { s.regs with stage := .config } with
  | some e => exact raise_memBlind e _ m
  | none => exact .next _ m

theorem crcStep_same {s : State} {m : Memory} (hm : SameIn s m) : SameAnswer (crcStep s) (crcStep (s.withMem m)) :=
  withVal_same s m (hm.crcOver (Nat.le_of_eq (Nat.zero_add _)) crcInit) fun _ => .next _ m

/-! ## The engine's step -/

/-- R102: wherever the engine stands, its step is the same from a memory that agrees on the bytes it may read. -/
theorem enginePhase_same {s : State} {m : Memory} (hs : Inv s) (hm : AgreesOnReads s m) :
    SameFetched (enginePhase s) (enginePhase (s.withMem m)) := by
  have hin := hm.sameIn
  have hstream : s.eng.phase.inInflate = true → SameStream s m := sameStream hs hin
  unfold enginePhase
  rw [State.withMem_eng]
  cases hq : s.eng.phase with
  | idle => exact .next s m
  | enter g => exact enterStage_memBlind g s m
  | config => exact configStep_memBlind s m
  | sig => exact execSig_same hin
  | chunk => exact fetchChunk_same hq hin (hs.walk.cursor hq).2
  | header => exact fetchHeader_same hs hq hin
  | palette => exact fetchPalette_same hq
  | inflate => exact fetchZlib_same hs hin (by rw [hq]; rfl)
  | zlibFdict cmf flg => exact execZlibFdict_memBlind cmf flg s m
  | zlibFcheck cmf flg => exact execZlibFcheck_memBlind cmf flg s m
  | block => exact fetchBlock_same (hstream (by rw [hq]; rfl))
  | stored n => exact storedStep_same (hstream (by rw [hq]; rfl))
  | clSym => exact fetchCoded_same (hstream (by rw [hq]; rfl)) exec_cl_memBlind
  | litLen => exact fetchCoded_same (hstream (by rw [hq]; rfl)) (exec_litLen_memBlind s.eng.dyn)
  | dist l => exact fetchCoded_same (hstream (by rw [hq]; rfl)) exec_dist_memBlind
  | copy n d => exact copyStep_same hs hq hm
  | trailer => exact trailerStep_same hs hin (by rw [hq]; rfl)
  | ufParams => exact ufParamsStep_memBlind s m
  | geometry => exact geometryStep_memBlind s m
  | row => exact fetchRow_same hs hq hm
  | rowByte ft i =>
    have hr : s.eng.phase.inRows = true := by rw [hq]; rfl
    exact exec_filter_same (sameOperands hm hr (hs.rowIndex_lt hr) (hs.row.byte ft i hq).2.2) ft
  | crc => exact crcStep_same hin

/-- How far an aborted step had come does not depend on memory either (R204). -/
theorem abortedRegs_same {s : State} {m : Memory} (h : SameFetched (enginePhase s) (enginePhase (s.withMem m))) :
    abortedRegs (s.withMem m) = abortedRegs s := by
  unfold abortedRegs
  unfold SameFetched at h
  generalize (enginePhase s).result = r at h
  generalize (enginePhase (s.withMem m)).result = r' at h
  cases h <;> rfl

theorem engineTurn_same {s : State} {m : Memory} (hs : Inv s) (hm : AgreesOnReads s m) :
    SameFetched (engineTurn s) (engineTurn (s.withMem m)) := by
  refine .ite (fun _ => .ite (fun _ => ?_) fun _ => enginePhase_same hs hm) fun _ => .next s m
  have hd : SameFetched (enginePhase { s with draws := s.draws + 1 }) (enginePhase ({ s with draws := s.draws + 1 }.withMem m)) :=
    enginePhase_same (Inv.congr (s := s) rfl rfl rfl hs) hm
  refine .ite (fun _ => ?_) fun _ => hd
  change SameAnswer _ (raiseAt .aborted 0 0 0 { s.withMem m with
    draws := s.draws + 1, regs := abortedRegs ({ s with draws := s.draws + 1 }.withMem m) })
  rw [abortedRegs_same hd]
  exact raiseAt_memBlind .aborted 0 0 0 _ m

theorem EngineNext.withMem {s e : State} (h : EngineNext s e) (m : Memory) : EngineNext (s.withMem m) (e.withMem m) := by
  rcases h with ⟨hh, rfl⟩ | ⟨rest, hh, rfl⟩
  · exact .inl ⟨hh, rfl⟩
  · exact .inr ⟨rest, hh, rfl⟩

/-- When the engine moves next it moves from a state that differs in the host's list at most. -/
theorem engineNext_exists {s : State} (h : s.host = [] ∨ ∃ rest, s.host = .engine :: rest) :
    ∃ rest, EngineNext s { s with host := rest } := by
  rcases h with h | ⟨rest, h⟩
  · exact ⟨[], .inl ⟨h, by rw [← h]⟩⟩
  · exact ⟨rest, .inr ⟨rest, h, rfl⟩⟩

/-- Settles O23: every byte an engine step reads is one of those R102 lets it read, and nothing else of memory reaches it. -/
theorem readsConfined : Obligations.ReadsConfined := by
  unfold Obligations.ReadsConfined
  intro s t m hs he hm h
  obtain ⟨rest, hn⟩ := engineNext_exists he
  have same : SameAnswer (step s) (step (s.withMem m)) := by
    rw [step_engineNext hn, step_engineNext (hn.withMem m)]
    exact engineTurn_same (Inv.congr (s := s) rfl rfl rfl hs) hm
  rw [h] at same
  generalize hr : step (s.withMem m) = r at same
  cases same with
  | next t n => exact ⟨t.withMem n, hr, rfl, rfl, rfl⟩

end Sys2Proof.Machine
end

section
/-! Memory as the host and the engine see it (R107, R112 to R114, R119): the host's accesses, its cache maintenance, and the bus. -/

namespace Sys2Proof.Machine

theorem usedByRun_iff (s : State) (a : Nat) :
    usedByRun s a = true ↔ s.regs.busy = true ∧ ∃ r ∈ s.regs.used, r.contains a = true := by
  simp [usedByRun]

theorem outside_iff (rs : List Region) (a : Nat) : Outside rs a ↔ ¬∃ r ∈ rs, r.contains a = true := by
  simp [Outside]

theorem isUnseen_iff (s : State) (a : Nat) : isUnseen s a = true ↔ ∃ r ∈ s.unseen, r.contains a = true := by
  simp [isUnseen]

theorem openWhileBusy_iff (s : State) (a : Nat) : openWhileBusy s a = true ↔ s.regs.busy = true ∧
    ((∃ r ∈ s.regs.outputs, r.contains a = true) ∨
      s.regs.inRegion.contains a = false ∧ (s.regs.inflRegion.contains a = true ∨ s.regs.reconRegion.contains a = true)) := by
  simp [openWhileBusy]

theorem hostReadOpen_iff (s : State) (a : Nat) : hostReadOpen s a = true ↔
    openWhileBusy s a = true ∨ (∃ r ∈ s.unseen, r.contains a = true) ∨ s.plat.coherent = false ∧ a ∈ s.stale := by
  simp [hostReadOpen, isUnseen_iff, or_assoc]

theorem inSpan_eq_false (addr : Word) (n a : Nat) : inSpan addr n a = false ↔ a < addr.toNat ∨ addr.toNat + n ≤ a := by
  simp [inSpan, Classical.or_iff_not_imp_left]

theorem mem_addAddr (l : List Nat) (a : Nat) : a ∈ addAddr l a := by
  unfold addAddr
  split
  · simpa using ‹l.contains a = true›
  · exact List.mem_cons_self

/-! ## Whether the host's access reaches memory (log 10) -/

theorem withHostByte_window {s : State} {a : Nat} (h : inWindow s.plat a = true) (r : Result) :
    withHostByte s a r = .refused .narrowOrMisalignedAccess := by
  simp [withHostByte, hostCheck, h]

theorem withHostByte_noMemory {s : State} {a : Nat} (h : inWindow s.plat a = false) (hn : noMemory s.plat a = true) (r : Result) :
    withHostByte s a r = .refused .hostHitsNoMemory := by
  simp [withHostByte, hostCheck, h, hn]

theorem withHostByte_reaches {s : State} {a : Nat} (h : inWindow s.plat a = false) (hn : noMemory s.plat a = false) (r : Result) :
    withHostByte s a r = r := by
  simp [withHostByte, hostCheck, h, hn]

/-! ## A host write (R114) -/

theorem hostMemWrite_busy {s : State} {addr : Word} {b : Byte} (h : inWindow s.plat addr.toNat = false)
    (hn : noMemory s.plat addr.toNat = false) (hu : usedByRun s addr.toNat = true) :
    hostMemWrite addr b s = .refused .hostWriteToBusyRegion := by
  rw [hostMemWrite, withHostByte_reaches h hn, if_pos hu]

theorem hostMemWrite_lands {s : State} {addr : Word} {b : Byte} (h : inWindow s.plat addr.toNat = false)
    (hn : noMemory s.plat addr.toNat = false) (hu : s.regs.busy = false ∨ Outside s.regs.used addr.toNat) :
    hostMemWrite addr b s = .next (hostPut addr.toNat b s) := by
  have hu : ¬usedByRun s addr.toNat = true := by
    rw [usedByRun_iff, not_and_or, ← outside_iff, Bool.not_eq_true]
    exact hu
  rw [hostMemWrite, withHostByte_reaches h hn, if_neg hu]

theorem hostPut_byteAt (a x : Nat) (b : Byte) (s : State) : (hostPut a b s).byteAt x = if x = a then b else s.byteAt x :=
  State.byteAt_write (hostPut_mem a b s) x

theorem hostPut_coherent {a : Nat} {b : Byte} {s : State} (h : s.plat.coherent = true) :
    (hostPut a b s).uncleaned = s.uncleaned ∧ (hostPut a b s).stale = s.stale := by
  simp [hostPut, h]

theorem hostPut_notCoherent {a : Nat} {b : Byte} {s : State} (h : s.plat.coherent = false) :
    a ∈ (hostPut a b s).uncleaned ∧ a ∉ (hostPut a b s).stale := by
  simp [hostPut, h, mem_addAddr]

/-! ## A host read (R113, R114, R119) -/

theorem Outside.not_mem {rs : List Region} {a : Nat} (h : Outside rs a) {r : Region} (hr : r ∈ rs) : ¬r.contains a = true := by
  simp [h r hr]

/-- Where the host can rely on the byte: no output of the running mode, seen since its run's end, and visible. -/
theorem not_hostReadOpen {s : State} {a : Nat} (hu : Outside s.unseen a) (hc : s.plat.coherent = true ∨ a ∉ s.stale)
    (hb : s.regs.busy = false ∨ Outside s.regs.outputs a ∧
      (s.regs.inRegion.contains a = true ∨ Outside [s.regs.inflRegion, s.regs.reconRegion] a)) : ¬hostReadOpen s a = true := by
  rw [hostReadOpen_iff, openWhileBusy_iff]
  rintro (⟨busy, ho⟩ | ⟨r, hr, ha⟩ | ⟨hnc, hst⟩)
  · obtain ⟨hout, hin⟩ := hb.resolve_left (by simp [busy])
    rcases ho with ⟨r, hr, ha⟩ | ⟨hi, ha⟩
    · exact hout.not_mem hr ha
    · have hin := hin.resolve_left (by simp [hi])
      exact ha.elim (hin.not_mem (by simp)) (hin.not_mem (by simp))
  · exact hu.not_mem hr ha
  · exact hc.resolve_left (by simp [hnc]) hst

/-- The state behind a host read of the byte at `a`. -/
def afterMemRead (s : State) (a : Nat) : State :=
  if hostReadOpen s a then { s with memData := Config.freeByte s.draws, draws := s.draws + 1 } else { s with memData := s.byteAt a }

theorem hostMemRead_reaches {s : State} {addr : Word} (h : inWindow s.plat addr.toNat = false)
    (hn : noMemory s.plat addr.toNat = false) : hostMemRead addr s = .next (afterMemRead s addr.toNat) := by
  rw [hostMemRead, withHostByte_reaches h hn]
  rfl

/-- A read changes nothing but what was read and the draws. -/
theorem afterMemRead_frame (s : State) (a : Nat) :
    (afterMemRead s a).mem = s.mem ∧ (afterMemRead s a).regs = s.regs ∧ (afterMemRead s a).eng = s.eng ∧
      (afterMemRead s a).host = s.host ∧ (afterMemRead s a).plat = s.plat ∧ SameView s (afterMemRead s a) ∧
      (afterMemRead s a).uncleaned = s.uncleaned ∧ (afterMemRead s a).stale = s.stale := by
  unfold afterMemRead
  split <;> exact ⟨rfl, rfl, rfl, rfl, rfl, SameView.refl s, rfl, rfl⟩

theorem afterMemRead_open {s : State} {a : Nat} (h : hostReadOpen s a = true) :
    (afterMemRead s a).memData = Config.freeByte s.draws := by
  rw [afterMemRead, if_pos h]

theorem afterMemRead_closed {s : State} {a : Nat} (h : ¬hostReadOpen s a = true) :
    (afterMemRead s a).memData = s.byteAt a ∧ (afterMemRead s a).draws = s.draws := by
  rw [afterMemRead, if_neg h]
  exact ⟨rfl, rfl⟩

/-! ## The engine's own accesses (R112, R119) -/

theorem engineByte_hidden {s : State} {a : Nat} (hc : s.plat.coherent = false) (h : a ∈ s.hidden) :
    engineByte s a = Config.uncleanByte s.draws a := by
  simp [engineByte, hc, h]

theorem engineByte_visible {s : State} {a : Nat} (h : s.plat.coherent = true ∨ a ∉ s.hidden) : engineByte s a = s.byteAt a := by
  rcases h with h | h
  · simp [engineByte, h]
  · exact engineByte_eq h

theorem putByte_notCoherent {a : Nat} {b : Byte} {s : State} (h : s.plat.coherent = false) :
    a ∈ (putByte s a b).stale ∧ a ∉ (putByte s a b).hidden ∧ a ∉ (putByte s a b).uncleaned := by
  simp [putByte, h, mem_addAddr]

/-! ## The statement -/

/-- A register access that is no aligned word has no step (R107). -/
theorem not_word_aligned {size : AccessSize} {off : BitVec 8} (h : size ≠ .word ∨ off.toNat % 4 ≠ 0) :
    ¬(size = .word ∧ offAligned off = true) := by
  rw [not_and_or]
  exact h.imp id fun h => by simpa [offAligned] using h

/-- Settles O14, access by access. -/
theorem hostAccess : Obligations.HostAccess := by
  unfold Obligations.HostAccess
  refine ⟨fun s rest addr b hh => ?_, fun s rest addr hh => ?_, fun s rest size off v m ho => ?_, fun s rest addr n => ?_,
    fun s a hr => ?_, fun s a b hw => ?_⟩
  · rw [step_host hh]
    refine ⟨fun hwin => withHostByte_window hwin _, fun hwin hmem => withHostByte_noMemory hwin hmem _, fun hwin hmem => ⟨?_, ?_⟩⟩
    · exact fun hb hu => hostMemWrite_busy hwin hmem ((usedByRun_iff _ _).2 ⟨hb, hu⟩)
    · intro hu
      refine ⟨_, hostMemWrite_lands (s := { s with host := rest }) hwin hmem hu, ?_, fun x hx => ?_, hostPut_regs _ _ _,
        hostPut_eng _ _ _, hostPut_host _ _ _, hostPut_plat _ _ _, hostPut_draws _ _ _, hostPut_hidden _ _ _, fun x => ?_,
        fun hc => hostPut_coherent hc, fun hc => hostPut_notCoherent hc⟩
      · rw [hostPut_byteAt, if_pos rfl]
      · rw [hostPut_byteAt, if_neg hx]
        rfl
      · rw [← isUnseen_iff, isUnseen_hostPut, isUnseen_iff]
  · rw [step_host hh]
    refine ⟨fun hwin => withHostByte_window hwin _, fun hwin hmem => ?_⟩
    refine ⟨_, hostMemRead_reaches (s := { s with host := rest }) hwin hmem, ?_⟩
    obtain ⟨tm, tr, te, th, tp, tv, tu, ts⟩ := afterMemRead_frame { s with host := rest } addr.toNat
    have free := fun h => afterMemRead_open ((hostReadOpen_iff { s with host := rest } addr.toNat).2 h)
    refine ⟨State.byteAt_congr tm, tr, te, th, tp, tv, tu, ts, fun hb hout hin => ?_, fun hb hout => ?_,
      fun hu => free (.inr (.inl hu)), fun hc hst => free (.inr (.inr ⟨hc, hst⟩)),
      fun hu hc hb => afterMemRead_closed (not_hostReadOpen hu hc hb)⟩
    · exact free (.inl ((openWhileBusy_iff _ _).2 ⟨hb, .inr ⟨hin, hout⟩⟩))
    · exact free (.inl ((openWhileBusy_iff _ _).2 ⟨hb, .inl hout⟩))
  · have hs := not_word_aligned ho
    refine ⟨fun hh => ?_, fun hh => ?_, fun h4 hh => ?_⟩ <;> rw [step_host hh]
    · simp only [hostMove, if_neg hs, Fetched.result]
    · simp only [hostMove, if_neg hs, Fetched.result]
    · have hoff : ¬offAligned off = true := by simpa [offAligned] using h4
      simp only [hostMove, if_neg hoff, Fetched.result]
  · refine ⟨fun hh => ?_, fun hh => ?_⟩ <;> rw [step_host hh]
    · refine ⟨_, rfl, rfl, rfl, rfl, rfl, rfl, SameView.refl _, fun x => ?_⟩
      simp [inSpan_eq_false]
    · refine ⟨_, rfl, rfl, rfl, rfl, rfl, rfl, SameView.refl _, fun x => ?_⟩
      simp [inSpan_eq_false, isUnseen, or_assoc]
  · exact ⟨fun h => busRead_ok.2 ⟨hr, engineByte_visible h⟩, fun hc h => busRead_ok.2 ⟨hr, engineByte_hidden hc h⟩⟩
  · refine ⟨_, busWrite_ok.2 ⟨hw, rfl⟩, ?_, fun x hx => ?_, putByte_notCoherent⟩
    · rw [putByte_byteAt, if_pos rfl]
    · rw [putByte_byteAt, if_neg hx]

end Sys2Proof.Machine
end

section
/-! Canonical codes (R162, R347, R360): the codewords of a length follow the occupied part of the code space below them, so the
decoder's loop reads a codeword to its end and answers its symbol, and only then. -/

namespace Sys2Proof

/-! ## The symbol of a rank -/

theorem symOfRank_cons_of_ne {x l : Nat} (h : x ≠ l) (xs : List Nat) (r i : Nat) :
    symOfRank (x :: xs) l r i = symOfRank xs l r (i + 1) := by
  cases r <;> simp [symOfRank, h]

/-- The symbol at `s` has as its rank the number of lower symbols of its length. -/
theorem symOfRank_count_take {lens : List Nat} {s l : Nat} (hs : s < lens.length) (hl : lens.getD s 0 = l) (i : Nat) :
    symOfRank lens l ((lens.take s).count l) i = i + s := by
  induction lens generalizing s i with
  | nil => simp at hs
  | cons x xs ih =>
    cases s with
    | zero =>
      obtain rfl : x = l := by simpa using hl
      simp [symOfRank]
    | succ s =>
      have hs' : s < xs.length := by simpa using hs
      have ih' := ih hs' (by simpa using hl) (i + 1)
      by_cases hx : x = l
      · subst hx
        simp only [List.take_succ_cons, List.count_cons_self, symOfRank, if_pos, ih']
        omega
      · rw [List.take_succ_cons, List.count_cons_of_ne hx, symOfRank_cons_of_ne hx, ih']
        omega

/-- The symbol of rank `r` among those of length `l` has that length and that many lower ones. -/
theorem symOfRank_spec {lens : List Nat} {l r : Nat} (h : r < lens.count l) (i : Nat) :
    ∃ s < lens.length, symOfRank lens l r i = i + s ∧ lens.getD s 0 = l ∧ (lens.take s).count l = r := by
  induction lens generalizing r i with
  | nil => simp at h
  | cons x xs ih =>
    by_cases hx : x = l
    · subst hx
      cases r with
      | zero => exact ⟨0, by simp, by simp [symOfRank], by simp, by simp⟩
      | succ r =>
        obtain ⟨s, hs, hr, hl, hc⟩ := ih (r := r) (by simpa using h) (i + 1)
        exact ⟨s + 1, by simpa using hs, by simp [symOfRank, hr]; omega, by simpa using hl, by simp [hc]⟩
    · obtain ⟨s, hs, hr, hl, hc⟩ := ih (by rwa [List.count_cons_of_ne hx] at h) (i + 1)
      exact ⟨s + 1, by simpa using hs, by rw [symOfRank_cons_of_ne hx, hr]; omega, by simpa using hl,
        by rw [List.take_succ_cons, List.count_cons_of_ne hx, hc]⟩

/-- A symbol's own place is not counted among the lower ones. -/
theorem count_take_lt_count {lens : List Nat} {s l : Nat} (hs : s < lens.length) (hl : lens.getD s 0 = l) :
    (lens.take s).count l < lens.count l := by
  have hd : lens.drop s = l :: lens.drop (s + 1) := by
    rw [List.drop_eq_getElem_cons hs, ← hl, List.getD_eq_getElem _ _ hs]
  conv_rhs => rw [← List.take_append_drop s lens, List.count_append, hd, List.count_cons_self]
  omega

/-! ## The code space (R347) -/

/-- How many codewords of length `l` there are; no symbol has length 0. -/
def codeCount (lens : List Nat) (l : Nat) : Nat := if l = 0 then 0 else lens.count l

theorem codeCount_of_pos {lens : List Nat} {l : Nat} (h : 1 ≤ l) : codeCount lens l = lens.count l := if_neg (by omega)

theorem firstCode_succ (lens : List Nat) (l : Nat) : firstCode lens (l + 1) = 2 * (firstCode lens l + codeCount lens l) := rfl

/-- The part of `K` that the symbols of length at most `l` take. -/
def occupancyUpTo (lens : List Nat) (l : Nat) : Nat :=
  (lens.map fun x => if x = 0 ∨ l < x then 0 else 2 ^ (15 - x)).sum

theorem occupancyUpTo_zero (lens : List Nat) : occupancyUpTo lens 0 = 0 := by
  simp [occupancyUpTo, Nat.pos_iff_ne_zero, Classical.em]

theorem occupancyUpTo_succ (lens : List Nat) (l : Nat) :
    occupancyUpTo lens (l + 1) = occupancyUpTo lens l + lens.count (l + 1) * 2 ^ (15 - (l + 1)) := by
  induction lens with
  | nil => simp [occupancyUpTo]
  | cons x xs ih =>
    simp only [occupancyUpTo, List.map_cons, List.sum_cons] at ih ⊢
    by_cases hx : x = l + 1
    · subst hx
      rw [List.count_cons_self, ih, if_neg (by omega), if_pos (by omega), Nat.add_mul]
      omega
    · rw [List.count_cons_of_ne hx, ih]
      by_cases h : x = 0 ∨ l < x
      · rw [if_pos h, if_pos (by omega)]; omega
      · rw [if_neg h, if_neg (by omega)]; omega

theorem occupancyUpTo_le (lens : List Nat) (l : Nat) : occupancyUpTo lens l ≤ occupancy lens := by
  refine List.sum_le_sum fun x _ => ?_
  by_cases hx : x = 0
  · simp [hx]
  · simp only [hx, false_or, if_false]
    split <;> simp

/-- The first value behind the codewords of length `l`, in units of 2^-15, is what the lengths up to `l` occupy. -/
theorem codeEnd_eq_occupancyUpTo (lens : List Nat) {l : Nat} (hl : l ≤ 15) :
    (firstCode lens l + codeCount lens l) * 2 ^ (15 - l) = occupancyUpTo lens l := by
  induction l with
  | zero => simp [firstCode, codeCount, occupancyUpTo_zero]
  | succ l ih =>
    rw [occupancyUpTo_succ, ← ih (by omega), firstCode_succ, codeCount_of_pos (by omega : 1 ≤ l + 1), Nat.add_mul,
      show 15 - l = (15 - (l + 1)) + 1 by omega, Nat.pow_succ]
    ring

/-- Codewords of a longer length begin behind those of a shorter one. -/
theorem codeEnd_le_firstCode (lens : List Nat) (j d : Nat) :
    (firstCode lens j + codeCount lens j) * 2 ^ (d + 1) ≤ firstCode lens (j + (d + 1)) := by
  induction d with
  | zero => rw [Nat.zero_add, firstCode_succ]; omega
  | succ d ih =>
    rw [← Nat.add_assoc j, firstCode_succ, Nat.pow_succ, ← Nat.mul_assoc]
    omega

/-! ## The place of a codeword -/

/-- A symbol that has a codeword: its length `l` is one of 1 to 15. -/
structure HasCode (lens : List Nat) (s l : Nat) : Prop where
  lt : s < lens.length
  len : lens.getD s 0 = l
  pos : 1 ≤ l
  le : l ≤ 15

section
variable {lens : List Nat} {s l : Nat} (h : HasCode lens s l)
include h

theorem codeword_eq : codeword lens s = firstCode lens l + (lens.take s).count l := by
  rw [codeword, h.len]

/-- Its codeword is one of those of its length. -/
theorem codeword_mem : firstCode lens l ≤ codeword lens s ∧ codeword lens s < firstCode lens l + lens.count l := by
  have hc := count_take_lt_count h.lt h.len
  rw [codeword_eq h]
  omega

/-- The codeword lies in the occupied part of the code space. -/
theorem codeword_lt_occupancy : codeword lens s * 2 ^ (15 - l) < occupancy lens := by
  have hlt : codeword lens s * 2 ^ (15 - l) < (firstCode lens l + codeCount lens l) * 2 ^ (15 - l) := by
    rw [codeCount_of_pos h.pos]
    exact Nat.mul_lt_mul_of_pos_right (codeword_mem h).2 (Nat.two_pow_pos _)
  rw [codeEnd_eq_occupancyUpTo lens h.le] at hlt
  exact hlt.trans_le (occupancyUpTo_le lens l)

/-- In a code that is not over-subscribed the codeword fits its length. -/
theorem codeword_lt_two_pow (hk : occupancy lens ≤ 2 ^ 15) : codeword lens s < 2 ^ l := by
  have hlt := (codeword_lt_occupancy h).trans_le hk
  have hle := h.le
  rw [show 2 ^ 15 = 2 ^ l * 2 ^ (15 - l) by rw [← Nat.pow_add]; congr 1; omega] at hlt
  exact Nat.lt_of_mul_lt_mul_right hlt

/-- The first bits of a codeword, read as a number, lie behind all codewords of that shorter length. -/
theorem codeEnd_le_codewordHead {j : Nat} (hj : j < l) : firstCode lens j + codeCount lens j ≤ codeword lens s / 2 ^ (l - j) := by
  rw [Nat.le_div_iff_mul_le (Nat.two_pow_pos _)]
  have hle := codeEnd_le_firstCode lens j (l - j - 1)
  rw [show l - j - 1 + 1 = l - j by omega, show j + (l - j) = l by omega] at hle
  exact hle.trans (codeword_mem h).1

/-- The first bits of a codeword lie below the end of the occupied code space, so they do not end the search (R360). -/
theorem codewordHead_lt_occupancy {j : Nat} (hj : j ≤ l) : codeword lens s / 2 ^ (l - j) * 2 ^ (15 - j) < occupancy lens := by
  have hle := h.le
  calc codeword lens s / 2 ^ (l - j) * 2 ^ (15 - j)
      = codeword lens s / 2 ^ (l - j) * 2 ^ (l - j) * 2 ^ (15 - l) := by
        rw [Nat.mul_assoc, ← Nat.pow_add]; congr 2; omega
    _ ≤ codeword lens s * 2 ^ (15 - l) := Nat.mul_le_mul_right _ (Nat.div_mul_le_self _ _)
    _ < occupancy lens := codeword_lt_occupancy h

end

/-! ## Reading a codeword -/

/-- A number of `l` bits cut to its first `j + 1`, from its first `j` and the next bit. -/
theorem head_succ (c : Nat) {l j : Nat} (hj : j < l) :
    2 * (c / 2 ^ (l - j)) + (c.testBit (l - 1 - j)).toNat = c / 2 ^ (l - (j + 1)) := by
  rw [show l - j = (l - (j + 1)) + 1 by omega, Nat.pow_succ, ← Nat.div_div_eq_div_mul, show l - 1 - j = l - (j + 1) by omega,
    Nat.testBit_eq_decide_div_mod_eq]
  generalize c / 2 ^ (l - (j + 1)) = q
  rcases Nat.mod_two_eq_zero_or_one q with hq | hq <;> simp [hq] <;> omega

/-- The loop of R360, from the first `j` bits of a symbol's codeword on, reads the codeword to its end. -/
theorem symLoop_codeword {ε : Type} {rd : Nat → Except ε Bool} {lens : List Nat} {s l pos : Nat} (h : HasCode lens s l)
    (hb : ∀ k < l, rd (pos + k) = .ok ((codeword lens s).testBit (l - 1 - k))) {fuel j : Nat} (hj : j < l) (hf : l ≤ j + fuel) :
    symLoop rd lens (occupancy lens) pos fuel j (codeword lens s / 2 ^ (l - j)) (firstCode lens j) = .ok (some (s, l)) := by
  induction fuel generalizing j with
  | zero => omega
  | succ fuel ih =>
    have hfirst : 2 * (firstCode lens j + if j = 0 then 0 else lens.count j) = firstCode lens (j + 1) := rfl
    simp only [symLoop, hb j hj, head_succ _ hj, hfirst]
    by_cases hlast : j + 1 = l
    · subst hlast
      have hm := codeword_mem h
      rw [Nat.sub_self, Nat.pow_zero, Nat.div_one, if_pos hm, codeword_eq h, Nat.add_sub_cancel_left,
        symOfRank_count_take h.lt h.len, Nat.zero_add]
    · have hbehind := codeEnd_le_codewordHead h (j := j + 1) (by omega)
      rw [codeCount_of_pos (by omega)] at hbehind
      have hbelow := codewordHead_lt_occupancy h (j := j + 1) (by omega)
      rw [if_neg (by omega), Nat.shiftLeft_eq, if_neg (by omega)]
      exact ih (by omega) (by omega)

theorem decodeSym_codeword {ε : Type} {rd : Nat → Except ε Bool} {lens : List Nat} {s l pos : Nat} (h : HasCode lens s l)
    (hk : occupancy lens ≤ 2 ^ 15) (hb : ∀ k < l, rd (pos + k) = .ok ((codeword lens s).testBit (l - 1 - k))) :
    decodeSym rd lens pos = .ok (some (s, l)) := by
  have hpos := codeword_lt_occupancy h
  have hloop := symLoop_codeword h hb (fuel := 15) (j := 0) h.pos (by have := h.le; omega)
  rw [Nat.sub_zero, Nat.div_eq_of_lt (codeword_lt_two_pow h hk)] at hloop
  rw [decodeSym, if_neg (by omega)]
  exact hloop

/-- Settles O58: the beginnings of a codeword lie behind the shorter codewords and inside the occupied code space. -/
theorem canonicalDecode : Obligations.CanonicalDecode := by
  unfold Obligations.CanonicalDecode
  intro ε rd lens pos s l hs hl h1 h15 hk hb
  exact decodeSym_codeword ⟨hs, hl, h1, h15⟩ hk hb

/-- What the loop of R360 answers is a symbol whose codeword is the bits read. -/
theorem symLoop_some_codeword {ε : Type} {rd : Nat → Except ε Bool} {lens : List Nat} {k pos fuel j v s l : Nat}
    (h : symLoop rd lens k pos fuel j v (firstCode lens j) = .ok (some (s, l))) (hf : j + fuel ≤ 15)
    (hb : ∀ i < j, rd (pos + i) = .ok (v.testBit (j - 1 - i))) :
    HasCode lens s l ∧ ∀ i < l, rd (pos + i) = .ok ((codeword lens s).testBit (l - 1 - i)) := by
  induction fuel generalizing j v with
  | zero => cases h
  | succ fuel ih =>
    simp only [symLoop] at h
    split at h
    · cases h
    · rename_i b hbit
      have hfirst : 2 * (firstCode lens j + if j = 0 then 0 else lens.count j) = firstCode lens (j + 1) := rfl
      simp only [hfirst] at h
      have hb' : ∀ i < j + 1, rd (pos + i) = .ok ((2 * v + b.toNat).testBit (j + 1 - 1 - i)) := by
        intro i hi
        rcases Nat.lt_succ_iff_lt_or_eq.1 hi with hi | rfl
        · rw [hb i hi, show j + 1 - 1 - i = (j - 1 - i) + 1 by omega, Nat.testBit_succ]
          congr 2
          have : b.toNat < 2 := b.toNat_lt
          omega
        · rw [hbit]
          cases b <;> simp
      split at h
      · rename_i hm
        cases h
        obtain ⟨s, hs, hr, hl, hc⟩ := symOfRank_spec (lens := lens) (l := j + 1) (r := 2 * v + b.toNat - firstCode lens (j + 1))
          (by omega) 0
        have hcode : HasCode lens s (j + 1) := ⟨hs, hl, by omega, by omega⟩
        have hv : codeword lens s = 2 * v + b.toNat := by rw [codeword_eq hcode, hc]; omega
        rw [hr, Nat.zero_add, hv]
        exact ⟨hcode, hb'⟩
      · split at h
        · cases h
        · exact ih h (by omega) hb'

theorem decodeSym_some_codeword {ε : Type} {rd : Nat → Except ε Bool} {lens : List Nat} {pos s l : Nat}
    (h : decodeSym rd lens pos = .ok (some (s, l))) :
    HasCode lens s l ∧ ∀ i < l, rd (pos + i) = .ok ((codeword lens s).testBit (l - 1 - i)) := by
  unfold decodeSym at h
  split at h
  · cases h
  · exact symLoop_some_codeword (j := 0) h (by omega) (fun i hi => absurd hi (Nat.not_lt_zero i))

end Sys2Proof
end

section
/-! Reading bits: each reader of the decoder answers a value exactly where the source holds that value's bits (R11, R104, R105, R151,
R152). -/

namespace Sys2Proof

/-- The source's bits from `pos` on begin with `bs`. -/
def HasBits {ε : Type} (rd : Nat → Except ε Bool) (pos : Nat) (bs : List Bool) : Prop :=
  ∀ (k : Nat) (b : Bool), bs[k]? = some b → rd (pos + k) = .ok b

/-- A field of `n` bits is written from the number's low `n` bits (R151). -/
theorem fieldBits_ofNat (n x : Nat) : fieldBits n (BitVec.ofNat n x).toNat = fieldBits n x := by
  simp +contextual [fieldBits, Nat.testBit_mod_two_pow]

section
variable {ε : Type} {rd : Nat → Except ε Bool} {pos : Nat}

theorem hasBits_nil : HasBits rd pos [] := fun k b h => by simp at h

theorem hasBits_append {as bs : List Bool} : HasBits rd pos (as ++ bs) ↔ HasBits rd pos as ∧ HasBits rd (pos + as.length) bs := by
  constructor
  · refine fun h => ⟨fun k b hk => h k b ?_, fun k b hk => ?_⟩
    · rw [List.getElem?_append_left (List.getElem?_eq_some_iff.1 hk).1, hk]
    · rw [Nat.add_assoc]
      exact h _ b (by rwa [List.getElem?_append_right (Nat.le_add_right _ _), Nat.add_sub_cancel_left])
  · rintro ⟨ha, hb⟩ k b hk
    by_cases hlt : k < as.length
    · exact ha k b (by rwa [List.getElem?_append_left hlt] at hk)
    · rw [List.getElem?_append_right (by omega)] at hk
      have := hb _ b hk
      rwa [Nat.add_assoc, Nat.add_sub_cancel' (by omega)] at this

/-! ## Fields and codewords -/

theorem hasBits_fieldBits {n v : Nat} : HasBits rd pos (fieldBits n v) ↔ ∀ k < n, rd (pos + k) = .ok (v.testBit k) := by
  refine ⟨fun h k hk => h k _ (fieldBits_get n v k hk), fun h k b hb => ?_⟩
  have hk : k < n := by simpa [fieldBits_length] using (List.getElem?_eq_some_iff.1 hb).1
  obtain rfl : v.testBit k = b := by simpa [fieldBits_get n v k hk] using hb
  exact h k hk

theorem codeBits_get {n c k : Nat} (hk : k < n) : (codeBits n c)[k]? = some (c.testBit (n - 1 - k)) := by
  rw [codeBits, List.getElem?_reverse (by rwa [fieldBits_length]), fieldBits_length, fieldBits_get _ _ _ (by omega)]

theorem hasBits_codeBits {n c : Nat} : HasBits rd pos (codeBits n c) ↔ ∀ k < n, rd (pos + k) = .ok (c.testBit (n - 1 - k)) := by
  refine ⟨fun h k hk => h k _ (codeBits_get hk), fun h k b hb => ?_⟩
  have hk : k < n := by simpa [codeBits_length] using (List.getElem?_eq_some_iff.1 hb).1
  obtain rfl : c.testBit (n - 1 - k) = b := by simpa [codeBits_get hk] using hb
  exact h k hk

theorem readBits_hasBits {n v : Nat} (h : readBits rd pos n = .ok v) : HasBits rd pos (fieldBits n v) := by
  rw [hasBits_fieldBits]
  induction n generalizing v with
  | zero => exact fun k hk => absurd hk (Nat.not_lt_zero k)
  | succ n ih =>
    unfold readBits at h
    split at h
    · cases h
    · rename_i w hw
      split at h
      · cases h
      · rename_i b hb
        cases h
        have hlt := readBits_lt hw
        intro k hk
        rw [Nat.add_comm w, Nat.mul_comm, Nat.testBit_two_pow_mul_add _ hlt]
        rcases Nat.lt_succ_iff_lt_or_eq.1 hk with hk | rfl
        · rw [if_pos hk, ih hw k hk]
        · rw [if_neg (Nat.lt_irrefl k), hb, Nat.sub_self]
          cases b <;> rfl

/-- R151: a field reads as `v` exactly where the bits of `v` stand. -/
theorem readBits_ok_iff {n v : Nat} : readBits rd pos n = .ok v ↔ v < 2 ^ n ∧ HasBits rd pos (fieldBits n v) := by
  refine ⟨fun h => ⟨readBits_lt h, readBits_hasBits h⟩, fun ⟨hv, h⟩ => ?_⟩
  rw [readBits_of_bits (hasBits_fieldBits.1 h), Nat.mod_eq_of_lt hv]

/-! ## Bytes and big-endian numbers -/

/-- R105, R150. -/
theorem readByte_ok_iff {b : Byte} : readByte rd pos = .ok b ↔ HasBits rd pos (fieldBits 8 b.toNat) := by
  constructor
  · intro h
    unfold readByte at h
    split at h
    · cases h
    · rename_i v hv
      cases h
      rw [BitVec.toNat_ofNat, Nat.mod_eq_of_lt (readBits_lt hv)]
      exact readBits_hasBits hv
  · intro h
    simp [readByte, readBits_ok_iff.2 ⟨b.isLt, h⟩]

theorem hasBits_byteBits_cons {b : Byte} {bs : List Byte} :
    HasBits rd pos (byteBits (b :: bs)) ↔ readByte rd pos = .ok b ∧ HasBits rd (pos + 8) (byteBits bs) := by
  rw [show byteBits (b :: bs) = fieldBits 8 b.toNat ++ byteBits bs from rfl, hasBits_append, fieldBits_length, readByte_ok_iff]

theorem hasBits_byteBits_append {as bs : List Byte} :
    HasBits rd pos (byteBits (as ++ bs)) ↔ HasBits rd pos (byteBits as) ∧ HasBits rd (pos + 8 * as.length) (byteBits bs) := by
  rw [show byteBits (as ++ bs) = byteBits as ++ byteBits bs from List.flatMap_append, hasBits_append, byteBits_length]

/-- The bytes of a big-endian number are its bytes (R11). -/
theorem be32Of_be32Bytes (w : Word) :
    be32Of (w.extractLsb' 24 8) (w.extractLsb' 16 8) (w.extractLsb' 8 8) (w.extractLsb' 0 8) = w.toNat := by
  have := w.isLt
  simp only [be32Of, BitVec.extractLsb'_toNat, Nat.shiftRight_eq_div_pow]
  omega

theorem be32Of_lt (a b c d : Byte) : be32Of a b c d < 2 ^ 32 := by
  have := a.isLt; have := b.isLt; have := c.isLt; have := d.isLt
  unfold be32Of
  omega

/-- Four bytes are determined by their number. -/
theorem be32Of_inj {a b c d a' b' c' d' : Byte} (h : be32Of a b c d = be32Of a' b' c' d') : [a, b, c, d] = [a', b', c', d'] := by
  have := a.isLt; have := b.isLt; have := c.isLt; have := d.isLt
  have := a'.isLt; have := b'.isLt; have := c'.isLt; have := d'.isLt
  simp only [List.cons.injEq, and_true, ← BitVec.toNat_inj]
  unfold be32Of at h
  omega

theorem be32Bytes_be32Of (a b c d : Byte) : be32Bytes (trunc32 (be32Of a b c d)) = [a, b, c, d] :=
  be32Of_inj (by rw [be32Of_be32Bytes, BitVec.toNat_ofNat, Nat.mod_eq_of_lt (be32Of_lt a b c d)])

/-- R104: a big-endian number reads as `v` exactly where its four bytes stand. -/
theorem readBe32_ok_iff {v : Nat} : readBe32 rd pos = .ok v ↔ v < 2 ^ 32 ∧ HasBits rd pos (byteBits (be32Bytes (trunc32 v))) := by
  constructor
  · intro h
    unfold readBe32 at h
    split at h
    · cases h
    · rename_i a ha
      split at h
      · cases h
      · rename_i b hb
        split at h
        · cases h
        · rename_i c hc
          split at h
          · cases h
          · rename_i d hd
            cases h
            rw [be32Bytes_be32Of]
            simp only [hasBits_byteBits_cons, ha, hb, hc, hd, Nat.add_assoc, true_and, be32Of_lt]
            exact hasBits_nil
  · rintro ⟨hv, h⟩
    simp only [be32Bytes, hasBits_byteBits_cons, Nat.add_assoc] at h
    obtain ⟨ha, hb, hc, hd, -⟩ := h
    simpa [readBe32, ha, hb, hc, hd, be32Of_be32Bytes] using hv

theorem readBe32_word {w : Word} (h : HasBits rd pos (byteBits (be32Bytes w))) : readBe32 rd pos = .ok w.toNat :=
  readBe32_ok_iff.2 ⟨w.isLt, by rwa [trunc32, BitVec.ofNat_toNat, BitVec.setWidth_eq]⟩

/-- R105, R148: two bytes in a row. -/
theorem hasBits_two_bytes {a b : Byte} :
    HasBits rd pos (byteBits [a, b]) ↔ readByte rd pos = .ok a ∧ readByte rd (pos + 8) = .ok b := by
  rw [hasBits_byteBits_cons, hasBits_byteBits_cons, and_iff_left (show HasBits rd (pos + 8 + 8) (byteBits []) from hasBits_nil)]

end

theorem matchBytes_ok_iff {rd : Nat → Except DecodeError Bool} {pos : Nat} {bs : List Byte} :
    matchBytes rd pos bs = .ok true ↔ HasBits rd pos (byteBits bs) := by
  induction bs generalizing pos with
  | nil => simp [matchBytes, byteBits, hasBits_nil]
  | cons b bs ih =>
    rw [hasBits_byteBits_cons, ← ih, matchBytes]
    cases h : readByte rd pos with
    | error e => simp
    | ok x => by_cases hx : x = b <;> simp [hx]

/-! ## A list of bits as the source -/

theorem listBits_ok_iff {bits : List Bool} {k : Nat} {b : Bool} : listBits bits k = .ok b ↔ bits[k]? = some b := by
  unfold listBits
  cases bits[k]? <;> simp

theorem hasBits_listBits {bits bs : List Bool} : HasBits (listBits bits) 0 bs ↔ bs <+: bits := by
  simp only [HasBits, Nat.zero_add, listBits_ok_iff, List.prefix_iff_getElem?]
  exact ⟨fun h k hk => h k _ (List.getElem?_eq_getElem hk), fun h k b hb => by
    obtain ⟨hk, rfl⟩ := List.getElem?_eq_some_iff.1 hb
    exact h k hk⟩

end Sys2Proof
end

section
/-! The encoding as a relation (30_encoding.md R140 to R165): which bits stand for which instruction in which layer. The decoder
answers exactly the instructions whose bits begin its source. -/

namespace Sys2Proof

/-- R157, R158, R161: `bs` are a codeword of `lens` and extra bits, and `i` is their row. -/
inductive CodedBits (lens : List Nat) (extra : Nat → Nat) (mk : Nat → Nat → Instr) : List Bool → Instr → Prop
  | intro {s l x : Nat} {i : Instr} (code : HasCode lens s l) (fits : x < 2 ^ extra s) (row : mk s x = i) :
    CodedBits lens extra mk (codeBits l (codeword lens s) ++ fieldBits (extra s) x) i

/-- The extra bits of a code-length symbol (R161), none after symbol 16 with no previous length (R351). -/
def clExtraAfter (noPrev : Bool) (s : Nat) : Nat := if noPrev && s == 16 then 0 else clExtra s

/-- `bs` are the bits of instruction `i` in layer `l`. -/
inductive Encodes : Layer → List Bool → Instr → Prop
  /-- R106, R141. -/
  | hostWrite {off : BitVec 8} {busy : Bool} {i : Instr} (v : Word) (aligned : offAligned off = true)
      (row : instrOfWrite busy off v = i) : Encodes (.hostWrite off busy) (fieldBits 32 v.toNat) i
  /-- R106, R212: a read carries no bits. -/
  | hostRead {off : BitVec 8} (aligned : offAligned off = true) : Encodes (.hostRead off) [] (.rdReg off)
  /-- R142. -/
  | signature : Encodes .signature (byteBits sigBytes) .sig
  /-- R143, R144. -/
  | chunk {i : Instr} (len typ : Word) (row : instrOfChunk len typ = i) :
      Encodes .chunk (byteBits (be32Bytes len ++ be32Bytes typ)) i
  /-- R148. -/
  | zlibCm (cmf flg : Byte) : Encodes .zlibCm (byteBits [cmf, flg]) (.zlibCm cmf flg)
  | zlibFdict (cmf flg : Byte) : Encodes .zlibFdict (byteBits [cmf, flg]) (.zlibFdict cmf flg)
  | zlibFcheck (cmf flg : Byte) : Encodes .zlibFcheck (byteBits [cmf, flg]) (.zlibFcheck cmf flg)
  /-- R153. -/
  | block {i : Instr} (h : Nat) (fits : h < 2 ^ 3) (row : instrOfBlock h = i) : Encodes .block (fieldBits 3 h) i
  /-- R156, R157. -/
  | litLen {dyn : Bool} {lens : List Nat} {bs : List Bool} {i : Instr} (coded : CodedBits lens lenExtra (instrOfLitLen dyn) bs i) :
      Encodes (.litLen dyn lens) bs i
  /-- R158. -/
  | dist {lens : List Nat} {bs : List Bool} {i : Instr} (coded : CodedBits lens distExtra instrOfDist bs i) :
      Encodes (.dist lens) bs i
  /-- R161. -/
  | cl {noPrev : Bool} {lens : List Nat} {bs : List Bool} {i : Instr}
      (coded : CodedBits lens (clExtraAfter noPrev) instrOfCl bs i) : Encodes (.cl noPrev lens) bs i
  /-- R164. -/
  | filter {i : Instr} (ft : Byte) (row : instrOfFilter ft = i) : Encodes .filter (byteBits [ft]) i

/-! ## The decoder answers only encodings -/

theorem decodeCoded_codedBits {ε : Type} {rd : Nat → Except ε Bool} {lens : List Nat} {extra : Nat → Nat} {mk : Nat → Nat → Instr}
    {pos n : Nat} {i : Instr} (h : decodeCoded rd lens extra mk pos = .ok (some (i, n))) :
    ∃ bs, CodedBits lens extra mk bs i ∧ HasBits rd pos bs ∧ n = bs.length := by
  unfold decodeCoded at h
  split at h
  · cases h
  · cases h
  · rename_i s l hs
    split at h
    · cases h
    · rename_i x hx
      cases h
      obtain ⟨hcode, hbits⟩ := decodeSym_some_codeword hs
      obtain ⟨hfits, hextra⟩ := readBits_ok_iff.1 hx
      refine ⟨_, ⟨hcode, hfits, rfl⟩, hasBits_append.2 ⟨hasBits_codeBits.2 hbits, ?_⟩, ?_⟩
      · rwa [codeBits_length]
      · rw [List.length_append, codeBits_length, fieldBits_length]

theorem namedOr_ok {r : Except DecodeError (Option (Instr × Nat))} {x : Instr × Nat} (h : namedOr r = .ok x) : r = .ok (some x) := by
  unfold namedOr at h
  split at h <;> cases h
  rfl

theorem decodeZlib_ok_iff {rd : Nat → Except DecodeError Bool} {mk : Byte → Byte → Instr} {i : Instr} {n : Nat} :
    decodeZlib rd mk = .ok (i, n) ↔ ∃ cmf flg, mk cmf flg = i ∧ HasBits rd 0 (byteBits [cmf, flg]) ∧ n = 16 := by
  simp only [hasBits_two_bytes]
  unfold decodeZlib
  constructor
  · intro h
    split at h
    · cases h
    · split at h
      · cases h
      · cases h
        exact ⟨_, _, rfl, ⟨‹_›, ‹_›⟩, rfl⟩
  · rintro ⟨cmf, flg, rfl, ⟨hc, hf⟩, rfl⟩
    simp [hc, hf]

/-- What the decoder answers stands as its bits at the head of the source. -/
theorem encodes_of_decode {l : Layer} {bits : List Bool} {i : Instr} {n : Nat} (h : decode l bits = .ok (i, n)) :
    ∃ bs, Encodes l bs i ∧ bs <+: bits ∧ n = bs.length := by
  simp only [← hasBits_listBits]
  cases l with
  | hostWrite off busy =>
    simp only [decode] at h
    split at h
    · split at h
      · cases h
      · rename_i ha _ v hv
        obtain ⟨hlt, hbits⟩ := readBits_ok_iff.1 hv
        cases h
        refine ⟨_, .hostWrite (trunc32 v) ha rfl, ?_, (fieldBits_length _ _).symm⟩
        rwa [BitVec.toNat_ofNat, Nat.mod_eq_of_lt hlt]
    · cases h
  | hostRead off =>
    simp only [decode] at h
    split at h
    · cases h
      exact ⟨_, .hostRead ‹_›, hasBits_nil, rfl⟩
    · cases h
  | signature =>
    simp only [decode] at h
    split at h
    · cases h
    · cases h
      exact ⟨_, .signature, matchBytes_ok_iff.1 ‹_›, rfl⟩
    · cases h
  | chunk =>
    simp only [decode] at h
    split at h
    · cases h
    · split at h
      · cases h
      · rename_i _ len hlen _ typ htyp
        cases h
        exact ⟨_, .chunk _ _ rfl, hasBits_byteBits_append.2 ⟨(readBe32_ok_iff.1 hlen).2, (readBe32_ok_iff.1 htyp).2⟩, rfl⟩
  | zlibCm =>
    obtain ⟨cmf, flg, rfl, hbits, rfl⟩ := decodeZlib_ok_iff.1 h
    exact ⟨_, .zlibCm cmf flg, hbits, rfl⟩
  | zlibFdict =>
    obtain ⟨cmf, flg, rfl, hbits, rfl⟩ := decodeZlib_ok_iff.1 h
    exact ⟨_, .zlibFdict cmf flg, hbits, rfl⟩
  | zlibFcheck =>
    obtain ⟨cmf, flg, rfl, hbits, rfl⟩ := decodeZlib_ok_iff.1 h
    exact ⟨_, .zlibFcheck cmf flg, hbits, rfl⟩
  | block =>
    simp only [decode] at h
    split at h
    · cases h
    · rename_i v hv
      obtain ⟨hlt, hbits⟩ := readBits_ok_iff.1 hv
      cases h
      exact ⟨_, .block v hlt rfl, hbits, rfl⟩
  | litLen dyn lens =>
    obtain ⟨bs, hcoded, hbits⟩ := decodeCoded_codedBits (namedOr_ok h)
    exact ⟨bs, .litLen hcoded, hbits⟩
  | dist lens =>
    obtain ⟨bs, hcoded, hbits⟩ := decodeCoded_codedBits (namedOr_ok h)
    exact ⟨bs, .dist hcoded, hbits⟩
  | cl noPrev lens =>
    obtain ⟨bs, hcoded, hbits⟩ := decodeCoded_codedBits (namedOr_ok h)
    exact ⟨bs, .cl hcoded, hbits⟩
  | filter =>
    simp only [decode] at h
    split at h
    · cases h
    · rename_i ft hft
      cases h
      exact ⟨_, .filter ft rfl, hasBits_byteBits_cons.2 ⟨hft, hasBits_nil⟩, rfl⟩

/-! ## The decoder answers every encoding -/

theorem decodeCoded_of_codedBits {ε : Type} {rd : Nat → Except ε Bool} {lens : List Nat} {extra : Nat → Nat}
    {mk : Nat → Nat → Instr} {pos : Nat} {bs : List Bool} {i : Instr} (h : CodedBits lens extra mk bs i)
    (hk : occupancy lens ≤ 2 ^ 15) (hb : HasBits rd pos bs) :
    decodeCoded rd lens extra mk pos = .ok (some (i, bs.length)) := by
  obtain ⟨hcode, hfits, hrow⟩ := h
  obtain ⟨hword, hextra⟩ := hasBits_append.1 hb
  rw [codeBits_length] at hextra
  rw [decodeCoded, decodeSym_codeword hcode hk (hasBits_codeBits.1 hword)]
  simp only [readBits_ok_iff.2 ⟨hfits, hextra⟩, hrow, List.length_append, codeBits_length, fieldBits_length]

theorem overSubscribed_eq_false_iff {lens : List Nat} : overSubscribed lens = false ↔ occupancy lens ≤ 2 ^ 15 := by
  rw [overSubscribed, decide_eq_false_iff_not, Nat.not_lt]

/-- The layer's code, where it has one, is not over-subscribed (R347). -/
def NotOver : Layer → Prop
  | .litLen _ lens | .dist lens | .cl _ lens => occupancy lens ≤ 2 ^ 15
  | _ => True

/-- Bits of an instruction at the head of the source decode to it, whatever follows. -/
theorem decode_of_encodes {l : Layer} {bits bs : List Bool} {i : Instr} (h : Encodes l bs i) (hk : NotOver l) (hp : bs <+: bits) :
    decode l bits = .ok (i, bs.length) := by
  have hb := hasBits_listBits.2 hp
  cases h with
  | hostWrite v ha hrow => simp [decode, ha, readBits_ok_iff.2 ⟨v.isLt, hb⟩, hrow, fieldBits_length]
  | hostRead ha => simp [decode, ha]
  | signature => 
    simp only [decode, matchBytes_ok_iff.2 hb]
    rfl
  | chunk len typ hrow =>
    obtain ⟨hlen, htyp⟩ := hasBits_byteBits_append.1 hb
    have htyp : HasBits (listBits bits) 32 (byteBits (be32Bytes typ)) := htyp
    simp [decode, readBe32_word hlen, readBe32_word htyp, hrow, byteBits_length, be32Bytes]
  | zlibCm cmf flg => exact decodeZlib_ok_iff.2 ⟨cmf, flg, rfl, hb, byteBits_length _⟩
  | zlibFdict cmf flg => exact decodeZlib_ok_iff.2 ⟨cmf, flg, rfl, hb, byteBits_length _⟩
  | zlibFcheck cmf flg => exact decodeZlib_ok_iff.2 ⟨cmf, flg, rfl, hb, byteBits_length _⟩
  | block v hlt hrow => simp [decode, readBits_ok_iff.2 ⟨hlt, hb⟩, hrow, fieldBits_length]
  | litLen hcoded => exact congrArg namedOr (decodeCoded_of_codedBits hcoded hk hb)
  | dist hcoded => exact congrArg namedOr (decodeCoded_of_codedBits hcoded hk hb)
  | cl hcoded => exact congrArg namedOr (decodeCoded_of_codedBits hcoded hk hb)
  | filter ft hrow => simp [decode, (hasBits_byteBits_cons.1 hb).1, hrow, byteBits_length]

end Sys2Proof
end

section
/-! Decode and encode: the encoder writes each well-formed instruction's bits of its layer, and in the encoder's codes nothing else
stands for that instruction (30_encoding.md R141 to R165). -/

namespace Sys2Proof

open Machine (encoderLayer)

/-! ## The CTRL word (R141) -/

theorem getLsbD_toNat (v : Word) (k : Nat) : (v.getLsbD k).toNat = v.toNat / 2 ^ k % 2 := Nat.toNat_testBit _ _

theorem getLsbD_eq_iff {v : Word} {k : Nat} {b : Bool} : v.getLsbD k = b ↔ v.toNat / 2 ^ k % 2 = b.toNat := by
  rw [← getLsbD_toNat]
  cases v.getLsbD k <;> cases b <;> decide

/-- A CTRL word is made of its fields. -/
theorem ctrlWord_fields (v : Word) :
    ctrlWord (v.getLsbD 0) (v.getLsbD 1) (v.extractLsb' 2 3) (v.getLsbD 5) (v.getLsbD 6) (v.extractLsb' 7 25) = v := by
  have := v.isLt
  apply BitVec.eq_of_toNat_eq
  simp only [ctrlWord, getLsbD_toNat, BitVec.extractLsb'_toNat, BitVec.toNat_ofNat, Nat.shiftRight_eq_div_pow]
  omega

section
variable (st ab : Bool) (m : BitVec 3) (q f : Bool) (r : BitVec 25)

theorem ctrlWord_toNat : (ctrlWord st ab m q f r).toNat =
    st.toNat + ab.toNat * 2 + m.toNat * 4 + q.toNat * 32 + f.toNat * 64 + r.toNat * 128 := by
  have := st.toNat_lt; have := ab.toNat_lt; have := m.isLt; have := q.toNat_lt; have := f.toNat_lt; have := r.isLt
  rw [ctrlWord, BitVec.toNat_ofNat, Nat.mod_eq_of_lt (by omega)]

/-- The fields of a CTRL word are those it was made of. -/
theorem fields_ctrlWord :
    (ctrlWord st ab m q f r).getLsbD 0 = st ∧ (ctrlWord st ab m q f r).getLsbD 1 = ab ∧
      (ctrlWord st ab m q f r).extractLsb' 2 3 = m ∧ (ctrlWord st ab m q f r).getLsbD 5 = q ∧
      (ctrlWord st ab m q f r).getLsbD 6 = f ∧ (ctrlWord st ab m q f r).extractLsb' 7 25 = r := by
  have := st.toNat_lt; have := ab.toNat_lt; have := m.isLt; have := q.toNat_lt; have := f.toNat_lt; have := r.isLt
  simp only [getLsbD_eq_iff, ← BitVec.toNat_inj, BitVec.extractLsb'_toNat, ctrlWord_toNat,
    Nat.shiftRight_eq_div_pow]
  refine ⟨?_, ?_, ?_, ?_, ?_, ?_⟩ <;> omega

end

/-- R141: the row of a CTRL word is well formed and keeps every bit of the word. -/
theorem encode_instrOfCtrl (busy : Bool) (v : Word) :
    (instrOfCtrl busy v).wf = true ∧ encode (instrOfCtrl busy v) = fieldBits 32 v.toNat := by
  have hv := ctrlWord_fields v
  revert hv
  unfold instrOfCtrl
  generalize v.getLsbD 0 = st, v.getLsbD 1 = ab, v.extractLsb' 2 3 = m, v.getLsbD 5 = q, v.getLsbD 6 = f,
    v.extractLsb' 7 25 = r
  rintro rfl
  dsimp only
  split
  · rename_i hab
    obtain rfl : ab = true := (Bool.and_eq_true_iff.1 hab).1
    exact ⟨rfl, rfl⟩
  · rename_i hab
    split
    · rename_i hst
      subst hst
      split
      · rename_i hm; obtain rfl : m = 0#3 := BitVec.eq_of_toNat_eq hm; exact ⟨rfl, rfl⟩
      · rename_i hm; obtain rfl : m = 1#3 := BitVec.eq_of_toNat_eq hm; exact ⟨rfl, rfl⟩
      · rename_i hm; obtain rfl : m = 2#3 := BitVec.eq_of_toNat_eq hm; exact ⟨rfl, rfl⟩
      · rename_i hm; obtain rfl : m = 3#3 := BitVec.eq_of_toNat_eq hm; exact ⟨rfl, rfl⟩
      · simp only [imp_false] at *
        exact ⟨by simp only [Instr.wf, decide_eq_true_eq]; omega, rfl⟩
    · obtain ⟨rfl, rfl⟩ : st = false ∧ ab = false := by simp_all
      exact ⟨rfl, rfl⟩

/-! ## The rows of the layers without a code -/

theorem encode_instrOfWrite (busy : Bool) {off : BitVec 8} (v : Word) (ha : offAligned off = true) :
    (instrOfWrite busy off v).wf = true ∧ encode (instrOfWrite busy off v) = fieldBits 32 v.toNat := by
  unfold instrOfWrite
  split
  · exact encode_instrOfCtrl busy v
  · split
    · exact ⟨rfl, rfl⟩
    · exact ⟨by simp [Instr.wf, *], rfl⟩

/-- R144, R257: each type has the row that names it. -/
theorem encode_instrOfChunk (len typ : Word) :
    (instrOfChunk len typ).wf = true ∧ encode (instrOfChunk len typ) = byteBits (be32Bytes len ++ be32Bytes typ) := by
  unfold instrOfChunk
  split
  · subst typ; exact ⟨rfl, rfl⟩
  · split
    · subst typ; exact ⟨rfl, rfl⟩
    · split
      · subst typ; exact ⟨rfl, rfl⟩
      · split
        · subst typ; exact ⟨rfl, rfl⟩
        · split
          · exact ⟨by simp [Instr.wf, isKnownType, *], rfl⟩
          · exact ⟨by simp [Instr.wf, *], rfl⟩

theorem encode_instrOfBlock {h : Nat} (hlt : h < 2 ^ 3) :
    (instrOfBlock h).wf = true ∧ encode (instrOfBlock h) = fieldBits 3 h := by
  revert h
  decide

theorem encode_instrOfFilter (ft : Byte) : (instrOfFilter ft).wf = true ∧ encode (instrOfFilter ft) = byteBits [ft] := by
  unfold instrOfFilter
  split
  · rename_i h; obtain rfl : ft = 0#8 := BitVec.eq_of_toNat_eq h; exact ⟨rfl, rfl⟩
  · rename_i h; obtain rfl : ft = 1#8 := BitVec.eq_of_toNat_eq h; exact ⟨rfl, rfl⟩
  · rename_i h; obtain rfl : ft = 2#8 := BitVec.eq_of_toNat_eq h; exact ⟨rfl, rfl⟩
  · rename_i h; obtain rfl : ft = 3#8 := BitVec.eq_of_toNat_eq h; exact ⟨rfl, rfl⟩
  · rename_i h; obtain rfl : ft = 4#8 := BitVec.eq_of_toNat_eq h; exact ⟨rfl, rfl⟩
  · simp only [imp_false] at *
    exact ⟨by simp only [Instr.wf, decide_eq_true_eq]; omega, rfl⟩

/-! ## The codes the encoder writes (R159, R160) -/

/-- How many of the first `s` symbols of the fixed literal/length code have length `l` (R159). -/
theorem count_take_fixedLitLen (s l : Nat) : (fixedLitLen.take s).count l =
    (if 8 = l then min s 144 else 0) + (if 9 = l then min (s - 144) 112 else 0) + (if 7 = l then min (s - 256) 24 else 0) +
      (if 8 = l then min (s - 280) 8 else 0) := by
  simp only [fixedLitLen, List.take_append, List.length_append, List.length_replicate, List.take_replicate, List.count_append,
    List.count_replicate, beq_iff_eq]

theorem fixedLitLen_getD {s : Nat} (hs : s < 288) : fixedLitLen.getD s 0 = (fixedLitLenWord s).1 := by
  simp only [fixedLitLen, fixedLitLenWord, List.getD_eq_getElem?_getD, List.getElem?_append, List.getElem?_replicate,
    List.length_append, List.length_replicate]
  grind

/-- The first codewords of the lengths 7, 8 and 9 (R159). -/
theorem firstCode_fixedLitLen : firstCode fixedLitLen 7 = 0 ∧ firstCode fixedLitLen 8 = 0x30 ∧ firstCode fixedLitLen 9 = 0x190 := by
  decide +kernel

/-- R159's table is the canonical code of R342's lengths. -/
theorem codeword_fixedLitLen {s : Nat} (hs : s < 288) : codeword fixedLitLen s = (fixedLitLenWord s).2 := by
  obtain ⟨h7, h8, h9⟩ := firstCode_fixedLitLen
  rw [codeword, fixedLitLen_getD hs, count_take_fixedLitLen]
  unfold fixedLitLenWord
  split_ifs <;> simp [h7, h8, h9] <;> omega

theorem fixedLitLen_hasCode {s : Nat} (hs : s < 288) : HasCode fixedLitLen s (fixedLitLenWord s).1 := by
  refine ⟨by rwa [Machine.fixedLitLen_ok.1], fixedLitLen_getD hs, ?_, ?_⟩ <;>
    (unfold fixedLitLenWord; split_ifs <;> simp)

theorem firstCode_replicate (m l : Nat) {j : Nat} (hj : j ≤ l) : firstCode (List.replicate m l) j = 0 := by
  induction j with
  | zero => rfl
  | succ j ih =>
    have hc : (List.replicate m l).count j = 0 := by rw [List.count_replicate, if_neg (by simp; omega)]
    rw [firstCode_succ, ih (by omega), codeCount, hc, ite_self]

/-- In a code of equal lengths the codeword of a symbol is the symbol (R160, R162). -/
theorem codeword_replicate {m l s : Nat} (hs : s < m) : codeword (List.replicate m l) s = s := by
  have hl : (List.replicate m l).getD s 0 = l := by simp [hs]
  rw [codeword, hl, firstCode_replicate m l (Nat.le_refl l), List.take_replicate, List.count_replicate_self]
  omega

theorem hasCode_replicate {m s : Nat} (hs : s < m) : HasCode (List.replicate m 5) s 5 :=
  ⟨by simpa using hs, by simp [hs], by decide, by decide⟩

/-! ## Literal/length rows (R156, R157) -/

/-- The row of a symbol and an extra-bits value names them. -/
theorem litLenParts_instrOfLitLen (dyn : Bool) {s x : Nat} (hs : s < 288) (hx : x < 2 ^ lenExtra s) :
    litLenParts (instrOfLitLen dyn s x) = some (s, lenExtra s, x) := by
  unfold instrOfLitLen
  split
  · rename_i hlit
    obtain rfl : x = 0 := by simpa [lenExtra, show s < 257 by omega] using hx
    have hm : s % 256 = s := Nat.mod_eq_of_lt hlit
    cases dyn
    · by_cases h : s < 144 <;> simp [h, litLenParts, lenExtra, hm] <;> omega
    · simp [litLenParts, lenExtra, hm]; omega
  · split
    · subst s
      obtain rfl : x = 0 := by simpa [lenExtra] using hx
      rfl
    · have hlo : 257 ≤ s := by omega
      interval_cases s
      all_goals
        simp [lenExtra, lenExtraTable] at hx
        simp [instrOfLength, lenExtra, lenExtraTable, litLenParts]
      all_goals omega

theorem wf_instrOfLitLen (dyn : Bool) {s : Nat} (hs : s < 288) (x : Nat) : (instrOfLitLen dyn s x).wf = true := by
  unfold instrOfLitLen
  split
  · rename_i hlit
    have hm : s % 256 = s := Nat.mod_eq_of_lt hlit
    cases dyn
    · by_cases h : s < 144 <;> simp [h, Instr.wf, hm]
      omega
    · rfl
  · split
    · rfl
    · have hlo : 257 ≤ s := by omega
      interval_cases s <;> rfl

/-- A row with a literal/length symbol is that symbol's row in the layer of its code. -/
theorem litLenParts_row {i : Instr} {s n x : Nat} (h : litLenParts i = some (s, n, x)) (hw : i.wf = true) :
    encode i = litLenBits i ∧ s < 288 ∧ n = lenExtra s ∧ x < 2 ^ n ∧
      ∃ dyn, layerOf i = .litLen dyn fixedLitLen ∧ instrOfLitLen dyn s x = i := by
  cases i with
  | litFixed8 lit =>
    cases h
    have hlt : lit.toNat < 144 := by simpa [Instr.wf] using hw
    exact ⟨rfl, by omega, by simp [lenExtra]; omega, by decide, false, rfl, by simp [instrOfLitLen, hlt]; omega⟩
  | litFixed9 lit =>
    cases h
    have hge : 144 ≤ lit.toNat := by simpa [Instr.wf] using hw
    have hlt := lit.isLt
    exact ⟨rfl, by omega, by simp [lenExtra]; omega, by decide, false, rfl, by simp [instrOfLitLen, hlt, hge]⟩
  | litDyn lit =>
    cases h
    have hlt := lit.isLt
    exact ⟨rfl, by omega, by simp [lenExtra]; omega, by decide, true, rfl, by simp [instrOfLitLen, hlt]⟩
  | eob | len257 | len258 | len259 | len260 | len261 | len262 | len263 | len264 | len285 =>
    cases h
    exact ⟨rfl, by decide, rfl, by decide, false, rfl, rfl⟩
  | len265 e | len266 e | len267 e | len268 e | len269 e | len270 e | len271 e | len272 e | len273 e | len274 e | len275 e
  | len276 e | len277 e | len278 e | len279 e | len280 e | len281 e | len282 e | len283 e | len284 e =>
    cases h
    exact ⟨rfl, by decide, rfl, e.isLt, false, rfl, by simp [instrOfLitLen, instrOfLength]⟩
  | litlenInvalid low =>
    cases h
    revert low
    decide +kernel
  | _ => cases h

/-! ## Distance rows (R158) -/

theorem wf_instrOfDist (s x : Nat) : (instrOfDist s x).wf = true := by
  unfold instrOfDist
  split <;> rfl

theorem distParts_instrOfDist {s x : Nat} (hs : s < 32) (hx : x < 2 ^ distExtra s) :
    distParts (instrOfDist s x) = some (s, distExtra s, x) := by
  interval_cases s
  all_goals
    simp [distExtra, distExtraTable] at hx
    simp [instrOfDist, distExtra, distExtraTable, distParts]
  all_goals omega

theorem distParts_row {i : Instr} {s n x : Nat} (h : distParts i = some (s, n, x)) :
    encode i = distBits i ∧ layerOf i = .dist fixedDist ∧ s < 32 ∧ n = distExtra s ∧ x < 2 ^ n ∧ instrOfDist s x = i := by
  cases i with
  | dist0 | dist1 | dist2 | dist3 =>
    cases h
    exact ⟨rfl, rfl, by decide, rfl, by decide, rfl⟩
  | dist4 e | dist5 e | dist6 e | dist7 e | dist8 e | dist9 e | dist10 e | dist11 e | dist12 e | dist13 e | dist14 e | dist15 e
  | dist16 e | dist17 e | dist18 e | dist19 e | dist20 e | dist21 e | dist22 e | dist23 e | dist24 e | dist25 e | dist26 e
  | dist27 e | dist28 e | dist29 e =>
    cases h
    exact ⟨rfl, rfl, by decide, rfl, e.isLt, by simp [instrOfDist]⟩
  | distInvalid low =>
    cases h
    revert low
    decide +kernel
  | _ => cases h

/-! ## Code-length rows (R161) -/

/-- The symbols that are a code length themselves have no extra bits (R161). -/
theorem clRow_of_lt {s : Nat} (hs : s < 16) (x : Nat) : clExtra s = 0 ∧ instrOfCl s x = .clLen (BitVec.ofNat 4 s) := by
  interval_cases s <;> exact ⟨rfl, rfl⟩

/-- The row of a code-length symbol is written as that symbol and its extra bits. -/
theorem encode_instrOfCl {s : Nat} (hs : s < 19) (x : Nat) :
    (instrOfCl s x).wf = true ∧ encode (instrOfCl s x) = codeBits 5 s ++ fieldBits (clExtra s) x := by
  have hs' : s < 16 ∨ s = 16 ∨ s = 17 ∨ s = 18 := by omega
  rcases hs' with hlen | rfl | rfl | rfl
  · obtain ⟨hextra, hrow⟩ := clRow_of_lt hlen x
    rw [hextra, hrow]
    exact ⟨rfl, by simp [encode, fieldBits, Nat.mod_eq_of_lt hlen]⟩
  all_goals exact ⟨rfl, by simp only [instrOfCl, encode, clExtra, fieldBits_ofNat]⟩

/-! ## Encoding (R141 to R165) -/

/-- The bits of a literal/length row are a codeword and extra bits of the fixed code. -/
theorem encodes_of_litLenParts {i : Instr} {p : Nat × Nat × Nat} (h : litLenParts i = some p) (hw : i.wf = true) :
    Encodes (layerOf i) (encode i) i := by
  obtain ⟨s, n, x⟩ := p
  obtain ⟨henc, hs, rfl, hx, dyn, hl, hrow⟩ := litLenParts_row h hw
  rw [henc, hl]
  have hbits := CodedBits.intro (fixedLitLen_hasCode hs) hx hrow
  rw [codeword_fixedLitLen hs] at hbits
  simpa only [litLenBits, h] using Encodes.litLen hbits

/-- The bits of a distance row are a codeword and extra bits of the fixed code. -/
theorem encodes_of_distParts {i : Instr} {p : Nat × Nat × Nat} (h : distParts i = some p) : Encodes (layerOf i) (encode i) i := by
  obtain ⟨s, n, x⟩ := p
  obtain ⟨henc, hl, hs, rfl, hx, hrow⟩ := distParts_row h
  rw [henc, hl]
  have hbits := CodedBits.intro (hasCode_replicate hs) hx hrow
  rw [codeword_replicate hs] at hbits
  simpa only [distBits, h] using Encodes.dist (lens := fixedDist) hbits

/-- Code-length symbol `s` with its extra bits, in the encoder's code (R161). -/
theorem encodes_cl {s x : Nat} {i : Instr} (hs : s < 19) (hx : x < 2 ^ clExtra s) (hrow : instrOfCl s x = i) :
    Encodes (.cl false encoderCl) (codeBits 5 s ++ fieldBits (clExtra s) x) i := by
  have hbits := CodedBits.intro (extra := clExtraAfter false) (hasCode_replicate hs) hx hrow
  rw [codeword_replicate hs] at hbits
  exact .cl hbits

theorem encodes_ctrl {busy : Bool} {i : Instr} (st ab : Bool) (m : BitVec 3) (q f : Bool) (r : BitVec 25)
    (hrow : instrOfCtrl busy (ctrlWord st ab m q f r) = i) :
    Encodes (.hostWrite 0x04#8 busy) (fieldBits 32 (ctrlWord st ab m q f r).toNat) i :=
  .hostWrite _ rfl (by rwa [instrOfWrite, if_pos rfl])

/-- What the encoder writes of a well-formed instruction are its bits in its layer. -/
theorem encodes_encode {i : Instr} (hw : i.wf = true) : Encodes (layerOf i) (encode i) i := by
  cases i with
  | wrCtrl m q f r => exact encodes_ctrl false false m q f r (by simp only [instrOfCtrl, fields_ctrlWord]; simp)
  | startFull ab q f r => exact encodes_ctrl true ab 0#3 q f r (by simp only [instrOfCtrl, fields_ctrlWord]; simp)
  | startInflate ab q f r => exact encodes_ctrl true ab 1#3 q f r (by simp only [instrOfCtrl, fields_ctrlWord]; simp)
  | startUnfilter ab q f r => exact encodes_ctrl true ab 2#3 q f r (by simp only [instrOfCtrl, fields_ctrlWord]; simp)
  | startCrc32 ab q f r => exact encodes_ctrl true ab 3#3 q f r (by simp only [instrOfCtrl, fields_ctrlWord]; simp)
  | startReserved m ab q f r =>
    have hm : 4 ≤ m.toNat := by simpa [Instr.wf] using hw
    refine encodes_ctrl true ab m q f r ?_
    simp only [instrOfCtrl, fields_ctrlWord, Bool.not_true, Bool.or_self, Bool.and_false, Bool.false_eq_true, if_false,
      if_true]
    split
    iterate 4 omega
    rfl
  | abort st m q f r => exact encodes_ctrl st true m q f r (by simp only [instrOfCtrl, fields_ctrlWord]; simp)
  | wrStatus v => exact .hostWrite v rfl rfl
  | wrReg off v =>
    obtain ⟨⟨ha, h4⟩, h8⟩ : (offAligned off = true ∧ off ≠ 0x04#8) ∧ off ≠ 0x08#8 := by simpa [Instr.wf] using hw
    exact .hostWrite v ha (by rw [instrOfWrite, if_neg h4, if_neg h8])
  | rdReg off => exact .hostRead hw
  | sig => exact .signature
  | chunkIhdr len => exact .chunk len typIHDR rfl
  | chunkPlte len => exact .chunk len typPLTE rfl
  | chunkIdat len => exact .chunk len typIDAT rfl
  | chunkIend len => exact .chunk len typIEND rfl
  | chunkUnknownCritical len typ =>
    obtain ⟨hc, ⟨⟨h1, h2⟩, h3⟩, h4⟩ :
        isCritical typ = true ∧ ((typ ≠ typIHDR ∧ typ ≠ typPLTE) ∧ typ ≠ typIDAT) ∧ typ ≠ typIEND := by
      simpa [Instr.wf, isKnownType, and_assoc] using hw
    exact .chunk len typ (by simp [instrOfChunk, hc, h1, h2, h3, h4])
  | chunkAncillary len typ =>
    have hc : isCritical typ = false := by simpa [Instr.wf] using hw
    have hne : ∀ t, isCritical t = true → typ ≠ t := fun t ht h => by simp [← h, hc] at ht
    exact .chunk len typ (by simp [instrOfChunk, hc, hne typIHDR rfl, hne typPLTE rfl, hne typIDAT rfl, hne typIEND rfl])
  | zlibCm cmf flg => exact .zlibCm cmf flg
  | zlibFdict cmf flg => exact .zlibFdict cmf flg
  | zlibFcheck cmf flg => exact .zlibFcheck cmf flg
  | blockStored f => cases f; exacts [.block 0 (by decide) rfl, .block 1 (by decide) rfl]
  | blockFixed f => cases f; exacts [.block 2 (by decide) rfl, .block 3 (by decide) rfl]
  | blockDynamic f => cases f; exacts [.block 4 (by decide) rfl, .block 5 (by decide) rfl]
  | blockReserved f => cases f; exacts [.block 6 (by decide) rfl, .block 7 (by decide) rfl]
  | clLen sym =>
    obtain ⟨hextra, hrow⟩ := clRow_of_lt sym.isLt 0
    have := encodes_cl (i := .clLen sym) (x := 0) (sym.isLt.trans (by decide)) (Nat.two_pow_pos _) (hrow.trans (by simp))
    rwa [hextra, fieldBits, List.range_zero, List.map_nil, List.append_nil] at this
  | cl16 e => exact encodes_cl (s := 16) (by decide) e.isLt (by simp [instrOfCl])
  | cl17 e => exact encodes_cl (s := 17) (by decide) e.isLt (by simp [instrOfCl])
  | cl18 e => exact encodes_cl (s := 18) (by decide) e.isLt (by simp [instrOfCl])
  | filtNone => exact .filter 0#8 rfl
  | filtSub => exact .filter 1#8 rfl
  | filtUp => exact .filter 2#8 rfl
  | filtAvg => exact .filter 3#8 rfl
  | filtPaeth => exact .filter 4#8 rfl
  | filtInvalid ft =>
    have hf : 4 < ft.toNat := by simpa [Instr.wf] using hw
    refine .filter ft ?_
    unfold instrOfFilter
    split
    iterate 5 omega
    rfl
  | dist0 | dist1 | dist2 | dist3 | dist4 _ | dist5 _ | dist6 _ | dist7 _ | dist8 _ | dist9 _ | dist10 _ | dist11 _ | dist12 _
  | dist13 _ | dist14 _ | dist15 _ | dist16 _ | dist17 _ | dist18 _ | dist19 _ | dist20 _ | dist21 _ | dist22 _ | dist23 _
  | dist24 _ | dist25 _ | dist26 _ | dist27 _ | dist28 _ | dist29 _ | distInvalid _ => exact encodes_of_distParts rfl
  | _ => exact encodes_of_litLenParts rfl hw

theorem notOver_encoderLayer {l : Layer} (h : encoderLayer l) : NotOver l := by
  cases l with
  | litLen dyn lens =>
    obtain rfl : lens = fixedLitLen := h
    obtain ⟨-, -, hover⟩ := Machine.fixedLitLen_ok
    exact overSubscribed_eq_false_iff.1 hover
  | dist lens =>
    obtain rfl : lens = fixedDist := h
    obtain ⟨-, -, hover⟩ := Machine.fixedDist_ok
    exact overSubscribed_eq_false_iff.1 hover
  | cl noPrev lens =>
    obtain ⟨-, rfl⟩ := h
    exact (by decide : occupancy encoderCl ≤ 2 ^ 15)
  | _ => trivial

theorem encoderLayer_layerOf (i : Instr) : encoderLayer (layerOf i) := by
  cases i <;> simp [layerOf, encoderLayer]

/-- Settles O56: what the encoder writes are the instruction's bits, and the decoder answers every encoding. -/
theorem decodeEncode : Obligations.DecodeEncode := by
  unfold Obligations.DecodeEncode
  intro i rest hw
  exact decode_of_encodes (encodes_encode hw) (notOver_encoderLayer (encoderLayer_layerOf i)) (List.prefix_append _ _)

/-- In the encoder's codes only one string of bits stands for an instruction, and it is the one the encoder writes. -/
theorem Encodes.encode {l : Layer} {bs : List Bool} {i : Instr} (h : Encodes l bs i) (hl : encoderLayer l) :
    i.wf = true ∧ encode i = bs := by
  cases h with
  | hostWrite v ha hrow => subst hrow; exact encode_instrOfWrite _ v ha
  | hostRead ha => exact ⟨ha, rfl⟩
  | signature => exact ⟨rfl, rfl⟩
  | chunk len typ hrow => subst hrow; exact encode_instrOfChunk len typ
  | zlibCm cmf flg => exact ⟨rfl, rfl⟩
  | zlibFdict cmf flg => exact ⟨rfl, rfl⟩
  | zlibFcheck cmf flg => exact ⟨rfl, rfl⟩
  | block v hlt hrow => subst hrow; exact encode_instrOfBlock hlt
  | litLen hcoded =>
    obtain rfl : _ = fixedLitLen := hl
    obtain ⟨hcode, hx, rfl⟩ := hcoded
    rename_i dyn s l x
    have hs : s < 288 := by simpa only [Machine.fixedLitLen_ok.1] using hcode.lt
    have hw := wf_instrOfLitLen dyn hs x
    have hp := litLenParts_instrOfLitLen dyn hs hx
    refine ⟨hw, ?_⟩
    simp only [(litLenParts_row hp hw).1, litLenBits, hp, codeword_fixedLitLen hs, ← hcode.len, fixedLitLen_getD hs]
  | dist hcoded =>
    obtain rfl : _ = fixedDist := hl
    obtain ⟨hcode, hx, rfl⟩ := hcoded
    rename_i s l x
    have hs : s < 32 := by simpa [fixedDist] using hcode.lt
    have hp := distParts_instrOfDist hs hx
    obtain rfl : 5 = l := by rw [← hcode.len, ← (hasCode_replicate hs).len]; rfl
    refine ⟨wf_instrOfDist s x, ?_⟩
    simp only [(distParts_row hp).1, distBits, hp, fixedDist, codeword_replicate hs]
  | cl hcoded =>
    obtain ⟨rfl, rfl⟩ := hl
    obtain ⟨hcode, hx, rfl⟩ := hcoded
    rename_i s l x
    have hs : s < 19 := by simpa [encoderCl] using hcode.lt
    obtain rfl : 5 = l := by rw [← hcode.len, ← (hasCode_replicate hs).len]; rfl
    rw [encoderCl, codeword_replicate hs]
    exact encode_instrOfCl hs x
  | filter ft hrow => subst hrow; exact encode_instrOfFilter ft

/-- Settles O57: the decoder answers only encodings, and an encoding is what the encoder writes. -/
theorem encodeDecode : Obligations.EncodeDecode := by
  unfold Obligations.EncodeDecode
  intro l bits i n hl h
  obtain ⟨bs, henc, hp, rfl⟩ := encodes_of_decode h
  obtain ⟨hw, hbs⟩ := henc.encode hl
  exact ⟨hw, hbs.trans (List.prefix_iff_eq_take.1 hp)⟩

end Sys2Proof
end

section
/-! A step runs the instruction the decoder reads (R140, R163, R167, R203): the readers give on the machine's own source what they give
on a list of its bits. -/

namespace Sys2Proof

/-! ## From a list of bits to the stream -/

/-- Every bit the first source gives, the second gives at its place from `pos` on. -/
def Carries {ε ε' : Type} (rd : Nat → Except ε Bool) (rd' : Nat → Except ε' Bool) (pos : Nat) : Prop :=
  ∀ k b, rd k = .ok b → rd' (pos + k) = .ok b

section
variable {ε ε' : Type} {rd : Nat → Except ε Bool} {rd' : Nat → Except ε' Bool} {pos : Nat} (hc : Carries rd rd' pos)
include hc

theorem Carries.hasBits {p : Nat} {bs : List Bool} (h : HasBits rd p bs) : HasBits rd' (pos + p) bs := fun k b hk => by
  rw [Nat.add_assoc]
  exact hc _ b (h k b hk)

theorem Carries.readBits {p n v : Nat} (h : readBits rd p n = .ok v) : readBits rd' (pos + p) n = .ok v :=
  readBits_ok_iff.2 ((readBits_ok_iff.1 h).imp_right hc.hasBits)

/-- The loop of R360 reads no bit but those it answers for. -/
theorem Carries.symLoop {lens : List Nat} {k p fuel len v first : Nat} {r : Option (Nat × Nat)}
    (h : symLoop rd lens k p fuel len v first = .ok r) : symLoop rd' lens k (pos + p) fuel len v first = .ok r := by
  induction fuel generalizing len v first with
  | zero => cases h; rfl
  | succ fuel ih =>
    simp only [Sys2Proof.symLoop] at h ⊢
    generalize 2 * (first + if len = 0 then 0 else lens.count len) = f at h ⊢
    cases hb : rd (p + len) with
    | error e => simp [hb] at h
    | ok b =>
      simp only [hb] at h
      simp only [Nat.add_assoc pos p len, hc _ b hb]
      split
      · rw [if_pos ‹_›] at h; cases h; rfl
      · rw [if_neg ‹_›] at h
        split
        · rw [if_pos ‹_›] at h; cases h; rfl
        · rw [if_neg ‹_›] at h
          exact ih h

theorem Carries.decodeSym {lens : List Nat} {p : Nat} {r : Option (Nat × Nat)} (h : decodeSym rd lens p = .ok r) :
    decodeSym rd' lens (pos + p) = .ok r := by
  unfold Sys2Proof.decodeSym at h ⊢
  split
  · rw [if_pos ‹_›] at h; cases h; rfl
  · rw [if_neg ‹_›] at h
    exact hc.symLoop h

theorem Carries.decodeCoded {lens : List Nat} {extra : Nat → Nat} {mk : Nat → Nat → Instr} {p : Nat} {x : Instr × Nat}
    (h : decodeCoded rd lens extra mk p = .ok (some x)) : decodeCoded rd' lens extra mk (pos + p) = .ok (some x) := by
  unfold Sys2Proof.decodeCoded at h
  split at h
  · cases h
  · cases h
  · rename_i s n hs
    split at h
    · cases h
    · rename_i y hy
      have hy' := hc.readBits hy
      rw [← Nat.add_assoc] at hy'
      cases h
      simp only [Sys2Proof.decodeCoded, hc.decodeSym hs, hy']

end

end Sys2Proof

namespace Sys2Proof.Machine

theorem StreamBits.carries {s : State} {bits : List Bool} (h : StreamBits s bits) :
    Carries (listBits bits) (streamBit s) s.eng.bitpos := fun k b hk => h k b (listBits_ok_iff.1 hk)

/-- A chunk head's bits are those of its eight bytes (R143, R144). -/
theorem decode_chunk_bytesOf (f : Nat → Byte) : decode .chunk (byteBits (bytesOf 8 f)) =
    .ok (instrOfChunk (trunc32 (be32At f 0)) (trunc32 (be32At f 4)), 64) := by
  have hb : byteBits (bytesOf 8 f) =
      byteBits (be32Bytes (trunc32 (be32At f 0)) ++ be32Bytes (trunc32 (be32At f 4))) := by
    rw [be32At, be32At, be32Bytes_be32Of, be32Bytes_be32Of]
    rfl
  exact decode_of_encodes (.chunk _ _ rfl) trivial (by rw [hb])

/-! ## The steps -/

theorem step_hostWrite {s : State} {off : BitVec 8} {v : Word} {rest : List HostOp} {i : Instr} {n : Nat}
    (hh : s.host = .write .word off v :: rest) (h : decode (.hostWrite off s.regs.busy) (fieldBits 32 v.toNat) = .ok (i, n)) :
    step s = exec i { s with host := rest } := by
  have ha : offAligned off = true := by
    by_contra hna
    simp [decode, hna] at h
  have hd := decode_of_encodes (.hostWrite (busy := s.regs.busy) v ha rfl) trivial List.prefix_rfl
  rw [hd] at h
  cases h
  rw [step_host hh, hostMove, if_pos ⟨rfl, ha⟩]
  rfl

theorem step_hostRead {s : State} {off : BitVec 8} {rest : List HostOp} {i : Instr} {n : Nat} (hh : s.host = .read .word off :: rest)
    (h : decode (.hostRead off) [] = .ok (i, n)) : step s = exec i { s with host := rest } := by
  simp only [decode] at h
  split at h <;> cases h
  rw [step_host hh, hostMove, if_pos ⟨rfl, ‹_›⟩]
  rfl

theorem fetchCoded_some {r : Except Stop (Option (Instr × Nat))} {i : Instr} {n : Nat} (h : r = .ok (some (i, n))) (sub : Nat)
    (s : State) : (fetchCoded r sub s).result = exec i { s with eng := { s.eng with sp := s.eng.bitpos, bitpos := s.eng.bitpos + n } } := by
  subst h
  rfl

/-- R140, R163: the step of a coded symbol. -/
theorem step_coded {z s : State} {bits : List Bool} {i : Instr} {n : Nat} (ht : EngineTurn z s) (hb : StreamBits s bits)
    (h : (s.eng.phase = .litLen ∧ decode (.litLen s.eng.dyn s.eng.litlen) bits = .ok (i, n)) ∨
      ((∃ l, s.eng.phase = .dist l) ∧ decode (.dist s.eng.dist) bits = .ok (i, n)) ∨
      (s.eng.phase = .clSym ∧ decode (.cl s.eng.lens.isEmpty s.eng.cl) bits = .ok (i, n))) :
    step z = exec i { s with eng := { s.eng with sp := s.eng.bitpos, bitpos := s.eng.bitpos + n } } := by
  rw [step_engine ht, enginePhase]
  rcases h with ⟨hp, hd⟩ | ⟨⟨l, hp⟩, hd⟩ | ⟨hp, hd⟩ <;> rw [hp] <;>
    exact fetchCoded_some (hb.carries.decodeCoded (namedOr_ok hd)) _ s

theorem step_block {z s : State} {bits : List Bool} {i : Instr} {n : Nat} (ht : EngineTurn z s) (hp : s.eng.phase = .block)
    (hb : StreamBits s bits) (h : decode .block bits = .ok (i, n)) :
    step z = exec i { s with eng := { s.eng with hpos := s.eng.bitpos, bitpos := s.eng.bitpos + n } } := by
  simp only [decode] at h
  split at h
  · cases h
  · rename_i v hv
    cases h
    have hv' := hb.carries.readBits hv
    rw [Nat.add_zero] at hv'
    rw [step_engine ht, enginePhase, hp]
    simp only [fetchBlock, hv', fetchVal, Fetched.result]

theorem step_chunk {z s : State} {f : Nat → Byte} {i : Instr} {n : Nat} (ht : EngineTurn z s) (hp : s.eng.phase = .chunk)
    (hroom : s.eng.p + 8 ≤ s.regs.inLen.toNat) (hf : InBytes s s.eng.p 8 f)
    (h : decode .chunk (byteBits (bytesOf 8 f)) = .ok (i, n)) : step z = exec i s := by
  rw [decode_chunk_bytesOf] at h
  cases h
  have hlen : inBe32 s s.eng.p = .ok (be32At f 0) := be32From_ok fun k hk => hf k (by omega)
  have htyp : inBe32 s (s.eng.p + 4) = .ok (be32At f 4) :=
    be32From_ok (f := fun k => f (4 + k)) fun k hk => by rw [Nat.add_assoc]; exact hf (4 + k) (by omega)
  rw [step_engine ht, enginePhase, hp]
  simp only [fetchChunk, if_neg (show ¬s.eng.p = s.regs.inLen.toNat by omega),
    if_neg (show ¬s.regs.inLen.toNat - s.eng.p < 8 by omega), hlen, htyp, fetchVal, Fetched.result]

theorem step_row {z s : State} {ft : Byte} (ht : EngineTurn z s) (hp : s.eng.phase = .row)
    (hroom : (s.eng.row + 1) * stride s ≤ filteredLen s) (hft : filteredByte s (s.eng.row * stride s) = .ok ft) :
    step z = exec (instrOfFilter ft) { s with eng := { s.eng with phase := .rowByte ft 0 } } := by
  have havail : ¬filteredLen s - s.eng.row * stride s < stride s := by
    rw [Nat.add_mul] at hroom
    omega
  rw [step_engine ht, enginePhase, hp]
  simp only [fetchRow, if_neg havail, hft, fetchVal, Fetched.result]

/-- Settles O55, layer by layer. -/
theorem stepRunsDecoded : Obligations.StepRunsDecoded := by
  unfold Obligations.StepRunsDecoded
  refine ⟨fun s off v rest i n => step_hostWrite, fun s off rest i n => step_hostRead, fun z s ht hp => ?_,
    fun z s f i n => step_chunk, fun z s h ht hp hk htyp => ?_, fun z s q ht hp hq => ?_, fun z s cmf flg ht hp hn hc hf => ?_,
    fun z s cmf flg ht => ⟨fun hp => ?_, fun hp => ?_⟩, fun z s bits i n => step_block, fun z s bits i n => step_coded,
    fun z s ft => step_row, fun z s ft k ht hp => ?_⟩ <;> rw [step_engine ht, enginePhase, hp]
  · rfl
  · simp only [fetchHeader, hk, htyp, if_true, Fetched.result]
  · simp only [fetchPalette, hq, Fetched.result]
  · simp only [fetchZlib, if_neg (Nat.not_lt.2 hn), hc, hf, fetchVal, Fetched.result]
  · rfl
  · rfl
  · rfl

/-- Settles O60, word by word. -/
theorem decodedWords : Obligations.DecodedWords := by
  unfold Obligations.DecodedWords
  refine ⟨?_, ?_, ?_, ?_, ?_, ?_, ?_, ?_, ?_, ?_, ?_, ?_, ?_⟩ <;> decide +kernel

end Sys2Proof.Machine
end

section
/-! The host's register accesses (40_host_commands.md section 1): what RD_REG, WR_REG, WR_STATUS and a CTRL write leave in
the window. -/

namespace Sys2Proof.Machine

/-! ## RD_REG and WR_REG (R201, R212) -/

theorem isResult_iff (off : BitVec 8) : isResult off = true ↔ 0x40 ≤ off.toNat ∧ off.toNat ≤ 0x7C := by
  simp [isResult]

theorem showsEnd_iff (s : State) (off : BitVec 8) :
    showsEnd s off = true ↔ off = 0x08#8 ∧ (s.regs.done = true ∨ s.regs.err = true) := by
  simp [showsEnd]

theorem readValue_stored {s : State} {off : BitVec 8} (h : s.regs.busy = false ∨ off.toNat < 0x40 ∨ 0x7C < off.toNat) :
    readValue s off = readReg s.regs off := by
  rw [readValue, if_neg]
  rw [Bool.and_eq_true, isResult_iff]
  rintro ⟨hb, hl, hh⟩
  rcases h with h | h
  · simp [hb] at h
  · omega

theorem readValue_open {s : State} {off : BitVec 8} (hb : s.regs.busy = true) (hr : isResult off = true) :
    readValue s off = Config.freeWord s.draws := by
  simp [readValue, hb, hr]

/-- Settles O4, from what a read returns and what it shows of a run's end. -/
theorem readRegister : Obligations.ReadRegister := by
  unfold Obligations.ReadRegister
  intro off s
  refine ⟨_, rfl, rfl, rfl, rfl, rfl, fun _ => rfl, rfl, rfl, rfl, ?_, readValue_stored, fun hb hl hh =>
    readValue_open hb ((isResult_iff off).2 ⟨hl, hh⟩)⟩
  simp only [showsEnd_iff]

/-- Settles O5: busy nothing happens, idle `readReg_writeRegs` says what each offset reads. -/
theorem writeRegister : Obligations.WriteRegister := by
  unfold Obligations.WriteRegister
  intro off v s
  cases hb : s.regs.busy with
  | true =>
    refine ⟨s, ?_, by simp, fun _ _ => rfl, rfl, SameOutside.refl s, SameView.refl s⟩
    simp [exec, execWrReg, hb]
  | false =>
    refine ⟨{ s with regs := writeRegs s.regs off v }, ?_, fun _ hm => ?_, fun o ho => ?_, rfl, SameOutside.refl s,
      SameView.refl s⟩
    · simp [exec, execWrReg, hb]
    · rw [readReg_writeRegs, if_pos ⟨rfl, hm⟩]
    · rw [readReg_writeRegs, if_neg]
      rintro ⟨rfl, hm⟩
      simp [hm] at ho

/-! ## WR_STATUS (R205) -/

/-- STATUS, bit by bit from the low end (R34, R35). -/
theorem statusValue_toNat (r : Regs) :
    (statusValue r).toNat = Nat.bit r.busy (Nat.bit r.done (Nat.bit r.err (2 * r.stage.code))) := by
  have := r.stage.code_le
  rw [statusValue, BitVec.toNat_ofNat]
  cases r.busy <;> cases r.done <;> cases r.err <;> simp only [Nat.bit, cond, Bool.toNat] <;> omega

/-- DONE and ERR show in bits 1 and 2 of STATUS alone. -/
theorem statusValue_flags_getLsbD (r : Regs) (d e : Bool) {k : Nat} (h1 : k ≠ 1) (h2 : k ≠ 2) :
    (statusValue { r with done := d, err := e }).getLsbD k = (statusValue r).getLsbD k := by
  simp only [BitVec.getLsbD, statusValue_toNat]
  match k with
  | 0 => simp only [Nat.testBit_bit_zero]
  | k + 3 => simp only [Nat.testBit_bit_succ]

theorem readReg_status (r : Regs) : readReg r 0x08#8 = statusValue r := rfl

theorem readReg_ctrl (r : Regs) : readReg r 0x04#8 = ctrlValue r := rfl

/-- Settles O6, from the bits of STATUS before and after. -/
theorem acknowledgeStatus : Obligations.AcknowledgeStatus := by
  unfold Obligations.AcknowledgeStatus
  intro v s
  obtain ⟨-, hd, he, -⟩ := statusValue_bits s.regs
  obtain ⟨-, hd', he', -⟩ := statusValue_bits { s.regs with
    done := s.regs.done && !v.getLsbD 1
    err := s.regs.err && !v.getLsbD 2 }
  simp only [readReg_status, hd, he]
  exact ⟨_, rfl, hd', he', fun k => statusValue_flags_getLsbD s.regs _ _,
    fun off hoff => readReg_statusFields s.regs s.regs.busy _ _ s.regs.stage (by simpa using hoff), rfl, rfl,
    SameOutside.refl s, SameView.refl s⟩

/-! ## A CTRL write (R200) -/

/-- A CTRL word is determined by its fields (R33). -/
theorem ctrl_ext {v w : Word} (h0 : v.getLsbD 0 = w.getLsbD 0) (h1 : v.getLsbD 1 = w.getLsbD 1)
    (hm : v.extractLsb' 2 3 = w.extractLsb' 2 3) (h5 : v.getLsbD 5 = w.getLsbD 5) (h6 : v.getLsbD 6 = w.getLsbD 6)
    (hr : v.extractLsb' 7 25 = w.extractLsb' 7 25) : v = w := by
  rw [← ctrlWord_fields v, ← ctrlWord_fields w, h0, h1, hm, h5, h6, hr]

/-- CTRL reads the word that was stored without START, ABORT and the reserved bits. -/
theorem ctrlValue_stored {r : Regs} {v : Word} (hm : r.mode = v.extractLsb' 2 3) (hq : r.irqEn = v.getLsbD 5)
    (hf : r.fcheckEn = v.getLsbD 6) : ctrlValue r = v &&& 0x7C#32 := by
  obtain ⟨c0, c1, cm, c5, c6, cr⟩ := ctrlValue_bits r
  have all : BitVec.extractLsb' 2 3 0x7C#32 = BitVec.allOnes 3 := by decide
  have none : BitVec.extractLsb' 7 25 0x7C#32 = 0#25 := by decide
  refine ctrl_ext ?_ ?_ ?_ ?_ ?_ ?_
  · rw [c0, BitVec.getLsbD_and]; simp
  · rw [c1, BitVec.getLsbD_and]; simp
  · rw [cm, hm, BitVec.extractLsb'_and, all, BitVec.and_allOnes]
  · rw [c5, hq, BitVec.getLsbD_and]; simp
  · rw [c6, hf, BitVec.getLsbD_and]; simp
  · rw [cr, BitVec.extractLsb'_and, none, BitVec.and_zero]

/-- CTRL reads as before but for IRQ_EN, which is the word's. -/
theorem ctrlValue_irqEn {r q : Regs} {v : Word} (hm : q.mode = r.mode) (hq : q.irqEn = v.getLsbD 5)
    (hf : q.fcheckEn = r.fcheckEn) : ctrlValue q = (ctrlValue r &&& 0x5C#32) ||| (v &&& 0x20#32) := by
  obtain ⟨c0, c1, cm, c5, c6, cr⟩ := ctrlValue_bits r
  obtain ⟨d0, d1, dm, d5, d6, dr⟩ := ctrlValue_bits q
  have all : BitVec.extractLsb' 2 3 0x5C#32 = BitVec.allOnes 3 ∧ BitVec.extractLsb' 2 3 0x20#32 = 0#3 := by decide
  have none : BitVec.extractLsb' 7 25 0x5C#32 = 0#25 ∧ BitVec.extractLsb' 7 25 0x20#32 = 0#25 := by decide
  refine ctrl_ext ?_ ?_ ?_ ?_ ?_ ?_
  · rw [d0, BitVec.getLsbD_or, BitVec.getLsbD_and, BitVec.getLsbD_and]; simp
  · rw [d1, BitVec.getLsbD_or, BitVec.getLsbD_and, BitVec.getLsbD_and]; simp
  · rw [dm, hm, BitVec.extractLsb'_or, BitVec.extractLsb'_and, BitVec.extractLsb'_and, cm, all.1, all.2, BitVec.and_allOnes,
      BitVec.and_zero, BitVec.or_zero]
  · rw [d5, hq, BitVec.getLsbD_or, BitVec.getLsbD_and, BitVec.getLsbD_and]; simp
  · rw [d6, hf, BitVec.getLsbD_or, BitVec.getLsbD_and, BitVec.getLsbD_and, c6]; simp
  · rw [dr, BitVec.extractLsb'_or, BitVec.extractLsb'_and, BitVec.extractLsb'_and, none.1, none.2, BitVec.and_zero, BitVec.and_zero,
      BitVec.or_zero]

theorem ctrlWrite_sameOutside (st ab : Bool) (m : BitVec 3) (q f : Bool) (s : State) :
    SameOutside s (ctrlWrite st ab m q f s) := by
  unfold ctrlWrite
  split
  · exact SameOutside.refl s
  · cases st <;> exact SameOutside.refl s

/-- Settles O7: the word's row does not matter (`exec_ctrl`), and idle and busy are the cases of `ctrlWrite`. -/
theorem ctrlWrite_obligation : Obligations.CtrlWrite := by
  unfold Obligations.CtrlWrite
  intro v s
  refine ⟨_, exec_ctrl s.regs.busy v s, ctrlWrite_sameOutside _ _ _ _ _ s, fun hb => ?_, fun hb h0 => ?_, fun hb => ?_⟩
  · cases h0 : v.getLsbD 0 with
    | true =>
      rw [ctrlWrite_start hb]
      exact ⟨ctrlValue_stored rfl rfl rfl, rfl⟩
    | false =>
      rw [ctrlWrite_store hb]
      exact ⟨ctrlValue_stored rfl rfl rfl, hb⟩
  · rw [h0, ctrlWrite_store hb]
    exact ⟨fun off hoff => readReg_ctrlFields s.regs _ _ _ (by simpa using hoff), rfl, SameView.refl s⟩
  · rw [ctrlWrite_busy hb]
    refine ⟨ctrlValue_irqEn rfl rfl rfl, fun off hoff => ?_, rfl, SameView.refl s⟩
    exact readReg_ctrlFields s.regs s.regs.mode _ s.regs.fcheckEn (by simpa using hoff)

/-- Settles O8, from the registers of a START. -/
theorem startClears : Obligations.StartClears := by
  unfold Obligations.StartClears
  intro v s hb h0
  refine ⟨_, exec_ctrl false v s, ?_⟩
  rw [h0, ctrlWrite_start hb]
  exact ⟨ctrlValue_stored rfl rfl rfl, rfl, by simp [resultOffsets, readReg], by simp [rwOffsets, readReg], by simp [irqLine], rfl,
    SameOutside.refl s, rfl, rfl⟩

end Sys2Proof.Machine
end

section
/-! The configuration check (R206) of every mode, and what a START with a reserved mode leads to. -/

namespace Sys2Proof.Machine

/-! ## The first check that fails -/

section
variable {r : Regs}

theorem mode_cases (h : r.mode.toNat ≤ 3) : r.mode.toNat = 0 ∨ r.mode.toNat = 1 ∨ r.mode.toNat = 2 ∨ r.mode.toNat = 3 := by
  omega

/-- IN wraps, in any mode that is not reserved. -/
theorem configError_wraps_in (h : r.mode.toNat ≤ 3) (hw : Wraps r.inBase r.inLen) :
    configError r = some ⟨.badConfig, 2, 0x18, r.inLen.toNat⟩ := by
  rw [wraps_in] at hw
  rcases mode_cases h with hm | hm | hm | hm
  · rw [configError_full hm, if_pos hw]
  · rw [configError_inflate hm, if_pos hw]
  · rw [configError_unfilter hm, if_pos hw]
  · rw [configError_crc hm, if_pos hw]

/-- INFL wraps, in a mode that uses it. -/
theorem configError_wraps_infl (hi : ¬Wraps r.inBase r.inLen) (hu : UsesInfl r) (hw : Wraps r.inflBase r.inflCap) :
    configError r = some ⟨.badConfig, 2, 0x20, r.inflCap.toNat⟩ := by
  rw [wraps_in] at hi
  rw [wraps_infl] at hw
  rcases hu with hm | hm
  · rw [configError_full hm, if_neg hi, if_pos hw]
  · rw [configError_inflate hm, if_neg hi, if_pos hw]

/-- RECON wraps, in a mode that uses it. -/
theorem configError_wraps_recon (hi : ¬Wraps r.inBase r.inLen) (hl : UsesInfl r → ¬Wraps r.inflBase r.inflCap) (hu : UsesRecon r)
    (hw : Wraps r.reconBase r.reconCap) : configError r = some ⟨.badConfig, 2, 0x28, r.reconCap.toNat⟩ := by
  rw [wraps_in] at hi
  rw [wraps_infl] at hl
  rw [wraps_recon] at hw
  rcases hu with hm | hm
  · rw [configError_full hm, if_neg hi, if_neg (hl (.inl hm)), if_pos hw]
  · rw [configError_unfilter hm, if_neg hi, if_pos hw]

/-- With regions that fit, FULL comes to the overlaps. -/
theorem configError_full_fit (hf : RegionsFit r) (hm : r.mode.toNat = 0) : configError r =
    if r.inRegion.overlaps r.inflRegion then some ⟨.badConfig, 3, 0x18, 0x20⟩
    else if r.inRegion.overlaps r.reconRegion then some ⟨.badConfig, 3, 0x18, 0x28⟩
    else if r.inflRegion.overlaps r.reconRegion then some ⟨.badConfig, 3, 0x20, 0x28⟩
    else none := by
  obtain ⟨-, hi, hl, hr⟩ := hf
  rw [wraps_in] at hi
  rw [wraps_infl] at hl
  rw [wraps_recon] at hr
  rw [configError_full hm, if_neg hi, if_neg (hl (.inl hm)), if_neg (hr (.inl hm))]

/-- With regions that fit, INFLATE comes to its one overlap. -/
theorem configError_inflate_fit (hf : RegionsFit r) (hm : r.mode.toNat = 1) : configError r =
    if r.inRegion.overlaps r.inflRegion then some ⟨.badConfig, 3, 0x18, 0x20⟩ else none := by
  obtain ⟨-, hi, hl, -⟩ := hf
  rw [wraps_in] at hi
  rw [wraps_infl] at hl
  rw [configError_inflate hm, if_neg hi, if_neg (hl (.inr hm))]

/-- With regions that fit, UNFILTER comes to its one overlap. -/
theorem configError_unfilter_fit (hf : RegionsFit r) (hm : r.mode.toNat = 2) : configError r =
    if r.inRegion.overlaps r.reconRegion then some ⟨.badConfig, 3, 0x18, 0x28⟩ else none := by
  obtain ⟨-, hi, -, hr⟩ := hf
  rw [wraps_in] at hi
  rw [wraps_recon] at hr
  rw [configError_unfilter hm, if_neg hi, if_neg (hr (.inr hm))]

/-- IN and INFL overlap. -/
theorem configError_in_infl (hf : RegionsFit r) (hu : UsesInfl r) (ho : Overlap r.inBase r.inLen r.inflBase r.inflCap) :
    configError r = some ⟨.badConfig, 3, 0x18, 0x20⟩ := by
  rw [overlap_in_infl] at ho
  rcases hu with hm | hm
  · rw [configError_full_fit hf hm, if_pos ho]
  · rw [configError_inflate_fit hf hm, if_pos ho]

/-- IN and RECON overlap. -/
theorem configError_in_recon (hf : RegionsFit r) (hu : UsesRecon r)
    (hn : UsesInfl r → ¬Overlap r.inBase r.inLen r.inflBase r.inflCap)
    (ho : Overlap r.inBase r.inLen r.reconBase r.reconCap) : configError r = some ⟨.badConfig, 3, 0x18, 0x28⟩ := by
  rw [overlap_in_infl] at hn
  rw [overlap_in_recon] at ho
  rcases hu with hm | hm
  · rw [configError_full_fit hf hm, if_neg (hn (.inl hm)), if_pos ho]
  · rw [configError_unfilter_fit hf hm, if_pos ho]

/-- INFL and RECON overlap, in FULL mode. -/
theorem configError_infl_recon (hf : RegionsFit r) (hm : r.mode.toNat = 0)
    (hi : ¬Overlap r.inBase r.inLen r.inflBase r.inflCap) (hr : ¬Overlap r.inBase r.inLen r.reconBase r.reconCap)
    (ho : Overlap r.inflBase r.inflCap r.reconBase r.reconCap) : configError r = some ⟨.badConfig, 3, 0x20, 0x28⟩ := by
  rw [overlap_in_infl] at hi
  rw [overlap_in_recon] at hr
  rw [overlap_infl_recon] at ho
  rw [configError_full_fit hf hm, if_neg hi, if_neg hr, if_pos ho]

/-- No check fails. -/
theorem configError_pass (hf : RegionsFit r) (hi : UsesInfl r → ¬Overlap r.inBase r.inLen r.inflBase r.inflCap)
    (hr : UsesRecon r → ¬Overlap r.inBase r.inLen r.reconBase r.reconCap)
    (ho : r.mode.toNat = 0 → ¬Overlap r.inflBase r.inflCap r.reconBase r.reconCap) : configError r = none := by
  rw [overlap_in_infl] at hi
  rw [overlap_in_recon] at hr
  rw [overlap_infl_recon] at ho
  rcases mode_cases hf.1 with hm | hm | hm | hm
  · rw [configError_full_fit hf hm, if_neg (hi (.inl hm)), if_neg (hr (.inl hm)), if_neg (ho hm)]
  · rw [configError_inflate_fit hf hm, if_neg (hi (.inr hm))]
  · rw [configError_unfilter_fit hf hm, if_neg (hr (.inr hm))]
  · have hw := hf.2.1
    rw [wraps_in] at hw
    rw [configError_crc hm, if_neg hw]

end

/-! ## The check's step -/

/-- The state behind the configuration check. -/
def configChecked (s : State) : State :=
  match configError s.regs with
  | some e => raise e (s.atStage .config)
  | none => { s.atStage .config with eng := { s.eng with phase := .enter (modeEntry s.regs) } }

/-- The check looks at no field of STATUS. -/
theorem configError_stage (r : Regs) (g : Stage) : configError { r with stage := g } = configError r := rfl

theorem configStep_eq (s : State) : configStep s = .next (configChecked s) := by
  unfold configStep configChecked
  simp only [configError_stage]
  cases configError s.regs <;> rfl

theorem configChecked_error {s : State} {sub pos aux : Nat} {w : Word}
    (he : configError s.regs = some ⟨.badConfig, sub, pos, aux⟩)
    (hw : trunc32 (ErrorKind.badConfig.code + classOfCode ErrorKind.badConfig.code * 256 + sub * 65536) = w) :
    ErrorEntry w pos aux (s.atStage .config) (configChecked s) := by
  rw [configChecked, he]
  exact errorEntry_raise hw pos aux _

theorem configChecked_pass {s : State} (he : configError s.regs = none) :
    configChecked s = { s.atStage .config with eng := { s.eng with phase := .enter (modeEntry s.regs) } } := by
  rw [configChecked, he]

/-- The first stage of a mode that is not reserved, mode by mode. -/
theorem modeEntry_eq (r : Regs) : modeEntry r =
    if r.mode = 0#3 then .signature else if r.mode = 1#3 then .zlibHeader else if r.mode = 2#3 then .unfilter else .crc := by
  simp only [modeEntry, ← BitVec.toNat_inj, BitVec.toNat_ofNat]
  split
  · rename_i h
    rw [if_pos h]
  · rename_i h
    simp [h]
  · rename_i h
    simp [h]
  · rename_i h0 h1 h2
    rw [if_neg h0, if_neg h1, if_neg h2]

/-- Settles O10, check by check in the order of R206. -/
theorem configCheck : Obligations.ConfigCheck := by
  unfold Obligations.ConfigCheck
  intro z s ht hp
  have full : s.regs.mode = 0#3 ↔ s.regs.mode.toNat = 0 := by simp [← BitVec.toNat_inj]
  refine ⟨configChecked s, ?_, fun hm => ?_, fun hm hw => ?_, fun hi hu hw => ?_, fun hi hl hu hw => ?_, fun hf hu ho => ?_,
    fun hf hu hn ho => ?_, fun hf hm hi hr ho => ?_, fun hf hi hr ho => ?_⟩
  · rw [step_engine ht, enginePhase, hp]
    exact configStep_eq s
  · exact configChecked_error (configError_reserved hm) (by decide)
  · exact configChecked_error (configError_wraps_in hm hw) (by decide)
  · exact configChecked_error (configError_wraps_infl hi hu hw) (by decide)
  · exact configChecked_error (configError_wraps_recon hi hl hu hw) (by decide)
  · exact configChecked_error (configError_in_infl hf hu ho) (by decide)
  · exact configChecked_error (configError_in_recon hf hu hn ho) (by decide)
  · exact configChecked_error (configError_infl_recon hf (full.1 hm) hi hr ho) (by decide)
  · rw [configChecked_pass (configError_pass hf hi hr fun hm => ho (full.2 hm)), modeEntry_eq]

/-! ## A START with a reserved mode (R202, R206, R115) -/

theorem outputs_reserved {r : Regs} (h : 4 ≤ r.mode.toNat) : r.outputs = [] := by
  unfold Regs.outputs
  split
  · omega
  · omega
  · omega
  · rfl

theorem EngineNext.regs {s e : State} (h : EngineNext s e) : e.regs = s.regs := by
  rcases h with ⟨-, rfl⟩ | ⟨rest, -, rfl⟩ <;> rfl

theorem EngineNext.eng {s e : State} (h : EngineNext s e) : e.eng = s.eng := by
  rcases h with ⟨-, rfl⟩ | ⟨rest, -, rfl⟩ <;> rfl

theorem EngineNext.mem {s e : State} (h : EngineNext s e) : e.mem = s.mem := by
  rcases h with ⟨-, rfl⟩ | ⟨rest, -, rfl⟩ <;> rfl

/-- A reserved mode at the configuration check: the run ends with BadConfig SUB 1 and no byte of memory changes. -/
theorem configChecked_reserved {s : State} (hm : 4 ≤ s.regs.mode.toNat) (hg : s.regs.stage = .config) :
    ErrorEntry 0x00010615#32 0x04 s.regs.mode.toNat s (configChecked s) ∧ (configChecked s).regs.mode = s.regs.mode ∧
      (configChecked s).regs.stage = .config ∧ ∀ x, (configChecked s).byteAt x = s.byteAt x := by
  have hs : s.atStage .config = s := by rw [State.atStage, ← hg]
  have he := configError_reserved (r := s.regs) hm
  have h := configChecked_error he (w := 0x00010615#32) (by decide)
  rw [hs] at h
  refine ⟨h, ?_, ?_, fun x => ?_⟩
  · simp [configChecked, he]
  · simp [configChecked, he]
  · rw [configChecked, he, hs]
    exact raise_byteAt _ (by simp [outputs_reserved hm, Outside])

/-- Settles O9: the START leaves the run at its configuration check, which ends it. -/
theorem reservedModeFails : Obligations.ReservedModeFails := by
  unfold Obligations.ReservedModeFails
  intro mode a q f rsv s hm hb
  let t := startRun { s with regs := { s.regs with mode := mode, irqEn := q, fcheckEn := f } }
  refine ⟨t, congrArg Host.Outcome.next (ctrlWrite_start hb a mode q f), fun e hn => ⟨configChecked e, ?_, ?_⟩⟩
  · have ht : EngineTurn t e := ⟨hn, by rw [hn.regs]; rfl, by rw [hn.eng]; rfl⟩
    rw [step_engine ht, enginePhase, hn.eng]
    exact configStep_eq e
  · have he : e.regs.mode = mode := by rw [hn.regs]; rfl
    obtain ⟨hentry, hmode, hstage, hmem⟩ := configChecked_reserved (s := e) (he ▸ hm) (by rw [hn.regs]; rfl)
    rw [he] at hentry hmode
    exact ⟨hentry, hmode, hstage, fun x => (hmem x).trans (State.byteAt_congr hn.mem x)⟩

end Sys2Proof.Machine
end

section
/-! An abort (R204, R566): the draw, and the registers of a step that an abort cuts short. -/

namespace Sys2Proof.Machine

/-! ## The window partway through a step -/

/-- Beside STATUS, a register update of a step leaves each offset as it is or as the step leaves it. -/
theorem runUpdates_readReg {t x : Regs} {f : Regs → Regs} {off : BitVec 8} (hf : f ∈ runUpdates t) (h8 : off ≠ 0x08#8) :
    readReg (f x) off = readReg x off ∨ readReg (f x) off = readReg t off := by
  have updated : ∀ {k : BitVec 8} {v : Word} {y : Word}, y = (if off = k then v else readReg x off) → readReg t k = v →
      y = readReg x off ∨ y = readReg t off := by
    rintro k v y rfl rfl
    by_cases hk : off = k
    · subst hk
      exact .inr (if_pos rfl)
    · exact .inl (if_neg hk)
  simp only [runUpdates, List.mem_cons, List.not_mem_nil, or_false] at hf
  rcases hf with rfl | rfl | rfl | rfl | rfl | rfl | rfl | rfl | rfl | rfl | rfl | rfl | rfl | rfl | rfl | rfl | rfl
  · exact updated (readReg_adlerResult x _ off) rfl
  · exact .inl (readReg_statusFields x x.busy x.done x.err t.stage h8)
  · exact updated (readReg_crcResult x _ off) rfl
  · exact updated (readReg_chunkCount x _ off) rfl
  · exact updated (readReg_idatCount x _ off) rfl
  · exact updated (readReg_idatLen x _ off) rfl
  · exact updated (readReg_imgWidth x _ off) rfl
  · exact updated (readReg_imgHeight x _ off) rfl
  · exact updated (readReg_imgFormat x _ off) rfl
  · exact updated (readReg_imgInterlace x _ off) rfl
  · exact updated (readReg_plteOffset x _ off) rfl
  · exact updated (readReg_plteCount x _ off) rfl
  · exact updated (readReg_rowBytes x _ off) rfl
  · exact updated (readReg_bpp x _ off) rfl
  · exact updated (readReg_inflLen x _ off) rfl
  · exact updated (readReg_blockCount x _ off) rfl
  · exact updated (readReg_reconLen x _ off) rfl

/-- A register update of a step leaves STAGE as it is or as the step leaves it. -/
theorem runUpdates_stage {t x : Regs} {f : Regs → Regs} (hf : f ∈ runUpdates t) :
    (f x).stage = x.stage ∨ (f x).stage = t.stage := by
  simp only [runUpdates, List.mem_cons, List.not_mem_nil, or_false] at hf
  rcases hf with rfl | rfl | rfl | rfl | rfl | rfl | rfl | rfl | rfl | rfl | rfl | rfl | rfl | rfl | rfl | rfl | rfl
  case inr.inl => exact .inr rfl
  all_goals exact .inl rfl

theorem partway_readReg (k : Nat) (r t : Regs) {off : BitVec 8} (h8 : off ≠ 0x08#8) :
    readReg (partway k r t) off = readReg r off ∨ readReg (partway k r t) off = readReg t off :=
  partway_keeps (P := fun x => readReg x off = readReg r off ∨ readReg x off = readReg t off) k (.inl rfl) fun f hf x hx => by
    rcases runUpdates_readReg (x := x) hf h8 with h | h
    · rwa [h]
    · exact .inr h

theorem partway_stage (k : Nat) (r t : Regs) : (partway k r t).stage = r.stage ∨ (partway k r t).stage = t.stage :=
  partway_keeps (P := fun x => x.stage = r.stage ∨ x.stage = t.stage) k (.inl rfl) fun f hf x hx => by
    rcases runUpdates_stage (x := x) hf with h | h
    · rwa [h]
    · exact .inr h

/-! ## The registers at an abort -/

theorem abortedRegs_cases (s : State) : abortedRegs s = s.regs ∨
    ∃ u, (enginePhase s).result = .next u ∧ abortedRegs s = partway (Config.abortPoint s.draws) s.regs u.regs := by
  unfold abortedRegs
  cases (enginePhase s).result with
  | next u => exact .inr ⟨u, rfl, rfl⟩
  | fault f => exact .inl rfl
  | refused r => exact .inl rfl

theorem abortedRegs_readReg (s : State) {off : BitVec 8} (h8 : off ≠ 0x08#8) :
    readReg (abortedRegs s) off = readReg s.regs off ∨
      ∃ u, (enginePhase s).result = .next u ∧ readReg (abortedRegs s) off = readReg u.regs off := by
  rcases abortedRegs_cases s with h | ⟨u, hu, h⟩ <;> rw [h]
  · exact .inl rfl
  · exact (partway_readReg _ s.regs u.regs h8).imp_right fun h => ⟨u, hu, h⟩

theorem abortedRegs_stage (s : State) : (abortedRegs s).stage = s.regs.stage ∨
    ∃ u, (enginePhase s).result = .next u ∧ (abortedRegs s).stage = u.regs.stage := by
  rcases abortedRegs_cases s with h | ⟨u, hu, h⟩ <;> rw [h]
  · exact .inl rfl
  · exact (partway_stage _ s.regs u.regs).imp_right fun h => ⟨u, hu, h⟩

/-- Beside STATUS and the result registers the window is what `kept` keeps. -/
theorem readReg_kept (r : Regs) {off : BitVec 8} (h8 : off ≠ 0x08#8) (hr : off ∉ resultOffsets) :
    readReg r.kept off = readReg r off := by
  unfold readReg
  split <;> first | rfl | (exfalso; simp_all [resultOffsets, ← BitVec.toNat_inj])

theorem readReg_of_kept {r q : Regs} (h : q.kept = r.kept) {off : BitVec 8} (h8 : off ≠ 0x08#8) (hr : off ∉ resultOffsets) :
    readReg q off = readReg r off := by
  rw [← readReg_kept q h8 hr, h, readReg_kept r h8 hr]

/-! ## The engine's turn with an abort pending -/

/-- The state in which the draw of an abort is done. -/
def drawn (s : State) : State := { s with draws := s.draws + 1 }

/-- The state behind an abort. -/
def abortedState (s : State) : State := raise ⟨.aborted, 0, 0, 0⟩ { drawn s with regs := abortedRegs (drawn s) }

theorem engineTurn_abort {s : State} (hb : s.regs.busy = true) (ha : s.eng.abortReq = true) :
    (engineTurn s).result =
      if Config.abortNow s.draws = true then .next (abortedState s) else (enginePhase (drawn s)).result := by
  unfold engineTurn
  rw [if_pos hb, if_pos ha]
  exact apply_ite Fetched.result _ _ _

theorem abortedState_errorEntry (s : State) :
    ErrorEntry 0x00000616#32 0 0 { s with regs := abortedRegs (drawn s) } (abortedState s) :=
  errorEntry_raise (by decide) 0 0 { drawn s with regs := abortedRegs (drawn s) }

/-- Settles O12, from the updates of a step one by one. -/
theorem abortTurn : Obligations.AbortTurn := by
  unfold Obligations.AbortTurn
  intro z s hn hb ha
  have hk : (abortedRegs (drawn s)).kept = s.regs.kept := abortedRegs_kept (drawn s)
  obtain ⟨-, -, -, kb, kd, ke, -⟩ := Regs.kept_fields hk
  refine ⟨abortedRegs (drawn s), abortedState s, ?_, abortedState_errorEntry s, fun off h8 hr => readReg_of_kept hk h8 hr,
    kb.trans hb, kd, ke, fun off hr => abortedRegs_readReg (drawn s) ?_, abortedRegs_stage (drawn s)⟩
  · rw [step_engineNext hn, engineTurn_abort hb ha]
    rfl
  · rintro rfl
    exact absurd hr (by decide)

end Sys2Proof.Machine
end


section
/-! The register frame of every row (R201 to R205, R252 to R272, R331, R431, R503, R542, R573): a meaning is built of steps that keep to
the row's Writes list, and an error adds STATUS and the ERR registers. -/

namespace Sys2Proof.Machine

/-! ## Registers written together -/

/-- The counts of the chunk walk show at their own offsets (R259). -/
theorem readReg_walkCounts (r : Regs) (c i l : Word) {off : BitVec 8} (h : off ∉ [0x70#8, 0x74#8, 0x7C#8]) :
    readReg { r with chunkCount := c, idatCount := i, idatLen := l } off = readReg r off := by
  unfold readReg
  split <;> first | rfl | (exfalso; simp_all [← BitVec.toNat_inj])

/-- The header results show at their own offsets (R267). -/
theorem readReg_imgFields (r : Regs) (w h f i : Word) {off : BitVec 8} (ho : off ∉ [0x40#8, 0x44#8, 0x48#8, 0x4C#8]) :
    readReg { r with imgWidth := w, imgHeight := h, imgFormat := f, imgInterlace := i } off = readReg r off := by
  unfold readReg
  split <;> first | rfl | (exfalso; simp_all [← BitVec.toNat_inj])

/-- The palette results show at their own offsets (R272). -/
theorem readReg_plteFields (r : Regs) (o c : Word) {off : BitVec 8} (h : off ∉ [0x50#8, 0x54#8]) :
    readReg { r with plteOffset := o, plteCount := c } off = readReg r off := by
  unfold readReg
  split <;> first | rfl | (exfalso; simp_all [← BitVec.toNat_inj])

/-! ## Keeping to a list of registers -/

/-- `t` differs from `s` in registers of the list, in STATUS and the ERR registers where an error stands, in memory, the engine and the
draws; with no address to store to, nothing host and engine see of each other's writes differs. -/
structure Frame (regs : List (BitVec 8)) (store : Option Nat) (s t : State) : Prop where
  window : ∀ off, off ∉ regs → off ∉ errOffsets ∨ t.regs.err = false → readReg t.regs off = readReg s.regs off
  host : t.host = s.host
  plat : t.plat = s.plat
  memData : t.memData = s.memData
  rdata : t.rdata = s.rdata
  unseen : t.unseen = s.unseen
  sets : store = none → t.uncleaned = s.uncleaned ∧ t.stale = s.stale ∧ t.hidden = s.hidden

/-- Every next state the answer can be keeps to the frame. -/
def Framed (regs : List (BitVec 8)) (store : Option Nat) (s : State) (r : Result) : Prop := ∀ t, r = .next t → Frame regs store s t

section
variable {regs : List (BitVec 8)} {store : Option Nat} {s s' : State}

theorem Frame.refl (regs : List (BitVec 8)) (store : Option Nat) (s : State) : Frame regs store s s :=
  ⟨fun _ _ _ => rfl, rfl, rfl, rfl, rfl, rfl, fun _ => ⟨rfl, rfl, rfl⟩⟩

/-- The engine's own state is outside the frame. -/
theorem Frame.withEng (h : Frame regs store s s') (e : Engine) : Frame regs store s { s' with eng := e } :=
  ⟨h.window, h.host, h.plat, h.memData, h.rdata, h.unseen, h.sets⟩

/-- Registers of the list may change. -/
theorem Frame.update (h : Frame regs store s s') {r : Regs} {e : Engine} (he : r.err = s'.regs.err)
    (hr : ∀ off, off ∉ regs → readReg r off = readReg s'.regs off) : Frame regs store s { s' with regs := r, eng := e } :=
  ⟨fun off ho hx => (hr off ho).trans (h.window off ho (he ▸ hx)), h.host, h.plat, h.memData, h.rdata, h.unseen, h.sets⟩

/-- An error entry adds STATUS and the ERR registers (R542, R573). -/
theorem Frame.raise (h : Frame regs store s s') (e : RunError) : Frame regs store s (raise e s') where
  window off ho hx := by
    have hn : off ∉ errOffsets := hx.resolve_right (by simp)
    exact (regsSame_withError (raise_regs e s') off hn).trans (h.window off ho (.inl hn))
  host := (raise_host e s').trans h.host
  plat := (raise_plat e s').trans h.plat
  memData := (raise_memData e s').trans h.memData
  rdata := (raise_rdata e s').trans h.rdata
  unseen := (raise_unseen e s').trans h.unseen
  sets hs := by
    rw [raise_uncleaned, raise_stale, raise_hidden]
    exact h.sets hs

/-- A store of the row's byte. -/
theorem Frame.putByte {x : Nat} (h : Frame regs (some x) s s') (a : Nat) (b : Byte) : Frame regs (some x) s (putByte s' a b) where
  window off ho hx := by
    rw [putByte_regs] at hx ⊢
    exact h.window off ho hx
  host := (putByte_host s' a b).trans h.host
  plat := (putByte_plat s' a b).trans h.plat
  memData := (putByte_memData s' a b).trans h.memData
  rdata := (putByte_rdata s' a b).trans h.rdata
  unseen := (putByte_unseen s' a b).trans h.unseen
  sets hs := nomatch hs

theorem Frame.framed (h : Frame regs store s s') : Framed regs store s (.next s') := fun _ ht => by
  cases ht
  exact h

theorem Frame.raiseAt (h : Frame regs store s s') (kind : ErrorKind) (sub pos aux : Nat) :
    Framed regs store s (raiseAt kind sub pos aux s') :=
  (h.raise ⟨kind, sub, pos, aux⟩).framed

theorem Frame.raiseCode (h : Frame regs store s s') (sub pos : Nat) : Framed regs store s (raiseCode sub pos s') :=
  h.raiseAt .invalidHuffmanCode sub pos s'.eng.block

theorem Framed.ite {c : Prop} [Decidable c] {r q : Result} (hr : Framed regs store s r) (hq : Framed regs store s q) :
    Framed regs store s (if c then r else q) := by
  split
  · exact hr
  · exact hq

theorem Framed.withVal {α : Type} {k : α → Result} (h : Frame regs store s s') (r : Except Stop α)
    (hk : ∀ a, Framed regs store s (k a)) : Framed regs store s (withVal r s' k) := fun t ht => by
  rcases withVal_next ht with ⟨a, -, ha⟩ | ⟨e, -, rfl⟩
  · exact hk a t ha
  · exact h.raise e

/-! ## Chunks -/

theorem readChunk_framed {len typ : Word} {k : State → Result} (h : Frame regs store s s') (hc : 0x68#8 ∈ regs)
    (hk : ∀ u, Frame regs store s u → Framed regs store s (k u)) : Framed regs store s (readChunk len typ k s') := by
  refine .ite (h.raiseAt .truncatedStream 2 _ _) (.withVal h _ fun c => ?_)
  have hcrc : Frame regs store s (withCrc c s') := h.update rfl fun off ho => by
    rw [readReg_crcResult, if_neg (ne_of_mem_of_not_mem hc ho).symm]
  exact .withVal hcrc _ fun _ => .ite (hk _ hcrc) (hcrc.raiseAt .badCrc 0 _ _)

theorem acceptChunk_framed (len typ : Word) (h : Frame regs store s s') : Framed regs store s (acceptChunk len typ s') :=
  (h.withEng _).framed

theorem endWalk_frame (h : Frame regs store s s') (hc : [0x70#8, 0x74#8, 0x7C#8] ⊆ regs) : Frame regs store s (endWalk s') :=
  h.update rfl fun _ ho => readReg_walkCounts _ _ _ _ fun hm => ho (hc hm)

theorem writeHeader_frame (w ht bd ct cm fm im : Nat) (h : Frame regs store s s')
    (hi : [0x40#8, 0x44#8, 0x48#8, 0x4C#8] ⊆ regs) : Frame regs store s (writeHeader w ht bd ct cm fm im s') :=
  h.update rfl fun _ ho => readReg_imgFields _ _ _ _ _ fun hm => ho (hi hm)

theorem checkHeader_framed (len : Word) (h : Frame regs store s s') (hi : [0x40#8, 0x44#8, 0x48#8, 0x4C#8] ⊆ regs) :
    Framed regs store s (checkHeader len s') := by
  refine .ite (h.raiseAt _ _ _ _) <| .withVal h _ fun w => .withVal h _ fun ht => .withVal h _ fun bd => .withVal h _ fun ct =>
    .withVal h _ fun cm => .withVal h _ fun fm => .withVal h _ fun im => ?_
  split
  · exact (h.raise _).framed
  · exact (writeHeader_frame _ _ _ _ _ _ _ h hi).framed

theorem writePalette_frame (p len : Nat) (h : Frame regs store s s') (hp : [0x50#8, 0x54#8] ⊆ regs) :
    Frame regs store s (writePalette p len s') :=
  h.update rfl fun _ ho => readReg_plteFields _ _ _ fun hm => ho (hp hm)

theorem checkPalette_framed (len : Word) (h : Frame regs store s s') (hp : [0x50#8, 0x54#8] ⊆ regs) :
    Framed regs store s (checkPalette len s') := by
  unfold checkPalette
  split
  · exact (h.raise _).framed
  · exact (writePalette_frame _ _ h hp).framed

/-! ## Inflate -/

theorem literal_framed {x : Nat} (b : Byte) (h : Frame regs (some x) s s') (hl : 0x58#8 ∈ regs) :
    Framed regs (some x) s (literal b s') := by
  refine .ite (h.raiseAt .outputOverflow 1 _ _) fun t ht => ?_
  rcases withVal_next ht with ⟨u, hu, ht⟩ | ⟨e, -, rfl⟩
  · obtain ⟨-, rfl⟩ := busWrite_ok.1 hu
    cases ht
    exact (h.putByte _ b).update rfl fun off ho => by rw [readReg_inflLen, if_neg (ne_of_mem_of_not_mem hl ho).symm]
  · exact h.raise e

theorem endBlock_frame (h : Frame regs store s s') (hb : 0x78#8 ∈ regs) : Frame regs store s (endBlock s') :=
  h.update rfl fun off ho => by rw [readReg_blockCount, if_neg (ne_of_mem_of_not_mem hb ho).symm]

theorem blockStored_framed (f : Bool) (h : Frame regs store s s') : Framed regs store s (execBlockStored f s') :=
  .withVal (h.withEng _) _ fun _ => .withVal (h.withEng _) _ fun _ => .ite (h.withEng _).framed ((h.withEng _).raiseAt _ _ _ _)

theorem blockDynamic_framed (f : Bool) (h : Frame regs store s s') : Framed regs store s (execBlockDynamic f s') :=
  .withVal (h.withEng _) _ fun _ => .withVal (h.withEng _) _ fun _ => .withVal (h.withEng _) _ fun _ =>
    .ite ((h.withEng _).raiseCode _ _) <| .ite ((h.withEng _).raiseCode _ _) <| .withVal (h.withEng _) _ fun _ =>
      .ite ((h.withEng _).raiseCode _ _) (h.withEng _).framed

theorem startCopy_framed (d : Nat) (h : Frame regs store s s') : Framed regs store s (startCopy d s') :=
  .ite (h.raiseAt _ _ _ _) (h.withEng _).framed

theorem splitAndCheck_framed (h : Frame regs store s s') : Framed regs store s (splitAndCheck s') :=
  .ite ((h.withEng _).raiseCode _ _) <| .ite ((h.withEng _).raiseCode _ _) <| .ite ((h.withEng _).raiseCode _ _)
    (h.withEng _).framed

theorem appendLens_framed (ls : List Nat) (h : Frame regs store s s') : Framed regs store s (appendLens ls s') :=
  .ite (h.withEng _).framed (splitAndCheck_framed (h.withEng _))

theorem repeatLens_framed (r v : Nat) (h : Frame regs store s s') : Framed regs store s (repeatLens r v s') :=
  .ite (h.raiseCode _ _) (appendLens_framed _ h)

/-! ## Unfilter -/

theorem endRow_frame (h : Frame regs store s s') (hr : [0x64#8, 0x08#8] ⊆ regs) : Frame regs store s (endRow s') := by
  have hlen : Frame regs store s { s' with
      regs := { s'.regs with reconLen := trunc32 ((s'.eng.row + 1) * rb s') }
      eng := { s'.eng with row := s'.eng.row + 1, phase := .row } } :=
    h.update rfl fun off ho => by rw [readReg_reconLen, if_neg fun he => ho (hr (by simp [he]))]
  unfold endRow
  dsimp only
  split
  · exact hlen
  · exact hlen.update rfl fun off ho => readReg_statusFields _ _ _ _ _ fun he => ho (hr (by simp [he]))

theorem writeRowByte_framed {x : Nat} (ft v : Byte) (h : Frame regs (some x) s s') (hr : [0x64#8, 0x08#8] ⊆ regs) :
    Framed regs (some x) s (writeRowByte ft v s') := fun t ht => by
  rcases withVal_next ht with ⟨u, hu, ht⟩ | ⟨e, -, rfl⟩
  · obtain ⟨-, rfl⟩ := busWrite_ok.1 hu
    have hput := h.putByte (s'.regs.reconBase.toNat + s'.eng.row * rb s' + rowIndex s') v
    exact Framed.ite (hput.withEng _).framed (endRow_frame hput hr).framed t ht
  · exact h.raise e

end

/-! ## The rows -/

/-- The frame of a row, in the words of the statement. -/
def RowFrame (i : Instr) (s t : State) : Prop :=
  (∀ off, off ∉ mayWrite i → off ∉ errOffsets ∨ t.regs.err = false → readReg t.regs off = readReg s.regs off) ∧
    t.host = s.host ∧ t.plat = s.plat ∧ t.memData = s.memData ∧ ((∀ off, i ≠ .rdReg off) → t.rdata = s.rdata) ∧
    (storeAddr i s = none → t.uncleaned = s.uncleaned ∧ t.stale = s.stale ∧ (0x04#8 ∉ mayWrite i → t.hidden = s.hidden)) ∧
    (0x04#8 ∉ mayWrite i → (∀ off, i ≠ .rdReg off) → t.unseen = s.unseen)

theorem RowFrame.of_frame {i : Instr} {s t : State} (h : Frame (mayWrite i) (storeAddr i s) s t) : RowFrame i s t :=
  ⟨h.window, h.host, h.plat, h.memData, fun _ => h.rdata, fun hs => (h.sets hs).imp_right fun h => h.imp_right fun h _ => h,
    fun _ _ => h.unseen⟩

/-- A frame from the registers alone: nothing but the window and the engine changes. -/
theorem Frame.ofRegs {regs : List (BitVec 8)} {store : Option Nat} {s : State} {r : Regs}
    (hr : ∀ off, off ∉ regs → readReg r off = readReg s.regs off) : Frame regs store s { s with regs := r } :=
  ⟨fun off ho _ => hr off ho, rfl, rfl, rfl, rfl, rfl, fun _ => ⟨rfl, rfl, rfl⟩⟩

/-! ### Host commands -/

/-- A START leaves ID, CTRL and the read-write registers (R202). -/
theorem readReg_started (r : Regs) {off : BitVec 8} (h : off ∉ errOffsets ++ resultOffsets) :
    readReg r.started off = readReg r off := by
  unfold readReg
  split <;> first | rfl | (exfalso; simp_all [errOffsets, resultOffsets, ← BitVec.toNat_inj])

/-- A CTRL write without START changes CTRL alone (R200). -/
theorem readReg_ctrlWrite_store (ab : Bool) (m : BitVec 3) (q f : Bool) (s : State) {off : BitVec 8} (h : off ≠ 0x04#8) :
    readReg (ctrlWrite false ab m q f s).regs off = readReg s.regs off := by
  cases hb : s.regs.busy with
  | true =>
    rw [ctrlWrite_busy hb]
    exact readReg_ctrlFields s.regs s.regs.mode q s.regs.fcheckEn h
  | false =>
    rw [ctrlWrite_store hb]
    exact readReg_ctrlFields s.regs m q f h

/-- A CTRL write changes CTRL and what a START clears (R200, R202). -/
theorem readReg_ctrlWrite (st ab : Bool) (m : BitVec 3) (q f : Bool) (s : State) {off : BitVec 8}
    (h : off ∉ 0x04#8 :: errOffsets ++ resultOffsets) : readReg (ctrlWrite st ab m q f s).regs off = readReg s.regs off := by
  rw [List.cons_append, List.mem_cons, not_or] at h
  obtain ⟨h4, hc⟩ := h
  cases st with
  | false => exact readReg_ctrlWrite_store ab m q f s h4
  | true =>
    cases hb : s.regs.busy with
    | true =>
      rw [ctrlWrite_busy hb]
      exact readReg_ctrlFields s.regs s.regs.mode q s.regs.fcheckEn h4
    | false =>
      rw [ctrlWrite_start hb]
      exact (readReg_started _ hc).trans (readReg_ctrlFields s.regs m q f h4)

theorem ctrlWrite_rowFrame {i : Instr} {st ab : Bool} {m : BitVec 3} {q f : Bool} {s : State} (hm : 0x04#8 ∈ mayWrite i)
    (hr : ∀ off, off ∉ mayWrite i → readReg (ctrlWrite st ab m q f s).regs off = readReg s.regs off) :
    RowFrame i s (ctrlWrite st ab m q f s) := by
  obtain ⟨-, hh, hp, -, hrd, hmd, hu, hst⟩ := ctrlWrite_sameOutside st ab m q f s
  exact ⟨fun off ho _ => hr off ho, hh, hp, hmd, fun _ => hrd, fun _ => ⟨hu, hst, fun h => absurd hm h⟩, fun h => absurd hm h⟩

theorem rdReg_rowFrame (off : BitVec 8) {s t : State} (h : execRdReg off s = .next t) : RowFrame (.rdReg off) s t := by
  cases h
  exact ⟨fun _ _ _ => rfl, rfl, rfl, rfl, fun h => absurd rfl (h off), fun _ => ⟨rfl, rfl, fun _ => rfl⟩,
    fun _ h => absurd rfl (h off)⟩

theorem wrReg_frame (off : BitVec 8) (v : Word) {s t : State} (h : execWrReg off v s = .next t) : Frame [off] none s t := by
  cases h
  split
  · exact .refl _ _ _
  · exact .ofRegs fun o ho => by rw [readReg_writeRegs, if_neg fun h => ho (List.mem_singleton.2 h.1)]

theorem wrStatus_frame (v : Word) {s t : State} (h : execWrStatus v s = .next t) : Frame [0x08#8] none s t := by
  cases h
  exact .ofRegs fun o ho => readReg_statusFields s.regs s.regs.busy _ _ s.regs.stage fun h => ho (List.mem_singleton.2 h)

/-! ### The engine's rows -/

theorem execSig_framed (s : State) : Framed [0x08#8] none s (execSig s) := by
  have h : Frame [0x08#8] none s (s.atStage .signature) := .ofRegs fun off ho =>
    readReg_statusFields s.regs s.regs.busy s.regs.done s.regs.err .signature fun h => ho (List.mem_singleton.2 h)
  exact .withVal h _ fun _ => (h.withEng _).framed

theorem execChunkIhdr_framed (len : Word) (s : State) :
    Framed [0x68#8, 0x40#8, 0x44#8, 0x48#8, 0x4C#8] none s (execChunkIhdr len s) := by
  have h := Frame.refl [0x68#8, 0x40#8, 0x44#8, 0x48#8, 0x4C#8] none s
  unfold execChunkIhdr
  split
  · exact checkHeader_framed len h (List.subset_cons_self _ _)
  · exact readChunk_framed h (.head _) fun u hu => acceptChunk_framed _ _ hu

theorem execChunkPlte_framed (len : Word) (s : State) : Framed [0x68#8, 0x50#8, 0x54#8] none s (execChunkPlte len s) := by
  have h := Frame.refl [0x68#8, 0x50#8, 0x54#8] none s
  unfold execChunkPlte
  split
  · exact checkPalette_framed len h (List.subset_cons_self _ _)
  · exact readChunk_framed h (.head _) fun u hu => acceptChunk_framed _ _ hu

theorem execChunkIend_framed (len : Word) (s : State) :
    Framed [0x68#8, 0x70#8, 0x74#8, 0x7C#8] none s (execChunkIend len s) :=
  readChunk_framed (.refl _ _ s) (.head _) fun u hu =>
    (endWalk_frame (s' := recordChunk len typIEND u) (hu.withEng _) (List.subset_cons_self _ _)).framed

/-- Every row keeps to its frame. -/
theorem exec_rowFrame {i : Instr} {s t : State} (h : exec i s = .next t) : RowFrame i s t := by
  have refl : ∀ regs store, Frame regs store s s := fun regs store => .refl regs store s
  have byte : ∀ ft v, Framed [0x64#8, 0x08#8] (some (s.regs.reconBase.toNat + s.eng.row * rb s + rowIndex s)) s
      (writeRowByte ft v s) := fun ft v => writeRowByte_framed ft v (refl _ _) (List.Subset.refl _)
  cases i with
  | wrCtrl m q f r =>
    cases h
    exact ctrlWrite_rowFrame (List.mem_singleton.2 rfl) fun off ho => readReg_ctrlWrite_store _ m q f s fun h => ho (h ▸ .head _)
  | startFull | startInflate | startUnfilter | startCrc32 | startReserved | abort =>
    cases h
    exact ctrlWrite_rowFrame (.head _) fun off ho => readReg_ctrlWrite _ _ _ _ _ s ho
  | wrStatus v => exact .of_frame (wrStatus_frame v h)
  | wrReg off v => exact .of_frame (wrReg_frame off v h)
  | rdReg off => exact rdReg_rowFrame off h
  | sig => exact .of_frame (execSig_framed s t h)
  | chunkIhdr len => exact .of_frame (execChunkIhdr_framed len s t h)
  | chunkPlte len => exact .of_frame (execChunkPlte_framed len s t h)
  | chunkIdat | chunkAncillary =>
    exact .of_frame (readChunk_framed (refl _ _) (.head _) (fun u hu => acceptChunk_framed _ _ hu) t h)
  | chunkIend len => exact .of_frame (execChunkIend_framed len s t h)
  | chunkUnknownCritical len typ =>
    exact .of_frame (readChunk_framed (refl _ _) (.head _) (fun u hu => hu.raiseAt _ _ _ _) t h)
  | zlibCm | zlibFdict | zlibFcheck =>
    exact .of_frame (Framed.ite ((refl _ _).raiseAt _ _ _ _) ((refl _ _).withEng _).framed t h)
  | blockStored f => exact .of_frame (blockStored_framed f (refl _ _) t h)
  | blockFixed f => exact .of_frame (((refl _ _).withEng _).framed t h)
  | blockDynamic f => exact .of_frame (blockDynamic_framed f (refl _ _) t h)
  | blockReserved f => exact .of_frame (((refl _ _).withEng _).raiseAt _ _ _ _ t h)
  | litFixed8 lit | litFixed9 lit | litDyn lit => exact .of_frame (literal_framed lit (refl _ _) (.head _) t h)
  | eob => exact .of_frame ((endBlock_frame (refl _ _) (.head _)).framed t h)
  | litlenInvalid low | distInvalid low => exact .of_frame ((refl _ _).raiseCode _ _ t h)
  | dist0 | dist1 | dist2 | dist3 | dist4 | dist5 | dist6 | dist7 | dist8 | dist9 | dist10 | dist11 | dist12 | dist13 | dist14
  | dist15 | dist16 | dist17 | dist18 | dist19 | dist20 | dist21 | dist22 | dist23 | dist24 | dist25 | dist26 | dist27 | dist28
  | dist29 => exact .of_frame (startCopy_framed _ (refl _ _) t h)
  | clLen sym => exact .of_frame (appendLens_framed _ (refl _ _) t h)
  | cl16 e =>
    simp only [exec, execCl16] at h
    split at h
    · exact .of_frame ((refl _ _).raiseCode _ _ t h)
    · exact .of_frame (repeatLens_framed _ _ (refl _ _) t h)
  | cl17 e | cl18 e => exact .of_frame (repeatLens_framed _ _ (refl _ _) t h)
  | filtNone => exact .of_frame (Framed.withVal (refl _ _) _ (fun x => byte 0#8 x) t h)
  | filtSub =>
    exact .of_frame (Framed.withVal (refl _ _) _ (fun x => .withVal (refl _ _) _ fun a => byte 1#8 (x + a)) t h)
  | filtUp =>
    exact .of_frame (Framed.withVal (refl _ _) _ (fun x => .withVal (refl _ _) _ fun b => byte 2#8 (x + b)) t h)
  | filtAvg =>
    exact .of_frame (Framed.withVal (refl _ _) _ (fun x => .withVal (refl _ _) _ fun a => .withVal (refl _ _) _ fun b =>
      byte 3#8 (x + average a b)) t h)
  | filtPaeth =>
    exact .of_frame (Framed.withVal (refl _ _) _ (fun x => .withVal (refl _ _) _ fun a => .withVal (refl _ _) _ fun b =>
      .withVal (refl _ _) _ fun c => byte 4#8 (x + paeth a b c)) t h)
  | filtInvalid ft => exact .of_frame ((refl _ _).raiseAt _ _ _ _ t h)
  | _ => exact .of_frame (((refl _ _).withEng _).framed t h)

/-- Settles O28: row by row, a meaning keeps to its Writes list. -/
theorem frameRegisters : Obligations.FrameRegisters := by
  unfold Obligations.FrameRegisters
  exact fun i s t h => exec_rowFrame h

end Sys2Proof.Machine
end

section
/-! The CRC32 mode (R210, R211), and the unfilterer up to a row's first byte with its geometry (R490 to R495). -/

namespace Sys2Proof.Machine

theorem step_enter {z s : State} {g : Stage} (ht : EngineTurn z s) (hp : s.eng.phase = .enter g) :
    step z = .next (enterStage g s) := by
  rw [step_engine ht, enginePhase, hp]
  rfl

/-! ## The CRC32 mode -/

/-- Settles O37: the loop over IN is the CRC-32 of its bytes (`crcOver_ok`). -/
theorem crcRun : Obligations.CrcRun := by
  unfold Obligations.CrcRun
  refine ⟨fun z s ht hp => step_enter ht hp, fun z s f ht hp hf => ?_⟩
  have hc : crcOver s s.regs.inLen.toNat 0 crcInit =
      .ok ((bytesOf s.regs.inLen.toNat f).foldl crcByte crcInit) := crcOver_ok hf crcInit
  rw [step_engine ht, enginePhase, hp]
  simp only [Fetched.result, crcStep, hc, withVal_ok]
  rfl

/-! ## The entry and the parameters (R209, R491) -/

theorem isFull_eq_false {s : State} (h : s.regs.mode ≠ 0#3) : isFull s = false :=
  eq_false_of_ne_true fun hf => h ((isFull_iff s).1 hf)

theorem enterStage_unfilter (s : State) : enterStage .unfilter s = { s.atStage .unfilter with
    eng := { s.eng with phase := if s.regs.mode = 0#3 then .geometry else .ufParams } } := by
  simp only [enterStage, isFull_iff]
  rfl

/-- The pairing test of R263 is membership in its table. -/
theorem permitted_iff {bd ct : Nat} : permitted bd ct = true ↔ (ct, bd) ∈ permittedPairs := by
  refine ⟨permitted_pairs, fun h => ?_⟩
  have all : ∀ p ∈ permittedPairs, permitted p.2 p.1 = true := by decide
  exact all _ h

theorem toNat_ne_zero {w : Word} (h : w ≠ 0#32) : w.toNat ≠ 0 := BitVec.toNat_ne_iff_ne.2 h

/-- The state behind the parameter check. -/
def paramsChecked (s : State) : State :=
  match ufError s.regs.ufWidth.toNat s.regs.ufHeight.toNat (formatDepth s.regs.ufFormat) (formatColor s.regs.ufFormat) with
  | some e => raise e s
  | none => { s with eng := { s.eng with phase := .geometry } }

theorem ufParamsStep_eq (s : State) : ufParamsStep s = .next (paramsChecked s) := by
  unfold ufParamsStep paramsChecked
  cases ufError s.regs.ufWidth.toNat s.regs.ufHeight.toNat (formatDepth s.regs.ufFormat) (formatColor s.regs.ufFormat) <;> rfl

section
variable {s : State}

theorem paramsChecked_width (h : s.regs.ufWidth = 0#32) : ErrorEntry 0x00020105#32 0x30 0 s (paramsChecked s) := by
  rw [paramsChecked, ufError, if_pos (by rw [h]; rfl)]
  exact errorEntry_raise (by decide) _ _ s

theorem paramsChecked_height (hw : s.regs.ufWidth ≠ 0#32) (h : s.regs.ufHeight = 0#32) :
    ErrorEntry 0x00030105#32 0x34 0 s (paramsChecked s) := by
  rw [paramsChecked, ufError, if_neg (toNat_ne_zero hw), if_pos (by rw [h]; rfl)]
  exact errorEntry_raise (by decide) _ _ s

theorem paramsChecked_format (hw : s.regs.ufWidth ≠ 0#32) (hh : s.regs.ufHeight ≠ 0#32)
    (h : (formatColor s.regs.ufFormat, formatDepth s.regs.ufFormat) ∉ permittedPairs) :
    ErrorEntry 0x00010208#32 0x38 (formatDepth s.regs.ufFormat + formatColor s.regs.ufFormat * 256) s (paramsChecked s) := by
  rw [← permitted_iff, Bool.not_eq_true] at h
  rw [paramsChecked, ufError, if_neg (toNat_ne_zero hw), if_neg (toNat_ne_zero hh), if_pos h]
  exact errorEntry_raise (by decide) _ _ s

theorem paramsChecked_ok (hw : s.regs.ufWidth ≠ 0#32) (hh : s.regs.ufHeight ≠ 0#32)
    (h : (formatColor s.regs.ufFormat, formatDepth s.regs.ufFormat) ∈ permittedPairs) :
    paramsChecked s = { s with eng := { s.eng with phase := .geometry } } := by
  rw [← permitted_iff] at h
  rw [paramsChecked, ufError, if_neg (toNat_ne_zero hw), if_neg (toNat_ne_zero hh), if_neg (by rw [h]; decide)]

end

/-! ## The capacity and the rows (R494, R495) -/

theorem geometryStep_overflow {s : State} (h : s.regs.reconCap.toNat < geomHeight s * rb s) :
    geometryStep s = raiseAt .outputOverflow 2 0 (min (geomHeight s * rb s) 0xFFFFFFFF) s := by
  rw [geometryStep, if_pos h]

theorem geometryStep_fits {s : State} (h : geomHeight s * rb s ≤ s.regs.reconCap.toNat) (hh : geomHeight s ≠ 0) :
    geometryStep s = .next { s with
      regs := { s.regs with rowBytes := trunc32 (rb s), bpp := trunc32 (bpp s) }
      eng := { s.eng with row := 0, phase := .row } } := by
  rw [geometryStep, if_neg (Nat.not_lt.2 h)]
  exact if_neg hh

theorem fetchRow_truncated {s : State} (h : filteredLen s < (s.eng.row + 1) * stride s) :
    fetchRow s = .answer (raiseAt .truncatedScanline 0 s.eng.row (filteredLen s - s.eng.row * stride s) s) := by
  have hpos : stride s = rb s + 1 := rfl
  rw [Nat.add_mul] at h
  rw [fetchRow]
  exact if_pos (by omega)

/-! ## The geometry (R492, R493) -/

/-- Row bytes are the row's bits in bytes, rounded up. -/
theorem rowBytesOf_bounds (w bd ct : Nat) :
    w * (channels ct * bd) ≤ 8 * rowBytesOf w bd ct ∧ 8 * rowBytesOf w bd ct < w * (channels ct * bd) + 8 := by
  unfold rowBytesOf
  omega

theorem bppOf_small {bd ct : Nat} (h : channels ct * bd < 8) : bppOf bd ct = 1 := by
  unfold bppOf
  omega

theorem bppOf_large {bd ct : Nat} (h : 8 ≤ channels ct * bd) : bppOf bd ct = channels ct * bd / 8 := by
  unfold bppOf
  omega

theorem permittedPairs_bits : ∀ p ∈ permittedPairs, 1 ≤ channels p.1 * p.2 ∧ channels p.1 * p.2 ≤ 64 ∧
    (channels p.1 * p.2 < 8 ∨ channels p.1 * p.2 % 8 = 0) := by
  decide

/-- FULL mode takes its geometry from the IMG registers and its data from INFL (R207). -/
theorem geometry_full {s : State} (h : s.regs.mode = 0#3) :
    rb s = rowBytesOf s.regs.imgWidth.toNat (formatDepth s.regs.imgFormat) (formatColor s.regs.imgFormat) ∧
      bpp s = bppOf (formatDepth s.regs.imgFormat) (formatColor s.regs.imgFormat) ∧
      geomHeight s = s.regs.imgHeight.toNat ∧ filteredLen s = s.regs.inflLen.toNat := by
  have hf : isFull s = true := (isFull_iff s).2 h
  simp [rb, bpp, geomWidth, geomHeight, geomFormat, filteredLen, hf]

/-- Otherwise they are the UF registers and IN (R209). -/
theorem geometry_unfilter {s : State} (h : s.regs.mode ≠ 0#3) :
    rb s = rowBytesOf s.regs.ufWidth.toNat (formatDepth s.regs.ufFormat) (formatColor s.regs.ufFormat) ∧
      bpp s = bppOf (formatDepth s.regs.ufFormat) (formatColor s.regs.ufFormat) ∧
      geomHeight s = s.regs.ufHeight.toNat ∧ filteredLen s = s.regs.inLen.toNat := by
  have hf : isFull s = false := isFull_eq_false h
  simp [rb, bpp, geomWidth, geomHeight, geomFormat, filteredLen, hf]

/-- Settles O51, stage by stage. -/
theorem unfilterEntry : Obligations.UnfilterEntry := by
  unfold Obligations.UnfilterEntry
  refine ⟨fun z s ht hp => ?_, fun z s ht hp => ⟨paramsChecked s, ?_, paramsChecked_width, paramsChecked_height,
    paramsChecked_format, paramsChecked_ok⟩, fun z s ht hp hh => ?_, fun z s ft ht hp => ⟨fun _ hl => ?_, step_row ht hp⟩,
    by decide, ?_, fun s => ⟨rfl, geometry_full, geometry_unfilter⟩⟩
  · rw [step_enter ht hp, enterStage_unfilter]
  · rw [step_engine ht, enginePhase, hp]
    exact ufParamsStep_eq s
  · have hs : step z = geometryStep s := by
      rw [step_engine ht, enginePhase, hp]
      rfl
    rw [hs]
    by_cases hc : s.regs.reconCap.toNat < geomHeight s * rb s
    · rw [geometryStep_overflow hc]
      exact ⟨_, rfl, fun _ => errorEntry_raise (by decide) _ _ s, fun h => absurd hc (Nat.not_lt.2 h)⟩
    · rw [geometryStep_fits (Nat.not_lt.1 hc) hh]
      exact ⟨_, rfl, fun h => absurd h hc, fun _ => rfl⟩
  · rw [step_engine ht, enginePhase, hp]
    simp only [fetchRow_truncated hl, Fetched.result]
    exact ⟨_, rfl, errorEntry_raise (by decide) _ _ s⟩
  · rintro w bd ct bits rfl
    obtain ⟨hlow, hhigh⟩ := rowBytesOf_bounds w bd ct
    exact ⟨hlow, hhigh, bppOf_small, bppOf_large, permittedPairs_bits (ct, bd)⟩

end Sys2Proof.Machine
end

section
/-! CRC-32 (R250, R251): a bit step is linear over exclusive or, so a byte step splits into a table entry and a shift. -/

namespace Sys2Proof.Machine

/-! ## The bit step -/

/-- R250's step is linear over exclusive or. -/
theorem crcBit_xor (x y : Word) : crcBit (x ^^^ y) = crcBit x ^^^ crcBit y := by
  unfold crcBit
  rw [BitVec.getLsbD_xor, BitVec.ushiftRight_xor_distrib]
  generalize x >>> 1 = u, y >>> 1 = v, 0xEDB88320#32 = poly
  cases x.getLsbD 0 <;> cases y.getLsbD 0
  case true.true =>
    change u ^^^ v = u ^^^ poly ^^^ (v ^^^ poly)
    rw [show u ^^^ poly ^^^ (v ^^^ poly) = u ^^^ v ^^^ (poly ^^^ poly) by ac_rfl, BitVec.xor_self, BitVec.xor_zero]
  case true.false =>
    change u ^^^ v ^^^ poly = u ^^^ poly ^^^ v
    ac_rfl
  case false.true => exact BitVec.xor_assoc u v poly
  case false.false => rfl

theorem crcBits_xor (n : Nat) (x y : Word) : crcBits n (x ^^^ y) = crcBits n x ^^^ crcBits n y := by
  induction n generalizing x y with
  | zero => rfl
  | succ n ih => rw [crcBits, crcBits, crcBits, crcBit_xor, ih]

/-- Over zero bits the steps only shift. -/
theorem crcBits_of_low_zero {n : Nat} {x : Word} (h : ∀ i < n, x.getLsbD i = false) : crcBits n x = x >>> n := by
  induction n generalizing x with
  | zero => rfl
  | succ n ih =>
    have hbit : crcBit x = x >>> 1 := by rw [crcBit, h 0 (Nat.succ_pos n), if_neg Bool.false_ne_true]
    rw [crcBits, hbit, ih fun i hi => by rw [BitVec.getLsbD_ushiftRight]; exact h (1 + i) (by omega), ← BitVec.shiftRight_add,
      Nat.add_comm]

/-! ## The table form -/

/-- The low byte of an accumulator gives its table entry, the rest is shifted. -/
theorem crcBits_eight (x : Word) : crcBits 8 x = crcTable (x.setWidth 8) ^^^ (x ^^^ (x.setWidth 8).setWidth 32) >>> 8 := by
  have hlow : ∀ i < 8, (x ^^^ (x.setWidth 8).setWidth 32).getLsbD i = false := fun i hi => by
    simp [hi, show i < 32 by omega]
  have hsplit : x = (x.setWidth 8).setWidth 32 ^^^ (x ^^^ (x.setWidth 8).setWidth 32) := by
    rw [BitVec.xor_comm x, ← BitVec.xor_assoc, BitVec.xor_self, BitVec.zero_xor]
  rw [crcTable, ← crcBits_of_low_zero hlow, ← crcBits_xor, ← hsplit]

theorem setWidth_byte_ushiftRight (b : Byte) : b.setWidth 32 >>> 8 = 0#32 := by
  ext i hi
  simp

theorem crcByteTable_eq (c : Word) (b : Byte) : crcByteTable c b = crcByte c b := by
  rw [crcByteTable, crcByte, crcBits_eight, BitVec.ushiftRight_xor_distrib, BitVec.ushiftRight_xor_distrib,
    setWidth_byte_ushiftRight, setWidth_byte_ushiftRight, BitVec.xor_zero, BitVec.xor_zero]

/-- Settles O36: the table form for every accumulator, then the printed values. -/
theorem crcTableForm : Obligations.CrcTableForm := by
  unfold Obligations.CrcTableForm
  exact ⟨crcByteTable_eq, by decide, by decide, by decide, by decide, by decide, by decide, by decide +kernel⟩

end Sys2Proof.Machine
end

section
/-! Signature and chunk walk (R252 to R259): SIG from the bytes of IN, and a chunk row as the two length and CRC checks followed by what
its type does. -/

namespace Sys2Proof.Machine

/-! ## SIG (R252, R545) -/

/-- The comparison passes over bytes that agree with IN. -/
theorem checkSignature_append {s : State} {pre : List Byte} (rest : List Byte) {i : Nat}
    (h : ∀ k b, pre[k]? = some b → i + k < s.regs.inLen.toNat ∧ inByte s (i + k) = .ok b) :
    checkSignature s (pre ++ rest) i = checkSignature s rest (i + pre.length) := by
  induction pre generalizing i with
  | nil => rfl
  | cons b pre ih =>
    obtain ⟨hl, hb⟩ := h 0 b rfl
    rw [Nat.add_zero] at hl hb
    have htail := ih (i := i + 1) fun k x hx => by
      rw [Nat.add_assoc, Nat.add_comm 1 k]
      exact h (k + 1) x hx
    rw [List.cons_append, checkSignature, if_neg (Nat.not_le.2 hl), hb]
    simp only [if_true]
    rw [htail, List.length_cons, Nat.add_assoc, Nat.add_comm 1]

/-- With IN readable the comparison passes or raises. -/
theorem checkSignature_answers {s : State} {bs : List Byte} {i : Nat}
    (h : ∀ k < bs.length, i + k < s.regs.inLen.toNat → ∃ b, inByte s (i + k) = .ok b) :
    checkSignature s bs i = .ok () ∨ ∃ e, checkSignature s bs i = .error (.raise e) := by
  induction bs generalizing i with
  | nil => exact .inl rfl
  | cons b bs ih =>
    unfold checkSignature
    split
    · exact .inr ⟨_, rfl⟩
    · obtain ⟨x, hx⟩ := h 0 (Nat.succ_pos _) (by omega)
      rw [Nat.add_zero] at hx
      rw [hx]
      simp only
      split
      · refine ih fun k hk hl => ?_
        rw [Nat.add_assoc, Nat.add_comm 1 k] at hl ⊢
        exact h (k + 1) (Nat.succ_lt_succ hk) hl
      · exact .inr ⟨_, rfl⟩

section
variable {s : State} {f : Nat → Byte}

/-- The first `i` bytes agree: the comparison goes on at index `i`. -/
theorem checkSignature_skip (hf : InBytes s 0 (min 8 s.regs.inLen.toNat) f) {i : Nat} (hi : i ≤ 8) (hl : i ≤ s.regs.inLen.toNat)
    (h : bytesOf i f = sigBytes.take i) : checkSignature s sigBytes 0 = checkSignature s (sigBytes.drop i) i := by
  have hlen : (sigBytes.take i).length = i := by rw [← h]; simp [bytesOf]
  have hskip := checkSignature_append (s := s) (sigBytes.drop i) (i := 0) (pre := sigBytes.take i) fun k b hk => by
    rw [← h] at hk
    obtain ⟨hki, rfl⟩ : k < i ∧ f k = b := by
      obtain ⟨hki, hb⟩ := List.getElem?_eq_some_iff.1 hk
      simp only [bytesOf, List.length_map, List.length_range, List.getElem_map, List.getElem_range] at hki hb
      exact ⟨hki, hb⟩
    exact ⟨by omega, hf k (by omega)⟩
  rwa [List.take_append_drop, hlen, Nat.zero_add] at hskip

/-- All eight bytes agree. -/
theorem checkSignature_match (hf : InBytes s 0 (min 8 s.regs.inLen.toNat) f) (hl : 8 ≤ s.regs.inLen.toNat)
    (h : bytesOf 8 f = sigBytes) : checkSignature s sigBytes 0 = .ok () :=
  checkSignature_skip hf (Nat.le_refl 8) hl h

/-- The first byte that differs is raised with its index. -/
theorem checkSignature_mismatch (hf : InBytes s 0 (min 8 s.regs.inLen.toNat) f) {i : Nat} (hi : i < 8)
    (hl : i < s.regs.inLen.toNat) (h : bytesOf i f = sigBytes.take i) (hx : sigBytes[i]? ≠ some (f i)) :
    checkSignature s sigBytes 0 = .error (.raise ⟨.signatureMismatch, 0, i, (f i).toNat⟩) := by
  have hi' : i < sigBytes.length := hi
  have hne : ¬f i = sigBytes[i] := fun he => hx (by rw [he, List.getElem?_eq_getElem hi'])
  have hb := hf i (Nat.lt_min.2 ⟨hi, hl⟩)
  rw [Nat.zero_add] at hb
  rw [checkSignature_skip hf hi.le hl.le h, List.drop_eq_getElem_cons hi', checkSignature, if_neg (Nat.not_le.2 hl), hb]
  exact if_neg hne

/-- A buffer that ends inside the signature fails at its end. -/
theorem checkSignature_short (hf : InBytes s 0 (min 8 s.regs.inLen.toNat) f) (hl : s.regs.inLen.toNat < 8)
    (h : bytesOf s.regs.inLen.toNat f = sigBytes.take s.regs.inLen.toNat) :
    checkSignature s sigBytes 0 = .error (.raise ⟨.signatureMismatch, 0, s.regs.inLen.toNat, 0⟩) := by
  have hl' : s.regs.inLen.toNat < sigBytes.length := hl
  rw [checkSignature_skip hf hl.le (Nat.le_refl _) h, List.drop_eq_getElem_cons hl', checkSignature]
  exact if_pos (Nat.le_refl _)

end

/-- SIG's own step: STAGE, then the comparison. -/
theorem execSig_eq (s : State) : execSig s = withVal (checkSignature (s.atStage .signature) sigBytes 0) (s.atStage .signature)
    fun _ => .next { s.atStage .signature with eng := { s.eng with phase := .enter .chunks } } := rfl

section
variable {s : State}

theorem execSig_ok (h : checkSignature (s.atStage .signature) sigBytes 0 = .ok ()) :
    execSig s = .next { s.atStage .signature with eng := { s.eng with phase := .enter .chunks } } := by
  rw [execSig_eq, h, withVal_ok]

theorem execSig_raise {e : RunError} (h : checkSignature (s.atStage .signature) sigBytes 0 = .error (.raise e)) :
    execSig s = .next (raise e (s.atStage .signature)) := by
  rw [execSig_eq, h, withVal_raise]

theorem execSig_answers {f : Nat → Byte} (hf : InBytes s 0 (min 8 s.regs.inLen.toNat) f) : ∃ t, execSig s = .next t := by
  have h := checkSignature_answers (s := s.atStage .signature) (bs := sigBytes) (i := 0) fun k hk hl => by
    rw [Nat.zero_add] at hl
    exact ⟨f k, hf k (Nat.lt_min.2 ⟨hk, hl⟩)⟩
  rcases h with h | ⟨e, h⟩
  · exact ⟨_, execSig_ok h⟩
  · exact ⟨_, execSig_raise h⟩

end

/-- Settles O29: SIG answers, and each clause says what. -/
theorem signatureCheck : Obligations.SignatureCheck := by
  unfold Obligations.SignatureCheck
  refine ⟨fun z s ht hp => step_enter ht hp, fun s f hf => ?_⟩
  have hf' : InBytes (s.atStage .signature) 0 (min 8 s.regs.inLen.toNat) f := hf
  obtain ⟨t, ht⟩ := execSig_answers hf
  have same : ∀ {u : State}, execSig s = .next u → t = u := fun hu => by
    rw [ht] at hu
    cases hu
    rfl
  refine ⟨t, ht, fun hl h => same (execSig_ok (checkSignature_match hf' hl h)), fun i hi hl h hx => ?_, fun hl h => ?_⟩
  · rw [same (execSig_raise (checkSignature_mismatch hf' hi hl h hx))]
    exact errorEntry_raise (by decide) _ _ _
  · rw [same (execSig_raise (checkSignature_short hf' hl h))]
    exact errorEntry_raise (by decide) _ _ _

/-! ## A chunk row in the walk (R254 to R259) -/

/-- A big-endian number inside bytes that can be read. -/
theorem InBytes.be32 {s : State} {base n k : Nat} {f : Nat → Byte} (h : InBytes s base n f) (hk : k + 4 ≤ n) :
    inBe32 s (base + k) = .ok (be32At f k) :=
  be32From_ok (f := fun j => f (k + j)) fun j hj => by rw [Nat.add_assoc]; exact h (k + j) (by omega)

/-- What a chunk's type makes of it once its CRC is right, from the chunk's offset `p` and the state behind the CRC check. -/
def afterCrc (p : Nat) (len typ : Word) (s : State) : Result :=
  if typ = typIEND then .next (endWalk (recordChunk len typ s))
  else if isCritical typ = true ∧ isKnownType typ = false then raiseAt .unsupportedCriticalChunk 0 p typ.toNat s
  else acceptChunk len typ s

theorem afterCrc_end (p : Nat) (len : Word) : afterCrc p len typIEND = fun u => .next (endWalk (recordChunk len typIEND u)) :=
  funext fun _ => if_pos rfl

theorem afterCrc_accept {len typ : Word} (p : Nat) (he : typ ≠ typIEND) (h : isCritical typ = true → isKnownType typ = true) :
    afterCrc p len typ = acceptChunk len typ := by
  funext u
  rw [afterCrc, if_neg he, if_neg fun hc => by simp [h hc.1] at hc]

theorem afterCrc_unknown {len typ : Word} (p : Nat) (hc : isCritical typ = true) (hk : isKnownType typ = false) :
    afterCrc p len typ = raiseAt .unsupportedCriticalChunk 0 p typ.toNat := by
  funext u
  have he : typ ≠ typIEND := by
    rintro rfl
    cases hk
  rw [afterCrc, if_neg he, if_pos (And.intro hc hk)]

/-- An unknown critical type has the row of its own (R257). -/
theorem instrOfChunk_unknown {typ : Word} (len : Word) (hc : isCritical typ = true) (hk : isKnownType typ = false) :
    instrOfChunk len typ = .chunkUnknownCritical len typ := by
  simp only [isKnownType, Bool.or_eq_false_iff, beq_eq_false_iff_ne] at hk
  obtain ⟨⟨⟨h1, h2⟩, h3⟩, h4⟩ := hk
  rw [instrOfChunk, if_neg h1, if_neg h2, if_neg h3, if_neg h4, if_pos hc]

/-- In the walk every chunk row is the checks of R254 and R255, then what its type does. -/
theorem exec_chunk {s : State} (len typ : Word) (hp : s.eng.phase = .chunk) :
    exec (instrOfChunk len typ) s = readChunk len typ (afterCrc s.eng.p len typ) s := by
  by_cases h1 : typ = typIHDR
  · subst h1
    rw [afterCrc_accept _ (by decide) (by decide)]
    change execChunkIhdr len s = _
    rw [execChunkIhdr, hp]
  by_cases h2 : typ = typPLTE
  · subst h2
    rw [afterCrc_accept _ (by decide) (by decide)]
    change execChunkPlte len s = _
    rw [execChunkPlte, hp]
  by_cases h3 : typ = typIDAT
  · subst h3
    rw [afterCrc_accept _ (by decide) (by decide)]
    rfl
  by_cases h4 : typ = typIEND
  · subst h4
    rw [afterCrc_end]
    rfl
  cases hc : isCritical typ with
  | true =>
    have hk : isKnownType typ = false := by simp [isKnownType, h1, h2, h3, h4]
    rw [instrOfChunk_unknown len hc hk, afterCrc_unknown _ hc hk]
    rfl
  | false =>
    rw [instrOfChunk, if_neg h1, if_neg h2, if_neg h3, if_neg h4, if_neg (by simp [hc]), afterCrc_accept _ h4 (by simp [hc])]
    rfl

section
variable {len typ : Word} {s : State} {f : Nat → Byte} (k : State → Result)

/-- Data or CRC missing (R254). -/
theorem readChunk_short (h : s.regs.inLen.toNat < s.eng.p + 12 + len.toNat) :
    readChunk len typ k s = .next (raise ⟨.truncatedStream, 2, s.eng.p, typ.toNat⟩ s) :=
  if_pos (by omega)

/-- The chunk's bytes read: the computed CRC is compared with the stored one (R255). -/
theorem readChunk_read (hr : s.eng.p + 12 + len.toNat ≤ s.regs.inLen.toNat) (hf : InBytes s (s.eng.p + 4) (8 + len.toNat) f) :
    readChunk len typ k s =
      if (crc32 (bytesOf (4 + len.toNat) f)).toNat = be32At f (4 + len.toNat) then
        k (withCrc ((bytesOf (4 + len.toNat) f).foldl crcByte crcInit) s)
      else raiseAt .badCrc 0 s.eng.p typ.toNat (withCrc ((bytesOf (4 + len.toNat) f).foldl crcByte crcInit) s) := by
  have hcrc : crcOver s (4 + len.toNat) (s.eng.p + 4) crcInit = .ok ((bytesOf (4 + len.toNat) f).foldl crcByte crcInit) :=
    crcOver_ok (fun j hj => hf j (by omega)) crcInit
  have hstored : inBe32 (withCrc ((bytesOf (4 + len.toNat) f).foldl crcByte crcInit) s) (s.eng.p + 8 + len.toNat) =
      .ok (be32At f (4 + len.toNat)) := by
    rw [show s.eng.p + 8 + len.toNat = s.eng.p + 4 + (4 + len.toNat) by omega]
    exact InBytes.be32 hf (by omega)
  unfold readChunk
  simp only
  rw [if_neg (by omega), hcrc, withVal_ok]
  exact congrArg (withVal · _ _) hstored

end

/-- An IEND record adds nothing to the IDAT counts. -/
theorem filter_isIdat_append_end (cs : List ChunkRec) (off len : Nat) :
    (cs ++ [(⟨off, len, typIEND⟩ : ChunkRec)]).filter ChunkRec.isIdat = cs.filter ChunkRec.isIdat := by
  rw [List.filter_append]
  exact List.append_nil _

/-- The walk's end at an IEND chunk (R256, R259). -/
theorem endWalk_recordEnd (len : Word) (s : State) : endWalk (recordChunk len typIEND s) = { s with
    regs := { s.regs with
      chunkCount := trunc32 (s.eng.chunks.length + 1)
      idatCount := trunc32 (s.eng.chunks.filter ChunkRec.isIdat).length
      idatLen := trunc32 (idatTotal s.eng.chunks) }
    eng := { s.eng with chunks := s.eng.chunks ++ [⟨s.eng.p, len.toNat, typIEND⟩], phase := .enter .header } } := by
  simp only [endWalk, recordChunk, idatTotal, filter_isIdat_append_end, List.length_append, List.length_singleton]

/-- Settles O30: the entry, then the walk's own tests and the row of the chunk at the cursor (`step_chunk`). -/
theorem chunkWalk : Obligations.ChunkWalk := by
  unfold Obligations.ChunkWalk
  refine ⟨fun z s ht hp => step_enter ht hp, fun z s f ht hp => ⟨fun he => ?_, fun hl hs => ?_, fun hr hf => ?_⟩⟩
  · rw [step_engine ht, enginePhase, hp]
    simp only [fetchChunk, if_pos he, Fetched.result]
    rfl
  · rw [step_engine ht, enginePhase, hp]
    simp only [fetchChunk, if_neg hl.ne, if_pos (show s.regs.inLen.toNat - s.eng.p < 8 by omega), Fetched.result]
    exact ⟨_, rfl, errorEntry_raise (by decide) _ _ s⟩
  · exact step_chunk ht hp hr hf (decode_chunk_bytesOf f)

/-- Settles O31: the CRC is right (`readChunk_read`), and the type is recorded or ends the walk. -/
theorem chunkAccepted : Obligations.ChunkAccepted := by
  unfold Obligations.ChunkAccepted
  refine ⟨fun len typ s f hp he hk hr hf hc => ?_, fun len s f hr hf hc => ?_⟩
  · rw [exec_chunk len typ hp, readChunk_read _ hr hf, if_pos hc, afterCrc_accept _ he hk]
    rfl
  · change execChunkIend len s = _
    rw [execChunkIend, readChunk_read _ hr hf, if_pos hc, endWalk_recordEnd]
    rfl

/-- Settles O32: the two checks of `readChunk`, then the unknown critical type. -/
theorem chunkRejected : Obligations.ChunkRejected := by
  unfold Obligations.ChunkRejected
  intro len typ s f hp
  have hrow := exec_chunk len typ hp
  refine ⟨fun hs => ?_, fun hr hf hc => ?_, fun hr hf hc hcrit hk => ?_⟩
  · rw [hrow, readChunk_short _ hs]
    exact ⟨_, rfl, errorEntry_raise (by decide) _ _ s⟩
  · rw [hrow, readChunk_read _ hr hf, if_neg hc]
    exact ⟨_, rfl, errorEntry_raise (by decide) _ _ _⟩
  · have hi := instrOfChunk_unknown len hcrit hk
    rw [← hi, hrow, readChunk_read _ hr hf, if_pos hc, afterCrc_unknown _ hcrit hk]
    exact ⟨rfl, _, rfl, errorEntry_raise (by decide) _ _ _⟩

end Sys2Proof.Machine
end

section
/-! Header and palette (R260 to R272): the first check that fails, or the results, from the bytes of the record; and the stream of the IDAT
bodies (R273, R274). -/

namespace Sys2Proof.Machine

/-! ## The header (R260 to R267) -/

/-- The state behind the checks of R262 to R266, the header's fields read. -/
def headerChecked (p w h bd ct cm fm im : Nat) (s : State) : State :=
  match headerError p w h bd ct cm fm im with
  | some e => raise e s
  | none => writeHeader w h bd ct cm fm im s

theorem headerOff_eq {s : State} {h : ChunkRec} (hk : firstKey s.eng.chunks = some h) : headerOff s = h.off := by
  rw [headerOff, hk]
  rfl

/-- In the header stage CHUNK_IHDR is the header's checks (R261 to R267). -/
theorem exec_chunkIhdr_header {s : State} (len : Word) (hp : s.eng.phase = .header) :
    exec (.chunkIhdr len) s = checkHeader len s := by
  change execChunkIhdr len s = _
  rw [execChunkIhdr, hp]

/-- The length is the first check (R261). -/
theorem checkHeader_length {len : Word} {s : State} (hl : len ≠ 13#32) :
    checkHeader len s = .next (raise ⟨.malformedHeader, 1, headerOff s, len.toNat⟩ s) := if_pos hl

/-- The fields are read before the other checks. -/
theorem checkHeader_read {s : State} {p w h : Nat} {bd ct cm fm im : Byte} (hp : headerOff s = p)
    (hw : inBe32 s (p + 8) = .ok w) (hh : inBe32 s (p + 12) = .ok h) (hbd : inByte s (p + 16) = .ok bd)
    (hct : inByte s (p + 17) = .ok ct) (hcm : inByte s (p + 18) = .ok cm) (hfm : inByte s (p + 19) = .ok fm)
    (him : inByte s (p + 20) = .ok im) :
    checkHeader 13#32 s = .next (headerChecked p w h bd.toNat ct.toNat cm.toNat fm.toNat im.toNat s) := by
  subst hp
  rw [checkHeader, if_neg (not_not_intro rfl), hw, hh, hbd, hct, hcm, hfm, him]
  simp only [withVal_ok, headerChecked]
  cases headerError (headerOff s) w h bd.toNat ct.toNat cm.toNat fm.toNat im.toNat <;> rfl

/-- The thirteen bytes of the header's body are its seven fields. -/
theorem checkHeader_body {s : State} {p : Nat} {f : Nat → Byte} (hp : headerOff s = p) (hf : InBytes s (p + 8) 13 f) :
    checkHeader 13#32 s =
      .next (headerChecked p (be32At f 0) (be32At f 4) (f 8).toNat (f 9).toNat (f 10).toNat (f 11).toNat (f 12).toNat s) :=
  checkHeader_read hp (hf.be32 (k := 0) (by omega)) (hf.be32 (k := 4) (by omega)) (hf 8 (by omega)) (hf 9 (by omega))
    (hf 10 (by omega)) (hf 11 (by omega)) (hf 12 (by omega))

section
variable {p w h bd ct cm fm im : Nat} (s : State)

theorem headerChecked_error {kind : ErrorKind} {sub pos aux : Nat} {code : Word}
    (he : headerError p w h bd ct cm fm im = some ⟨kind, sub, pos, aux⟩)
    (hc : trunc32 (kind.code + classOfCode kind.code * 256 + sub * 65536) = code) :
    ErrorEntry code pos aux s (headerChecked p w h bd ct cm fm im s) := by
  rw [headerChecked, he]
  exact errorEntry_raise hc _ _ s

theorem headerChecked_width (hw : w = 0) : ErrorEntry 0x00020105#32 p 0 s (headerChecked p w h bd ct cm fm im s) :=
  headerChecked_error s (if_pos hw) (by decide)

theorem headerChecked_height (hw : w ≠ 0) (hh : h = 0) :
    ErrorEntry 0x00030105#32 p 0 s (headerChecked p w h bd ct cm fm im s) :=
  headerChecked_error s (by rw [headerError, if_neg hw, if_pos hh]) (by decide)

theorem headerChecked_pairing (hw : w ≠ 0) (hh : h ≠ 0) (hp : (ct, bd) ∉ permittedPairs) :
    ErrorEntry 0x00010208#32 p (bd + ct * 256) s (headerChecked p w h bd ct cm fm im s) := by
  rw [← permitted_iff, Bool.not_eq_true] at hp
  exact headerChecked_error s (by rw [headerError, if_neg hw, if_neg hh, if_pos hp]) (by decide)

section
variable (hw : w ≠ 0) (hh : h ≠ 0) (hp : (ct, bd) ∈ permittedPairs)
include hw hh hp

/-- With dimensions and pairing right only the methods are left (R264 to R266). -/
theorem headerError_methods : headerError p w h bd ct cm fm im =
    if cm ≠ 0 then some ⟨.unsupportedFeature, 2, p, cm⟩
    else if fm ≠ 0 then some ⟨.unsupportedFeature, 3, p, fm⟩
    else if im ≠ 0 then some ⟨.unsupportedFeature, 4, p, im⟩
    else none := by
  rw [headerError, if_neg hw, if_neg hh, if_neg (by simp [permitted_iff.2 hp])]

theorem headerChecked_compression (hc : cm ≠ 0) :
    ErrorEntry 0x00020208#32 p cm s (headerChecked p w h bd ct cm fm im s) :=
  headerChecked_error s (by rw [headerError_methods hw hh hp, if_pos hc]) (by decide)

theorem headerChecked_filter (hf : fm ≠ 0) : ErrorEntry 0x00030208#32 p fm s (headerChecked p w h bd ct 0 fm im s) :=
  headerChecked_error s (by rw [headerError_methods hw hh hp, if_neg (not_not_intro rfl), if_pos hf]) (by decide)

theorem headerChecked_interlace (hi : im ≠ 0) : ErrorEntry 0x00040208#32 p im s (headerChecked p w h bd ct 0 0 im s) :=
  headerChecked_error s
    (by rw [headerError_methods hw hh hp, if_neg (not_not_intro rfl), if_neg (not_not_intro rfl), if_pos hi]) (by decide)

/-- R267: the results of a header that passes. -/
theorem headerChecked_ok : headerChecked p w h bd ct 0 0 0 s = { s with
    regs := { s.regs with
      imgWidth := trunc32 w
      imgHeight := trunc32 h
      imgFormat := trunc32 (bd + ct * 256)
      imgInterlace := 0#32 }
    eng := { s.eng with phase := .enter .palette } } := by
  have he : headerError p w h bd ct 0 0 0 = none := by rw [headerError_methods hw hh hp]; rfl
  rw [headerChecked, he]
  simp only [writeHeader, Nat.zero_mul, Nat.add_zero]

end

end

/-- Settles O33: the entry, R260's own errors, then the checks of the header record in their order. -/
theorem headerChecks : Obligations.HeaderChecks := by
  unfold Obligations.HeaderChecks
  refine ⟨fun z s ht hp => step_enter ht hp, fun z s h ht hp hk hne => ?_, fun z s ht hp hk => ?_,
    fun s len f h hp hk => ⟨fun hl => ?_, fun hl hf => ?_⟩⟩
  · rw [step_engine ht, enginePhase, hp]
    simp only [fetchHeader, hk, if_neg hne, Fetched.result]
    exact ⟨_, rfl, errorEntry_raise (by decide) _ _ s⟩
  · rw [step_engine ht, enginePhase, hp]
    simp only [fetchHeader, hk, Fetched.result]
    exact ⟨_, rfl, errorEntry_raise (by decide) _ _ s⟩
  · rw [exec_chunkIhdr_header len hp, checkHeader_length hl, headerOff_eq hk]
    exact ⟨_, rfl, errorEntry_raise (by decide) _ _ s⟩
  · subst hl
    rw [exec_chunkIhdr_header _ hp, checkHeader_body (headerOff_eq hk) hf]
    refine ⟨_, rfl, headerChecked_width s, headerChecked_height s, headerChecked_pairing s, fun hw hh hpair => ?_⟩
    have nonzero : ∀ {b : Byte}, b ≠ 0#8 → b.toNat ≠ 0 := fun h => BitVec.toNat_ne_iff_ne.2 h
    refine ⟨fun h => headerChecked_compression s hw hh hpair (nonzero h), fun h0 h => ?_, fun h0 h1 h => ?_, fun h0 h1 h2 => ?_⟩
    · rw [h0]
      exact headerChecked_filter s hw hh hpair (nonzero h)
    · rw [h0, h1]
      exact headerChecked_interlace s hw hh hpair (nonzero h)
    · rw [h0, h1, h2]
      exact headerChecked_ok s hw hh hpair

/-! ## The palette (R268 to R272) -/

/-- In the palette stage CHUNK_PLTE is the palette's checks (R268 to R272). -/
theorem exec_chunkPlte_palette {s : State} (len : Word) (hp : s.eng.phase = .palette) :
    exec (.chunkPlte len) s = checkPalette len s := by
  change execChunkPlte len s = _
  rw [execChunkPlte, hp]

/-- The state behind the checks of R269 to R271. -/
def paletteChecked (len : Nat) (s : State) : State :=
  match paletteError s.eng.chunks (paletteOff s) len with
  | some e => raise e s
  | none => writePalette (paletteOff s) len s

theorem checkPalette_eq (len : Word) (s : State) : checkPalette len s = .next (paletteChecked len.toNat s) := by
  unfold checkPalette paletteChecked
  cases paletteError s.eng.chunks (paletteOff s) len.toNat <;> rfl

theorem paletteOff_eq {s : State} {q : ChunkRec} (hq : firstPlte s.eng.chunks = some q) : paletteOff s = q.off := by
  rw [paletteOff, hq]
  rfl

/-- R271's test on the records: an IDAT before the palette. -/
theorem any_idat_before (cs : List ChunkRec) (p : Nat) :
    cs.any (fun c => c.isIdat && c.off < p) = true ↔ ∃ c ∈ cs, c.typ = typIDAT ∧ c.off < p := by
  simp [ChunkRec.isIdat]

section
variable {len : Nat} {s : State}

theorem paletteChecked_error {kind : ErrorKind} {sub pos aux : Nat} {code : Word}
    (he : paletteError s.eng.chunks (paletteOff s) len = some ⟨kind, sub, pos, aux⟩)
    (hc : trunc32 (kind.code + classOfCode kind.code * 256 + sub * 65536) = code) :
    ErrorEntry code pos aux s (paletteChecked len s) := by
  rw [paletteChecked, he]
  exact errorEntry_raise hc _ _ s

theorem paletteChecked_length (h : len % 3 ≠ 0) : ErrorEntry 0x00010106#32 (paletteOff s) len s (paletteChecked len s) :=
  paletteChecked_error (if_pos h) (by decide)

theorem paletteChecked_entries (h3 : len % 3 = 0) (h : 768 < len) :
    ErrorEntry 0x00020106#32 (paletteOff s) len s (paletteChecked len s) :=
  paletteChecked_error (by rw [paletteError, if_neg (not_not_intro h3), if_pos h]) (by decide)

theorem paletteChecked_position (h3 : len % 3 = 0) (hl : len ≤ 768)
    (h : ∃ c ∈ s.eng.chunks, c.typ = typIDAT ∧ c.off < paletteOff s) :
    ErrorEntry 0x00030106#32 (paletteOff s) len s (paletteChecked len s) :=
  paletteChecked_error
    (by rw [paletteError, if_neg (not_not_intro h3), if_neg (Nat.not_lt.2 hl), if_pos ((any_idat_before _ _).2 h)]) (by decide)

/-- R272's PLTE_COUNT: bit 31 and the number of entries. -/
theorem plteCount_word {n : Nat} (h : n < 2 ^ 31) : trunc32 (2 ^ 31 + n) = 0x80000000#32 ||| trunc32 n := by
  apply BitVec.eq_of_toNat_eq
  rw [BitVec.toNat_or, BitVec.toNat_ofNat, BitVec.toNat_ofNat, BitVec.toNat_ofNat, Nat.mod_eq_of_lt (show n < 2 ^ 32 by omega),
    Nat.mod_eq_of_lt (by omega)]
  exact Nat.two_pow_add_eq_or_of_lt h 1

theorem paletteChecked_ok (h3 : len % 3 = 0) (hl : len ≤ 768) (h : ∀ c ∈ s.eng.chunks, c.typ = typIDAT → paletteOff s ≤ c.off) :
    paletteChecked len s = { s with
      regs := { s.regs with
        plteOffset := trunc32 (paletteOff s + 8)
        plteCount := 0x80000000#32 ||| trunc32 (len / 3) }
      eng := { s.eng with phase := .enter .zlibHeader } } := by
  have hpos : ¬∃ c ∈ s.eng.chunks, c.typ = typIDAT ∧ c.off < paletteOff s := fun ⟨c, hc, ht, ho⟩ => Nat.not_lt.2 (h c hc ht) ho
  rw [← any_idat_before] at hpos
  rw [paletteChecked, paletteError, if_neg (not_not_intro h3), if_neg (Nat.not_lt.2 hl), if_neg hpos,
    ← plteCount_word (show len / 3 < 2 ^ 31 by omega)]
  rfl

end

/-- Settles O34: the entry, the stage without a palette, then the checks in their order. -/
theorem paletteChecks : Obligations.PaletteChecks := by
  unfold Obligations.PaletteChecks
  refine ⟨fun z s ht hp => step_enter ht hp, fun z s ht hp hn => ?_, fun s len q hp hq => ?_⟩
  · rw [step_engine ht, enginePhase, hp]
    simp only [fetchPalette, hn, Fetched.result]
  · rw [← paletteOff_eq hq]
    exact ⟨_, (exec_chunkPlte_palette len hp).trans (checkPalette_eq len s), paletteChecked_length, paletteChecked_entries,
      paletteChecked_position, paletteChecked_ok⟩

/-! ## The stream in FULL mode (R273, R274) -/

/-- The offsets in IN of the bytes of the IDAT bodies, in record order. -/
def idatOffsets (cs : List ChunkRec) : List Nat :=
  (cs.filter ChunkRec.isIdat).flatMap fun c => (List.range c.len).map fun k => c.off + 8 + k

theorem idatOffsets_length (cs : List ChunkRec) : (idatOffsets cs).length = idatTotal cs := by
  simp only [idatOffsets, idatTotal, List.length_flatMap, List.length_map, List.length_range]

/-- An IDAT record's body stands before those of the later records. -/
theorem idatOffsets_cons_idat {c : ChunkRec} (cs : List ChunkRec) (h : c.isIdat = true) :
    idatOffsets (c :: cs) = ((List.range c.len).map fun k => c.off + 8 + k) ++ idatOffsets cs := by
  rw [idatOffsets, List.filter_cons_of_pos h, List.flatMap_cons]
  rfl

theorem idatOffsets_cons_other {c : ChunkRec} (cs : List ChunkRec) (h : ¬c.isIdat = true) : idatOffsets (c :: cs) = idatOffsets cs := by
  rw [idatOffsets, List.filter_cons_of_neg h]
  rfl

/-- The model's search for byte `j` finds the list's entry `j`. -/
theorem idatOffset_eq {cs : List ChunkRec} {j a : Nat} (h : (idatOffsets cs)[j]? = some a) : idatOffset cs j = a := by
  induction cs generalizing j with
  | nil => cases h
  | cons c cs ih =>
    by_cases hc : c.isIdat = true
    · rw [idatOffsets_cons_idat cs hc] at h
      rw [idatOffset, if_pos hc]
      by_cases hj : j < c.len
      · rw [List.getElem?_append_left (by simpa using hj), List.getElem?_map, List.getElem?_range hj] at h
        cases h
        exact if_pos hj
      · rw [List.getElem?_append_right (by simpa using hj), List.length_map, List.length_range] at h
        rw [if_neg hj]
        exact ih h
    · rw [idatOffsets_cons_other cs hc] at h
      rw [idatOffset, if_neg hc]
      exact ih h

/-- Settles O35: S is read at the offsets of the IDAT bodies (`idatOffset_eq`). -/
theorem streamAssembly : Obligations.StreamAssembly := by
  unfold Obligations.StreamAssembly
  intro s offs hm ho
  have hf : isFull s = true := (isFull_iff s).2 hm
  have hoffs : offs = idatOffsets s.eng.chunks := ho
  subst hoffs
  refine ⟨?_, fun j a hj => ?_⟩
  · rw [streamLen, if_pos hf, idatOffsets_length]
  · rw [streamByte, if_pos hf, idatOffset_eq hj]

end Sys2Proof.Machine
end

section
/-! The symbol decoder is the rule's loop (R360, R361): the symbol the rule looks for among all symbols is the one of the codeword's rank
among those of its length. -/

namespace Sys2Proof.Machine

/-- A codeword of length `l` belongs to the symbol of its rank. -/
theorem ruleSym_of_mem {lens : List Nat} {l v : Nat} (hl : 1 ≤ l) (h15 : l ≤ 15)
    (hv : firstCode lens l ≤ v ∧ v < firstCode lens l + lens.count l) :
    ruleSym lens l v = some (symOfRank lens l (v - firstCode lens l) 0) := by
  obtain ⟨s, hs, hr, hlen, hc⟩ := symOfRank_spec (lens := lens) (l := l) (r := v - firstCode lens l) (by omega) 0
  rw [hr, Nat.zero_add]
  have hword : codeword lens s = v := by rw [codeword_eq ⟨hs, hlen, hl, h15⟩, hc]; omega
  cases hf : ruleSym lens l v with
  | none =>
    exact absurd (by simp only [hlen, hword, beq_self_eq_true, Bool.and_self]) (List.find?_eq_none.1 hf s (List.mem_range.2 hs))
  | some s' =>
    have hs' : s' < lens.length := List.mem_range.1 (List.mem_of_find?_eq_some hf)
    obtain ⟨hlen', hword'⟩ : lens.getD s' 0 = l ∧ codeword lens s' = v := by simpa using List.find?_some hf
    have hc' : (lens.take s').count l = v - firstCode lens l := by
      rw [← hword', codeword_eq ⟨hs', hlen', hl, h15⟩, Nat.add_sub_cancel_left]
    have hrank := symOfRank_count_take hs' hlen' 0
    rw [hc', hr] at hrank
    congr 1
    omega

/-- A value outside the codewords of length `l` belongs to no symbol. -/
theorem ruleSym_of_not_mem {lens : List Nat} {l v : Nat} (hl : 1 ≤ l) (h15 : l ≤ 15)
    (hv : ¬(firstCode lens l ≤ v ∧ v < firstCode lens l + lens.count l)) : ruleSym lens l v = none := by
  refine List.find?_eq_none.2 fun s hs hp => hv ?_
  obtain ⟨hlen, rfl⟩ : lens.getD s 0 = l ∧ codeword lens s = v := by simpa using hp
  exact codeword_mem ⟨List.mem_range.1 hs, hlen, hl, h15⟩

/-- The two loops agree from any length on, `first` being the smallest codeword of the length reached. -/
theorem symLoop_eq_ruleLoop {ε : Type} (rd : Nat → Except ε Bool) (lens : List Nat) (pos : Nat) {fuel l : Nat} (hf : l + fuel ≤ 15)
    (v : Nat) : symLoop rd lens (occupancy lens) pos fuel l v (firstCode lens l) = ruleLoop rd lens pos fuel l v := by
  induction fuel generalizing l v with
  | zero => rfl
  | succ fuel ih =>
    have hfirst : 2 * (firstCode lens l + if l = 0 then 0 else lens.count l) = firstCode lens (l + 1) := rfl
    simp only [symLoop, ruleLoop, hfirst, Nat.shiftLeft_eq]
    cases rd (pos + l) with
    | error e => rfl
    | ok b =>
      by_cases hv : firstCode lens (l + 1) ≤ 2 * v + b.toNat ∧ 2 * v + b.toNat < firstCode lens (l + 1) + lens.count (l + 1)
      · simp only [if_pos hv, ruleSym_of_mem (by omega) (by omega) hv]
      · simp only [if_neg hv, ruleSym_of_not_mem (by omega) (by omega) hv]
        rw [ih (by omega)]

/-- Settles O59, by induction on the lengths left. -/
theorem decodeSymIsRule : Obligations.DecodeSymIsRule := by
  unfold Obligations.DecodeSymIsRule
  intro ε rd lens pos
  rw [decodeSym, ruleDecodeSym]
  split
  · rfl
  · exact symLoop_eq_ruleLoop rd lens pos (by omega) 0

end Sys2Proof.Machine
end

section
/-! The zlib header (R330 to R334, R336), the fixed block (R342) and the rows that only raise (R338, R435, R437, R496). -/

namespace Sys2Proof.Machine

/-! ## Error entry as the answer of a row -/

/-- A named error raised once the row has set fields of the engine (`e`): the entry is the one from the state before. -/
theorem raiseAt_answers {kind : ErrorKind} {sub : Nat} {w : Word}
    (hw : trunc32 (kind.code + classOfCode kind.code * 256 + sub * 65536) = w) (pos aux : Nat) (s : State) (e : Engine) :
    ∃ t, raiseAt kind sub pos aux { s with eng := e } = .next t ∧ ErrorEntry w pos aux s t :=
  ⟨_, rfl, errorEntry_raise hw pos aux { s with eng := e }⟩

/-- The same for InvalidHuffmanCode, whose ERR_AUX is the block index (R556). -/
theorem raiseCode_answers {sub : Nat} {w : Word}
    (hw : trunc32 (ErrorKind.invalidHuffmanCode.code + classOfCode ErrorKind.invalidHuffmanCode.code * 256 + sub * 65536) = w)
    (pos : Nat) (s : State) (e : Engine) :
    ∃ t, raiseCode sub pos { s with eng := e } = .next t ∧ ErrorEntry w pos e.block s t :=
  raiseAt_answers hw pos e.block s e

/-! ## The zlib header -/

/-- The test of R331 is on the low nibble of CMF. -/
theorem lowNibble_eq_eight {b : Byte} : b.extractLsb' 0 4 = 8#4 ↔ b.toNat % 16 = 8 := by
  rw [← BitVec.toNat_inj, BitVec.extractLsb'_toNat]
  rfl

/-- The test of R332 is on bit 5 of FLG. -/
theorem and_bitFive_eq_zero {b : Byte} : b &&& 0x20#8 = 0#8 ↔ b.getLsbD 5 = false := by
  revert b
  decide

/-- Settles O38: the two entries, the stream's length, then the three tests one by one. -/
theorem zlibHeader : Obligations.ZlibHeader := by
  unfold Obligations.ZlibHeader
  refine ⟨fun z s ht hp => step_enter ht hp, fun z s ht hp hl => ?_, fun z s ht hp => step_enter ht hp,
    fun cmf flg s => ⟨fun hc => ?_, fun hc => ?_, fun hf => ?_, fun hf => ?_, fun he hm => ?_, fun h => ?_⟩⟩
  · rw [step_engine ht, enginePhase, hp]
    simp only [fetchZlib, if_pos hl, Fetched.result]
    exact raiseAt_answers (by decide) _ _ s s.eng
  · rw [exec, execZlibCm, if_pos (lowNibble_eq_eight.not.1 hc)]
    exact raiseAt_answers (by decide) _ _ s s.eng
  · rw [exec, execZlibCm, if_neg (not_not.2 (lowNibble_eq_eight.1 hc))]
  · rw [exec, execZlibFdict, if_pos (by simpa using and_bitFive_eq_zero.not.1 hf)]
    exact raiseAt_answers (by decide) _ _ s s.eng
  · rw [exec, execZlibFdict, if_neg (by simpa using and_bitFive_eq_zero.1 hf)]
  · rw [exec, execZlibFcheck, if_pos (by simp [he, hm])]
    exact raiseAt_answers (by decide) _ _ s s.eng
  · rw [exec, execZlibFcheck, if_neg]
    rcases h with h | h <;> simp [h]

/-! ## BLOCK_FIXED -/

/-- Settles O41: the codewords are those of the encoder's table (`codeword_fixedLitLen`). -/
theorem fixedBlock : Obligations.FixedBlock := by
  unfold Obligations.FixedBlock
  have row : ∀ {sym l c : Nat}, sym < 288 → fixedLitLenWord sym = (l, c) →
      fixedLitLen.getD sym 0 = l ∧ codeword fixedLitLen sym = c := fun hs hw => by
    rw [fixedLitLen_getD hs, codeword_fixedLitLen hs, hw]
    exact ⟨rfl, rfl⟩
  refine ⟨fun _ _ => rfl, fun sym h => row (by omega) ?_, fun k h => row (by omega) ?_, fun k h => row (by omega) ?_,
    fun k h => row (by omega) ?_, fun d h => ⟨(hasCode_replicate h).len, codeword_replicate h⟩, by decide +kernel,
    by decide +kernel⟩
  · rw [fixedLitLenWord, if_pos h]
  · rw [fixedLitLenWord, if_neg (by omega), if_pos (by omega), Nat.add_sub_cancel_left]
  · rw [fixedLitLenWord, if_neg (by omega), if_neg (by omega), if_pos (by omega), Nat.add_sub_cancel_left]
  · rw [fixedLitLenWord, if_neg (by omega), if_neg (by omega), if_neg (by omega), Nat.add_sub_cancel_left]

/-! ## The rows that only raise -/

/-- Settles O48: each row is its error, BLOCK_RESERVED behind the store of BFINAL. -/
theorem invalidSymbols : Obligations.InvalidSymbols := by
  unfold Obligations.InvalidSymbols
  intro s bfinal low ft
  exact ⟨raiseAt_answers (by decide) _ _ s { s.eng with bfinal := bfinal }, raiseCode_answers (by decide) _ s s.eng,
    raiseCode_answers (by decide) _ s s.eng, raiseAt_answers (by decide) _ _ s s.eng⟩

end Sys2Proof.Machine
end

section
/-! The code lengths of a dynamic block (R349 to R358): every code-length row appends copies of one length, and the last one splits the
sequence into the two codes. -/

namespace Sys2Proof.Machine

/-! ## Appending lengths (R349, R354) -/

theorem appendLens_more {ls : List Nat} {s : State} (h : s.eng.lens.length + ls.length < s.eng.nlit + s.eng.ndist) :
    appendLens ls s = .next { s with eng := { s.eng with lens := s.eng.lens ++ ls, phase := .clSym } } :=
  if_pos (by rw [List.length_append]; exact h)

theorem appendLens_complete {ls : List Nat} {s : State} (h : s.eng.nlit + s.eng.ndist ≤ s.eng.lens.length + ls.length) :
    appendLens ls s = splitAndCheck { s with eng := { s.eng with lens := s.eng.lens ++ ls, phase := .clSym } } :=
  if_neg (by rw [List.length_append]; exact Nat.not_lt.2 h)

/-- A repeat within the total only appends. -/
theorem repeatLens_fits {r v : Nat} {s : State} (h : s.eng.lens.length + r ≤ s.eng.nlit + s.eng.ndist) :
    repeatLens r v s = appendLens (List.replicate r v) s :=
  if_neg (Nat.not_lt.2 h)

/-- A repeat past the total is SUB 12. -/
theorem repeatLens_past {r v : Nat} {s : State} (h : s.eng.nlit + s.eng.ndist < s.eng.lens.length + r) :
    ∃ t, repeatLens r v s = .next t ∧ ErrorEntry 0x000C030C#32 s.eng.sp s.eng.block s t := by
  rw [repeatLens, if_pos h]
  exact raiseCode_answers (by decide) _ s s.eng

/-! ## The rows (R350 to R353) -/

/-- R351: CL_16 repeats the last length. -/
theorem exec_cl16 {e : BitVec 2} {v : Nat} {s : State} (h : s.eng.lens.getLast? = some v) :
    exec (.cl16 e) s = repeatLens (3 + e.toNat) v s := by
  rw [exec, execCl16, h]

/-- A code-length row whose lengths fit in the total appends them. -/
theorem exec_of_clAdds {i : Instr} {s : State} {r v : Nat} (h : clAdds i s.eng.lens = some (r, v))
    (hfit : s.eng.lens.length + r ≤ s.eng.nlit + s.eng.ndist) : exec i s = appendLens (List.replicate r v) s := by
  unfold clAdds at h
  split at h
  case h_1 => cases h; rfl
  case h_2 e =>
    obtain ⟨w, hw, hrv⟩ := Option.map_eq_some_iff.1 h
    cases hrv
    rw [exec_cl16 hw, repeatLens_fits hfit]
  case h_3 => cases h; exact repeatLens_fits hfit
  case h_4 => cases h; exact repeatLens_fits hfit
  case h_5 => cases h

/-- A code-length row that leaves more lengths to come. -/
theorem exec_of_clAdds_more {i : Instr} {s : State} {r v : Nat} (h : clAdds i s.eng.lens = some (r, v))
    (hmore : s.eng.lens.length + r < s.eng.nlit + s.eng.ndist) :
    exec i s = .next { s with eng := { s.eng with lens := s.eng.lens ++ List.replicate r v, phase := .clSym } } := by
  rw [exec_of_clAdds h hmore.le, appendLens_more (by rwa [List.length_replicate])]

/-- Settles O43: the rows that fit append (`exec_of_clAdds_more`), the others raise. -/
theorem codeLengthSymbols : Obligations.CodeLengthSymbols := by
  unfold Obligations.CodeLengthSymbols
  refine fun s => ⟨fun sym => exec_of_clAdds_more rfl, fun e ls v hl => exec_of_clAdds_more (by rw [hl]; simp [clAdds]),
    fun e => exec_of_clAdds_more rfl, fun e => exec_of_clAdds_more rfl, fun e hl => ?_, fun e hl hp => ?_,
    fun e => repeatLens_past, fun e => repeatLens_past⟩
  · rw [exec, execCl16, hl]
    exact raiseCode_answers (by decide) _ s s.eng
  · rw [exec_cl16 (List.getLast?_eq_some_getLast hl)]
    exact repeatLens_past hp

/-! ## The split (R355 to R358) -/

theorem overSubscribed_iff {lens : List Nat} : overSubscribed lens = true ↔ 2 ^ 15 < occupancy lens := decide_eq_true_iff

/-- The split of a complete sequence: the three checks in the order of R355, then both codes are set. -/
theorem splitAndCheck_eq {s : State} {litlen dist : List Nat} (hlen : s.eng.lens.length = s.eng.nlit + s.eng.ndist)
    (hl : litlen = s.eng.lens.take s.eng.nlit ++ List.replicate (288 - s.eng.nlit) 0)
    (hd : dist = s.eng.lens.drop s.eng.nlit ++ List.replicate (32 - s.eng.ndist) 0) :
    splitAndCheck s =
      if 2 ^ 15 < occupancy litlen then
        raiseCode 7 s.eng.hpos { s with eng := { s.eng with litlen := litlen, dist := dist, phase := .litLen } }
      else if litlen.getD 256 0 = 0 then
        raiseCode 13 s.eng.hpos { s with eng := { s.eng with litlen := litlen, dist := dist, phase := .litLen } }
      else if 2 ^ 15 < occupancy dist then
        raiseCode 8 s.eng.hpos { s with eng := { s.eng with litlen := litlen, dist := dist, phase := .litLen } }
      else .next { s with eng := { s.eng with litlen := litlen, dist := dist, phase := .litLen } } := by
  have htake : (s.eng.lens.drop s.eng.nlit).take s.eng.ndist = s.eng.lens.drop s.eng.nlit :=
    List.take_of_length_le (by rw [List.length_drop]; omega)
  subst hl hd
  simp only [splitAndCheck, htake, overSubscribed_iff]

/-- Settles O44: the row appends what completes the sequence, and the split's checks come in their order. -/
theorem splitCodes : Obligations.SplitCodes := by
  unfold Obligations.SplitCodes
  intro i s r v lens litlen dist hadds hlens hlen hl hd
  subst hlens
  have hlen' : s.eng.lens.length + r = s.eng.nlit + s.eng.ndist := by simpa using hlen
  rw [exec_of_clAdds hadds hlen'.le, appendLens_complete (by rw [List.length_replicate]; exact hlen'.ge),
    splitAndCheck_eq (by exact hlen) hl hd]
  split_ifs with h7 h13 h8
  · obtain ⟨t, ht, he⟩ := raiseCode_answers (sub := 7) (w := 0x0007030C#32) (by decide) s.eng.hpos s _
    exact ⟨t, ht, fun _ => he, fun h => absurd h h7.not_ge, fun h => absurd h h7.not_ge, fun h => absurd h h7.not_ge⟩
  · obtain ⟨t, ht, he⟩ := raiseCode_answers (sub := 13) (w := 0x000D030C#32) (by decide) s.eng.hpos s _
    exact ⟨t, ht, fun h => absurd h h7, fun _ _ => he, fun _ h => absurd h13 h, fun _ h => absurd h13 h⟩
  · obtain ⟨t, ht, he⟩ := raiseCode_answers (sub := 8) (w := 0x0008030C#32) (by decide) s.eng.hpos s _
    exact ⟨t, ht, fun h => absurd h h7, fun _ h => absurd h h13, fun _ _ _ => he, fun _ _ h => absurd h h8.not_ge⟩
  · exact ⟨_, rfl, fun h => absurd h h7, fun _ h => absurd h h13, fun _ _ h => absurd h h8, fun _ _ _ => rfl⟩

end Sys2Proof.Machine
end

section
/-! Fields of a bit source, from its bits: two fields in a row, and the first bit that cannot be read, which stops every reader that
reaches it (R335). -/

namespace Sys2Proof

section
variable {ε : Type} {rd : Nat → Except ε Bool} {pos : Nat}

/-- The bits from `pos` on can be read up to index `k`, where `e` stops the source. -/
structure StopsAfter (rd : Nat → Except ε Bool) (pos k : Nat) (e : ε) : Prop where
  read : ∀ i < k, ∃ b, rd (pos + i) = .ok b
  stop : rd (pos + k) = .error e

/-- A later place has fewer bits before the stop. -/
theorem StopsAfter.skip {k : Nat} {e : ε} (h : StopsAfter rd pos k e) {n : Nat} (hn : n ≤ k) : StopsAfter rd (pos + n) (k - n) e where
  read i hi := by rw [Nat.add_assoc]; exact h.read (n + i) (by omega)
  stop := by rw [Nat.add_assoc, Nat.add_sub_cancel' hn]; exact h.stop

/-- A field whose bits can be read has a value. -/
theorem readBits_of_read {n : Nat} (h : ∀ i < n, ∃ b, rd (pos + i) = .ok b) : ∃ v, readBits rd pos n = .ok v := by
  induction n with
  | zero => exact ⟨0, rfl⟩
  | succ n ih =>
    obtain ⟨v, hv⟩ := ih fun i hi => h i (by omega)
    obtain ⟨b, hb⟩ := h n (by omega)
    exact ⟨v + b.toNat * 2 ^ n, by rw [readBits, hv]; simp only [hb]⟩

/-- A field that lies in front of the stop has a value. -/
theorem StopsAfter.readBits_ok {k n : Nat} {e : ε} (h : StopsAfter rd pos k e) (hn : n ≤ k) : ∃ v, readBits rd pos n = .ok v :=
  readBits_of_read fun i hi => h.read i (by omega)

/-- A field that reaches the stop is stopped by it. -/
theorem StopsAfter.readBits {k n : Nat} {e : ε} (h : StopsAfter rd pos k e) (hn : k < n) : readBits rd pos n = .error e := by
  induction n with
  | zero => omega
  | succ n ih =>
    rw [Sys2Proof.readBits]
    rcases Nat.lt_succ_iff_lt_or_eq.1 hn with hk | rfl
    · rw [ih hk]
    · obtain ⟨v, hv⟩ := h.readBits_ok (Nat.le_refl k)
      rw [hv]
      simp only [h.stop]

/-- R151: a field behind a field holds the higher bits of the two together. -/
theorem readBits_append {m n v w : Nat} (hv : readBits rd pos m = .ok v) (hw : readBits rd (pos + m) n = .ok w) :
    readBits rd pos (m + n) = .ok (v + w * 2 ^ m) := by
  induction n generalizing w with
  | zero => cases hw; simpa using hv
  | succ n ih =>
    unfold readBits at hw
    split at hw
    · cases hw
    · rename_i u hu
      split at hw
      · cases hw
      · rename_i b hb
        cases hw
        rw [← Nat.add_assoc, readBits, ih hu]
        simp only [← Nat.add_assoc, hb, Nat.pow_add]
        congr 1
        ring

end

/-! ## A list of bits that ends inside a unit -/

/-- A source that carries a list's bits and stops with `e` where the list ends. -/
structure CutAt {ε : Type} (bits : List Bool) (rd : Nat → Except ε Bool) (pos : Nat) (e : ε) : Prop where
  carries : Carries (listBits bits) rd pos
  stop : rd (pos + bits.length) = .error e

theorem listBits_lt {bits : List Bool} {k : Nat} {b : Bool} (h : listBits bits k = .ok b) : k < bits.length :=
  (List.getElem?_eq_some_iff.1 (listBits_ok_iff.1 h)).1

theorem listBits_error {bits : List Bool} {k : Nat} {e : DecodeError} (h : listBits bits k = .error e) :
    e = .tooShort ∧ bits.length ≤ k := by
  unfold listBits at h
  split at h
  · cases h
  · cases h
    exact ⟨rfl, List.getElem?_eq_none_iff.1 ‹_›⟩

section
variable {ε : Type} {bits : List Bool} {rd : Nat → Except ε Bool} {pos : Nat} {e : ε} (h : CutAt bits rd pos e)
include h

theorem CutAt.stopsAfter {p : Nat} (hp : p ≤ bits.length) : StopsAfter rd (pos + p) (bits.length - p) e where
  read i hi := ⟨bits[p + i], by
    rw [Nat.add_assoc]
    exact h.carries _ _ (listBits_ok_iff.2 (List.getElem?_eq_getElem (by omega)))⟩
  stop := by rw [Nat.add_assoc, Nat.add_sub_cancel' hp]; exact h.stop

theorem CutAt.readBits {p n : Nat} {x : DecodeError} (hp : p ≤ bits.length) (hx : readBits (listBits bits) p n = .error x) :
    readBits rd (pos + p) n = .error e := by
  refine (h.stopsAfter hp).readBits ?_
  by_contra hn
  obtain ⟨v, hv⟩ := readBits_of_read (rd := listBits bits) (pos := p) (n := n) fun i hi =>
    ⟨bits[p + i], listBits_ok_iff.2 (List.getElem?_eq_getElem (by omega))⟩
  rw [hx] at hv
  cases hv

theorem CutAt.symLoop {lens : List Nat} {k p fuel len v first : Nat} {x : DecodeError} (hp : p + len ≤ bits.length)
    (hx : symLoop (listBits bits) lens k p fuel len v first = .error x) :
    symLoop rd lens k (pos + p) fuel len v first = .error e := by
  induction fuel generalizing len v first with
  | zero => cases hx
  | succ fuel ih =>
    simp only [Sys2Proof.symLoop] at hx ⊢
    generalize 2 * (first + if len = 0 then 0 else lens.count len) = f at hx ⊢
    cases hb : listBits bits (p + len) with
    | error y =>
      have hend : p + len = bits.length := Nat.le_antisymm hp (listBits_error hb).2
      simp only [Nat.add_assoc pos p len, hend, h.stop]
    | ok b =>
      have hlt := listBits_lt hb
      simp only [hb] at hx
      simp only [Nat.add_assoc pos p len, h.carries _ b hb]
      split
      · rw [if_pos ‹_›] at hx; cases hx
      · rw [if_neg ‹_›] at hx
        split
        · rw [if_pos ‹_›] at hx; cases hx
        · rw [if_neg ‹_›] at hx
          exact ih (by omega) hx

theorem CutAt.decodeSym {lens : List Nat} {p : Nat} {x : DecodeError} (hp : p ≤ bits.length)
    (hx : decodeSym (listBits bits) lens p = .error x) : decodeSym rd lens (pos + p) = .error e := by
  unfold Sys2Proof.decodeSym at hx ⊢
  split
  · rw [if_pos ‹_›] at hx; cases hx
  · rw [if_neg ‹_›] at hx
    exact h.symLoop (by omega) hx

/-- A coded symbol that the list cuts short, in its codeword or its extra bits, is stopped where the list ends. -/
theorem CutAt.decodeCoded {lens : List Nat} {extra : Nat → Nat} {mk : Nat → Nat → Instr} {x : DecodeError}
    (hx : decodeCoded (listBits bits) lens extra mk 0 = .error x) : decodeCoded rd lens extra mk pos = .error e := by
  unfold Sys2Proof.decodeCoded at hx
  split at hx
  · rw [Sys2Proof.decodeCoded, show Sys2Proof.decodeSym rd lens pos = .error e from h.decodeSym (Nat.zero_le _) ‹_›]
  · cases hx
  · rename_i s n hs
    obtain ⟨-, h1, -, hread⟩ := decodeSym_some hs
    obtain ⟨b, hb⟩ := hread (n - 1) (by omega)
    have hn := listBits_lt hb
    split at hx
    · rename_i y hy
      rw [Nat.zero_add] at hy
      rw [Sys2Proof.decodeCoded, show Sys2Proof.decodeSym rd lens pos = .ok (some (s, n)) from h.carries.decodeSym hs]
      simp only [h.readBits (by omega) hy]
    · cases hx

end

/-! ## Bits that begin no codeword -/

/-- A symbol that the bits of the list cannot be is none on the source that carries them. -/
theorem Carries.decodeCoded_none {ε ε' : Type} {rd : Nat → Except ε Bool} {rd' : Nat → Except ε' Bool} {pos : Nat}
    (hc : Carries rd rd' pos) {lens : List Nat} {extra : Nat → Nat} {mk : Nat → Nat → Instr}
    (h : Sys2Proof.decodeCoded rd lens extra mk 0 = .ok none) : Sys2Proof.decodeCoded rd' lens extra mk pos = .ok none := by
  unfold Sys2Proof.decodeCoded at h
  split at h
  · cases h
  · rw [Sys2Proof.decodeCoded, show Sys2Proof.decodeSym rd' lens pos = .ok none from hc.decodeSym ‹_›]
  · split at h <;> cases h

/-- The list of bits gives no error but its end. -/
theorem decodeCoded_listBits_error {bits : List Bool} {lens : List Nat} {extra : Nat → Nat} {mk : Nat → Nat → Instr} {pos : Nat}
    {x : DecodeError} (h : decodeCoded (listBits bits) lens extra mk pos = .error x) : x = .tooShort := by
  obtain ⟨k, hk⟩ := decodeCoded_error h
  exact (listBits_error hk).1

theorem namedOr_tooShort {r : Except DecodeError (Option (Instr × Nat))} (h : namedOr r = .error .tooShort) :
    r = .error .tooShort := by
  unfold namedOr at h
  split at h <;> cases h
  rfl

theorem namedOr_undecodable {r : Except DecodeError (Option (Instr × Nat))} (h : namedOr r = .error .undecodable) :
    r = .error .undecodable ∨ r = .ok none := by
  unfold namedOr at h
  split at h <;> cases h
  · exact .inl rfl
  · exact .inr rfl

/-- R361: under an empty code there is no symbol, before any bit is read. -/
theorem decodeCoded_empty {ε : Type} (rd : Nat → Except ε Bool) {lens : List Nat} (h : occupancy lens = 0) (extra : Nat → Nat)
    (mk : Nat → Nat → Instr) (pos : Nat) : decodeCoded rd lens extra mk pos = .ok none := by
  rw [decodeCoded, decodeSym, if_pos h]

end Sys2Proof
end

section
/-! BLOCK_STORED and its copy (R339 to R341), and BLOCK_DYNAMIC (R343 to R348), from the bits of S. -/

namespace Sys2Proof.Machine

/-! ## A byte of output (R431) -/

/-- What `Emit` hands on, the phase set, is the output of the byte. -/
theorem emitted_spec (b : Byte) (ph : Phase) (s : State) :
    Emitted b ph s { emitted b s with eng := { (emitted b s).eng with phase := ph } } := by
  have hbyte (a : Nat) := State.byteAt_write (emitted_mem b s) a
  refine ⟨(hbyte _).trans (if_pos rfl), fun a ha => (hbyte a).trans (if_neg ha), ?_, fun off ho => ?_, rfl, emitted_host b s,
    emitted_plat b s, emitted_draws b s⟩
  · exact (readReg_inflLen _ _ _).trans (if_pos rfl)
  · exact (readReg_inflLen _ _ _).trans (if_neg (by simpa using ho))

/-! ## BLOCK_STORED -/

/-- R154: the ones' complement of a 16-bit number. -/
theorem xor_ones_sixteen {n : Nat} (h : n < 65536) : n ^^^ 0xFFFF = 65535 - n := by
  have hnot := congrArg BitVec.toNat (BitVec.xor_allOnes (x := BitVec.ofNat 16 n))
  rwa [BitVec.toNat_xor, BitVec.toNat_not, BitVec.toNat_ofNat, BitVec.toNat_allOnes, Nat.mod_eq_of_lt h] at hnot

/-- Two bytes of S as one little-endian field (R11, R150). -/
theorem readBits_two_streamBytes {s : State} {j : Nat} {b0 b1 : Byte} (h0 : streamByte s j = .ok b0)
    (h1 : streamByte s (j + 1) = .ok b1) (hj : j + 2 ≤ streamLen s) :
    readBits (streamBit s) (8 * j) 16 = .ok (b0.toNat + 256 * b1.toNat) := by
  have hlow := readBits_streamByte h0 (by omega)
  have hhigh := readBits_streamByte h1 (by omega)
  rw [Nat.mul_comm 256]
  exact readBits_append (n := 8) hlow hhigh

/-- The state in which BLOCK_STORED reads LEN and NLEN (R339). -/
def atStoredLengths (bfinal : Bool) (s : State) : State :=
  { s with eng := { s.eng with bfinal := bfinal, bitpos := 8 * ((s.eng.bitpos + 7) / 8) } }

/-- BLOCK_STORED: the two fields behind the next byte boundary, then their comparison (R339, R340). -/
theorem execBlockStored_eq (bfinal : Bool) (s : State) : execBlockStored bfinal s =
    withVal (readBits (streamBit s) (8 * ((s.eng.bitpos + 7) / 8)) 16) (atStoredLengths bfinal s) fun len =>
    withVal (readBits (streamBit s) (8 * ((s.eng.bitpos + 7) / 8) + 16) 16) (atStoredLengths bfinal s) fun nlen =>
      if nlen = len ^^^ 0xFFFF then
        .next { s with
          eng := { s.eng with bfinal := bfinal, bitpos := 8 * ((s.eng.bitpos + 7) / 8) + 32, phase := .stored len } }
      else raiseAt .blockLengthMismatch 0 s.eng.hpos s.eng.block (atStoredLengths bfinal s) := rfl

/-- Settles O40: LEN and NLEN as two fields of two bytes each, then the copy's step where a byte is left and where none is. -/
theorem storedBlock : Obligations.StoredBlock := by
  unfold Obligations.StoredBlock
  refine ⟨fun bfinal s b0 b1 b2 b3 j hj hl h0 h1 h2 h3 => ?_, fun z s n k b ht hp hk hl hb => ?_, fun z s ht hp => ?_⟩
  · have hlen := readBits_two_streamBytes h0 h1 (by omega)
    have hnlen := readBits_two_streamBytes h2 h3 (by omega)
    have hlt : b0.toNat + 256 * b1.toNat < 65536 := by
      have := b0.isLt; have := b1.isLt
      omega
    have hrow : exec (.blockStored bfinal) s = execBlockStored bfinal s := rfl
    rw [hrow, execBlockStored_eq, ← hj, hlen, withVal_ok, show 8 * j + 16 = 8 * (j + 2) by omega, hnlen, withVal_ok,
      xor_ones_sixteen hlt]
    refine ⟨fun h => ?_, fun h => ?_⟩
    · rw [if_pos h, show 8 * j + 32 = 8 * (j + 4) by omega]
    · rw [if_neg h]
      exact raiseAt_answers (by decide) _ _ s _
  · have hbyte := readBits_streamByte hb hl
    rw [step_engine ht, enginePhase, hp]
    simp only [Fetched.result, storedStep, hk, hbyte, withVal_ok, BitVec.ofNat_toNat, BitVec.setWidth_eq]
    refine ⟨fun hroom hw => ?_, fun hfull => ?_⟩
    · rw [emit_room (s := atBit (8 * k + 8) s) hroom hw]
      exact ⟨_, rfl, emitted_spec b (.stored n) _⟩
    · rw [emit_full (by exact hfull.ge)]
      exact ⟨_, rfl, errorEntry_raise (by decide) _ _ (atBit (8 * k + 8) s)⟩
  · rw [step_engine ht, enginePhase, hp]
    rfl

/-! ## BLOCK_DYNAMIC -/

/-- The 3-bit lengths one after the other: each symbol of the order has the length read at its place, the others keep theirs (R346). -/
theorem readClLens_read {s : State} {order : List Nat} {pos : Nat} {l : Nat → Nat} {cl : List Nat} (hn : order.Nodup)
    (hl : ∀ i < order.length, readBits (streamBit s) (pos + 3 * i) 3 = .ok (l i)) :
    ∃ cl', readClLens s order pos cl = .ok cl' ∧ cl'.length = cl.length ∧
      ∀ sym < cl.length, cl'[sym]? = if sym ∈ order then some (l (order.idxOf sym)) else cl[sym]? := by
  induction order generalizing pos l cl with
  | nil => exact ⟨cl, rfl, rfl, fun sym _ => by simp⟩
  | cons x xs ih =>
    obtain ⟨hx, hxs⟩ := List.nodup_cons.1 hn
    have hfirst : readBits (streamBit s) pos 3 = .ok (l 0) := hl 0 (Nat.zero_lt_succ _)
    obtain ⟨cl', hread, hlen, hget⟩ := ih (pos := pos + 3) (l := fun i => l (i + 1)) (cl := cl.set x (l 0)) hxs fun i hi => by
      rw [show pos + 3 + 3 * i = pos + 3 * (i + 1) by omega]
      exact hl (i + 1) (Nat.succ_lt_succ hi)
    rw [List.length_set] at hlen hget
    refine ⟨cl', ?_, hlen, fun sym hsym => ?_⟩
    · rw [readClLens, hfirst]
      exact hread
    · rw [hget sym hsym]
      by_cases hs : x = sym
      · subst hs
        simp [hx, hsym]
      · simp [List.idxOf_cons_ne, hs, Ne.symm hs]

/-- R346: the code-length code from `n` lengths in the order of the rule. -/
theorem readClLens_clOrder {s : State} {n pos : Nat} {l : Nat → Nat} (hn : n ≤ 19)
    (hl : ∀ i < n, readBits (streamBit s) (pos + 3 * i) 3 = .ok (l i)) :
    readClLens s (clOrder.take n) pos (List.replicate 19 0) =
      .ok ((List.range 19).map fun sym => if clOrder.idxOf sym < n then l (clOrder.idxOf sym) else 0) := by
  have hlen : (clOrder.take n).length = n := by
    rw [List.length_take]
    exact Nat.min_eq_left hn
  obtain ⟨cl', hread, hsize, hget⟩ := readClLens_read (s := s) (order := clOrder.take n) (cl := List.replicate 19 0)
    (List.Nodup.sublist (List.take_sublist n _) (by decide)) (by rwa [hlen])
  rw [List.length_replicate] at hsize hget
  rw [hread]
  congr 1
  refine List.ext_getElem? fun sym => ?_
  by_cases hsym : sym < 19
  · have hmem : sym ∈ clOrder := by
      revert sym
      decide
    rw [hget sym hsym, List.getElem?_map, List.getElem?_range hsym, Option.map_some]
    by_cases ht : sym ∈ clOrder.take n
    · rw [if_pos ht, if_pos ((List.mem_take_iff_idxOf_lt hmem).1 ht), (List.take_prefix n clOrder).idxOf_eq_of_mem ht]
    · rw [if_neg ht, if_neg fun h => ht ((List.mem_take_iff_idxOf_lt hmem).2 h), List.getElem?_replicate, if_pos hsym]
  · rw [List.getElem?_eq_none (by omega), List.getElem?_eq_none (by simpa using hsym)]

/-- The state in which BLOCK_DYNAMIC reads its fields. -/
def atDynamicCounts (bfinal : Bool) (s : State) : State := { s with eng := { s.eng with bfinal := bfinal, dyn := true } }

/-- The state behind a dynamic block's header (R348). -/
def behindClCode (bfinal : Bool) (hlit hdist hclen : Nat) (cl : List Nat) (s : State) : State :=
  { s with
    eng := { s.eng with
      bfinal := bfinal, dyn := true, cl := cl, lens := []
      nlit := hlit + 257, ndist := hdist + 1
      bitpos := s.eng.bitpos + 14 + 3 * (hclen + 4)
      phase := .clSym } }

/-- BLOCK_DYNAMIC: the three counts, their checks, then the code-length code and its check (R343 to R348). -/
theorem execBlockDynamic_eq (bfinal : Bool) (s : State) : execBlockDynamic bfinal s =
    withVal (readBits (streamBit s) s.eng.bitpos 5) (atDynamicCounts bfinal s) fun hlit =>
    withVal (readBits (streamBit s) (s.eng.bitpos + 5) 5) (atDynamicCounts bfinal s) fun hdist =>
    withVal (readBits (streamBit s) (s.eng.bitpos + 10) 4) (atDynamicCounts bfinal s) fun hclen =>
      if 29 < hlit then raiseCode 9 (s.eng.hpos + 3) (atDynamicCounts bfinal s)
      else if 29 < hdist then raiseCode 10 (s.eng.hpos + 8) (atDynamicCounts bfinal s)
      else
        withVal (readClLens (atDynamicCounts bfinal s) (clOrder.take (hclen + 4)) (s.eng.bitpos + 14) (List.replicate 19 0))
          (atDynamicCounts bfinal s) fun cl =>
            if overSubscribed cl then raiseCode 6 (s.eng.hpos + 17) (behindClCode bfinal hlit hdist hclen cl s)
            else .next (behindClCode bfinal hlit hdist hclen cl s) := rfl

/-- Settles O42: the counts' checks in their order, then the code-length code (`readClLens_clOrder`) and its check. -/
theorem dynamicHeader : Obligations.DynamicHeader := by
  unfold Obligations.DynamicHeader
  intro bfinal s hlit hdist hclen l cl h5 h10 h14
  have hrow : exec (.blockDynamic bfinal) s = execBlockDynamic bfinal s := rfl
  rw [hrow, execBlockDynamic_eq, h5, withVal_ok, h10, withVal_ok, h14, withVal_ok]
  refine ⟨fun hl => ?_, fun hl hd => ?_, fun hl hd hlens hcl => ?_⟩
  · rw [if_pos hl]
    exact raiseCode_answers (by decide) _ s _
  · rw [if_neg hl.not_gt, if_pos hd]
    exact raiseCode_answers (by decide) _ s _
  · have hlt : hclen < 16 := readBits_lt h14
    have hread : readClLens (atDynamicCounts bfinal s) (clOrder.take (hclen + 4)) (s.eng.bitpos + 14) (List.replicate 19 0) =
        .ok cl := by
      rw [hcl]
      exact readClLens_clOrder (by omega) hlens
    rw [if_neg hl.not_gt, if_neg hd.not_gt, hread, withVal_ok]
    by_cases hk : 2 ^ 15 < occupancy cl
    · rw [if_pos (overSubscribed_iff.2 hk)]
      obtain ⟨t, ht, he⟩ := raiseCode_answers (sub := 6) (w := 0x0006030C#32) (by decide) (s.eng.hpos + 17) s _
      exact ⟨t, ht, fun _ => he, fun h => absurd hk h.not_gt⟩
    · rw [if_neg (overSubscribed_iff.not.2 hk)]
      exact ⟨_, rfl, fun h => absurd h hk, fun _ => rfl⟩

end Sys2Proof.Machine
end

section
/-! Where S stops the engine (R335, R360, R361, R583): a reader's error is that of the first bit or byte that cannot be read, and it ends
the run in a row and in a step of the engine alike. -/

namespace Sys2Proof.Machine

/-! ## An error on the way ends the run -/

/-- A read that raises inside a row that has set fields of the engine (`u`). -/
theorem withVal_answers {α : Type} {r : Except Stop α} {e : RunError} (hr : r = .error (.raise e)) (s : State) (u : Engine)
    (k : α → Result) :
    ∃ t, withVal r { s with eng := u } k = .next t ∧ ErrorEntry e.codeWord e.pos e.aux s t := by
  subst hr
  exact ⟨_, rfl, raise_errorEntry e { s with eng := u }⟩

/-- A read that raises on the way to the next instruction. -/
theorem fetchVal_answers {α : Type} {r : Except Stop α} {e : RunError} (hr : r = .error (.raise e)) (s : State)
    (k : α → Fetched) : ∃ t, (fetchVal r s k).result = .next t ∧ ErrorEntry e.codeWord e.pos e.aux s t := by
  subst hr
  exact ⟨_, rfl, raise_errorEntry e s⟩

/-- Bits that are no symbol. -/
theorem fetchCoded_none {r : Except Stop (Option (Instr × Nat))} (hr : r = .ok none) {sub : Nat} {w : Word}
    (hw : trunc32 (ErrorKind.invalidHuffmanCode.code + classOfCode ErrorKind.invalidHuffmanCode.code * 256 + sub * 65536) = w)
    (s : State) : ∃ t, (fetchCoded r sub s).result = .next t ∧ ErrorEntry w s.eng.bitpos s.eng.block s t := by
  subst hr
  exact raiseCode_answers hw s.eng.bitpos s s.eng

/-! ## The bytes and bits of S -/

/-- A bit at or behind the end of S (R335). -/
theorem streamBit_end {s : State} {k : Nat} (h : 8 * streamLen s ≤ k) :
    streamBit s k = .error (.raise ⟨.streamExhausted, 2, 8 * streamLen s, s.eng.block⟩) :=
  if_pos h

/-- A bit in a byte that cannot be read (R583). -/
theorem streamBit_of_byte_error {s : State} {j k : Nat} {e : Stop} (h : streamByte s j = .error e) (hj : j < streamLen s)
    (hk : k < 8) : streamBit s (8 * j + k) = .error e := by
  rw [streamBit, if_neg (by omega), show (8 * j + k) / 8 = j by omega, h]

/-- R583: an engine read that the platform fails. -/
theorem busRead_fails {s : State} {a : Nat} (h : Fails s .read a) : busRead s a = .error (.raise ⟨.busError, 0, a, 0⟩) := by
  obtain ⟨hlt, hf⟩ := h
  rw [busRead, busCheck, if_neg (Nat.not_le.2 hlt), if_pos hf]
  rfl

/-- Where byte `j` of S lies in memory (R273, R208). -/
theorem streamByte_eq (s : State) (j : Nat) : streamByte s j =
    busRead s (s.regs.inBase.toNat + (if s.regs.mode = 0#3 then idatOffset s.eng.chunks j else j)) := by
  simp only [streamByte, inByte, isFull_iff]

/-- A big-endian number is stopped by its first byte that cannot be read. -/
theorem be32From_stop {rd : Nat → Except Stop Byte} {i k : Nat} {e : Stop} (hk : k < 4) (hread : ∀ j < k, ∃ b, rd (i + j) = .ok b)
    (hstop : rd (i + k) = .error e) : be32From rd i = .error e := by
  have first (h : 0 < k) : ∃ b, rd i = .ok b := hread 0 h
  rcases k with _ | _ | _ | _ | k
  · rw [be32From, show rd i = .error e from hstop]
  · obtain ⟨b0, h0⟩ := first (by omega)
    simp only [be32From, h0, hstop]
  · obtain ⟨b0, h0⟩ := first (by omega)
    obtain ⟨b1, h1⟩ := hread 1 (by omega)
    simp only [be32From, h0, h1, hstop]
  · obtain ⟨b0, h0⟩ := first (by omega)
    obtain ⟨b1, h1⟩ := hread 1 (by omega)
    obtain ⟨b2, h2⟩ := hread 2 (by omega)
    simp only [be32From, h0, h1, h2, hstop]
  · omega

/-- The 3-bit lengths of a code-length code are stopped by the first bit that cannot be read. -/
theorem readClLens_stop {s : State} {order : List Nat} {pos k : Nat} {cl : List Nat} {e : Stop}
    (h : StopsAfter (streamBit s) pos k e) (hk : k < 3 * order.length) : readClLens s order pos cl = .error e := by
  induction order generalizing pos k cl with
  | nil => simp at hk
  | cons x xs ih =>
    rw [readClLens]
    by_cases h3 : k < 3
    · rw [h.readBits h3]
    · obtain ⟨v, hv⟩ := h.readBits_ok (Nat.not_lt.1 h3)
      rw [hv]
      exact ih (h.skip (Nat.not_lt.1 h3)) (by rw [List.length_cons] at hk; omega)

theorem StreamBits.stopsAfter {s : State} {bits : List Bool} {e : Stop} (h : StreamBits s bits)
    (he : streamBit s (s.eng.bitpos + bits.length) = .error e) : StopsAfter (streamBit s) s.eng.bitpos bits.length e where
  read i hi := ⟨bits[i], h i _ (List.getElem?_eq_getElem hi)⟩
  stop := he

/-! ## The steps that read bits -/

section
variable {z s : State} {bits : List Bool} (ht : EngineTurn z s) (hb : StreamBits s bits)
include ht hb

/-- A block header that S or the platform cuts short. -/
theorem step_block_stop {e : RunError} (he : streamBit s (s.eng.bitpos + bits.length) = .error (.raise e))
    (hp : s.eng.phase = .block) (hd : decode .block bits = .error .tooShort) :
    ∃ t, step z = .next t ∧ ErrorEntry e.codeWord e.pos e.aux s t := by
  have hcut : CutAt bits (streamBit s) s.eng.bitpos (.raise e) := ⟨hb.carries, he⟩
  simp only [decode] at hd
  split at hd
  · rw [step_engine ht, enginePhase, hp]
    exact fetchVal_answers (hcut.readBits (Nat.zero_le _) ‹_›) s _
  · cases hd

/-- A coded symbol or its extra bits that S or the platform cuts short. -/
theorem step_coded_stop {e : RunError} (he : streamBit s (s.eng.bitpos + bits.length) = .error (.raise e))
    (h : (s.eng.phase = .litLen ∧ decode (.litLen s.eng.dyn s.eng.litlen) bits = .error .tooShort) ∨
      ((∃ l, s.eng.phase = .dist l) ∧ decode (.dist s.eng.dist) bits = .error .tooShort) ∨
      (s.eng.phase = .clSym ∧ decode (.cl s.eng.lens.isEmpty s.eng.cl) bits = .error .tooShort)) :
    ∃ t, step z = .next t ∧ ErrorEntry e.codeWord e.pos e.aux s t := by
  have hcut : CutAt bits (streamBit s) s.eng.bitpos (.raise e) := ⟨hb.carries, he⟩
  rw [step_engine ht, enginePhase]
  rcases h with ⟨hp, hd⟩ | ⟨⟨l, hp⟩, hd⟩ | ⟨hp, hd⟩ <;> rw [hp] <;>
    exact fetchVal_answers (hcut.decodeCoded (namedOr_tooShort hd)) s _

/-- A stored byte that S or the platform cuts short. -/
theorem step_stored_stop {e : RunError} (he : streamBit s (s.eng.bitpos + bits.length) = .error (.raise e)) {n : Nat}
    (hp : s.eng.phase = .stored (n + 1)) (hl : bits.length < 8) :
    ∃ t, step z = .next t ∧ ErrorEntry e.codeWord e.pos e.aux s t := by
  rw [step_engine ht, enginePhase, hp]
  exact withVal_answers ((hb.stopsAfter he).readBits hl) s s.eng _

/-- The reader of the stream meets no symbol where the decoder of the bits meets none. -/
theorem step_undecodable {lens : List Nat} {extra : Nat → Nat} {mk : Nat → Nat → Instr} {sub : Nat} {w : Word}
    (hs : enginePhase s = fetchCoded (decodeCoded (streamBit s) lens extra mk s.eng.bitpos) sub s)
    (hd : namedOr (decodeCoded (listBits bits) lens extra mk 0) = .error .undecodable)
    (hw : trunc32 (ErrorKind.invalidHuffmanCode.code + classOfCode ErrorKind.invalidHuffmanCode.code * 256 + sub * 65536) = w) :
    ∃ t, step z = .next t ∧ ErrorEntry w s.eng.bitpos s.eng.block s t := by
  rw [step_engine ht, hs]
  rcases namedOr_undecodable hd with hx | hx
  · cases decodeCoded_listBits_error hx
  · exact fetchCoded_none (hb.carries.decodeCoded_none hx) hw s

end

/-! ## The rows that read fields -/

/-- LEN or NLEN cut short. -/
theorem execBlockStored_stop {s : State} {k : Nat} {e : RunError} (bfinal : Bool) (hk : k < 32)
    (h : StopsAfter (streamBit s) (8 * ((s.eng.bitpos + 7) / 8)) k (.raise e)) :
    ∃ t, execBlockStored bfinal s = .next t ∧ ErrorEntry e.codeWord e.pos e.aux s t := by
  rw [execBlockStored_eq]
  by_cases h16 : k < 16
  · exact withVal_answers (h.readBits h16) s _ _
  · obtain ⟨len, hlen⟩ := h.readBits_ok (Nat.not_lt.1 h16)
    rw [hlen, withVal_ok]
    exact withVal_answers ((h.skip (Nat.not_lt.1 h16)).readBits (by omega)) s _ _

/-- One of the three counts of a dynamic block cut short. -/
theorem execBlockDynamic_stop_counts {s : State} {k : Nat} {e : RunError} (bfinal : Bool) (hk : k < 14)
    (h : StopsAfter (streamBit s) s.eng.bitpos k (.raise e)) :
    ∃ t, execBlockDynamic bfinal s = .next t ∧ ErrorEntry e.codeWord e.pos e.aux s t := by
  rw [execBlockDynamic_eq]
  by_cases h5 : k < 5
  · exact withVal_answers (h.readBits h5) s _ _
  obtain ⟨hlit, hl⟩ := h.readBits_ok (Nat.not_lt.1 h5)
  rw [hl, withVal_ok]
  have hfrom5 := h.skip (Nat.not_lt.1 h5)
  by_cases h10 : k < 10
  · exact withVal_answers (hfrom5.readBits (by omega)) s _ _
  obtain ⟨hdist, hd⟩ := hfrom5.readBits_ok (n := 5) (by omega)
  rw [hd, withVal_ok]
  exact withVal_answers ((h.skip (Nat.not_lt.1 h10)).readBits (by omega)) s _ _

/-- One of the code-length code's lengths cut short, the counts in order. -/
theorem execBlockDynamic_stop_lengths {s : State} {k hlit hdist hclen : Nat} {e : RunError} (bfinal : Bool)
    (h5 : readBits (streamBit s) s.eng.bitpos 5 = .ok hlit) (h10 : readBits (streamBit s) (s.eng.bitpos + 5) 5 = .ok hdist)
    (h14 : readBits (streamBit s) (s.eng.bitpos + 10) 4 = .ok hclen) (hl : hlit ≤ 29) (hd : hdist ≤ 29)
    (hk : 14 ≤ k ∧ k < 14 + 3 * (hclen + 4)) (h : StopsAfter (streamBit s) s.eng.bitpos k (.raise e)) :
    ∃ t, execBlockDynamic bfinal s = .next t ∧ ErrorEntry e.codeWord e.pos e.aux s t := by
  have hlt : hclen < 16 := readBits_lt h14
  have hlen : (clOrder.take (hclen + 4)).length = hclen + 4 := by
    rw [List.length_take]
    exact Nat.min_eq_left (by change hclen + 4 ≤ 19; omega)
  rw [execBlockDynamic_eq, h5, withVal_ok, h10, withVal_ok, h14, withVal_ok, if_neg hl.not_gt, if_neg hd.not_gt]
  exact withVal_answers (readClLens_stop (s := atDynamicCounts bfinal s) (h.skip hk.1) (by omega)) s _ _

/-- Settles O39: the errors of S, then each place that reads it. -/
theorem streamStops : Obligations.StreamStops := by
  unfold Obligations.StreamStops
  refine ⟨fun s k => streamBit_end, fun s j a ha hf => ?_, fun z s bits e ht hb he h => ?_,
    fun z s bits ht hb => ⟨fun hp hd => ?_, fun ⟨l, hp⟩ hd => ?_, fun hp hd => ?_⟩, fun dyn noPrev lens bits h => ?_,
    fun bfinal s j k e hj hk hread hstop => ?_, fun bfinal s k hlit hdist hclen e hread hstop h => ?_,
    fun z s e ht hp hl h => ?_, fun z s k e ht hp hl hk hread hstop => ?_⟩
  · have hbyte : streamByte s j = .error (.raise ⟨.busError, 0, a, 0⟩) := by
      rw [streamByte_eq, ← ha]
      exact busRead_fails hf
    exact ⟨hbyte, fun hj k hk => streamBit_of_byte_error hbyte hj hk⟩
  · rcases h with ⟨hp, hd⟩ | h | h | h | ⟨⟨n, hp⟩, hl⟩
    · exact step_block_stop ht hb he hp hd
    · exact step_coded_stop ht hb he (.inl h)
    · exact step_coded_stop ht hb he (.inr (.inl h))
    · exact step_coded_stop ht hb he (.inr (.inr h))
    · exact step_stored_stop ht hb he hp hl
  · exact step_undecodable (sub := 1) ht hb (by rw [enginePhase, hp]; rfl) hd (by decide)
  · exact step_undecodable (sub := 2) ht hb (by rw [enginePhase, hp]; rfl) hd (by decide)
  · exact step_undecodable (sub := 3) ht hb (by rw [enginePhase, hp]; rfl) hd (by decide)
  · have hempty (extra : Nat → Nat) (mk : Nat → Nat → Instr) := congrArg namedOr (decodeCoded_empty (listBits bits) h extra mk 0)
    exact ⟨hempty _ _, hempty _ _, hempty _ _⟩
  · subst hj
    exact execBlockStored_stop bfinal hk ⟨hread, hstop⟩
  · by_cases hk : k < 14
    · exact execBlockDynamic_stop_counts bfinal hk ⟨hread, hstop⟩
    · obtain ⟨h5, h10, h14, hl, hd, hlt⟩ := h.resolve_left hk
      exact execBlockDynamic_stop_lengths bfinal h5 h10 h14 hl hd ⟨Nat.not_lt.1 hk, hlt⟩ ⟨hread, hstop⟩
  · rw [step_engine ht, enginePhase, hp]
    simp only [fetchZlib, if_neg (Nat.not_lt.2 hl)]
    rcases h with h0 | ⟨⟨b, h0⟩, h1⟩
    · exact fetchVal_answers h0 s _
    · rw [h0, fetchVal_ok]
      exact fetchVal_answers h1 s _
  · rw [step_engine ht, enginePhase, hp]
    simp only [Fetched.result, trailerStep, if_neg (Nat.not_lt.2 hl)]
    exact withVal_answers (be32From_stop hk hread hstop) s s.eng _

end Sys2Proof.Machine
end

section
/-! Literal/length and distance symbols (R431 to R438): a literal's byte, the block's end, a match's length and distance. -/

namespace Sys2Proof.Machine

/-! ## Literals (R432) and the block's end (R433) -/

theorem literal_room {b : Byte} {s : State} (h : s.eng.out < s.regs.inflCap.toNat)
    (hw : Writable s (s.regs.inflBase.toNat + s.eng.out)) : ∃ t, literal b s = .next t ∧ Emitted b .litLen s t := by
  rw [literal, emit_room h hw]
  exact ⟨_, rfl, emitted_spec b .litLen s⟩

theorem literal_full {b : Byte} {s : State} (h : s.regs.inflCap.toNat ≤ s.eng.out) :
    ∃ t, literal b s = .next t ∧ ErrorEntry 0x00010614#32 s.eng.out s.eng.block s t := by
  rw [literal, emit_full h]
  exact ⟨_, rfl, errorEntry_raise (by decide) _ _ s⟩

/-- Settles O45: each of the three rows is `literal`, which has room for the byte or has none. -/
theorem literals : Obligations.Literals := by
  unfold Obligations.Literals
  intro i b s hi
  have hrow : exec i s = literal b s := by rcases hi with rfl | rfl | rfl <;> rfl
  rw [hrow]
  exact ⟨literal_room, fun h => literal_full h.ge⟩

/-- Settles O46: the row is `endBlock`, whose next phase is `afterBlock` of BFINAL. -/
theorem endOfBlock : Obligations.EndOfBlock := by
  unfold Obligations.EndOfBlock
  intro s
  have hrow : exec .eob s = .next (endBlock s) := rfl
  rw [hrow, endBlock, afterBlock]

/-! ## Lengths and distances (R434, R436, R438) -/

/-- The extra bits' field holds their value. -/
theorem toNat_ofNat_of_lt {w x : Nat} (h : x < 2 ^ w) : (BitVec.ofNat w x).toNat = x := by
  rw [BitVec.toNat_ofNat, Nat.mod_eq_of_lt h]

/-- R157, R434: the row of length code `257 + k` starts a match of the table's base plus the extra bits; codes 257 to 264 and 285 have
no extra bits. -/
theorem exec_instrOfLength {k x : Nat} (s : State) (hk : k < 29) (hx : x < 2 ^ lenExtra (257 + k)) :
    exec (instrOfLength (257 + k) x) s = startMatch (lenBaseTable.getD k 0 + x) s := by
  rcases (by omega : k < 8 ∨ k = 28 ∨ 8 ≤ k ∧ k < 28) with h | rfl | ⟨hlo, hhi⟩
  · interval_cases k <;> obtain rfl : x = 0 := Nat.lt_one_iff.1 hx <;> rfl
  · obtain rfl : x = 0 := Nat.lt_one_iff.1 hx
    rfl
  · conv_rhs => rw [← toNat_ofNat_of_lt hx]
    interval_cases k <;> rfl

/-- R158, R436: the row of distance code `d` checks the table's base plus the extra bits; codes 0 to 3 have no extra bits. -/
theorem exec_instrOfDist {d x : Nat} (s : State) (hd : d < 30) (hx : x < 2 ^ distExtra d) :
    exec (instrOfDist d x) s = startCopy (distBaseTable.getD d 0 + x) s := by
  by_cases h : d < 4
  · interval_cases d <;> obtain rfl : x = 0 := Nat.lt_one_iff.1 hx <;> rfl
  · conv_rhs => rw [← toNat_ofNat_of_lt hx]
    interval_cases d <;> rfl

/-- R438: a distance within the output. -/
theorem startCopy_within {length dist : Nat} {s : State} (hp : s.eng.phase = .dist length) (h : dist ≤ s.eng.out) :
    startCopy dist s = .next { s with eng := { s.eng with phase := .copy length dist } } := by
  rw [startCopy, if_neg h.not_gt, matchLength, hp]

/-- R438: a distance beyond the output. -/
theorem startCopy_beyond {dist : Nat} {s : State} (h : s.eng.out < dist) :
    ∃ t, startCopy dist s = .next t ∧ ErrorEntry 0x0000030D#32 s.eng.sp s.eng.block s t := by
  rw [startCopy, if_pos h]
  exact raiseAt_answers (by decide) _ _ s s.eng

/-- Settles O47: the rows by their tables, then the distance check. -/
theorem matchSymbols : Obligations.MatchSymbols := by
  unfold Obligations.MatchSymbols
  refine ⟨fun k x s hk hx => exec_instrOfLength s hk hx, fun d x length dist s hd hx hp hdist => ?_⟩
  rw [exec_instrOfDist s hd hx, ← hdist]
  exact ⟨startCopy_within hp, startCopy_beyond⟩

end Sys2Proof.Machine
end

section
/-! The trailer: its entry, then the stored checksum against the computed one (R440 to R443). -/

namespace Sys2Proof.Machine

/-- R441, R442: the trailer's outcome once its four bytes are read. -/
theorem step_trailer {z s : State} {f : Nat → Byte} (ht : EngineTurn z s) (hp : s.eng.phase = .trailer)
    (hl : s.eng.bitpos / 8 + 4 ≤ streamLen s) (hf : ∀ k < 4, streamByte s (s.eng.bitpos / 8 + k) = .ok (f k)) :
    step z =
      if be32At f 0 = s.regs.adlerResult.toNat then
        if isFull s then .next { s with eng := { s.eng with phase := .enter .unfilter } } else .next (finishRun s)
      else raiseAt .checksumMismatch 0 (s.eng.bitpos / 8) (be32At f 0) s := by
  rw [step_engine ht, enginePhase, hp]
  simp only [Fetched.result, trailerStep, if_neg hl.not_gt, be32From_ok hf, withVal_ok]

/-- R441: a stream that ends before the trailer's four bytes. -/
theorem step_trailer_short {z s : State} (ht : EngineTurn z s) (hp : s.eng.phase = .trailer)
    (hl : streamLen s < s.eng.bitpos / 8 + 4) :
    ∃ t, step z = .next t ∧ ErrorEntry 0x0003030F#32 (8 * streamLen s) s.eng.block s t := by
  rw [step_engine ht, enginePhase, hp]
  simp only [Fetched.result, trailerStep, if_pos hl]
  exact raiseAt_answers (by decide) _ _ s s.eng

/-- Settles O50: the entry, the stream's length, then the comparison and what follows it in each mode. -/
theorem trailer : Obligations.Trailer := by
  unfold Obligations.Trailer
  refine ⟨fun z s ht hp => step_enter ht hp, fun z s f j ht hp hj => ?_⟩
  subst hj
  refine ⟨step_trailer_short ht hp, fun hl hf => ?_⟩
  rw [step_trailer ht hp hl hf]
  refine ⟨fun heq hm => ?_, fun heq hm => ?_, fun hne => ?_⟩
  · rw [if_pos heq, if_pos ((isFull_iff s).2 hm)]
  · rw [if_pos heq, if_neg ((isFull_iff s).not.2 hm)]
    rfl
  · rw [if_neg hne]
    exact raiseAt_answers (by decide) _ _ s s.eng

end Sys2Proof.Machine
end

section
/-! The back-reference copy (R439): what one byte's step does, and by induction what the whole copy leaves, overlapping or not. -/

namespace Sys2Proof.Machine

/-! ## The engine's turns -/

/-- The host's list lets the engine move at each of the next `n` steps: it begins with that many turns, or holds turns alone (log 3). -/
def TurnsFor (n : Nat) (l : List HostOp) : Prop :=
  ∃ m rest, l = List.replicate m .engine ++ rest ∧ (n ≤ m ∨ rest = [])

theorem TurnsFor.next {n : Nat} {s : State} (h : TurnsFor (n + 1) s.host) :
    ∃ l, EngineNext s { s with host := l } ∧ TurnsFor n l := by
  obtain ⟨m, rest, hl, hm⟩ := h
  cases m with
  | zero =>
    obtain rfl : rest = [] := hm.resolve_left (by omega)
    have hempty : s.host = [] := hl
    exact ⟨s.host, .inl ⟨hempty, rfl⟩, 0, [], hempty, .inr rfl⟩
  | succ m =>
    exact ⟨List.replicate m .engine ++ rest, .inr ⟨_, by rw [hl]; rfl, rfl⟩, m, rest, rfl, hm.imp_left Nat.le_of_succ_le_succ⟩

/-! ## One byte of the copy -/

/-- R439: a byte that can be read at the distance is emitted. -/
theorem step_copy {z s : State} {n d : Nat} {b : Byte} (ht : EngineTurn z s) (hp : s.eng.phase = .copy (n + 1) d)
    (hb : busRead s (s.regs.inflBase.toNat + s.eng.out - d) = .ok b) :
    step z = emit b s fun u => .next { u with eng := { u.eng with phase := .copy n d } } := by
  rw [step_engine ht, enginePhase, hp]
  simp only [Fetched.result, copyStep, hb, withVal_ok]

/-- The state after the copy's next byte, the host's list being `l` behind the engine's turn. -/
def afterCopiedByte (n d : Nat) (l : List HostOp) (s : State) : State :=
  let u := emitted (s.byteAt (s.regs.inflBase.toNat + (s.eng.out - d))) { s with host := l }
  { u with eng := { u.eng with phase := .copy n d } }

section
variable (n d : Nat) (l : List HostOp) (s : State)

@[simp] theorem afterCopiedByte_host : (afterCopiedByte n d l s).host = l := emitted_host _ _
@[simp] theorem afterCopiedByte_plat : (afterCopiedByte n d l s).plat = s.plat := emitted_plat _ _
@[simp] theorem afterCopiedByte_regs :
    (afterCopiedByte n d l s).regs = { s.regs with inflLen := trunc32 (s.eng.out + 1) } := rfl
@[simp] theorem afterCopiedByte_out : (afterCopiedByte n d l s).eng.out = s.eng.out + 1 := rfl

/-- What the run sees of the host's bytes it goes on seeing when it writes one (R112). -/
theorem afterCopiedByte_hidden {a : Nat} (h : a ∉ s.hidden) : a ∉ (afterCopiedByte n d l s).hidden := by
  change a ∉ (putByte _ _ _).hidden
  unfold putByte
  split
  · exact h
  · exact fun hx => h (List.mem_of_mem_filter hx)

theorem afterCopiedByte_byteAt (a : Nat) : (afterCopiedByte n d l s).byteAt a =
    if a = s.regs.inflBase.toNat + s.eng.out then s.byteAt (s.regs.inflBase.toNat + (s.eng.out - d)) else s.byteAt a :=
  State.byteAt_write (emitted_mem _ { s with host := l }) a

end

/-! ## The whole copy -/

/-- `n` bytes at distance `d` can be copied from `s` without an error or a stop. -/
structure CopyReady (n d : Nat) (s : State) : Prop where
  turns : TurnsFor n s.host
  busy : s.regs.busy = true
  noAbort : s.eng.abortReq = false
  phase : s.eng.phase = .copy n d
  pos : 1 ≤ d
  within : d ≤ s.eng.out
  room : s.eng.out + n ≤ s.regs.inflCap.toNat
  access : ∀ k < s.regs.inflCap.toNat, Readable s (s.regs.inflBase.toNat + k) ∧ Writable s (s.regs.inflBase.toNat + k) ∧
    s.regs.inflBase.toNat + k ∉ s.hidden

/-- `t` is `s` after `n` bytes were copied at distance `d`. -/
structure Copied (n d : Nat) (s t : State) : Prop where
  phase : t.eng.phase = .copy 0 d
  out : t.eng.out = s.eng.out + n
  len : readReg t.regs 0x58#8 = if n = 0 then readReg s.regs 0x58#8 else trunc32 (s.eng.out + n)
  regs : RegsSame [0x58#8] s t
  bytes : ∀ i < n, t.byteAt (s.regs.inflBase.toNat + s.eng.out + i) = t.byteAt (s.regs.inflBase.toNat + (s.eng.out + i - d))
  frame : ∀ a, (∀ i < n, a ≠ s.regs.inflBase.toNat + s.eng.out + i) → t.byteAt a = s.byteAt a

/-- A step copies a byte, and the rest can be copied from where it leads. -/
theorem CopyReady.step {n d : Nat} {s : State} (h : CopyReady (n + 1) d s) :
    ∃ l, step s = .next (afterCopiedByte n d l s) ∧ CopyReady n d (afterCopiedByte n d l s) := by
  obtain ⟨l, hnext, hturns⟩ := h.turns.next
  have hroom := h.room
  have hout : s.eng.out < s.regs.inflCap.toNat := by omega
  obtain ⟨hread, -, hvis⟩ := h.access (s.eng.out - d) (by omega)
  obtain ⟨-, hwrite, -⟩ := h.access s.eng.out hout
  refine ⟨l, ?_, ?_⟩
  · have hbyte : busRead { s with host := l } (s.regs.inflBase.toNat + s.eng.out - d) =
        .ok (s.byteAt (s.regs.inflBase.toNat + (s.eng.out - d))) := by
      rw [Nat.add_sub_assoc h.within]
      exact busRead_ok.2 ⟨hread, engineByte_eq hvis⟩
    rw [step_copy ⟨hnext, h.busy, h.noAbort⟩ h.phase hbyte]
    exact emit_room (s := { s with host := l }) hout hwrite
  · have hcheck (dir : Dir) (a : Nat) := busCheck_congr (afterCopiedByte_plat n d l s) dir a
    exact {
      turns := by rwa [afterCopiedByte_host]
      busy := h.busy
      noAbort := h.noAbort
      phase := rfl
      pos := h.pos
      within := h.within.trans (Nat.le_succ _)
      room := by simp only [afterCopiedByte_out, afterCopiedByte_regs]; omega
      access := fun k hk => by
        obtain ⟨hr, hw, hv⟩ := h.access k hk
        exact ⟨(hcheck _ _).trans hr, (hcheck _ _).trans hw, afterCopiedByte_hidden n d l s hv⟩ }

theorem Copied.zero {d : Nat} {s : State} (hp : s.eng.phase = .copy 0 d) : Copied 0 d s s where
  phase := hp
  out := rfl
  len := rfl
  regs _ _ := rfl
  bytes _ hi := absurd hi (Nat.not_lt_zero _)
  frame _ _ := rfl

/-- A byte and then the others: the byte lies below all later ones, and so does the one it was copied from. -/
theorem Copied.succ {n d : Nat} {l : List HostOp} {s t : State} (hpos : 1 ≤ d) (hd : d ≤ s.eng.out)
    (h : Copied n d (afterCopiedByte n d l s) t) : Copied (n + 1) d s t := by
  obtain ⟨hphase, hout, hlen, hregs, hbytes, hframe⟩ := h
  simp only [afterCopiedByte_out, afterCopiedByte_regs, afterCopiedByte_byteAt] at hout hlen hbytes hframe
  refine ⟨hphase, by omega, ?_, fun off ho => ?_, fun i hi => ?_, fun a ha => ?_⟩
  · rw [hlen, if_neg (Nat.succ_ne_zero n), Nat.add_assoc, Nat.add_comm 1]
    split
    · subst n
      exact (readReg_inflLen _ _ _).trans (if_pos rfl)
    · rfl
  · rw [hregs off ho, afterCopiedByte_regs]
    exact (readReg_inflLen _ _ _).trans (if_neg (by simpa using ho))
  · cases i with
    | zero =>
      rw [Nat.add_zero, Nat.add_zero, hframe _ (by omega), hframe _ (by omega), if_pos rfl, if_neg (by omega)]
    | succ i =>
      have := hbytes i (by omega)
      rwa [← Nat.add_assoc, Nat.add_right_comm, Nat.add_right_comm s.eng.out] at this
  · have hfirst : a ≠ s.regs.inflBase.toNat + s.eng.out := ha 0 (Nat.succ_pos n)
    rw [hframe a fun i hi => ?_, if_neg hfirst]
    have := ha (i + 1) (by omega)
    omega

/-- Byte after byte, the steps make the whole copy. -/
theorem CopyReady.copied {n d : Nat} {s : State} (h : CopyReady n d s) : ∃ t, runSteps n s = .next t ∧ Copied n d s t := by
  induction n generalizing s with
  | zero => exact ⟨s, rfl, .zero h.phase⟩
  | succ n ih =>
    obtain ⟨l, hstep, hready⟩ := h.step
    obtain ⟨t, hrun, hcopied⟩ := ih hready
    refine ⟨t, ?_, hcopied.succ h.pos h.within⟩
    rw [runSteps, hstep]
    exact hrun

/-- Settles O49: the whole copy by induction on its bytes, its end, and a byte without room. -/
theorem copyRun : Obligations.CopyRun := by
  unfold Obligations.CopyRun
  refine ⟨fun n d m s rest hhost hm hbusy hab hp hpos hd hroom hacc => ?_, fun z s d ht hp => ?_,
    fun z s n d ht hp hr hfull => ?_⟩
  · obtain ⟨t, hrun, hc⟩ := CopyReady.copied ⟨⟨m, rest, hhost, hm⟩, hbusy, hab, hp, hpos, hd, hroom, hacc⟩
    exact ⟨t, hrun, hc.phase, hc.out, fun hn => hc.len.trans (if_neg hn.ne'), hc.regs, hc.bytes, hc.frame⟩
  · rw [step_engine ht, enginePhase, hp]
    rfl
  · rw [step_copy ht hp (busRead_ok.2 ⟨hr, rfl⟩), emit_full hfull.ge]
    exact ⟨_, rfl, errorEntry_raise (by decide) _ _ s⟩

end Sys2Proof.Machine
end

section
/-! One reconstructed byte (R497 to R503): the operands of the byte the engine stands at, what each of the five filter rows writes from
them, what a written byte leaves, and the round-trip law (R506). -/

namespace Sys2Proof.Machine

/-! ## The operands (R497) -/

section
variable {s : State} {ft : Byte} {i : Nat}

theorem rowIndex_rowByte (hp : s.eng.phase = .rowByte ft i) : rowIndex s = i := by
  rw [rowIndex, hp]

theorem filtX_rowByte (hp : s.eng.phase = .rowByte ft i) : filtX s = filteredByte s (s.eng.row * stride s + 1 + i) := by
  rw [filtX, rowIndex_rowByte hp]

/-- a is 0 for the first `bpp` bytes of a row. -/
theorem filtA_ok {a : Byte} (hp : s.eng.phase = .rowByte ft i) (hfirst : i < bpp s → a = 0#8)
    (hleft : bpp s ≤ i → reconByte s (s.eng.row * rb s + i - bpp s) = .ok a) : filtA s = .ok a := by
  rw [filtA, rowIndex_rowByte hp]
  split
  · exact hleft ‹_›
  · rw [hfirst (by omega)]

/-- b is 0 in row 0. -/
theorem filtB_ok {b : Byte} (hp : s.eng.phase = .rowByte ft i) (hfirst : s.eng.row = 0 → b = 0#8)
    (habove : 1 ≤ s.eng.row → reconByte s ((s.eng.row - 1) * rb s + i) = .ok b) : filtB s = .ok b := by
  rw [filtB, rowIndex_rowByte hp]
  split
  · exact habove ‹_›
  · rw [hfirst (by omega)]

/-- c is 0 where a or b lies outside the image. -/
theorem filtC_ok {c : Byte} (hp : s.eng.phase = .rowByte ft i) (hfirst : s.eng.row = 0 ∨ i < bpp s → c = 0#8)
    (haboveLeft : 1 ≤ s.eng.row → bpp s ≤ i → reconByte s ((s.eng.row - 1) * rb s + i - bpp s) = .ok c) : filtC s = .ok c := by
  rw [filtC, rowIndex_rowByte hp]
  split
  next h => exact haboveLeft h.1 h.2
  next => rw [hfirst (by omega)]

end

/-! ## The five rows (R498 to R502) -/

section
variable {s : State} {x a b c : Byte}

theorem exec_filtNone (hx : filtX s = .ok x) : exec .filtNone s = writeRowByte 0#8 x s := by
  rw [exec, execFiltNone, hx, withVal_ok]

theorem exec_filtSub (hx : filtX s = .ok x) (ha : filtA s = .ok a) : exec .filtSub s = writeRowByte 1#8 (x + a) s := by
  rw [exec, execFiltSub, hx, withVal_ok, ha, withVal_ok]

theorem exec_filtUp (hx : filtX s = .ok x) (hb : filtB s = .ok b) : exec .filtUp s = writeRowByte 2#8 (x + b) s := by
  rw [exec, execFiltUp, hx, withVal_ok, hb, withVal_ok]

theorem exec_filtAvg (hx : filtX s = .ok x) (ha : filtA s = .ok a) (hb : filtB s = .ok b) :
    exec .filtAvg s = writeRowByte 3#8 (x + average a b) s := by
  rw [exec, execFiltAvg, hx, withVal_ok, ha, withVal_ok, hb, withVal_ok]

theorem exec_filtPaeth (hx : filtX s = .ok x) (ha : filtA s = .ok a) (hb : filtB s = .ok b) (hc : filtC s = .ok c) :
    exec .filtPaeth s = writeRowByte 4#8 (x + paeth a b c) s := by
  rw [exec, execFiltPaeth, hx, withVal_ok, ha, withVal_ok, hb, withVal_ok, hc, withVal_ok]

/-- Whichever of the five filters it is, the byte written is the filtered byte plus the predictor. -/
theorem exec_instrOfFilter {ft : Byte} (hft : ft.toNat ≤ 4) (hx : filtX s = .ok x) (ha : filtA s = .ok a)
    (hb : filtB s = .ok b) (hc : filtC s = .ok c) :
    exec (instrOfFilter ft) s = writeRowByte ft (x + predictor ft.toNat a b c) s := by
  have hcases : ft = 0#8 ∨ ft = 1#8 ∨ ft = 2#8 ∨ ft = 3#8 ∨ ft = 4#8 := by bv_omega
  rcases hcases with rfl | rfl | rfl | rfl | rfl
  · exact (exec_filtNone hx).trans (congrArg (writeRowByte 0#8 · s) (BitVec.add_zero x).symm)
  · exact exec_filtSub hx ha
  · exact exec_filtUp hx hb
  · exact exec_filtAvg hx ha hb
  · exact exec_filtPaeth hx ha hb hc

end

/-! ## What a written byte leaves (R495, R503, R505) -/

section
variable (ft v : Byte) (s : State)

theorem rowWritten_host_plat_draws :
    (rowWritten ft v s).host = s.host ∧ (rowWritten ft v s).plat = s.plat ∧ (rowWritten ft v s).draws = s.draws := by
  unfold rowWritten endRow
  simp only
  split_ifs <;> simp

/-- A completed row shows at RECON_LEN, and at STATUS where it is the last. -/
theorem readReg_rowWritten_complete (h : rb s ≤ rowIndex s + 1) {off : BitVec 8}
    (hoff : off = 0x08#8 → s.eng.row + 1 < geomHeight s) : readReg (rowWritten ft v s).regs off =
      if off = 0x64#8 then trunc32 ((s.eng.row + 1) * rb s) else readReg s.regs off := by
  rw [rowWritten_regs, if_neg h.not_gt, ← readReg_reconLen]
  split
  next => rfl
  next hlast =>
    exact readReg_statusFields { s.regs with reconLen := trunc32 ((s.eng.row + 1) * rb s) } false true s.regs.err s.regs.stage
      fun he => hlast (hoff he)

end

theorem rowWritten_spec {ft v : Byte} {i : Nat} {s : State} (hi : rowIndex s = i) : RowWritten ft v i s (rowWritten ft v s) := by
  subst hi
  have hbyte := State.byteAt_write (rowWritten_mem ft v s)
  refine ⟨(hbyte _).trans (if_pos rfl), fun a ha => (hbyte a).trans (if_neg ha), fun hmore => ⟨fun off _ => ?_, ?_⟩,
    fun hfull => ⟨?_, fun off ho => ?_⟩, fun hfull hrows => ⟨?_, ?_⟩, fun hfull hlast => ?_,
    rowWritten_host_plat_draws ft v s⟩
  · rw [rowWritten_regs, if_pos hmore]
  · rw [rowWritten_eng, if_pos hmore]
  · exact (readReg_rowWritten_complete ft v s hfull fun he => absurd he (by decide)).trans (if_pos rfl)
  · obtain ⟨hlen, hstatus⟩ : off ≠ 0x64#8 ∧ off ≠ 0x08#8 := by simpa using ho
    exact (readReg_rowWritten_complete ft v s hfull fun he => absurd he hstatus).trans (if_neg hlen)
  · exact (readReg_rowWritten_complete ft v s hfull fun _ => hrows).trans (if_neg (by decide))
  · rw [rowWritten_eng, if_neg hfull.not_gt, if_pos hrows]
  · rw [rowWritten_regs, rowWritten_eng, if_neg hfull.not_gt, if_neg hlast.not_gt, if_neg hfull.not_gt, if_neg hlast.not_gt]
    exact ⟨rfl, rfl, rfl, rfl, rfl⟩

/-- A row's byte that the platform lets the engine write is written. -/
theorem writeRowByte_spec {ft g v : Byte} {i : Nat} {s : State} (hp : s.eng.phase = .rowByte g i)
    (hw : Writable s (s.regs.reconBase.toNat + s.eng.row * rb s + i)) :
    ∃ t, writeRowByte ft v s = .next t ∧ RowWritten ft v i s t := by
  have hi := rowIndex_rowByte hp
  exact ⟨_, writeRowByte_ok (by rwa [hi]), rowWritten_spec hi⟩

/-! ## Bytes modulo 256 -/

theorem ofNat_toNat_add_toNat_mod (x y : Byte) : BitVec.ofNat 8 ((x.toNat + y.toNat) % 256) = x + y := by
  apply BitVec.eq_of_toNat_eq
  simp

/-- R501: the sum is halved before it is cut to a byte. -/
theorem toNat_average (a b : Byte) : (average a b).toNat = (a.toNat + b.toNat) / 2 :=
  toNat_ofNat_of_lt (by have := a.isLt; have := b.isLt; omega)

/-- Settles O52: each row's operands, then the byte it writes. -/
theorem filtersReconstruct : Obligations.FiltersReconstruct := by
  unfold Obligations.FiltersReconstruct
  intro s ft i x a b c hp hw hbyte
  have hx : filtX s = .ok x := (filtX_rowByte hp).trans hbyte
  simp only [← toNat_average, ofNat_toNat_add_toNat_mod]
  refine ⟨?_, fun ha0 ha => ?_, fun hb0 hb => ⟨?_, fun ha0 ha => ⟨?_, fun hc0 hc => ?_⟩⟩⟩
  · rw [exec_filtNone hx]
    exact writeRowByte_spec hp hw
  · rw [exec_filtSub hx (filtA_ok hp ha0 ha)]
    exact writeRowByte_spec hp hw
  · rw [exec_filtUp hx (filtB_ok hp hb0 hb)]
    exact writeRowByte_spec hp hw
  · rw [exec_filtAvg hx (filtA_ok hp ha0 ha) (filtB_ok hp hb0 hb)]
    exact writeRowByte_spec hp hw
  · rw [exec_filtPaeth hx (filtA_ok hp ha0 ha) (filtB_ok hp hb0 hb) (filtC_ok hp hc0 hc)]
    exact writeRowByte_spec hp hw

/-! ## The round trip (R506) -/

/-- Filtering subtracts the predictor, and reconstruction adds it again. -/
theorem filtered_add_predictor (raw p : Byte) : BitVec.ofNat 8 (raw.toNat + 256 - p.toNat) + p = raw := by
  bv_omega

/-- Settles O54: the reconstructed neighbours are the raw ones, so the row adds the predictor that filtering subtracted. -/
theorem roundTripByte : Obligations.RoundTripByte := by
  unfold Obligations.RoundTripByte
  intro s ft i raw a b c hft hp hrow habove ha hb hc hbyte hw
  have hpos := bpp_pos s
  have hx : filtX s = .ok _ := (filtX_rowByte hp).trans hbyte
  have hA : filtA s = .ok a := filtA_ok hp (fun h => ha.trans (if_pos h)) fun h => by
    rw [ha, if_neg h.not_gt, Nat.add_sub_assoc h]
    exact hrow _ (by omega)
  have hB : filtB s = .ok b := filtB_ok hp (fun h => hb.trans (if_pos h)) fun h => by
    rw [hb, if_neg (by omega)]
    exact habove h i le_rfl
  have hC : filtC s = .ok c := filtC_ok hp (fun h => hc.trans (if_pos h)) fun h hl => by
    rw [hc, if_neg (by omega), Nat.add_sub_assoc hl]
    exact habove h _ (Nat.sub_le _ _)
  rw [exec_instrOfFilter hft hx hA hB hC, filtered_add_predictor]
  obtain ⟨t, hexec, hwritten, -⟩ := writeRowByte_spec hp hw
  exact ⟨t, hexec, hwritten⟩

end Sys2Proof.Machine
end

section
/-! The Paeth predictor (R502): the nearest of three bytes to a + b - c, and which of them it is on a tie. -/

namespace Sys2Proof.Machine

section
variable {a b c : Byte} {p : Int}

/-- The predictor's distances are those of the integers. -/
theorem paeth_eq (hp : p = (a.toNat : Int) + b.toNat - c.toNat) : paeth a b c =
    if |p - a.toNat| ≤ |p - b.toNat| ∧ |p - a.toNat| ≤ |p - c.toNat| then a
    else if |p - b.toNat| ≤ |p - c.toNat| then b else c := by
  subst hp
  simp only [Int.abs_eq_natAbs, Nat.cast_le]
  rfl

theorem paeth_eq_left (hp : p = (a.toNat : Int) + b.toNat - c.toNat) (hab : |p - a.toNat| ≤ |p - b.toNat|)
    (hac : |p - a.toNat| ≤ |p - c.toNat|) : paeth a b c = a := by
  rw [paeth_eq hp, if_pos ⟨hab, hac⟩]

theorem paeth_eq_above (hp : p = (a.toNat : Int) + b.toNat - c.toNat) (hba : |p - b.toNat| < |p - a.toNat|)
    (hbc : |p - b.toNat| ≤ |p - c.toNat|) : paeth a b c = b := by
  rw [paeth_eq hp, if_neg fun h => hba.not_ge h.1, if_pos hbc]

/-- Which neighbour the predictor is, and by what distances: a tie goes to a before b, and to b before c. -/
theorem paeth_cases (hp : p = (a.toNat : Int) + b.toNat - c.toNat) :
    (paeth a b c = a ∧ |p - a.toNat| ≤ |p - b.toNat| ∧ |p - a.toNat| ≤ |p - c.toNat|) ∨
      (paeth a b c = b ∧ |p - b.toNat| < |p - a.toNat| ∧ |p - b.toNat| ≤ |p - c.toNat|) ∨
      (paeth a b c = c ∧ |p - c.toNat| < |p - a.toNat| ∧ |p - c.toNat| < |p - b.toNat|) := by
  rw [paeth_eq hp]
  split_ifs with hleft habove
  · exact .inl ⟨rfl, hleft⟩
  · exact .inr (.inl ⟨rfl, lt_of_not_ge fun hab => hleft ⟨hab, hab.trans habove⟩, habove⟩)
  · have hcb := not_le.1 habove
    exact .inr (.inr ⟨rfl, lt_of_not_ge fun hac => hleft ⟨hac.trans hcb.le, hac⟩, hcb⟩)

theorem paeth_mem (a b c : Byte) : paeth a b c = a ∨ paeth a b c = b ∨ paeth a b c = c :=
  (paeth_cases rfl).imp And.left (Or.imp And.left And.left)

/-- No neighbour is nearer to the estimate than the predictor. -/
theorem paeth_nearest (hp : p = (a.toNat : Int) + b.toNat - c.toNat) :
    ∀ q ∈ [a, b, c], |p - (paeth a b c).toNat| ≤ |p - q.toNat| := by
  simp only [List.forall_mem_cons, List.not_mem_nil, false_imp_iff, implies_true, and_true]
  rcases paeth_cases hp with ⟨h, hab, hac⟩ | ⟨h, hba, hbc⟩ | ⟨h, hca, hcb⟩ <;> rw [h]
  · exact ⟨le_rfl, hab, hac⟩
  · exact ⟨hba.le, le_rfl, hbc⟩
  · exact ⟨hca.le, hcb.le, le_rfl⟩

/-- A neighbour that the estimate hits is the predictor. -/
theorem paeth_eq_of_estimate {q : Byte} (hq : q ∈ [a, b, c]) (h : (q.toNat : Int) = (a.toNat : Int) + b.toNat - c.toNat) :
    paeth a b c = q := by
  have hle := paeth_nearest h q hq
  rw [sub_self, abs_zero, abs_nonpos_iff, sub_eq_zero, Nat.cast_inj] at hle
  exact (BitVec.eq_of_toNat_eq hle).symm

end

/-- Settles O53: the cases of the predictor, the estimate where two neighbours are 0, and the average. -/
theorem paethPredictor : Obligations.PaethPredictor := by
  unfold Obligations.PaethPredictor
  exact ⟨fun a b c p hp => ⟨paeth_mem a b c, paeth_nearest hp, paeth_eq_left hp, paeth_eq_above hp⟩,
    fun a => paeth_eq_of_estimate (by simp) (by simp), fun b => paeth_eq_of_estimate (by simp) (by simp), toNat_average⟩

end Sys2Proof.Machine
end

section
/-! What an error records (R541 to R543): the fields of ERR_CODE, and with them error entry from any state. -/

namespace Sys2Proof.Machine

/-! ## The fields of ERR_CODE (R542) -/

theorem ErrorKind.code_range (k : ErrorKind) : 1 ≤ k.code ∧ k.code ≤ 23 := by
  cases k <;> decide

/-- R543 gives every error of the table one of the classes 1 to 6. -/
theorem ErrorKind.classOfCode_code (k : ErrorKind) : classOfCode k.code =
    if k.code ≤ 6 then 1 else if k.code ≤ 9 then 2 else if k.code ≤ 15 then 3 else if k.code ≤ 17 then 4
      else if k.code ≤ 19 then 5 else 6 :=
  if_neg (Nat.ne_of_gt k.code_range.1)

theorem classOfCode_le (code : Nat) : classOfCode code ≤ 6 := by
  unfold classOfCode
  split_ifs <;> omega

section
variable {e : RunError} (h : e.sub < 256)
include h

theorem RunError.toNat_codeWord : e.codeWord.toNat = e.kind.code + classOfCode e.kind.code * 256 + e.sub * 65536 := by
  have hcode := e.kind.code_range
  have hclass := classOfCode_le e.kind.code
  exact toNat_ofNat_of_lt (by omega)

/-- The code, its class and the SUB lie side by side, with zeros between. -/
theorem RunError.codeWord_fields :
    (e.codeWord.extractLsb' 0 8).toNat = e.kind.code ∧ (e.codeWord.extractLsb' 8 4).toNat = classOfCode e.kind.code ∧
      e.codeWord.extractLsb' 12 4 = 0#4 ∧ (e.codeWord.extractLsb' 16 8).toNat = e.sub ∧ e.codeWord.extractLsb' 24 8 = 0#8 := by
  have hcode := e.kind.code_range
  have hclass := classOfCode_le e.kind.code
  simp only [← BitVec.toNat_inj, BitVec.extractLsb'_toNat, BitVec.toNat_ofNat, Nat.shiftRight_eq_div_pow, toNat_codeWord h]
  omega

end

/-- Settles O11: the fields of the ERR_CODE word, error entry (`raise_errorEntry`), and ERR on the interrupt line. -/
theorem raiseRecords : Obligations.RaiseRecords := by
  unfold Obligations.RaiseRecords
  intro e s hsub
  have hentry := raise_errorEntry e s
  obtain ⟨hcode, hclass, hgap, hsub', htop⟩ := e.codeWord_fields hsub
  rw [hentry.1, ← e.kind.classOfCode_code]
  exact ⟨hcode, e.kind.code_range.1, e.kind.code_range.2, hclass, hgap, hsub', htop, hentry, fun hq => by simp [irqLine, hq]⟩

end Sys2Proof.Machine
end

section
/-! Engine accesses the platform fails (R583, R567): the reader or writer that meets one raises BusError, and the run ends there. -/

namespace Sys2Proof.Machine

/-! ## A failed access -/

/-- The answer `r` ends the run, from `s`, with BusError at address `a`; ERR_AUX is `aux`, 0 for a read and 1 for a write (R567). -/
def EndsInBusError (a aux : Nat) (s : State) (r : Result) : Prop :=
  ∃ t, r = .next t ∧ ErrorEntry 0x00000617#32 a aux s t

/-- What a reader or writer answers at a failed access. -/
abbrev busError (a aux : Nat) : Stop := .raise ⟨.busError, 0, a, aux⟩

theorem busWrite_fails {s : State} {a : Nat} (h : Fails s .write a) (b : Byte) : busWrite s a b = .error (busError a 1) := by
  obtain ⟨hlt, hf⟩ := h
  rw [busWrite, busCheck, if_neg (Nat.not_le.2 hlt), if_pos hf]
  rfl

section
variable {s : State} {a aux : Nat} {α : Type} {r : Except Stop α}

theorem codeWord_busError (a aux : Nat) : (RunError.mk .busError 0 a aux).codeWord = 0x00000617#32 :=
  (codeWord_mk .busError 0 a aux).trans (by decide)

/-- An access that fails inside a row that has set fields of the engine (`u`). -/
theorem withVal_busError (hr : r = .error (busError a aux)) (s : State) (u : Engine) (k : α → Result) :
    EndsInBusError a aux s (withVal r { s with eng := u } k) := by
  have h := withVal_answers hr s u k
  rwa [codeWord_busError] at h

/-- An access that fails on the way to the next instruction. -/
theorem fetchVal_busError (hr : r = .error (busError a aux)) (s : State) (k : α → Fetched) :
    EndsInBusError a aux s (fetchVal r s k).result := by
  have h := fetchVal_answers hr s k
  rwa [codeWord_busError] at h

end

/-- R431: the write of a byte that has room but fails, in a row that has set fields of the engine (`u`) other than the output count. -/
theorem emit_busError {b : Byte} {s : State} {u : Engine} {k : State → Result} (hu : u.out = s.eng.out)
    (hroom : s.eng.out < s.regs.inflCap.toNat) (hw : Fails s .write (s.regs.inflBase.toNat + s.eng.out)) :
    EndsInBusError (s.regs.inflBase.toNat + s.eng.out) 1 s (emit b { s with eng := u } k) := by
  unfold emit
  rw [hu, if_neg hroom.not_ge]
  exact withVal_busError (busWrite_fails (s := { s with eng := u }) hw b) s u _

/-! ## Bytes of IN up to the failed one -/

/-- The bytes of IN from offset `base` on can be read, up to byte `k`, which stops the reader with `e`. -/
structure StopsIn (s : State) (base k : Nat) (f : Nat → Byte) (e : Stop) : Prop where
  read : InBytes s base k f
  stop : inByte s (base + k) = .error e

theorem StopsIn.of_fails {s : State} {base k a : Nat} {f : Nat → Byte} (hf : InBytes s base k f) (h : Fails s .read a)
    (ha : s.regs.inBase.toNat + (base + k) = a) : StopsIn s base k f (busError a 0) :=
  ⟨hf, (congrArg (busRead s) ha).trans (busRead_fails h)⟩

section
variable {s : State} {base k : Nat} {f : Nat → Byte} {e : Stop} (h : StopsIn s base k f e)
include h

/-- A big-endian number that the failed byte lies in. -/
theorem StopsIn.be32 {j : Nat} (hj : j ≤ k) (hk : k < j + 4) : inBe32 s (base + j) = .error e := by
  obtain ⟨i, rfl⟩ := Nat.exists_eq_add_of_le hj
  refine be32From_stop (k := i) (by omega) (fun m hm => ?_) ?_
  · rw [Nat.add_assoc]
    exact ⟨_, h.read (j + m) (by omega)⟩
  · rw [Nat.add_assoc]
    exact h.stop

/-- The CRC over a range that the failed byte lies in (R250). -/
theorem StopsIn.crcOver {n : Nat} (hk : k < n) (c : Word) : crcOver s n base c = .error e := by
  induction n generalizing base k f c with
  | zero => omega
  | succ n ih =>
    obtain ⟨hread, hstop⟩ := h
    cases k with
    | zero => rw [Machine.crcOver, show inByte s base = .error e from hstop]
    | succ k =>
      have hrest : StopsIn s (base + 1) k (fun j => f (j + 1)) e :=
        ⟨fun j hj => by rw [Nat.add_right_comm]; exact hread (j + 1) (by omega), by rw [Nat.add_right_comm]; exact hstop⟩
      rw [Machine.crcOver, show inByte s base = .ok (f 0) from hread 0 (by omega)]
      exact ih hrest (by omega) _

end

section
variable {s : State} {base k a : Nat} {f : Nat → Byte} (h : StopsIn s base k f (busError a 0))
include h

/-- A number of IN that does not fail leaves the failed byte behind it. -/
theorem StopsIn.withVal_be32 {j : Nat} (hj : j ≤ k) {rest : Nat → Result}
    (hrest : ∀ v, j + 4 ≤ k → EndsInBusError a 0 s (rest v)) : EndsInBusError a 0 s (withVal (inBe32 s (base + j)) s rest) := by
  by_cases hk : k < j + 4
  · exact withVal_busError (h.be32 hj hk) s s.eng rest
  · rw [h.read.be32 (Nat.not_lt.1 hk), withVal_ok]
    exact hrest _ (Nat.not_lt.1 hk)

/-- A byte of IN that does not fail leaves the failed byte behind it. -/
theorem StopsIn.withVal_byte {j : Nat} (hj : j ≤ k) {rest : Byte → Result}
    (hrest : ∀ v, j + 1 ≤ k → EndsInBusError a 0 s (rest v)) : EndsInBusError a 0 s (withVal (inByte s (base + j)) s rest) := by
  rcases hj.eq_or_lt with rfl | hk
  · exact withVal_busError h.stop s s.eng rest
  · rw [h.read j hk, withVal_ok]
    exact hrest _ hk

end

/-! ## Signature and chunks -/

/-- The comparison of the signature reaches the first byte that cannot be read (R252). -/
theorem checkSignature_stop {s : State} {i : Nat} {f : Nat → Byte} {e : Stop} (hi : i < 8) (hl : i < s.regs.inLen.toNat)
    (h : StopsIn s 0 i f e) (hsig : bytesOf i f = sigBytes.take i) : checkSignature s sigBytes 0 = .error e := by
  obtain ⟨hread, hstop⟩ := h
  have hskip := checkSignature_append (s := s) (sigBytes.drop i) (i := 0) (pre := bytesOf i f) fun k b hk => by
    obtain ⟨hki, rfl⟩ : k < i ∧ f k = b := by simpa [bytesOf] using List.getElem?_eq_some_iff.1 hk
    exact ⟨by omega, hread k hki⟩
  have hi' : i < sigBytes.length := hi
  have hlen : (bytesOf i f).length = i := by simp [bytesOf]
  rw [hlen, hsig, List.take_append_drop] at hskip
  rw [hskip, List.drop_eq_getElem_cons hi', checkSignature, if_neg (by omega), hstop]

/-- A chunk's length or type (R253, R254). -/
theorem fetchChunk_busError {s : State} {f : Nat → Byte} {k a : Nat} (hroom : s.eng.p + 8 ≤ s.regs.inLen.toNat) (hk : k < 8)
    (h : StopsIn s s.eng.p k f (busError a 0)) : EndsInBusError a 0 s (fetchChunk s).result := by
  unfold fetchChunk
  rw [if_neg (by omega), if_neg (by omega)]
  by_cases h4 : k < 4
  · exact fetchVal_busError (h.be32 (j := 0) (Nat.zero_le k) (by omega)) s _
  · rw [show inBe32 s s.eng.p = .ok (be32At f 0) from h.read.be32 (k := 0) (by omega), fetchVal_ok]
    exact fetchVal_busError (h.be32 (Nat.not_lt.1 h4) hk) s _

section
variable {s : State} {f : Nat → Byte} {len typ : Word} {k a : Nat} (next : State → Result)
  (hr : s.eng.p + 12 + len.toNat ≤ s.regs.inLen.toNat) (h : StopsIn s (s.eng.p + 4) k f (busError a 0))
include hr h

/-- A chunk's type or data under the CRC: nothing is written yet (R255). -/
theorem readChunk_busError_data (hk : k < 4 + len.toNat) : EndsInBusError a 0 s (readChunk len typ next s) := by
  unfold readChunk
  simp only
  rw [if_neg (by omega)]
  exact withVal_busError (h.crcOver hk crcInit) s s.eng _

/-- A chunk's stored CRC: CRC_RESULT already holds the computed one (R255). -/
theorem readChunk_busError_crc (hdata : 4 + len.toNat ≤ k) (hk : k < 8 + len.toNat) :
    EndsInBusError a 0 { s with regs := { s.regs with crcResult := crc32 (bytesOf (4 + len.toNat) f) } }
      (readChunk len typ next s) := by
  have hcrc : crcOver s (4 + len.toNat) (s.eng.p + 4) crcInit = .ok ((bytesOf (4 + len.toNat) f).foldl crcByte crcInit) :=
    crcOver_ok (fun j hj => h.read j (by omega)) crcInit
  have hstored : inBe32 s (s.eng.p + 8 + len.toNat) = .error (busError a 0) := by
    rw [show s.eng.p + 8 + len.toNat = s.eng.p + 4 + (4 + len.toNat) by omega]
    exact h.be32 hdata (by omega)
  unfold readChunk
  simp only
  rw [if_neg (by omega), hcrc, withVal_ok]
  exact withVal_busError hstored { s with regs := { s.regs with crcResult := crc32 (bytesOf (4 + len.toNat) f) } } _ _

end

/-- A byte of the header's data, field after field (R261). -/
theorem checkHeader_busError {s : State} {f : Nat → Byte} {p k a : Nat} (hp : headerOff s = p) (hk : k < 13)
    (h : StopsIn s (p + 8) k f (busError a 0)) : EndsInBusError a 0 s (checkHeader 13#32 s) := by
  subst hp
  rw [checkHeader, if_neg (not_not_intro rfl)]
  refine h.withVal_be32 (j := 0) (by omega) fun w hw => h.withVal_be32 (j := 4) hw fun ht hht => ?_
  refine h.withVal_byte (j := 8) hht fun bd hbd => h.withVal_byte (j := 9) hbd fun ct hct => ?_
  refine h.withVal_byte (j := 10) hct fun cm hcm => h.withVal_byte (j := 11) hcm fun fm hfm => ?_
  exact h.withVal_byte (j := 12) hfm fun im him => absurd hk him.not_gt

/-! ## Output, rows and the bytes of a row -/

/-- Where byte `j` of the unfilterer's input lies in memory (R207, R209). -/
theorem filteredByte_eq (s : State) (j : Nat) : filteredByte s j =
    busRead s ((if s.regs.mode = 0#3 then s.regs.inflBase.toNat else s.regs.inBase.toNat) + j) := by
  simp only [filteredByte, isFull_iff]

/-- The filter byte of a row that the input holds (R495). -/
theorem fetchRow_busError {s : State} {a : Nat} (hroom : (s.eng.row + 1) * stride s ≤ filteredLen s)
    (h : filteredByte s (s.eng.row * stride s) = .error (busError a 0)) : EndsInBusError a 0 s (fetchRow s).result := by
  rw [Nat.add_mul] at hroom
  unfold fetchRow
  simp only
  rw [if_neg (by omega)]
  exact fetchVal_busError h s _

section
variable {s : State} {ft : Byte} {i : Nat} {e : Stop} (hp : s.eng.phase = .rowByte ft i)
include hp

theorem filtA_stop (hi : bpp s ≤ i) (h : reconByte s (s.eng.row * rb s + i - bpp s) = .error e) : filtA s = .error e := by
  rw [filtA, rowIndex_rowByte hp, if_pos hi, h]

theorem filtB_stop (hr : 1 ≤ s.eng.row) (h : reconByte s ((s.eng.row - 1) * rb s + i) = .error e) : filtB s = .error e := by
  rw [filtB, rowIndex_rowByte hp, if_pos hr, h]

theorem filtC_stop (hr : 1 ≤ s.eng.row) (hi : bpp s ≤ i) (h : reconByte s ((s.eng.row - 1) * rb s + i - bpp s) = .error e) :
    filtC s = .error e := by
  rw [filtC, rowIndex_rowByte hp, if_pos ⟨hr, hi⟩, h]

/-- R503: a row that comes to write its byte. -/
theorem exec_busError_write {j : Instr} {g v : Byte} (hj : exec j s = writeRowByte g v s)
    (hw : Fails s .write (s.regs.reconBase.toNat + s.eng.row * rb s + i)) :
    EndsInBusError (s.regs.reconBase.toNat + s.eng.row * rb s + i) 1 s (exec j s) := by
  rw [hj, writeRowByte, rowIndex_rowByte hp]
  exact withVal_busError (busWrite_fails hw v) s s.eng _

end

/-! ## The order of a filter's reads (R498 to R502; log 13) -/

/-- Every filter reads x first. -/
theorem exec_filter_reads_x (s : State) : ∀ j ∈ [Instr.filtNone, .filtSub, .filtUp, .filtAvg, .filtPaeth],
    ∃ k, exec j s = withVal (filtX s) s k := by
  simp only [List.forall_mem_cons, List.not_mem_nil, false_imp_iff, implies_true, and_true]
  exact ⟨⟨_, rfl⟩, ⟨_, rfl⟩, ⟨_, rfl⟩, ⟨_, rfl⟩, ⟨_, rfl⟩⟩

/-- Sub, Average and Paeth read a behind x. -/
theorem exec_filter_reads_a {s : State} {x : Byte} (hx : filtX s = .ok x) : ∀ j ∈ [Instr.filtSub, .filtAvg, .filtPaeth],
    ∃ k, exec j s = withVal (filtA s) s k := by
  simp only [List.forall_mem_cons, List.not_mem_nil, false_imp_iff, implies_true, and_true, exec, execFiltSub, execFiltAvg,
    execFiltPaeth, hx, withVal_ok]
  exact ⟨⟨_, rfl⟩, ⟨_, rfl⟩, ⟨_, rfl⟩⟩

/-- Average and Paeth read b behind a. -/
theorem exec_filter_reads_b {s : State} {x a : Byte} (hx : filtX s = .ok x) (ha : filtA s = .ok a) :
    ∀ j ∈ [Instr.filtAvg, .filtPaeth], ∃ k, exec j s = withVal (filtB s) s k := by
  simp only [List.forall_mem_cons, List.not_mem_nil, false_imp_iff, implies_true, and_true, exec, execFiltAvg, execFiltPaeth, hx,
    ha, withVal_ok]
  exact ⟨⟨_, rfl⟩, ⟨_, rfl⟩⟩

/-- Up reads b behind x. -/
theorem exec_filtUp_reads_b {s : State} {x : Byte} (hx : filtX s = .ok x) :
    exec .filtUp s = withVal (filtB s) s fun b => writeRowByte 2#8 (x + b) s := by
  rw [exec, execFiltUp, hx, withVal_ok]

/-- Paeth reads c last. -/
theorem exec_filtPaeth_reads_c {s : State} {x a b : Byte} (hx : filtX s = .ok x) (ha : filtA s = .ok a) (hb : filtB s = .ok b) :
    exec .filtPaeth s = withVal (filtC s) s fun c => writeRowByte 4#8 (x + paeth a b c) s := by
  rw [exec, execFiltPaeth, hx, withVal_ok, ha, withVal_ok, hb, withVal_ok]

/-- A row whose next read fails. -/
theorem exec_busError_read {s : State} {j : Instr} {r : Except Stop Byte} {a : Nat} (hj : ∃ k, exec j s = withVal r s k)
    (h : r = .error (busError a 0)) : EndsInBusError a 0 s (exec j s) := by
  obtain ⟨k, hk⟩ := hj
  rw [hk]
  exact withVal_busError h s s.eng k

/-- Settles O13, access by access: each is the failed one of its step's reads and writes, in the model's order. -/
theorem busErrorAccess : Obligations.BusErrorAccess := by
  unfold Obligations.BusErrorAccess
  refine ⟨fun s f i hi hl hf hsig hfail => ?_, fun z s f k ht hp hroom hk hf hfail => ?_,
    fun len typ s f k hp hr hk hf hfail => ?_, fun s f k h hp hkey hk hf hfail => ?_, fun z s f k ht hp hk hf hfail => ?_,
    fun i b s hi hroom hfail => ?_, fun z s n k b ht hp hbit hk hb hroom hfail => ?_,
    fun z s n d ht hp => ⟨fun hfail => ?_, fun hread hroom hfail => ?_⟩, fun z s a ht hp hroom ha hfail => ?_,
    fun s ft i ax aa ab ac aw x a b c hp hax haa hab hac haw => ?_⟩
  · have hstop : StopsIn (s.atStage .signature) 0 i f (busError (s.regs.inBase.toNat + i) 0) :=
      .of_fails hf hfail (by rw [Nat.zero_add]; rfl)
    exact withVal_busError (checkSignature_stop (s := s.atStage .signature) hi hl hstop hsig) (s.atStage .signature) s.eng _
  · rw [step_engine ht, enginePhase, hp]
    exact fetchChunk_busError hroom hk (.of_fails hf hfail rfl)
  · rw [exec_chunk len typ hp]
    split
    next hdata => exact readChunk_busError_data _ hr (.of_fails hf hfail rfl) hdata
    next hcrc => exact readChunk_busError_crc _ hr (.of_fails hf hfail rfl) (Nat.not_lt.1 hcrc) hk
  · rw [exec_chunkIhdr_header _ hp]
    exact checkHeader_busError (headerOff_eq hkey) hk (.of_fails hf hfail rfl)
  · have hstop : StopsIn s 0 k f (busError (s.regs.inBase.toNat + k) 0) := .of_fails hf hfail (by rw [Nat.zero_add])
    rw [step_engine ht, enginePhase, hp]
    exact withVal_busError (hstop.crcOver hk crcInit) s s.eng _
  · have hrow : exec i s = literal b s := by rcases hi with rfl | rfl | rfl <;> rfl
    rw [hrow]
    exact emit_busError (u := s.eng) rfl hroom hfail
  · rw [step_engine ht, enginePhase, hp]
    simp only [Fetched.result, storedStep, hbit, readBits_streamByte hb hk, withVal_ok]
    exact emit_busError rfl hroom hfail
  · rw [step_engine ht, enginePhase, hp]
    exact withVal_busError (busRead_fails hfail) s s.eng _
  · rw [step_copy ht hp (busRead_ok.2 ⟨hread, rfl⟩)]
    exact emit_busError rfl hroom hfail
  · rw [step_engine ht, enginePhase, hp]
    exact fetchRow_busError hroom (by rw [filteredByte_eq, ← ha]; exact busRead_fails hfail)
  · subst hax haa hab hac haw
    have hxstop (hfail : Fails s .read _) := (filtX_rowByte hp).trans ((filteredByte_eq s _).trans (busRead_fails hfail))
    refine ⟨fun hfail j hj => ?_, fun hx hi hfail j hj => ?_, fun hx hr hfail => ⟨?_, fun ha j hj => ?_⟩,
      fun hx ha hb hr hi hfail => ?_, fun hx hfail => ⟨?_, fun ha => ?_, fun hb => ?_, fun ha hb => ?_, fun ha hb hc => ?_⟩⟩
    · exact exec_busError_read (exec_filter_reads_x s j hj) (hxstop hfail)
    · exact exec_busError_read (exec_filter_reads_a hx j hj) (filtA_stop hp hi (busRead_fails hfail))
    · exact exec_busError_read ⟨_, exec_filtUp_reads_b hx⟩ (filtB_stop hp hr (busRead_fails hfail))
    · exact exec_busError_read (exec_filter_reads_b hx ha j hj) (filtB_stop hp hr (busRead_fails hfail))
    · exact exec_busError_read ⟨_, exec_filtPaeth_reads_c hx ha hb⟩ (filtC_stop hp hr hi (busRead_fails hfail))
    · exact exec_busError_write hp (exec_filtNone hx) hfail
    · exact exec_busError_write hp (exec_filtSub hx ha) hfail
    · exact exec_busError_write hp (exec_filtUp hx hb) hfail
    · exact exec_busError_write hp (exec_filtAvg hx ha hb) hfail
    · exact exec_busError_write hp (exec_filtPaeth hx ha hb hc) hfail

end Sys2Proof.Machine
end

section
/-! The platform's reset from any state (70_reset_and_hazards.md R600 to R602). -/

namespace Sys2Proof.Machine

/-- R602: a reset keeps a byte while idle, and during a run a byte outside the regions the mode writes (R115). -/
theorem resetMachine_next (s : State) :
    ∃ t, resetMachine s = .next t ∧ t.regs = Regs.reset ∧ t.eng = Engine.reset ∧ t.host = s.host ∧ t.plat = s.plat ∧
      ∀ a, s.regs.busy = false ∨ Outside s.regs.outputs a → t.byteAt a = s.byteAt a := by
  refine ⟨_, rfl, rfl, rfl, ?_⟩
  cases hb : s.regs.busy with
  | true => exact ⟨havocOutputs_host s, havocOutputs_plat s, fun a h => havocOutputs_byteAt (h.resolve_left Bool.noConfusion)⟩
  | false => exact ⟨rfl, rfl, fun _ _ => rfl⟩

/-- Settles O2: the step is `resetMachine` on the list without its head, and its registers and engine are those of the reset state. -/
theorem resetFromAnyState : Obligations.ResetFromAnyState := by
  unfold Obligations.ResetFromAnyState
  intro s rest hh
  obtain ⟨t, ht, hregs, heng, hhost, hplat, hbytes⟩ := resetMachine_next { s with host := rest }
  have hstep : step s = .next t := by rw [step_host hh, ← ht]; rfl
  exact ⟨t, hstep, fun off => by rw [hregs]; rfl, by rw [irqLine, hregs]; rfl, by rw [heng]; rfl, by rw [heng]; rfl,
    hhost, hplat, hbytes⟩

end Sys2Proof.Machine
end
